-- ==== Sys2Proof/Word.lean ====
section
/-! DEFINITION. The widths the spec names (00_scope.md R12) and the two forms of a field symbol (R16). -/

namespace Sys2Proof

/-- R12 `u8`. -/
abbrev Byte := BitVec 8

/-- R12 `u16`. -/
abbrev Half := BitVec 16

/-- R12 `u24`: a size tag. -/
abbrev Tag := BitVec 24

/-- R12 `u32`: a command word, a register as the bus sees it. -/
abbrev Word := BitVec 32

/-- R16 "poly form": a field element, an MM-bit symbol in a byte (R120). -/
abbrev Elem := BitVec 8

/-- R16 "index form": the logarithm of a field element, with `nn` standing for the logarithm of zero (R15).
A type of its own, so that the two forms cannot be mixed. -/
structure LogSym where
  val : BitVec 8
deriving DecidableEq, Repr

/-- The number a logarithm stands for. -/
abbrev LogSym.toNat (l : LogSym) : Nat := l.val.toNat

/-- R18, R43, R230: a control-block slot, and the size class that uses it (R231). -/
abbrev SlotId := Fin 7

end Sys2Proof
end

