-- ==== Sys2Proof/Config.lean ====
section
/-! DEFINITION. What an implementation fixes: the parameters of 00_scope.md R9 as plain data, and the free values, each
an opaque constant of which nothing can be proved.

The parameters stand in a field of State because a step has no other argument (log 1, DESIGN CHOICE, safe). No step
changes them. -/

namespace Sys2Proof

/-- R47, U1: what a read of a buffer byte never written since reset does (log 4). -/
inductive UnwrittenRead where
  /-- "fault (recommended)". -/
  | fault
  /-- "a free draw if the model is configured so". -/
  | draw
deriving DecidableEq, Repr

/-- R9, R177: DECODE_BEYOND_BOUND (log 6). -/
inductive BeyondBound where
  /-- The algorithm of 41_rs.md, the default. -/
  | exact
  /-- A draw constrained as R177 says. -/
  | free
deriving DecidableEq, Repr

/-- The parameters of R9 (CMD_LATENCY is `Config.cmdLatency` below, log 5). -/
structure Params where
  /-- BASE_ADDR, a multiple of 0x4000 (R9, R60). -/
  baseAddr : Nat
  /-- CRC_INIT (R9, R201). -/
  crcInit : Half
  /-- CCSDS_TABLE[0..254] (R9, R46, R212). -/
  ccsdsTable : Vector Byte 255
  /-- SIZE_TAG[0..6] (R9, R10, R46). -/
  sizeTag : Vector Tag 7
  /-- DECODE_BEYOND_BOUND (R177). -/
  beyondBound : BeyondBound
  /-- The treatment of a never-written byte (R47). -/
  unwritten : UnwrittenRead
deriving DecidableEq, Repr

namespace Config

/-- BASE_ADDR is OPEN (R9, log 10): the base of the default parameters is 0x4000 times this. -/
opaque baseIndex : Nat

/-- SIZE_TAG[1..6] are OPEN (R9, N11, log 7): entry c of the default parameters, for c in 1..6. -/
opaque openSizeTag : Nat → BitVec 24

/-- What the buffer byte at a window offset holds before it is written, at the n-th draw of the unspecified contents
(R47, log 4): `unwrittenByte n offset`. -/
opaque unwrittenByte : Nat → Nat → BitVec 8

/-- CMD_LATENCY (R9, R282, log 5): how many host moves precede the completion of the command issued at a draw. -/
opaque cmdLatency : Nat → Nat

/-- The draws of DECODE_BEYOND_BOUND = free (R177, log 6): `decodeDraw n k` is item k of the n-th draw. -/
opaque decodeDraw : Nat → Nat → Nat

end Config

end Sys2Proof
end

