-- ==== Sys2Proof/Machine/Tables.lean ====
section
/-! DEFINITION. The fixed values of 00_scope.md R8 and the default parameters of R9. -/

namespace Sys2Proof.Machine

/-- A list with each element replaced by a function of its index, counted from `j`, and itself. -/
def mapFrom {α β : Type} (f : Nat → α → β) : Nat → List α → List β
  | _, [] => []
  | j, x :: xs => f j x :: mapFrom f (j + 1) xs

/-- A list with each element replaced by a function of its index and itself. -/
def mapIndexed {α β : Type} (l : List α) (f : Nat → α → β) : List β := mapFrom f 0 l

/-- R8 MAX_ROOTS. -/
def maxRoots : Nat := 64

/-- R8 TAG_TOL. -/
def tagTol : Nat := 6

/-- R8 GFPOLY_NGH. -/
def gfpolyNgh : Nat := 0x187

/-- R8 FCR_NGH. -/
def fcrNgh : Nat := 112

/-- R8 PRIM_NGH. -/
def primNgh : Nat := 11

/-- R8 PL[0..6], the payload sizes. -/
def payloadSizes : Vector Nat 7 := #v[28, 60, 92, 124, 156, 188, 220]

/-- R8 FULL[0..6], the sizes with CRC. -/
def fullSizes : Vector Nat 7 := #v[31, 63, 95, 127, 159, 191, 223]

/-- R8 PAR[0..6], the parity sizes. -/
def paritySizes : Vector Nat 7 := #v[16, 16, 16, 32, 32, 32, 32]

/-- R8 SWP[0..6], the sizes with parity. -/
def swpSizes : Vector Nat 7 := #v[47, 79, 111, 159, 191, 223, 255]

/-- R8 PADS[0..6], the RS padding. -/
def padSizes : Vector Nat 7 := #v[208, 176, 144, 96, 64, 32, 0]

/-- PL[c]. -/
def pl (c : SlotId) : Nat := payloadSizes[c]
/-- FULL[c]. -/
def full (c : SlotId) : Nat := fullSizes[c]
/-- PAR[c]. -/
def par (c : SlotId) : Nat := paritySizes[c]
/-- SWP[c]. -/
def swp (c : SlotId) : Nat := swpSizes[c]
/-- PADS[c]. -/
def pads (c : SlotId) : Nat := padSizes[c]

/-- R8, R250: NPRE_2L bytes PREAMBLE_2L, then SYNC_2L. -/
def header2Level : List Byte := List.replicate 4 0xAA ++ [0x5D, 0xE6, 0x2A, 0x7E]

/-- R8, R250: NPRE_4L bytes PREAMBLE_4L, then SYNC_4L. -/
def header4Level : List Byte :=
  List.replicate 8 0xDD ++ [0x77, 0xF7, 0xFD, 0x7D, 0x5D, 0xDD, 0x7F, 0xFD]

/-- R212, rows 0x00 to 0x30 of the default CCSDS_TABLE. -/
def ccsdsRowsA : List Byte :=
  [0xFF, 0x48, 0x0E, 0xC0, 0x9A, 0x0D, 0x70, 0xBC, 0x8E, 0x2C, 0x93, 0xAD, 0xA7, 0xB7, 0x46, 0xCE] ++
  [0x5A, 0x97, 0x7D, 0xCC, 0x32, 0xA2, 0xBF, 0x3E, 0x0A, 0x10, 0xF1, 0x88, 0x94, 0xCD, 0xEA, 0xB1] ++
  [0xFE, 0x90, 0x1D, 0x81, 0x34, 0x1A, 0xE1, 0x79, 0x1C, 0x59, 0x27, 0x5B, 0x4F, 0x6E, 0x8D, 0x9C] ++
  [0xB5, 0x2E, 0xFB, 0x98, 0x65, 0x45, 0x7E, 0x7C, 0x14, 0x21, 0xE3, 0x11, 0x29, 0x9B, 0xD5, 0x63]

/-- R212, rows 0x40 to 0x70. -/
def ccsdsRowsB : List Byte :=
  [0xFD, 0x20, 0x3B, 0x02, 0x68, 0x35, 0xC2, 0xF2, 0x38, 0xB2, 0x4E, 0xB6, 0x9E, 0xDD, 0x1B, 0x39] ++
  [0x6A, 0x5D, 0xF7, 0x30, 0xCA, 0x8A, 0xFC, 0xF8, 0x28, 0x43, 0xC6, 0x22, 0x53, 0x37, 0xAA, 0xC7] ++
  [0xFA, 0x40, 0x76, 0x04, 0xD0, 0x6B, 0x85, 0xE4, 0x71, 0x64, 0x9D, 0x6D, 0x3D, 0xBA, 0x36, 0x72] ++
  [0xD4, 0xBB, 0xEE, 0x61, 0x95, 0x15, 0xF9, 0xF0, 0x50, 0x87, 0x8C, 0x44, 0xA6, 0x6F, 0x55, 0x8F]

/-- R212, rows 0x80 to 0xB0. -/
def ccsdsRowsC : List Byte :=
  [0xF4, 0x80, 0xEC, 0x09, 0xA0, 0xD7, 0x0B, 0xC8, 0xE2, 0xC9, 0x3A, 0xDA, 0x7B, 0x74, 0x6C, 0xE5] ++
  [0xA9, 0x77, 0xDC, 0xC3, 0x2A, 0x2B, 0xF3, 0xE0, 0xA1, 0x0F, 0x18, 0x89, 0x4C, 0xDE, 0xAB, 0x1F] ++
  [0xE9, 0x01, 0xD8, 0x13, 0x41, 0xAE, 0x17, 0x91, 0xC5, 0x92, 0x75, 0xB4, 0xF6, 0xE8, 0xD9, 0xCB] ++
  [0x52, 0xEF, 0xB9, 0x86, 0x54, 0x57, 0xE7, 0xC1, 0x42, 0x1E, 0x31, 0x12, 0x99, 0xBD, 0x56, 0x3F]

/-- R212, rows 0xC0 to 0xF0 (entry 0xFF does not exist). -/
def ccsdsRowsD : List Byte :=
  [0xD2, 0x03, 0xB0, 0x26, 0x83, 0x5C, 0x2F, 0x23, 0x8B, 0x24, 0xEB, 0x69, 0xED, 0xD1, 0xB3, 0x96] ++
  [0xA5, 0xDF, 0x73, 0x0C, 0xA8, 0xAF, 0xCF, 0x82, 0x84, 0x3C, 0x62, 0x25, 0x33, 0x7A, 0xAC, 0x7F] ++
  [0xA4, 0x07, 0x60, 0x4D, 0x06, 0xB8, 0x5E, 0x47, 0x16, 0x49, 0xD6, 0xD3, 0xDB, 0xA3, 0x67, 0x2D] ++
  [0x4B, 0xBE, 0xE6, 0x19, 0x51, 0x5F, 0x9F, 0x05, 0x08, 0x78, 0xC4, 0x4A, 0x66, 0xF5, 0x58]

/-- The default CCSDS_TABLE (R212). Entry 0 is derived from the source; PRESUMED for entries 1..254, which the spec
takes from general knowledge (log 8). -/
def ccsdsDefaultTable : Vector Byte 255 :=
  ⟨(ccsdsRowsA ++ ccsdsRowsB ++ ccsdsRowsC ++ ccsdsRowsD).toArray, by decide +kernel⟩

/-- R212 `ccsds_default`: one step of the generator of the default sequence. -/
def ccsdsShift (r : Byte) : Byte :=
  (r >>> 1) ||| ((if (r[0] ^^ r[3] ^^ r[5] ^^ r[7]) then 1 else 0 : Byte) <<< 7)

/-- R212: eight bits of the sequence from register `r`, the first the most significant, and the register after them. -/
def ccsdsByte (r : Byte) : Byte × Byte :=
  (List.range 8).foldl (fun (acc : Byte × Byte) _ =>
    ((acc.1 <<< 1) ||| (if acc.2[0] then 1 else 0), ccsdsShift acc.2)) (0, r)

/-- R212: the first `n` bytes of the sequence from register `r`. -/
def ccsdsSequence : Nat → Byte → List Byte
  | 0, _ => []
  | n + 1, r => (ccsdsByte r).1 :: ccsdsSequence n (ccsdsByte r).2

/-- SIZE_TAG[0] (R9, from the source's regression frame). -/
def sizeTag0 : Tag := 0x3B49CD

/-- The default parameters (R9). DESIGN CHOICE: never-written bytes are drawn (log 4). -/
def defaultParams : Params where
  baseAddr := 0x4000 * Config.baseIndex
  crcInit := 0x0000
  ccsdsTable := ccsdsDefaultTable
  sizeTag := #v[sizeTag0, Config.openSizeTag 1, Config.openSizeTag 2, Config.openSizeTag 3,
    Config.openSizeTag 4, Config.openSizeTag 5, Config.openSizeTag 6]
  beyondBound := .exact
  unwritten := .draw

/-- `popcount` (R11): the number of 1 bits among the low `n` bits of a number. -/
def popcountLow (v : Nat) : Nat → Nat
  | 0 => 0
  | n + 1 => popcountLow v n + (v.testBit n).toNat

/-- R11 `popcount` of a 24-bit value. -/
def popcount (t : Tag) : Nat := popcountLow t.toNat 24

/-- R10: any two distinct entries of SIZE_TAG differ in more than 12 bit positions. A hypothesis on the parameter. -/
abbrev sizeTagsFarApart (p : Params) : Prop :=
  ∀ a b : SlotId, a ≠ b → 12 < popcount (p.sizeTag[a] ^^^ p.sizeTag[b])

/-- R9, R60: BASE_ADDR is a multiple of 0x4000. -/
abbrev baseAligned (p : Params) : Prop := p.baseAddr % 0x4000 = 0

/-- CCSDS_TABLE[i]. The table has entries 0..254; the rules ask for no other (R210), and the model reads 0 there
(log 12, DESIGN CHOICE, reached only from states no run reaches). -/
def scramblerByte (p : Params) (i : Nat) : Byte := if h : i < 255 then p.ccsdsTable[i] else 0

end Sys2Proof.Machine
end

