-- ==== Sys2Proof/Machine/Crc.lean ====
section
/-! DEFINITION. The CRC-16/CCITT step and fold (42_crc_scrambler.md R200, R201) and the scrambler mask (R210). -/

namespace Sys2Proof.Machine

/-- R200: one of the eight shifts. -/
def crcShift (crc : Half) : Half :=
  if crc.getLsbD 15 then (crc <<< 1) ^^^ 0x1021 else crc <<< 1

/-- R200: `n` shifts. -/
def crcShifts : Nat → Half → Half
  | 0, crc => crc
  | n + 1, crc => crcShifts n (crcShift crc)

/-- R200 `crc_byte(b, crc)`. -/
def crcByte (b : Byte) (crc : Half) : Half := crcShifts 8 (crc ^^^ (b.setWidth 16 <<< 8))

/-- R201 `crc_fold(init, d)`: the bytes in index order. -/
def crcFold (init : Half) (d : List Byte) : Half := d.foldl (fun crc b => crcByte b crc) init

/-- R210, R213: bytes exclusive-or the table, entry i of the table on byte i. -/
def scramble (p : Params) (d : List Byte) : List Byte := mapIndexed d fun i b => b ^^^ scramblerByte p i

end Sys2Proof.Machine
end

