-- ==== Sys2Proof/Machine/ControlBlock.lean ====
section
/-! DEFINITION. Status codes (60_exceptions.md R300) and the control-block slot (10_state.md R43) with its field
primitives (00_scope.md R15). -/

namespace Sys2Proof.Machine

/-- R300: the status codes. No other value is ever written to STATUS.CODE. -/
inductive StatusCode where
  /-- Success, every command. -/
  | ok
  /-- ERR_PARAM: GF_INIT, RS_DECODE. -/
  | param
  /-- ERR_PADDING: GF_INIT. -/
  | padding
  /-- ERR_FIELD: GF_INIT. -/
  | field
  /-- ERR_NOTINIT: the slot's VALID is 0. -/
  | notInit
  /-- ERR_RANGE: an operand or buffer range outside its domain. -/
  | range
  /-- ERR_LEN: NGH_SELECT, NGH_ENCODE. -/
  | len
  /-- ERR_UNCORRECTABLE: RS_DECODE. -/
  | uncorrectable
  /-- ERR_ILLEGAL: the word spells no command. -/
  | illegal
  /-- ERR_DIVZERO: GF_DIV. -/
  | divZero
  /-- ERR_CONFIG: NGH_ENCODE. -/
  | config
deriving DecidableEq, Repr

/-- R300, column "code". -/
def StatusCode.byte : StatusCode → Byte
  | .ok => 0x00
  | .param => 0xFF
  | .padding => 0xFE
  | .field => 0xFD
  | .notInit => 0xFC
  | .range => 0xFB
  | .len => 0xFA
  | .uncorrectable => 0xF9
  | .illegal => 0xF8
  | .divZero => 0xF7
  | .config => 0xF6

/-- R43: one stored RS(n, k) configuration. -/
structure ControlBlock where
  /-- `symbol_bits`. -/
  mm : Byte
  /-- `field_size` = 2^MM − 1. -/
  nn : Byte
  /-- The field generator polynomial. -/
  gfpoly : Half
  /-- `first_root`. -/
  fcr : Byte
  /-- `primitive_elem`. -/
  prim : Byte
  /-- `prim_inverse`. -/
  iprim : Byte
  /-- `num_roots`. -/
  nroots : Byte
  /-- `padding`. -/
  pad : Byte
  /-- ALPHA, the antilog table. -/
  alpha : Vector Elem 256
  /-- INDEX, the log table. -/
  index : Vector LogSym 256
  /-- GENPOLY, the generator polynomial in index form. -/
  genpoly : Vector LogSym 65
  /-- VALID. -/
  valid : Bool
deriving DecidableEq, Repr

/-- R43: "zeroed" means every numeric field, table entry and VALID are 0. -/
def zeroBlock : ControlBlock where
  mm := 0
  nn := 0
  gfpoly := 0
  fcr := 0
  prim := 0
  iprim := 0
  nroots := 0
  pad := 0
  alpha := Vector.replicate 256 0
  index := Vector.replicate 256 ⟨0⟩
  genpoly := Vector.replicate 65 ⟨0⟩
  valid := false

/-- `nn` as a number (R15). -/
abbrev ControlBlock.fieldSize (cb : ControlBlock) : Nat := cb.nn.toNat

/-- `nr`, the number of parity symbols. -/
abbrev ControlBlock.roots (cb : ControlBlock) : Nat := cb.nroots.toNat

/-- R44: the message length k = NN − NROOTS − PAD. -/
def ControlBlock.msgLen (cb : ControlBlock) : Nat := cb.fieldSize - cb.roots - cb.pad.toNat

/-- R44: the codeword length n = NN − PAD. -/
def ControlBlock.blockLen (cb : ControlBlock) : Nat := cb.fieldSize - cb.pad.toNat

/-- R15: A0 = nn, the log-domain sentinel for zero. -/
def ControlBlock.a0 (cb : ControlBlock) : LogSym := ⟨cb.nn⟩

/-- R15, R121: `modnn(x)` = x mod nn, an index-form value. -/
def ControlBlock.modnn (cb : ControlBlock) (x : Nat) : LogSym := ⟨BitVec.ofNat 8 (x % cb.fieldSize)⟩

/-- R15: `alpha(i)` = CB[s].ALPHA[i]. -/
def ControlBlock.antilog (cb : ControlBlock) (l : LogSym) : Elem := cb.alpha[l.val.toNat]'l.val.isLt

/-- R15: `log(x)` = CB[s].INDEX[x]. -/
def ControlBlock.log (cb : ControlBlock) (x : Elem) : LogSym := cb.index[x.toNat]'x.isLt

/-- `AL[M(x)]` of 41_rs.md: the element whose logarithm is x mod nn. -/
def ControlBlock.power (cb : ControlBlock) (x : Nat) : Elem := cb.antilog (cb.modnn x)

/-- `AL[M(x)]` for an exponent written with a difference: R11's `x mod nn` of an integer. -/
def ControlBlock.powerInt (cb : ControlBlock) (x : Int) : Elem := cb.power (x % (cb.fieldSize : Int)).toNat

/-- CB[s].GENPOLY[i]; the array has entries 0..64, and the rules ask for none beyond NROOTS ≤ 64 (R44). -/
def ControlBlock.gen (cb : ControlBlock) (i : Nat) : LogSym := if h : i < 65 then cb.genpoly[i] else ⟨0⟩

/-- Some symbol of the list is outside the field: greater than NN (R161, R166). A byte is never greater than 255, so
the question arises only when NN < 255, that is MM < 8. -/
def ControlBlock.anyOutside (cb : ControlBlock) (d : List Elem) : Bool :=
  decide (cb.fieldSize < 255) && d.any (fun x => decide (cb.fieldSize < x.toNat))

end Sys2Proof.Machine
end

