-- ==== Sys2Proof/Machine/Field.lean ====
section
/-! DEFINITION. The Galois-field engine (40_gf.md): the parameter checks, the table build, `prim_inverse`, the generator
polynomial and GF_INIT as a function of the parameters. The loop bodies are the spec's (log 18). -/

namespace Sys2Proof.Machine

/-- R121 `mod_field`, the folding loop, with the fuel that bounds it. Every command uses `x mod nn`, which R121 says
this computes. -/
def modFieldFold (mm nn : Nat) : Nat → Nat → Nat
  | 0, x => x
  | fuel + 1, x =>
    if nn ≤ x then modFieldFold mm nn fuel (((x - nn) >>> mm) + ((x - nn) &&& nn)) else x

/-- R121 `mod_field(x)`: the loop takes fewer than x + 1 turns, since each makes x smaller. -/
def modField (mm x : Nat) : Nat := modFieldFold mm (2 ^ mm - 1) x x

/-- R125 `check_params`: the parameter checks of GF_INIT in their order; the first that applies gives the error. -/
def checkParams (mm fcr prim nroots pad : Nat) : Option StatusCode :=
  let nn := 2 ^ mm - 1
  if 8 < mm then some .param
  else if nn ≤ fcr then some .param
  else if prim = 0 ∨ nn ≤ prim then some .param
  else if Nat.gcd prim nn ≠ 1 then some .param
  else if nn ≤ nroots then some .param
  else if nroots = 0 ∨ maxRoots < nroots then some .param
  else if nn - nroots ≤ pad then some .padding
  else none

/-- R126: one step of the register, "sr <- sr << 1; if sr[mm] = 1: sr <- sr ^ gfpoly; sr <- sr & nn". -/
def nextSr (mm gfpoly sr : Nat) : Nat :=
  let t := sr <<< 1
  (if t.testBit mm then t ^^^ gfpoly else t) &&& (2 ^ mm - 1)

/-- R126: the register before each of the next `fuel` steps, from `sr` on. -/
def registerRun (mm gfpoly : Nat) : Nat → Nat → List Nat
  | 0, _ => []
  | fuel + 1, sr => sr :: registerRun mm gfpoly fuel (nextSr mm gfpoly sr)

/-- R126: the register after `fuel` steps. -/
def registerAfter (mm gfpoly : Nat) : Nat → Nat → Nat
  | 0, sr => sr
  | fuel + 1, sr => registerAfter mm gfpoly fuel (nextSr mm gfpoly sr)

/-- R126 `build_tables`: the values sr takes at i = 0 .. nn−1. -/
def generated (mm gfpoly : Nat) : List Nat := registerRun mm gfpoly (2 ^ mm - 1) 1

/-- R126, R127: the register when the build ends. -/
def finalSr (mm gfpoly : Nat) : Nat := registerAfter mm gfpoly (2 ^ mm - 1) 1

/-- R126: ALPHA'[i] is sr at step i for i < nn, and 0 from the sentinel's entry on. -/
def alphaTable (mm gfpoly : Nat) : Vector Elem 256 :=
  ⟨(((generated mm gfpoly).map (BitVec.ofNat 8) ++ List.replicate 256 0).take 256).toArray,
    by rw [List.size_toArray, List.length_take, List.length_append, List.length_replicate]; omega⟩

/-- The last index, counted from `i`, at which `x` stands in a list, or `acc` where it does not. -/
def lastIndex (x : Nat) : Nat → Nat → List Nat → Nat
  | acc, _, [] => acc
  | acc, i, y :: ys => lastIndex x (if y = x then i else acc) (i + 1) ys

/-- R126: INDEX'[x] is the last step i at which sr was x ("INDEX'[sr] <- i"); an entry never assigned keeps its first
value, nn for x = 0 and 0 otherwise. -/
def indexTable (mm gfpoly : Nat) : Vector LogSym 256 :=
  ⟨((List.range 256).map fun x => LogSym.mk (BitVec.ofNat 8
    (lastIndex x (if x = 0 then 2 ^ mm - 1 else 0) 0 (generated mm gfpoly)))).toArray, by simp⟩

/-- The arrays and the register of R126's pseudocode. -/
structure TableBuild where
  /-- ALPHA'. -/
  alpha : Vector Elem 256
  /-- INDEX'. -/
  index : Vector LogSym 256
  /-- The shift register. -/
  sr : Nat

/-- R126, the loop over i as the pseudocode writes it, with `fuel` turns left. -/
def buildLoop (mm gfpoly : Nat) : Nat → Nat → TableBuild → TableBuild
  | 0, _, t => t
  | fuel + 1, i, t =>
    buildLoop mm gfpoly fuel (i + 1)
      { alpha := t.alpha.setIfInBounds i (BitVec.ofNat 8 t.sr)
        index := t.index.setIfInBounds t.sr ⟨BitVec.ofNat 8 i⟩
        sr := nextSr mm gfpoly t.sr }

/-- R126 `build_tables` as the pseudocode writes it. `alphaTable`, `indexTable` and `finalSr` are the same tables entry
by entry, which a proof can evaluate; an obligation says so. -/
def buildTables (mm gfpoly : Nat) : TableBuild :=
  let nn := 2 ^ mm - 1
  buildLoop mm gfpoly nn 0
    { alpha := (Vector.replicate 256 0).setIfInBounds nn 0
      index := (Vector.replicate 256 ⟨0⟩).setIfInBounds 0 ⟨BitVec.ofNat 8 nn⟩
      sr := 1 }

/-- R128: "t <- 1; while t mod prim ≠ 0: t <- t + nn; return t / prim", with fuel. -/
def primInverseFrom (prim nn : Nat) : Nat → Nat → Nat
  | 0, t => t / prim
  | fuel + 1, t => if t % prim = 0 then t / prim else primInverseFrom prim nn fuel (t + nn)

/-- R128 `prim_inverse`: the search ends within `prim` steps. -/
def primInverse (prim nn : Nat) : Nat := primInverseFrom prim nn prim 1

/-- R129: one turn of the generator loop, from G after i roots to G after i + 1 roots, `root` being the logarithm of the
new root. The descending loop over j reads only old entries, so the turn is one simultaneous update (log 22). -/
def genStep (cb : ControlBlock) (root i : Nat) (g : List Elem) : List Elem :=
  let scaled (x : Elem) : Elem := cb.power ((cb.log x).toNat + root)
  mapIndexed g fun j x =>
    if j = 0 then scaled x
    else if j ≤ i then (if x ≠ 0 then g.getD (j - 1) 0 ^^^ scaled x else g.getD (j - 1) 0)
    else if j = i + 1 then
      -- G[i+1] <- 1 comes first, and j = i + 1 is not in the descending loop
      1
    else x

/-- R129: the loop over the roots, with `fuel` turns left. -/
def genLoop (cb : ControlBlock) (prim : Nat) : Nat → Nat → Nat → List Elem → List Elem
  | 0, _, _, g => g
  | fuel + 1, i, root, g => genLoop cb prim fuel (i + 1) (root + prim) (genStep cb root i g)

/-- R129 `build_genpoly`, in index form. Of `cb` only the tables and NN are read. -/
def buildGenpoly (cb : ControlBlock) (fcr prim nroots : Nat) : Vector LogSym 65 :=
  let g := genLoop cb prim nroots 0 (fcr * prim) (1 :: List.replicate nroots 0)
  ⟨((List.range 65).map fun i => if i ≤ nroots then cb.log (g.getD i 0) else ⟨0⟩).toArray, by simp⟩

/-- R124 GF_INIT as a function of the six parameters: the new slot, or the error (which leaves the slot zeroed). -/
def initBlock (mm gfpoly fcr prim nroots pad : Nat) : Except StatusCode ControlBlock :=
  match checkParams mm fcr prim nroots pad with
  | some err => .error err
  | none =>
    if finalSr mm gfpoly ≠ 1 then .error .field
    else
      let nn := 2 ^ mm - 1
      let base : ControlBlock :=
        { mm := BitVec.ofNat 8 mm
          nn := BitVec.ofNat 8 nn
          gfpoly := BitVec.ofNat 16 gfpoly
          fcr := BitVec.ofNat 8 fcr
          prim := BitVec.ofNat 8 prim
          iprim := BitVec.ofNat 8 (primInverse prim nn)
          nroots := BitVec.ofNat 8 nroots
          pad := BitVec.ofNat 8 pad
          alpha := alphaTable mm gfpoly
          index := indexTable mm gfpoly
          genpoly := Vector.replicate 65 ⟨0⟩
          valid := true }
      .ok { base with genpoly := buildGenpoly base fcr prim nroots }

/-- R331: the slot of class c after reset, what GF_INIT computes with the class's parameters. -/
def resetBlock (c : SlotId) : ControlBlock :=
  match initBlock 8 gfpolyNgh fcrNgh primNgh (par c) (pads c) with
  | .ok cb => cb
  | .error _ => zeroBlock

end Sys2Proof.Machine
end

