-- ==== Sys2Proof/Machine/ReedSolomon.lean ====
section
/-! DEFINITION. The Reed–Solomon encoder and decoder of 41_rs.md as functions of a slot and a list of symbols. The loop
bodies are the spec's (log 18); a loop whose turns read only old entries is written as one update (log 22). -/

namespace Sys2Proof.Machine

/-- "index form; 0 becomes A0" (R167, R170): the logarithms of a list of elements. -/
def ControlBlock.toLogs (cb : ControlBlock) (l : List Elem) : List LogSym := l.map cb.log

/-- The term `AL[M(a + e)]` of a sum, which is 0 where the index-form operand `a` is A0. -/
def ControlBlock.term (cb : ControlBlock) (a : LogSym) (e : Nat) : Elem :=
  if a ≠ cb.a0 then cb.power (a.toNat + e) else 0

/-- A sum of field elements (R120: addition is exclusive-or). -/
def xorSum (l : List Elem) : Elem := l.foldl (· ^^^ ·) 0

/-! ## Encoder -/

/-- R161: one turn of the encoder, for the message symbol `m` and the parity register `p`: the feedback is injected
with generator index nr − j, then the register shifts. -/
def parityStep (cb : ControlBlock) (p : List Elem) (m : Elem) : List Elem :=
  let fb := cb.log (m ^^^ p.headD 0)
  (List.range cb.roots).map fun j =>
    if j + 1 < cb.roots then p.getD (j + 1) 0 ^^^ cb.term fb (cb.gen (cb.roots - (j + 1))).toNat
    else cb.term fb (cb.gen 0).toNat

/-- R161: the parity array P of a message (`rs_parity(c, m)` of R250). -/
def rsParity (cb : ControlBlock) (msg : List Elem) : List Elem :=
  msg.foldl (parityStep cb) (List.replicate cb.roots 0)

/-! ## Decoder -/

/-- R167: syndrome i in poly form, Horner's rule at the root α^((FCR+i)·PRIM). -/
def syndromeAt (cb : ControlBlock) (d : List Elem) (i : Nat) : Elem :=
  match d with
  | [] => 0
  | d0 :: rest =>
    rest.foldl (fun s x =>
      if s = 0 then x else x ^^^ cb.power ((cb.log s).toNat + (cb.fcr.toNat + i) * cb.prim.toNat)) d0

/-- R167: the nr syndromes in poly form. -/
def syndromes (cb : ControlBlock) (d : List Elem) : List Elem :=
  (List.range cb.roots).map (syndromeAt cb d)

/-- R160, R166: a word is a codeword exactly when every syndrome is 0 (`synerr = 0`). -/
def isCodeword (cb : ControlBlock) (d : List Elem) : Bool := (syndromes cb d).all (· = 0)

/-- R168: one erasure at exponent `u` multiplied into the locator, for j from `top` down to 1. -/
def eraseStep (cb : ControlBlock) (u top : Nat) (lam : List Elem) : List Elem :=
  mapIndexed lam fun j x =>
    if 1 ≤ j ∧ j ≤ top then x ^^^ cb.term (cb.log (lam.getD (j - 1) 0)) u else x

/-- R168: u = M(PRIM·(nn − 1 − q)). -/
def erasureExponent (cb : ControlBlock) (q : Nat) : Nat :=
  (cb.modnn (cb.prim.toNat * (cb.fieldSize - 1 - q))).toNat

/-- R168: the erasures after the first, `i` being the index of the next one. -/
def eraseRest (cb : ControlBlock) : Nat → List Nat → List Elem → List Elem
  | _, [], lam => lam
  | i, q :: qs, lam => eraseRest cb (i + 1) qs (eraseStep cb (erasureExponent cb q) (i + 1) lam)

/-- R168 `erasure_seed`: the locator L[0..nr] in poly form. -/
def erasureSeed (cb : ControlBlock) (q : List Nat) : List Elem :=
  let one : List Elem := 1 :: List.replicate cb.roots 0
  match q with
  | [] => one
  | q0 :: qs => eraseRest cb 1 qs (one.set 1 (cb.power (erasureExponent cb q0)))

/-- R169: the discrepancy of step r in poly form, the sum over i < r of L[i]·S[r−i−1]. -/
def discrepancy (cb : ControlBlock) (s : List LogSym) (lam : List Elem) (r : Nat) : Elem :=
  xorSum ((List.range r).map fun i =>
    let l := lam.getD i 0
    let sy := s.getD (r - i - 1) cb.a0
    if l ≠ 0 ∧ sy ≠ cb.a0 then cb.power ((cb.log l).toNat + sy.toNat) else 0)

/-- R169: "B[1..nr] <- B[0..nr-1]; B[0] <- A0", that is B <- x·B, dropping the old B[nr]. -/
def shiftB (cb : ControlBlock) (b : List LogSym) : List LogSym := cb.a0 :: b.dropLast

/-- R169: the loop, with `fuel` = nr − r steps left. -/
def bmLoop (cb : ControlBlock) (s : List LogSym) (e : Nat) :
    Nat → Nat → Nat → List LogSym → List Elem → List Elem
  | 0, _, _, _, lam => lam
  | fuel + 1, r0, el, b, lam =>
    let r := r0 + 1
    let d := cb.log (discrepancy cb s lam r)
    if d = cb.a0 then bmLoop cb s e fuel r el (shiftB cb b) lam
    else
      -- T[0] = L[0], T[i+1] = L[i+1] ^ AL[M(d + B[i])]
      let t := mapIndexed lam fun i x => if i = 0 then x else x ^^^ cb.term (b.getD (i - 1) cb.a0) d.toNat
      if 2 * el + 1 ≤ r + e then
        let b' := lam.map fun x =>
          if x = 0 then cb.a0
          else cb.modnn ((((cb.log x).toNat : Int) - d.toNat + cb.fieldSize) % (cb.fieldSize : Int)).toNat
        bmLoop cb s e fuel r (r + e - el) b' t
      else bmLoop cb s e fuel r el (shiftB cb b) t

/-- R169 `berlekamp_massey`: syndromes in index form, locator in poly form. -/
def berlekampMassey (cb : ControlBlock) (s : List LogSym) (lam : List Elem) (e : Nat) : List Elem :=
  bmLoop cb s e (cb.roots - e) e e (cb.toLogs lam) lam

/-- R170: the largest i with Lx[i] ≠ A0, or 0. -/
def degree (cb : ControlBlock) (lx : List LogSym) : Nat :=
  (List.range lx.length).foldl (fun acc i => if lx.getD i cb.a0 ≠ cb.a0 then i else acc) 0

/-- R170: a located error: the root's exponent i and the full-length position `kk`. -/
structure Located where
  /-- root[·]. -/
  root : Nat
  /-- loc[·]. -/
  loc : Nat
deriving DecidableEq, Repr

/-- R170: the registers after one step, "R[j] <- M(R[j] + j)" for j = 1..deg where R[j] ≠ A0. The list holds R[1..deg]. -/
def chienAdvance (cb : ControlBlock) (r : List LogSym) : List LogSym :=
  mapIndexed r fun j x => if x ≠ cb.a0 then cb.modnn (x.toNat + (j + 1)) else x

/-- R170: the loop over i, with `fuel` turns left; `found` is in the order found, newest first. -/
def chienLoop (cb : ControlBlock) (deg : Nat) :
    Nat → Nat → Nat → List LogSym → List Located → List Located
  | 0, _, _, _, found => found
  | fuel + 1, i, kk, r, found =>
    let r' := chienAdvance cb r
    let q := (1 : Elem) ^^^ xorSum (r'.map fun x => if x ≠ cb.a0 then cb.antilog x else 0)
    let kk' := (cb.modnn (kk + cb.iprim.toNat)).toNat
    if q = 0 then
      let found' := ⟨i, kk⟩ :: found
      if found'.length = deg then found' else chienLoop cb deg fuel (i + 1) kk' r' found'
    else chienLoop cb deg fuel (i + 1) kk' r' found

/-- R170 `chien`: the roots and locations, in the order found. -/
def chien (cb : ControlBlock) (lx : List LogSym) : List Located :=
  let deg := degree cb lx
  (chienLoop cb deg cb.fieldSize 1 (cb.iprim.toNat - 1) ((lx.drop 1).take deg) []).reverse

/-- R172: Omega[0..deg−1] in index form. -/
def errorEvaluator (cb : ControlBlock) (s lx : List LogSym) (deg : Nat) : List LogSym :=
  (List.range deg).map fun i =>
    cb.log (xorSum ((List.range (i + 1)).map fun j =>
      let sy := s.getD (i - j) cb.a0
      let l := lx.getD j cb.a0
      if sy ≠ cb.a0 ∧ l ≠ cb.a0 then cb.power (sy.toNat + l.toNat) else 0))

/-- R173: num1 = Ω(α^root). -/
def forneyNum1 (cb : ControlBlock) (omega : List LogSym) (root : Nat) : Elem :=
  xorSum (mapIndexed omega fun i o => cb.term o (i * root))

/-- R173: num2 = AL[M(root·(FCR − 1) + nn)]. -/
def forneyNum2 (cb : ControlBlock) (root : Nat) : Elem :=
  cb.powerInt ((root : Int) * ((cb.fcr.toNat : Int) - 1) + cb.fieldSize)

/-- R173: den, the sum over even i from min(deg, nr − 1) with bit 0 cleared down to 0 of the terms of Lx[i+1]. -/
def forneyDen (cb : ControlBlock) (lx : List LogSym) (deg root : Nat) : Elem :=
  xorSum ((List.range (min deg (cb.roots - 1) / 2 + 1)).map fun h =>
    cb.term (lx.getD (2 * h + 1) cb.a0) (2 * h * root))

/-- R173: the correction of one located error: the buffer index and the value to exclusive-or into it, or none where
num1 = 0 or the location lies in the padding (R179). -/
def forneyAt (cb : ControlBlock) (omega lx : List LogSym) (deg : Nat) (f : Located) : Option (Nat × Elem) :=
  let num1 := forneyNum1 cb omega f.root
  if num1 ≠ 0 ∧ cb.pad.toNat ≤ f.loc then
    some (f.loc - cb.pad.toNat,
      cb.powerInt (((cb.log num1).toNat : Int) + (cb.log (forneyNum2 cb f.root)).toNat + cb.fieldSize
        - (cb.log (forneyDen cb lx deg f.root)).toNat))
  else none

/-- R173: the corrections, jj from count − 1 down to 0. -/
def corrections (cb : ControlBlock) (s lx : List LogSym) (found : List Located) : List (Nat × Elem) :=
  let deg := degree cb lx
  found.reverse.filterMap (forneyAt cb (errorEvaluator cb s lx deg) lx deg)

/-- R173: the corrected word. -/
def applyCorrections (d : List Elem) (cs : List (Nat × Elem)) : List Elem :=
  cs.foldl (fun acc c => acc.modify c.1 (· ^^^ c.2)) d

/-- How a decode ends (R166, R175). -/
inductive RsOutcome where
  /-- Every syndrome is 0: already a codeword, nothing is written. -/
  | clean
  /-- count ≠ deg (R171): nothing is written. -/
  | uncorrectable
  /-- count = deg: the (index, value) pairs to write into the buffer in order, and the reported positions. -/
  | corrected (writes : List (Nat × Elem)) (positions : List Nat)
deriving DecidableEq, Repr

/-- R166 from the syndromes on, for the word `d` and the erasure positions `q`: DECODE_BEYOND_BOUND = exact. -/
def rsDecode (cb : ControlBlock) (d : List Elem) (q : List Nat) : RsOutcome :=
  if isCodeword cb d then .clean
  else
    let s := cb.toLogs (syndromes cb d)
    let lx := cb.toLogs (berlekampMassey cb s (erasureSeed cb q) q.length)
    let found := chien cb lx
    if found.length ≠ degree cb lx then .uncorrectable
    else
      let cs := corrections cb s lx found
      let d' := applyCorrections d cs
      .corrected (cs.map fun c => (c.1, d'.getD c.1 0)) (found.map Located.loc)

/-- A list of writes applied to a word. -/
def applyWrites (d : List Elem) (ws : List (Nat × Elem)) : List Elem :=
  ws.foldl (fun acc w => acc.set w.1 w.2) d

/-- R176: the outcome is one the correction bound covers: the result is a codeword, the erasure positions are distinct
and not in the padding, and 2ν + e ≤ nr for ν the changed positions that are not erased. -/
def withinBound (cb : ControlBlock) (d : List Elem) (q : List Nat) : RsOutcome → Bool
  | .clean => true
  | .uncorrectable => false
  | .corrected ws _ =>
    let d' := applyWrites d ws
    let changed := (List.range d.length).filter fun j =>
      d.getD j 0 ≠ d'.getD j 0 ∧ ¬ (j + cb.pad.toNat) ∈ q
    isCodeword cb d' && q.all (fun p => decide (cb.pad.toNat ≤ p)) && decide q.Nodup &&
      decide (2 * changed.length + q.length ≤ cb.roots)

/-- R177: the draw of DECODE_BEYOND_BOUND = free: either the uncorrectable outcome, or CODE = OK with any count in
1..nr, any word and any positions (`Config.decodeDraw`, log 6). -/
def drawnOutcome (cb : ControlBlock) (n draw : Nat) : RsOutcome :=
  if Config.decodeDraw draw 0 % 2 = 0 then .uncorrectable
  else
    let count := 1 + Config.decodeDraw draw 1 % cb.roots
    .corrected
      ((List.range n).map fun j => (j, BitVec.ofNat 8 (Config.decodeDraw draw (2 + j))))
      ((List.range count).map fun i => Config.decodeDraw draw (2 + n + i) % 256)

/-- R177: the outcome under the parameter DECODE_BEYOND_BOUND. -/
def rsOutcome (p : Params) (draw : Nat) (cb : ControlBlock) (d : List Elem) (q : List Nat) : RsOutcome :=
  let o := rsDecode cb d q
  match p.beyondBound with
  | .exact => o
  | .free => if withinBound cb d q o then o else drawnOutcome cb d.length draw

end Sys2Proof.Machine
end

