-- ==== Sys2Proof/Machine/Framing.lean ====
section
/-! DEFINITION. NGHam framing as functions (43_ngham.md): classes and tags, the frame an encoder builds, and how a
received codeword ends. -/

namespace Sys2Proof.Machine

/-- The seven classes in ascending order (R233: "classes are checked in fixed order 0..6"). -/
def classes : List SlotId := [0, 1, 2, 3, 4, 5, 6]

/-- R235 `select_class(n)`: the least c with PL[c] ≥ n, for 1 ≤ n ≤ 220. -/
def selectClass (n : Nat) : Option SlotId :=
  if n = 0 ∨ 220 < n then none else classes.find? (fun c => decide (n ≤ pl c))

/-- R233 `tag_check(x, y)`: Hamming distance at most TAG_TOL. -/
def tagCheck (x y : Tag) : Bool := decide (popcount (x ^^^ y) ≤ tagTol)

/-- R233 `tag_class(t)`: the least class whose tag is near. -/
def tagClass (p : Params) (t : Tag) : Option SlotId := classes.find? (fun c => tagCheck t p.sizeTag[c])

/-- R232 `cfg_ok(c)`, for the block in slot c. -/
def cfgOk (cb : ControlBlock) (c : SlotId) : Bool :=
  cb.valid && decide (cb.mm = 8) && decide (cb.nroots.toNat = par c) && decide (cb.pad.toNat = pads c)

/-- R250: codeword byte 0, "((PL[c] - len) & 0x1F) | ((flags << 5) & 0xE0)". -/
def firstByte (c : SlotId) (len : Nat) (flags : BitVec 3) : Byte :=
  (BitVec.ofNat 8 (pl c - len) &&& 0x1F) ||| ((flags.setWidth 8 <<< 5) &&& 0xE0)

/-- The upper byte of a CRC, which comes first on the wire (R71, R250). -/
def crcHigh (crc : Half) : Byte := crc.extractLsb' 8 8

/-- The lower byte of a CRC. -/
def crcLow (crc : Half) : Byte := crc.extractLsb' 0 8

/-- R250: cw[0..FULL[c]−1]: byte 0, the payload, the CRC most significant byte first, zero padding. -/
def messageOf (p : Params) (c : SlotId) (flags : BitVec 3) (payload : List Byte) : List Byte :=
  let head := firstByte c payload.length flags :: payload
  let crc := crcFold p.crcInit head
  head ++ [crcHigh crc, crcLow crc] ++ List.replicate (full c - (payload.length + 3)) 0

/-- R250: the codeword before scrambling: the message and its parity. -/
def codewordOf (p : Params) (cb : ControlBlock) (c : SlotId) (flags : BitVec 3) (payload : List Byte) : List Byte :=
  let m := messageOf p c flags payload
  m ++ rsParity cb m

/-- R250: the bytes of a size tag, most significant first. -/
def tagBytes (t : Tag) : List Byte := [t.extractLsb' 16 8, t.extractLsb' 8 8, t.extractLsb' 0 8]

/-- R250: preamble and sync word of the modulation mode. -/
def frameHeader (level4 : BitVec 1) : List Byte := if level4 = 0 then header2Level else header4Level

/-- R250, R252: the whole frame. -/
def frameOf (p : Params) (cb : ControlBlock) (level4 : BitVec 1) (c : SlotId) (flags : BitVec 3)
    (payload : List Byte) : List Byte :=
  frameHeader level4 ++ tagBytes p.sizeTag[c] ++ scramble p (codewordOf p cb c flags payload)

/-- R261, R262: how a codeword's end is judged, with the corrected codeword in hand. -/
inductive FrameVerdict where
  /-- The padding count exceeds the payload size (event 5). -/
  | negativeLength
  /-- The stored CRC differs (event 4). -/
  | crcMismatch
  /-- Accepted, with payload and flags (R264). -/
  | accepted (payload : List Byte) (flags : BitVec 3)
deriving DecidableEq, Repr

/-- R261: the judgement of the codeword `cw` of class c after the RS decode. -/
def judgeFrame (p : Params) (c : SlotId) (cw : List Byte) : FrameVerdict :=
  let padding := (cw.getD 0 0 &&& 0x1F).toNat
  if pl c < padding then .negativeLength
  else
    let len := pl c - padding
    let stored : Half := cw.getD (len + 1) 0 ++ cw.getD (len + 2) 0
    if crcFold p.crcInit (cw.take (len + 1)) ≠ stored then .crcMismatch
    else .accepted ((cw.drop 1).take len) ((cw.getD 0 0).extractLsb' 5 3)

end Sys2Proof.Machine
end

