-- ==== Sys2Proof/Machine/Memory.lean ====
section
/-! DEFINITION. The six buffers of 10_state.md R37 to R42 as one memory: a list of (window offset, byte) cells in one
canonical form (log 24). A byte is listed exactly when it has been written since reset (R47). -/

namespace Sys2Proof.Machine

/-- R37 to R42: the buffers. -/
inductive Buf where
  /-- DBUF, the data buffer (R37). -/
  | dbuf
  /-- PBUF, the parity buffer (R38). -/
  | pbuf
  /-- EPOS, the error and erasure positions (R39). -/
  | epos
  /-- FBUF, the frame buffer (R40). -/
  | fbuf
  /-- RXCW, the received codeword (R41). -/
  | rxcw
  /-- RXOUT, the received payload (R42). -/
  | rxout
deriving DecidableEq, Repr

/-- R62: the offset of a buffer's element 0. -/
def Buf.base : Buf → Nat
  | .dbuf => 0x0400
  | .pbuf => 0x0800
  | .epos => 0x0900
  | .fbuf => 0x1000
  | .rxcw => 0x2000
  | .rxout => 0x0C00

/-- R8, R37 to R42: the number of elements. -/
def Buf.size : Buf → Nat
  | .dbuf => 256
  | .pbuf => 64
  | .epos => 64
  | .fbuf => 512
  | .rxcw => 256
  | .rxout => 256

/-- R62, column "access": the host may write the buffer. -/
def Buf.hostWritable : Buf → Bool
  | .dbuf => true
  | .pbuf => true
  | .epos => true
  | .fbuf => false
  | .rxcw => false
  | .rxout => false

/-- R63: the offset of element X[i]. -/
def Buf.addr (b : Buf) (i : Nat) : Nat := b.base + 4 * i

/-- All buffers, in offset order. -/
def allBufs : List Buf := [.dbuf, .pbuf, .epos, .rxout, .fbuf, .rxcw]

/-- The offset is one of the buffer's words: base, base + 4, …, below base + 4·size (R62, R63). -/
def Buf.covers (b : Buf) (a : Nat) : Bool :=
  decide (b.base ≤ a) && decide (a < b.base + 4 * b.size) && decide (a % 4 = 0)

/-- R62: the offset is some buffer's word. -/
def isBufferWord (a : Nat) : Bool := allBufs.any (fun b => b.covers a)

/-- Written buffer bytes at their window offsets. -/
abbrev Memory := List Host.Cell

/-- The byte at an offset, or none where none has been written since reset. -/
def readCell : Memory → Nat → Option Byte
  | [], _ => none
  | (k, v) :: rest, a => if k = a then some v else readCell rest a

/-- The memory with the byte at an offset written, offsets kept strictly rising. -/
def writeCell : Memory → Nat → Byte → Memory
  | [], a, v => [(a, v)]
  | (k, w) :: rest, a, v =>
    if a < k then (a, v) :: (k, w) :: rest
    else if a = k then (a, v) :: rest
    else (k, w) :: writeCell rest a v

/-- The canonical form: offsets strictly rising, each the offset of a buffer byte. An unlisted byte has no value, so no
listed byte can equal what an unlisted one reads as. -/
abbrev Memory.wf (m : Memory) : Prop :=
  m.Pairwise (fun x y => x.1 < y.1) ∧ ∀ c ∈ m, isBufferWord c.1 = true

end Sys2Proof.Machine
end

