-- ==== Sys2Proof/Machine/State.lean ====
section
/-! DEFINITION. Everything the spec gives the block (10_state.md), as plain data, with the host agent's pending moves and
the reset state (70_reset_and_hazards.md R330 to R334). -/

namespace Sys2Proof.Machine

/-- R31: DEC_STATE, with the encoding 0 to 3 in this order. -/
inductive DecState where
  /-- 0, SIZE_TAG_BYTE_1. -/
  | sizeTagByte1
  /-- 1, SIZE_TAG_BYTE_2. -/
  | sizeTagByte2
  /-- 2, SIZE_TAG_BYTE_3. -/
  | sizeTagByte3
  /-- 3, CODEWORD_ACCUMULATING. -/
  | codewordAccumulating
deriving DecidableEq, Repr

/-- R61: the kind of a host access. -/
inductive AccessKind where
  /-- A read. -/
  | read
  /-- A write. -/
  | write
deriving DecidableEq, Repr

/-- R61: a host access (kind, offset, size, wdata). Offsets 0x0000..0x3FFF are the window (R60). -/
structure Access where
  /-- Read or write. -/
  kind : AccessKind
  /-- Relative to BASE_ADDR. -/
  offset : BitVec 14
  /-- In bytes. -/
  size : Nat
  /-- The data of a write. -/
  wdata : Word
deriving DecidableEq, Repr

/-- One move of the world outside the block (log 2). -/
inductive HostMove where
  /-- One bus access (R61). -/
  | access (a : Access)
  /-- R101 WAIT: read STATUS, and again while BUSY is 1 (log 21). -/
  | wait
  /-- R330: the reset input is asserted (log 23). -/
  | reset
deriving DecidableEq, Repr

/-- R61: the response to a host access. -/
inductive BusResponse where
  /-- A read served: err = 0, rdata the value. -/
  | readOk (rdata : Word)
  /-- A write served: err = 0. The spec gives no rdata (log 11). -/
  | writeOk
  /-- A bus error: err = 1, rdata = 0 (R306). -/
  | busError
deriving DecidableEq, Repr

/-- Why the machine stops with a fault. -/
inductive Fault where
  /-- A never-written buffer byte was read, by a host access or by a command, and the parameter `unwritten` is `fault`
  (R47, U1 "fault, recommended"; log 4). Safe: the hardware goes on with some value. -/
  | unwrittenByte (b : Buf) (i : Nat)
deriving DecidableEq, Repr

/-- Why the model refuses an instruction. -/
inductive Refusal where
  /-- Raised only by an arm of `exec` that has no meaning yet; no arm is left so. Safe. -/
  | notModelled (mnemonic : String)
deriving DecidableEq, Repr

/-- The state of the block, of the host's pending moves, and the model's counters. -/
structure State where
  /-- PENDING (R36). -/
  pending : Option Word
  /-- STATUS.CODE (R24, R300). -/
  code : StatusCode
  /-- RESULT (R25). -/
  result : Word
  /-- CRC_ACC (R26). -/
  crcAcc : Half
  /-- MODE.LEVEL4 (R27). -/
  level4 : BitVec 1
  /-- NERAS (R28). -/
  neras : Byte
  /-- P_SYMBITS (R30). -/
  pSymbits : Byte
  /-- P_GFPOLY (R30). -/
  pGfpoly : Half
  /-- P_FCR (R30). -/
  pFcr : Half
  /-- P_PRIM (R30). -/
  pPrim : Half
  /-- P_NROOTS (R30). -/
  pNroots : Half
  /-- P_PAD (R30). -/
  pPad : Half
  /-- DEC_STATE (R31). -/
  decState : DecState
  /-- DEC_TAG (R32). -/
  decTag : Tag
  /-- DEC_CLASS (R33), 0..6. -/
  decClass : SlotId
  /-- DEC_POS (R34). -/
  decPos : Byte
  /-- RX_LEN (R35). -/
  rxLen : Byte
  /-- RX_FLAGS (R35). -/
  rxFlags : BitVec 3
  /-- RX_ERRS (R35). -/
  rxErrs : Byte
  /-- CB[0..6] (R43). -/
  cb : Vector ControlBlock 7
  /-- The buffers (R37 to R42, R47). -/
  mem : Memory
  /-- The parameters (R9, log 1). No step changes them. -/
  params : Params
  /-- The host's moves still to make, the next one first (log 2). -/
  host : List HostMove
  /-- The bus responses given so far, newest first (log 2). -/
  responses : List BusResponse
  /-- CMD_LATENCY: the host moves that still precede the completion of the pending command (R282, log 5). -/
  latency : Nat
  /-- The next free value's index (log 16). -/
  fresh : Nat
  /-- Which draw the unspecified buffer contents are (R47, log 16). -/
  powerOn : Nat
deriving DecidableEq, Repr

/-- R331 to R334: the block right after reset, with the parameters `p`, whose buffers hold the unspecified contents of
draw `n`, the next free value being `n + 1`. -/
def State.afterReset (p : Params) (n : Nat) : State where
  pending := none
  code := .ok
  result := 0
  crcAcc := p.crcInit
  level4 := 0
  neras := 0
  pSymbits := 8
  pGfpoly := 0x0187
  pFcr := 112
  pPrim := 11
  pNroots := 16
  pPad := 208
  decState := .sizeTagByte1
  decTag := 0
  decClass := 0
  decPos := 0
  rxLen := 0
  rxFlags := 0
  rxErrs := 0
  cb := #v[resetBlock 0, resetBlock 1, resetBlock 2, resetBlock 3, resetBlock 4, resetBlock 5, resetBlock 6]
  mem := []
  params := p
  host := []
  responses := []
  latency := 0
  fresh := n + 1
  powerOn := n

/-- The machine right after reset, under the default parameters, with no host move listed (log 17). -/
def State.reset : State := State.afterReset defaultParams 0

end Sys2Proof.Machine
end

