-- ==== Sys2Proof/Machine/Ops.lean ====
section
/-! DEFINITION. The shared operations: ending a command (00_scope.md R14) and reading and writing buffers and slots
(R13, 10_state.md R47, 20_memory.md R77).

The block has no traps: a failing command "does not transfer control, save state, change a mode, or use a vector table
or stack" (60_exceptions.md R304), and there is no return from one (R305). `State.raiseError` is all that an error
does. -/

namespace Sys2Proof.Machine

/-- What a meaning answers. -/
abbrev Result := Host.Outcome State Fault Refusal

/-- R14 `finish(code, result)`. -/
def State.finish (s : State) (code : StatusCode) (result : Word) : State :=
  { s with code := code, result := result }

/-- R14 `raise CmdError(code)`: `finish(code, 0)`, with no other state written. -/
def State.raiseError (s : State) (code : StatusCode) : State := s.finish code 0

/-- R281: PENDING is cleared when the command completes. -/
def State.retire (s : State) : State := { s with pending := none, latency := 0 }

/-- What a read of a byte never written since reset gives (R47, U1, log 4): the ONE place that says so. -/
def State.readUnwritten (s : State) (b : Buf) (i : Nat) : Except Fault Byte :=
  match s.params.unwritten with
  | .fault => .error (.unwrittenByte b i)
  | .draw => .ok (Config.unwrittenByte s.powerOn (b.addr i))

/-- The buffer byte X[i] if it has been written since reset. No rule reads beyond a buffer's end. -/
def State.written? (s : State) (b : Buf) (i : Nat) : Option Byte :=
  if i < b.size then readCell s.mem (b.addr i) else none

/-- A read of X[i] (R47, R77). -/
def State.loadByte (s : State) (b : Buf) (i : Nat) : Except Fault Byte :=
  match s.written? b i with
  | some v => .ok v
  | none => s.readUnwritten b i

/-- A read of X[off .. off+len−1], in index order. The first never-written byte decides a fault (log 14). -/
def State.loadRange (s : State) (b : Buf) : Nat → Nat → Except Fault (List Byte)
  | _, 0 => .ok []
  | off, len + 1 =>
    match s.loadByte b off with
    | .error f => .error f
    | .ok v =>
      match s.loadRange b (off + 1) len with
      | .error f => .error f
      | .ok vs => .ok (v :: vs)

/-- A write of X[i], which marks the byte written (R47, R77). No rule writes beyond a buffer's end. -/
def State.storeByte (s : State) (b : Buf) (i : Nat) (v : Byte) : State :=
  if i < b.size then { s with mem := writeCell s.mem (b.addr i) v } else s

/-- A write of X[off], X[off+1], … -/
def State.storeRange (s : State) (b : Buf) : Nat → List Byte → State
  | _, [] => s
  | off, v :: vs => (s.storeByte b off v).storeRange b (off + 1) vs

/-- Writes of single elements, in order. -/
def State.storeWrites (s : State) (b : Buf) : List (Nat × Byte) → State
  | [] => s
  | (i, v) :: ws => (s.storeByte b i v).storeWrites b ws

/-- A write of a control-block slot: GF_INIT alone does this (R130). -/
def State.setSlot (s : State) (c : SlotId) (cb : ControlBlock) : State := { s with cb := s.cb.set c cb }

/-- A write of CRC_ACC (R26). -/
def State.setCrc (s : State) (crc : Half) : State := { s with crcAcc := crc }

/-- Where a read faulted, the command's outcome is that fault; otherwise it goes on with what was read. -/
def andThen {α : Type} (r : Except Fault α) (k : α → Result) : Result :=
  match r with
  | .error f => .fault f
  | .ok a => k a

end Sys2Proof.Machine
end

