-- ==== Sys2Proof/Machine/Flags.lean ====
section
/-! DEFINITION. The status and flag words: STATUS (10_state.md R24), CB_VALID (R29), the event word of NGH_DEC_BYTE
(43_ngham.md R262) and RS_DECODE's result (41_rs.md R175). The block has no condition flags. -/

namespace Sys2Proof.Machine

/-- R24: BUSY is 1 exactly when PENDING is not none. -/
def State.busy (s : State) : Bool := s.pending.isSome

/-- R24: STATUS, CODE in bits 7:0 and BUSY in bit 8. -/
def State.statusWord (s : State) : Word :=
  (0 : BitVec 23) ++ BitVec.ofBool s.busy ++ s.code.byte

/-- R29: CB_VALID, bit s equal to CB[s].VALID. -/
def State.validBits (s : State) : BitVec 7 :=
  BitVec.ofBool s.cb[6].valid ++ BitVec.ofBool s.cb[5].valid ++ BitVec.ofBool s.cb[4].valid ++
    BitVec.ofBool s.cb[3].valid ++ BitVec.ofBool s.cb[2].valid ++ BitVec.ofBool s.cb[1].valid ++
    BitVec.ofBool s.cb[0].valid

/-- R31: the encoding of DEC_STATE. -/
def DecState.bits : DecState → BitVec 2
  | .sizeTagByte1 => 0
  | .sizeTagByte2 => 1
  | .sizeTagByte3 => 2
  | .codewordAccumulating => 3

/-- R262: the outcomes of NGH_DEC_BYTE. -/
inductive Event where
  /-- Byte consumed, frame still in progress. -/
  | progress
  /-- Frame accepted. -/
  | accepted
  /-- Tag matched, locked. -/
  | locked
  /-- Tag did not match. -/
  | noMatch
  /-- RS uncorrectable, frame dropped. -/
  | uncorrectable
  /-- CRC mismatch after RS decode, frame dropped. -/
  | crcMismatch
  /-- Negative payload length, frame dropped. -/
  | negativeLength
  /-- The slot fails cfg_ok, frame dropped. -/
  | badConfig
deriving DecidableEq, Repr

/-- R260, R262: `ev(done, event)` = done | (event << 1). -/
def ev (done event : Nat) : Word := BitVec.ofNat 32 (done ||| (event <<< 1))

/-- R262: RESULT of each event. -/
def Event.word : Event → Word
  | .progress => ev 0 0
  | .accepted => ev 1 0
  | .locked => ev 0 1
  | .noMatch => ev 0 2
  | .uncorrectable => ev 0 3
  | .crcMismatch => ev 0 4
  | .negativeLength => ev 0 5
  | .badConfig => ev 0 6

/-- R262: NGH_DEC_BYTE always ends with CODE = OK and its event in RESULT. -/
def State.finishEvent (s : State) (e : Event) : State := s.finish .ok e.word

/-- R177 (log 6): the draw index moves on where DECODE_BEYOND_BOUND = free. -/
def State.spendDraw (s : State) : State :=
  match s.params.beyondBound with
  | .exact => s
  | .free => { s with fresh := s.fresh + 1 }

/-- R175: DBUF, EPOS, CODE and RESULT after RS_DECODE, by its outcome. -/
def State.reportDecode (s : State) (o : RsOutcome) : State :=
  match o with
  | .clean => s.finish .ok 0
  | .uncorrectable => s.finish .uncorrectable 0xFFFFFFFF
  | .corrected ws positions =>
    ((s.storeWrites .dbuf ws).storeRange .epos 0 (positions.map (BitVec.ofNat 8))).finish .ok
      (BitVec.ofNat 32 positions.length)

end Sys2Proof.Machine
end

