-- ==== Sys2Proof/Machine/Bus.lean ====
section
/-! DEFINITION. The host's side (20_memory.md): the address map R62, one bus access R61 to R70, the reset input
(70_reset_and_hazards.md R330) and the host's notation (30_encoding.md R101). -/

namespace Sys2Proof.Machine

/-- R22: the registers of the window. -/
inductive Reg where
  | cmd
  | status
  | result
  | crcAcc
  | mode
  | neras
  | cbValid
  | pSymbits
  | pGfpoly
  | pFcr
  | pPrim
  | pNroots
  | pPad
  | decState
  | decTag
  | decClass
  | decPos
  | rxLen
  | rxFlags
  | rxErrs
deriving DecidableEq, Repr

/-- R45: the fields of CB_INFO. -/
inductive CbField where
  | mm
  | nn
  | gfpoly
  | fcr
  | prim
  | iprim
  | nroots
  | pad
deriving DecidableEq, Repr

/-- R62: what stands at a mapped offset. -/
inductive Location where
  /-- A register. -/
  | reg (r : Reg)
  /-- A word of CB_INFO[c]. -/
  | info (c : SlotId) (f : CbField)
  /-- The buffer element X[i]. -/
  | byte (b : Buf) (i : Nat)
deriving DecidableEq, Repr

/-- R22, R62: the register at an offset. -/
def regAt (off : Nat) : Option Reg :=
  match off with
  | 0x000 => some .cmd
  | 0x004 => some .status
  | 0x008 => some .result
  | 0x00C => some .crcAcc
  | 0x010 => some .mode
  | 0x014 => some .neras
  | 0x018 => some .cbValid
  | 0x020 => some .pSymbits
  | 0x024 => some .pGfpoly
  | 0x028 => some .pFcr
  | 0x02C => some .pPrim
  | 0x030 => some .pNroots
  | 0x034 => some .pPad
  | 0x040 => some .decState
  | 0x044 => some .decTag
  | 0x048 => some .decClass
  | 0x04C => some .decPos
  | 0x050 => some .rxLen
  | 0x054 => some .rxFlags
  | 0x058 => some .rxErrs
  | _ => none

/-- R45: the field at f within a slot's eight words. -/
def cbFieldAt (f : Nat) : Option CbField :=
  match f with
  | 0x00 => some .mm
  | 0x04 => some .nn
  | 0x08 => some .gfpoly
  | 0x0C => some .fcr
  | 0x10 => some .prim
  | 0x14 => some .iprim
  | 0x18 => some .nroots
  | 0x1C => some .pad
  | _ => none

/-- R22, column "width": the low bits of a register that hold state. -/
def Reg.width : Reg → Nat
  | .cmd => 32
  | .status => 9
  | .result => 32
  | .crcAcc => 16
  | .mode => 1
  | .neras => 8
  | .cbValid => 7
  | .pSymbits => 8
  | .pGfpoly => 16
  | .pFcr => 16
  | .pPrim => 16
  | .pNroots => 16
  | .pPad => 16
  | .decState => 2
  | .decTag => 24
  | .decClass => 3
  | .decPos => 8
  | .rxLen => 8
  | .rxFlags => 3
  | .rxErrs => 8

/-- R45: the word of CB_INFO at an offset 0x100 + 0x20·s + f, for s in 0..6. -/
def infoAt (off : Nat) : Option Location :=
  if h : 0x100 ≤ off ∧ (off - 0x100) / 0x20 < 7 then
    (cbFieldAt ((off - 0x100) % 0x20)).map (Location.info ⟨(off - 0x100) / 0x20, h.2⟩)
  else none

/-- R62, R63: the buffer element at an offset. -/
def byteAt (off : Nat) : Option Location :=
  (allBufs.find? (fun b => b.covers off)).map fun b => Location.byte b ((off - b.base) / 4)

/-- R62: what stands at an offset; none where it is misaligned (R64) or unmapped (R68). -/
def locate (off : Nat) : Option Location :=
  match regAt off with
  | some r => some (.reg r)
  | none =>
    match infoAt off with
    | some l => some l
    | none => byteAt off

/-- R45: a slot's scalar field, zero-extended. -/
def ControlBlock.info (cb : ControlBlock) : CbField → Word
  | .mm => cb.mm.setWidth 32
  | .nn => cb.nn.setWidth 32
  | .gfpoly => cb.gfpoly.setWidth 32
  | .fcr => cb.fcr.setWidth 32
  | .prim => cb.prim.setWidth 32
  | .iprim => cb.iprim.setWidth 32
  | .nroots => cb.nroots.setWidth 32
  | .pad => cb.pad.setWidth 32

/-- R22, R66: a register as a read of it sees it; CMD reads 0 (R67). -/
def State.readReg (s : State) : Reg → Word
  | .cmd => 0
  | .status => s.statusWord
  | .result => s.result
  | .crcAcc => s.crcAcc.setWidth 32
  | .mode => s.level4.setWidth 32
  | .neras => s.neras.setWidth 32
  | .cbValid => s.validBits.setWidth 32
  | .pSymbits => s.pSymbits.setWidth 32
  | .pGfpoly => s.pGfpoly.setWidth 32
  | .pFcr => s.pFcr.setWidth 32
  | .pPrim => s.pPrim.setWidth 32
  | .pNroots => s.pNroots.setWidth 32
  | .pPad => s.pPad.setWidth 32
  | .decState => s.decState.bits.setWidth 32
  | .decTag => s.decTag.setWidth 32
  | .decClass => BitVec.ofNat 32 s.decClass.val
  | .decPos => s.decPos.setWidth 32
  | .rxLen => s.rxLen.setWidth 32
  | .rxFlags => s.rxFlags.setWidth 32
  | .rxErrs => s.rxErrs.setWidth 32

/-- R23, R280: a write of w to CMD while the engine is idle. The command's latency is a free value (R282, log 5). -/
def State.issue (s : State) (w : Word) : State :=
  { s with pending := some w, latency := Config.cmdLatency s.fresh, fresh := s.fresh + 1 }

/-- R22, R66: a write to a register, or none where the register is read only (R67). -/
def State.writeReg (s : State) (w : Word) : Reg → Option State
  | .cmd => some (s.issue w)
  | .crcAcc => some (s.setCrc (w.setWidth 16))
  | .mode => some { s with level4 := w.setWidth 1 }
  | .neras => some { s with neras := w.setWidth 8 }
  | .pSymbits => some { s with pSymbits := w.setWidth 8 }
  | .pGfpoly => some { s with pGfpoly := w.setWidth 16 }
  | .pFcr => some { s with pFcr := w.setWidth 16 }
  | .pPrim => some { s with pPrim := w.setWidth 16 }
  | .pNroots => some { s with pNroots := w.setWidth 16 }
  | .pPad => some { s with pPad := w.setWidth 16 }
  | .status => none
  | .result => none
  | .cbValid => none
  | .decState => none
  | .decTag => none
  | .decClass => none
  | .decPos => none
  | .rxLen => none
  | .rxFlags => none
  | .rxErrs => none

/-- R62, R63, R67: a write to a location, or none where it is read only. -/
def State.writeAt (s : State) (w : Word) : Location → Option State
  | .reg r => s.writeReg w r
  | .info _ _ => none
  | .byte b i => if b.hostWritable then some (s.storeByte b i (w.setWidth 8)) else none

/-- R62, R63: a read of a location. -/
def State.readAt (s : State) : Location → Except Fault Word
  | .reg r => .ok (s.readReg r)
  | .info c f => .ok (s.cb[c].info f)
  | .byte b i =>
    match s.loadByte b i with
    | .error f => .error f
    | .ok v => .ok (v.setWidth 32)

/-- R70: the reads that are served while a command is pending: STATUS and CMD. -/
def servedWhileBusy : Location → Bool
  | .reg .status => true
  | .reg .cmd => true
  | .reg _ => false
  | .info _ _ => false
  | .byte _ _ => false

/-- R61 to R70: one access, its response and the state after it. A bus error changes nothing (R61, R306). -/
def State.serve (s : State) (a : Access) : Except Fault (State × BusResponse) :=
  if a.size ≠ 4 then .ok (s, .busError)
  else
    match locate a.offset.toNat with
    | none => .ok (s, .busError)
    | some l =>
      match a.kind with
      | .read =>
        if s.busy && !servedWhileBusy l then .ok (s, .busError)
        else
          match s.readAt l with
          | .error f => .error f
          | .ok v => .ok (s, .readOk v)
      | .write =>
        if s.busy then .ok (s, .busError)
        else
          match s.writeAt a.wdata l with
          | none => .ok (s, .busError)
          | some s' => .ok (s', .writeOk)

/-- The response is recorded, newest first (log 2). -/
def State.respond (s : State) (r : BusResponse) : State := { s with responses := r :: s.responses }

/-- The host's moves after one of them is made; it counts against the latency of a pending command (R282, log 5). -/
def State.hostMoved (s : State) (rest : List HostMove) : State := { s with host := rest, latency := s.latency - 1 }

/-- The host's moves replaced: WAIT stays the next move while BUSY is 1 (log 21). -/
def State.queue (s : State) (moves : List HostMove) : State := { s with host := moves }

/-- R330: reset asserted in any state: the reset state, a pending command discarded. The parameters, the host's other
moves and the responses already given are the host's and stay; the buffers take new unspecified contents (log 23). -/
def State.assertReset (s : State) : State :=
  { State.afterReset s.params s.fresh with host := s.host, responses := s.responses }

/-- R101 `RD off`: MemRead(BASE_ADDR + off, 4). -/
def readMove (off : BitVec 14) : HostMove := .access { kind := .read, offset := off, size := 4, wdata := 0 }

/-- R101 `WR off, v`: MemWrite(BASE_ADDR + off, 4, v). -/
def writeMove (off : BitVec 14) (v : Word) : HostMove := .access { kind := .write, offset := off, size := 4, wdata := v }

/-- R101 `WRB X, i, v`: a write of buffer element X[i]. -/
def writeByteMove (b : Buf) (i : Nat) (v : Byte) : HostMove :=
  writeMove (BitVec.ofNat 14 (b.addr i)) (v.setWidth 32)

/-- R101: a bare command: the word written to CMD, then WAIT. -/
def commandMoves (w : Word) : List HostMove := [writeMove 0x000 w, .wait]

/-- R100: the commands of a line in order, with a WAIT after each. -/
def lineMoves (ws : List Word) : List HostMove := ws.flatMap commandMoves

/-- R60, R61: the access a bus master makes at a bus address, where the address lies in the block's window. -/
def accessAt (p : Params) (kind : AccessKind) (addr size : Nat) (wdata : Word) : Option Access :=
  if p.baseAddr ≤ addr ∧ addr < p.baseAddr + 0x4000 then
    some { kind := kind, offset := BitVec.ofNat 14 (addr - p.baseAddr), size := size, wdata := wdata }
  else none

/-- The access WAIT repeats (R101). -/
def statusRead : Access := { kind := .read, offset := 0x004, size := 4, wdata := 0 }

/-- R101 `WAIT`: read STATUS; bit 8 set means read it again. -/
def waitAgain : BusResponse → Bool
  | .readOk v => v.getLsbD 8
  | .writeOk => false
  | .busError => false

/-- R280: the host's next move, or no change where it makes none (log 20). -/
def hostStep (s : State) : Result :=
  match s.host with
  | [] => .next s
  | .reset :: rest => .next (s.hostMoved rest).assertReset
  | .access a :: rest =>
    match (s.hostMoved rest).serve a with
    | .error f => .fault f
    | .ok (s', r) => .next (s'.respond r)
  | .wait :: rest =>
    match (s.hostMoved rest).serve statusRead with
    | .error f => .fault f
    | .ok (s', r) => .next (if waitAgain r then (s'.respond r).queue s.host else s'.respond r)

/-- R280, R282: the engine completes the pending command now: its latency has run out, or the host makes no move
(log 5). -/
def State.engineReady (s : State) : Bool := decide (s.latency = 0) || s.host.isEmpty

end Sys2Proof.Machine
end

