-- ==== Sys2Proof/Syntax.lean ====
section
/-! DEFINITION. The commands, one constructor for each row of the opcode map (30_encoding.md R95), with the operand
fields of R92 at their own widths (R94: every field is an unsigned number). -/

namespace Sys2Proof

/-- A decoded command word (R90, R92, R95). -/
inductive Instr where
  /-- NOP (R285). -/
  | nop
  /-- GF_INIT s (R124). -/
  | gfInit (slot : BitVec 3)
  /-- GF_MUL s, x, y (R132). -/
  | gfMul (slot : BitVec 3) (x y : Byte)
  /-- GF_DIV s, x, y (R134). -/
  | gfDiv (slot : BitVec 3) (x y : Byte)
  /-- GF_LOG s, x (R136). -/
  | gfLog (slot : BitVec 3) (x : Byte)
  /-- GF_EXP s, i (R138). -/
  | gfExp (slot : BitVec 3) (i : Byte)
  /-- GF_MODNN s, v (R140). -/
  | gfModnn (slot : BitVec 3) (v : Half)
  /-- GF_GENPOLY s, i (R142). -/
  | gfGenpoly (slot : BitVec 3) (i : Byte)
  /-- RS_ENCODE s (R161). -/
  | rsEncode (slot : BitVec 3)
  /-- RS_DECODE s (R166). -/
  | rsDecode (slot : BitVec 3)
  /-- CRC_LOAD v (R202). -/
  | crcLoad (v : Half)
  /-- CRC_BYTE b (R203). -/
  | crcByte (b : Byte)
  /-- CRC_BUF off, len (R204). -/
  | crcBuf (off : Byte) (len : BitVec 9)
  /-- SCR_APPLY off, len (R213). -/
  | scrApply (off : Byte) (len : BitVec 9)
  /-- SCR_READ i (R214). -/
  | scrRead (i : Byte)
  /-- NGH_SELECT n (R240). -/
  | nghSelect (n : Byte)
  /-- NGH_TAG_LOOKUP t (R242). -/
  | nghTagLookup (t : Tag)
  /-- NGH_ENCODE len, flags (R250). -/
  | nghEncode (len : Byte) (flags : BitVec 3)
  /-- NGH_DEC_RESET (R258). -/
  | nghDecReset
  /-- NGH_DEC_BYTE b (R260). -/
  | nghDecByte (b : Byte)
deriving DecidableEq, Repr

/-- The SLOT operand of the formats S, G, G1 and W (R92), where the command has one. -/
def Instr.slot? : Instr → Option (BitVec 3)
  | .gfInit s => some s
  | .gfMul s _ _ => some s
  | .gfDiv s _ _ => some s
  | .gfLog s _ => some s
  | .gfExp s _ => some s
  | .gfModnn s _ => some s
  | .gfGenpoly s _ => some s
  | .rsEncode s => some s
  | .rsDecode s => some s
  | .nop => none
  | .crcLoad _ => none
  | .crcByte _ => none
  | .crcBuf _ _ => none
  | .scrApply _ _ => none
  | .scrRead _ => none
  | .nghSelect _ => none
  | .nghTagLookup _ => none
  | .nghEncode _ _ => none
  | .nghDecReset => none
  | .nghDecByte _ => none

end Sys2Proof
end

