-- ==== Sys2Proof/WellFormed.lean ====
section
/-! DEFINITION. Which commands have a word: SLOT names one of the slots 0..6, and SLOT = 7 spells no valid command
(30_encoding.md R93). Every other operand field takes every value of its width (R92, R94). -/

namespace Sys2Proof

/-- R93: the SLOT operand, where there is one, is not 7. -/
def Instr.wellFormed (i : Instr) : Bool :=
  match i.slot? with
  | some s => s != 7
  | none => true

end Sys2Proof
end

