-- ==== Sys2Proof/Decode.lean ====
section
/-! DEFINITION. The command decoder (30_encoding.md R91 to R98), total on every word, and the encoder after it, both
written from the format table R92 and the opcode map R95. -/

namespace Sys2Proof

/-- Why a word spells no command (R96 to R98). All three are the one status ERR_ILLEGAL. -/
inductive Reject where
  /-- The opcode has no row in R95 (R97). -/
  | reservedOpcode
  /-- The opcode has a row, and a bit that R92 marks "0" is 1 (R98). -/
  | reservedBits
  /-- SLOT = 7 (R93). -/
  | slotSeven
deriving DecidableEq, Repr

/-- R91: OPC = w[31:24]. -/
def opcField (w : Word) : BitVec 8 := w.extractLsb' 24 8
/-- R92: SLOT = w[18:16]. -/
def slotField (w : Word) : BitVec 3 := w.extractLsb' 16 3
/-- R92: X = w[15:8]. -/
def xField (w : Word) : Byte := w.extractLsb' 8 8
/-- R92: Y = IMM8 = w[7:0], and LEN of format E. -/
def lowByteField (w : Word) : Byte := w.extractLsb' 0 8
/-- R92: V = IMM16 = w[15:0]. -/
def lowHalfField (w : Word) : Half := w.extractLsb' 0 16
/-- R92: OFF = w[23:16] of format B. -/
def offField (w : Word) : Byte := w.extractLsb' 16 8
/-- R92: LEN = w[8:0] of format B. -/
def lenField (w : Word) : BitVec 9 := w.extractLsb' 0 9
/-- R92: TAG = w[23:0]. -/
def tagField (w : Word) : Tag := w.extractLsb' 0 24
/-- R92: FLAGS = w[10:8] of format E. -/
def flagsField (w : Word) : BitVec 3 := w.extractLsb' 8 3

/-- Format N: bits 23:0 are reserved zeros. -/
def formatN (w : Word) (i : Instr) : Except Reject Instr :=
  if w.extractLsb' 0 24 = 0 then .ok i else .error .reservedBits

/-- R93, R96: SLOT = 7 is illegal. -/
def withSlotField (w : Word) (k : BitVec 3 → Instr) : Except Reject Instr :=
  if slotField w = 7 then .error .slotSeven else .ok (k (slotField w))

/-- Format S: bits 23:19 and 15:0 are reserved zeros. -/
def formatS (w : Word) (k : BitVec 3 → Instr) : Except Reject Instr :=
  if w.extractLsb' 19 5 = 0 ∧ w.extractLsb' 0 16 = 0 then withSlotField w k else .error .reservedBits

/-- Format G: bits 23:19 are reserved zeros. -/
def formatG (w : Word) (k : BitVec 3 → Byte → Byte → Instr) : Except Reject Instr :=
  if w.extractLsb' 19 5 = 0 then withSlotField w (fun s => k s (xField w) (lowByteField w))
  else .error .reservedBits

/-- Format G1: bits 23:19 and 7:0 are reserved zeros. -/
def formatG1 (w : Word) (k : BitVec 3 → Byte → Instr) : Except Reject Instr :=
  if w.extractLsb' 19 5 = 0 ∧ w.extractLsb' 0 8 = 0 then withSlotField w (fun s => k s (xField w))
  else .error .reservedBits

/-- Format W: bits 23:19 are reserved zeros. -/
def formatW (w : Word) (k : BitVec 3 → Half → Instr) : Except Reject Instr :=
  if w.extractLsb' 19 5 = 0 then withSlotField w (fun s => k s (lowHalfField w)) else .error .reservedBits

/-- Format I16: bits 23:16 are reserved zeros. -/
def formatI16 (w : Word) (k : Half → Instr) : Except Reject Instr :=
  if w.extractLsb' 16 8 = 0 then .ok (k (lowHalfField w)) else .error .reservedBits

/-- Format I8: bits 23:8 are reserved zeros. -/
def formatI8 (w : Word) (k : Byte → Instr) : Except Reject Instr :=
  if w.extractLsb' 8 16 = 0 then .ok (k (lowByteField w)) else .error .reservedBits

/-- Format B: bits 15:9 are reserved zeros. -/
def formatB (w : Word) (k : Byte → BitVec 9 → Instr) : Except Reject Instr :=
  if w.extractLsb' 9 7 = 0 then .ok (k (offField w) (lenField w)) else .error .reservedBits

/-- Format T: no reserved bit. -/
def formatT (w : Word) (k : Tag → Instr) : Except Reject Instr := .ok (k (tagField w))

/-- Format E: bits 23:11 are reserved zeros. -/
def formatE (w : Word) (k : Byte → BitVec 3 → Instr) : Except Reject Instr :=
  if w.extractLsb' 11 13 = 0 then .ok (k (lowByteField w) (flagsField w)) else .error .reservedBits

/-- R95, R96: the command a word spells, or why it spells none. -/
def decode (w : Word) : Except Reject Instr :=
  match (opcField w).toNat with
  | 0x00 => formatN w .nop
  | 0x01 => formatS w .gfInit
  | 0x02 => formatG w .gfMul
  | 0x03 => formatG w .gfDiv
  | 0x04 => formatG1 w .gfLog
  | 0x05 => formatG1 w .gfExp
  | 0x06 => formatW w .gfModnn
  | 0x07 => formatG1 w .gfGenpoly
  | 0x10 => formatS w .rsEncode
  | 0x11 => formatS w .rsDecode
  | 0x20 => formatI16 w .crcLoad
  | 0x21 => formatI8 w .crcByte
  | 0x22 => formatB w .crcBuf
  | 0x28 => formatB w .scrApply
  | 0x29 => formatI8 w .scrRead
  | 0x30 => formatI8 w .nghSelect
  | 0x31 => formatT w .nghTagLookup
  | 0x32 => formatE w .nghEncode
  | 0x33 => formatN w .nghDecReset
  | 0x34 => formatI8 w .nghDecByte
  | _ => .error .reservedOpcode

/-- The instruction the decoder reads from a table row's word: bit 0 of `w` is bit 0 of the command word (R11), and the
bits at and above `nbits` are 0. There is one length, 32 bits (R90). -/
def decodeTableWord (nbits w : Nat) : Option Instr :=
  if nbits ≤ 32 then
    match decode (BitVec.ofNat 32 (w % 2 ^ nbits)) with
    | .ok i => some i
    | .error _ => none
  else none

/-- A row of the opcode map (R95): `pattern` is its column "match". -/
structure OpcodeRow where
  /-- Column "mnemonic". -/
  mnemonic : String
  /-- Column "match". -/
  pattern : Word
  /-- Column "mask". -/
  mask : Word
  /-- The row's format is S, G, G1 or W, which have a SLOT field (R92, R96). -/
  hasSlot : Bool
deriving DecidableEq, Repr

/-- R95, the opcode map with its columns match and mask. The decoder reads fields instead; an obligation says that the
two agree on every word. -/
def opcodeRows : List OpcodeRow :=
  [⟨"NOP", 0x00000000, 0xFFFFFFFF, false⟩, ⟨"GF_INIT", 0x01000000, 0xFFF8FFFF, true⟩,
   ⟨"GF_MUL", 0x02000000, 0xFFF80000, true⟩, ⟨"GF_DIV", 0x03000000, 0xFFF80000, true⟩,
   ⟨"GF_LOG", 0x04000000, 0xFFF800FF, true⟩, ⟨"GF_EXP", 0x05000000, 0xFFF800FF, true⟩,
   ⟨"GF_MODNN", 0x06000000, 0xFFF80000, true⟩, ⟨"GF_GENPOLY", 0x07000000, 0xFFF800FF, true⟩,
   ⟨"RS_ENCODE", 0x10000000, 0xFFF8FFFF, true⟩, ⟨"RS_DECODE", 0x11000000, 0xFFF8FFFF, true⟩] ++
  [⟨"CRC_LOAD", 0x20000000, 0xFFFF0000, false⟩, ⟨"CRC_BYTE", 0x21000000, 0xFFFFFF00, false⟩,
   ⟨"CRC_BUF", 0x22000000, 0xFF00FE00, false⟩, ⟨"SCR_APPLY", 0x28000000, 0xFF00FE00, false⟩,
   ⟨"SCR_READ", 0x29000000, 0xFFFFFF00, false⟩, ⟨"NGH_SELECT", 0x30000000, 0xFFFFFF00, false⟩,
   ⟨"NGH_TAG_LOOKUP", 0x31000000, 0xFF000000, false⟩, ⟨"NGH_ENCODE", 0x32000000, 0xFFFFF800, false⟩,
   ⟨"NGH_DEC_RESET", 0x33000000, 0xFFFFFFFF, false⟩, ⟨"NGH_DEC_BYTE", 0x34000000, 0xFFFFFF00, false⟩]

/-- R95: "a word w spells row r". -/
abbrev OpcodeRow.spelledBy (r : OpcodeRow) (w : Word) : Prop :=
  w &&& r.mask = r.pattern ∧ (r.hasSlot = true → w.extractLsb' 16 3 ≠ 7)

/-- The mnemonic of a command (R95). -/
def Instr.mnemonic : Instr → String
  | .nop => "NOP"
  | .gfInit _ => "GF_INIT"
  | .gfMul _ _ _ => "GF_MUL"
  | .gfDiv _ _ _ => "GF_DIV"
  | .gfLog _ _ => "GF_LOG"
  | .gfExp _ _ => "GF_EXP"
  | .gfModnn _ _ => "GF_MODNN"
  | .gfGenpoly _ _ => "GF_GENPOLY"
  | .rsEncode _ => "RS_ENCODE"
  | .rsDecode _ => "RS_DECODE"
  | .crcLoad _ => "CRC_LOAD"
  | .crcByte _ => "CRC_BYTE"
  | .crcBuf _ _ => "CRC_BUF"
  | .scrApply _ _ => "SCR_APPLY"
  | .scrRead _ => "SCR_READ"
  | .nghSelect _ => "NGH_SELECT"
  | .nghTagLookup _ => "NGH_TAG_LOOKUP"
  | .nghEncode _ _ => "NGH_ENCODE"
  | .nghDecReset => "NGH_DEC_RESET"
  | .nghDecByte _ => "NGH_DEC_BYTE"

/-- The SLOT field of a slot's number (R92, R93). -/
def slotBits (c : SlotId) : BitVec 3 := BitVec.ofNat 3 c.val

/-- The opcode of a command (R95, column OPC). -/
def Instr.opcode : Instr → BitVec 8
  | .nop => 0x00
  | .gfInit _ => 0x01
  | .gfMul _ _ _ => 0x02
  | .gfDiv _ _ _ => 0x03
  | .gfLog _ _ => 0x04
  | .gfExp _ _ => 0x05
  | .gfModnn _ _ => 0x06
  | .gfGenpoly _ _ => 0x07
  | .rsEncode _ => 0x10
  | .rsDecode _ => 0x11
  | .crcLoad _ => 0x20
  | .crcByte _ => 0x21
  | .crcBuf _ _ => 0x22
  | .scrApply _ _ => 0x28
  | .scrRead _ => 0x29
  | .nghSelect _ => 0x30
  | .nghTagLookup _ => 0x31
  | .nghEncode _ _ => 0x32
  | .nghDecReset => 0x33
  | .nghDecByte _ => 0x34

/-- The word of a command, field by field from the most significant end (R92, R99). -/
def encode (i : Instr) : Word :=
  match i with
  | .nop => i.opcode ++ (0 : BitVec 24)
  | .gfInit s => i.opcode ++ (0 : BitVec 5) ++ s ++ (0 : BitVec 16)
  | .gfMul s x y => i.opcode ++ (0 : BitVec 5) ++ s ++ x ++ y
  | .gfDiv s x y => i.opcode ++ (0 : BitVec 5) ++ s ++ x ++ y
  | .gfLog s x => i.opcode ++ (0 : BitVec 5) ++ s ++ x ++ (0 : BitVec 8)
  | .gfExp s x => i.opcode ++ (0 : BitVec 5) ++ s ++ x ++ (0 : BitVec 8)
  | .gfModnn s v => i.opcode ++ (0 : BitVec 5) ++ s ++ v
  | .gfGenpoly s x => i.opcode ++ (0 : BitVec 5) ++ s ++ x ++ (0 : BitVec 8)
  | .rsEncode s => i.opcode ++ (0 : BitVec 5) ++ s ++ (0 : BitVec 16)
  | .rsDecode s => i.opcode ++ (0 : BitVec 5) ++ s ++ (0 : BitVec 16)
  | .crcLoad v => i.opcode ++ (0 : BitVec 8) ++ v
  | .crcByte b => i.opcode ++ (0 : BitVec 16) ++ b
  | .crcBuf off len => i.opcode ++ off ++ (0 : BitVec 7) ++ len
  | .scrApply off len => i.opcode ++ off ++ (0 : BitVec 7) ++ len
  | .scrRead n => i.opcode ++ (0 : BitVec 16) ++ n
  | .nghSelect n => i.opcode ++ (0 : BitVec 16) ++ n
  | .nghTagLookup t => i.opcode ++ t
  | .nghEncode len flags => i.opcode ++ (0 : BitVec 13) ++ flags ++ len
  | .nghDecReset => i.opcode ++ (0 : BitVec 24)
  | .nghDecByte b => i.opcode ++ (0 : BitVec 16) ++ b

end Sys2Proof
end

