-- ==== Sys2Proof/Machine/Control.lean ====
section
/-! DEFINITION. NOP (44_control.md R285). -/

namespace Sys2Proof.Machine

/-- NOP (R285): `finish(OK, 0)`. -/
def execNop (s : State) : Result := .next (s.finish .ok 0)

end Sys2Proof.Machine
end

