-- ==== Sys2Proof/Machine/Operands.lean ====
section
/-! DEFINITION. The operand forms of the commands: the SLOT operand (30_encoding.md R93, 40_gf.md R131), field-element
operands (R131), DBUF ranges (42_crc_scrambler.md R204, R213) and the parameter registers (10_state.md R30). -/

namespace Sys2Proof.Machine

/-- R93: the slot a SLOT operand names, 0..6. -/
def slotOf? (slot : BitVec 3) : Option SlotId :=
  if h : slot.toNat < 7 then some ⟨slot.toNat, h⟩ else none

/-- R93: a command with SLOT = 7 is illegal (the decoder never yields one; log 13). -/
def withSlot (slot : BitVec 3) (s : State) (k : SlotId → ControlBlock → Result) : Result :=
  match slotOf? slot with
  | none => .next (s.raiseError .illegal)
  | some c => k c s.cb[c]

/-- R131 check 1, R161, R166: the slot must be valid, else ERR_NOTINIT. -/
def withValidSlot (slot : BitVec 3) (s : State) (k : ControlBlock → Result) : Result :=
  withSlot slot s fun _ cb => if cb.valid then k cb else .next (s.raiseError .notInit)

/-- R120, R132: the byte is a field element of the slot: at most NN. -/
def inField (cb : ControlBlock) (x : Byte) : Bool := decide (x.toNat ≤ cb.fieldSize)

/-- R204, R213: the range DBUF[off .. off+len−1] does not run past DBUF[255]. -/
def rangeFits (off len : Nat) : Bool := decide (off + len ≤ 256)

/-- R124: GF_INIT's operands are the six parameter registers. -/
def State.initParams (s : State) : Except StatusCode ControlBlock :=
  initBlock s.pSymbits.toNat s.pGfpoly.toNat s.pFcr.toNat s.pPrim.toNat s.pNroots.toNat s.pPad.toNat

end Sys2Proof.Machine
end

