-- ==== Sys2Proof/Machine/CrcScrambler.lean ====
section
/-! DEFINITION. The CRC and scrambler commands (42_crc_scrambler.md). -/

namespace Sys2Proof.Machine

/-- CRC_LOAD (R202). -/
def execCrcLoad (v : Half) (s : State) : Result := .next ((s.setCrc v).finish .ok (v.setWidth 32))

/-- CRC_BYTE (R203). -/
def execCrcByte (b : Byte) (s : State) : Result :=
  let c := crcByte b s.crcAcc
  .next ((s.setCrc c).finish .ok (c.setWidth 32))

/-- CRC_BUF (R204). -/
def execCrcBuf (off : Byte) (len : BitVec 9) (s : State) : Result :=
  if rangeFits off.toNat len.toNat then
    andThen (s.loadRange .dbuf off.toNat len.toNat) fun d =>
      let c := crcFold s.crcAcc d
      .next ((s.setCrc c).finish .ok (c.setWidth 32))
  else .next (s.raiseError .range)

/-- SCR_APPLY (R213): the table index starts at 0 at DBUF[off]. -/
def execScrApply (off : Byte) (len : BitVec 9) (s : State) : Result :=
  if decide (len.toNat ≤ 255) && rangeFits off.toNat len.toNat then
    andThen (s.loadRange .dbuf off.toNat len.toNat) fun d =>
      .next ((s.storeRange .dbuf off.toNat (scramble s.params d)).finish .ok 0)
  else .next (s.raiseError .range)

/-- SCR_READ (R214). -/
def execScrRead (i : Byte) (s : State) : Result :=
  if i.toNat ≤ 254 then .next (s.finish .ok ((scramblerByte s.params i.toNat).setWidth 32))
  else .next (s.raiseError .range)

end Sys2Proof.Machine
end

