-- ==== Sys2Proof/Machine/Gf.lean ====
section
/-! DEFINITION. The Galois-field commands (40_gf.md). -/

namespace Sys2Proof.Machine

/-- GF_INIT (R124): the slot holds what the parameters give, or is zeroed on every error. -/
def execGfInit (slot : BitVec 3) (s : State) : Result :=
  withSlot slot s fun c _ =>
    match s.initParams with
    | .error err => .next ((s.setSlot c zeroBlock).raiseError err)
    | .ok cb => .next ((s.setSlot c cb).finish .ok 0)

/-- R132: the field product; a zero operand gives 0. -/
def fieldMul (cb : ControlBlock) (x y : Elem) : Elem :=
  if x = 0 ∨ y = 0 then 0 else cb.power ((cb.log x).toNat + (cb.log y).toNat)

/-- R134: the field quotient x / y for y ≠ 0, "(INDEX[x] - INDEX[y] + NN) mod NN". -/
def fieldDiv (cb : ControlBlock) (x y : Elem) : Elem :=
  if x = 0 then 0 else cb.powerInt (((cb.log x).toNat : Int) - (cb.log y).toNat + cb.fieldSize)

/-- GF_MUL (R132). -/
def execGfMul (slot : BitVec 3) (x y : Byte) (s : State) : Result :=
  withValidSlot slot s fun cb =>
    if inField cb x && inField cb y then .next (s.finish .ok ((fieldMul cb x y).setWidth 32))
    else .next (s.raiseError .range)

/-- GF_DIV (R134). -/
def execGfDiv (slot : BitVec 3) (x y : Byte) (s : State) : Result :=
  withValidSlot slot s fun cb =>
    if inField cb x && inField cb y then
      if y = 0 then .next (s.raiseError .divZero)
      else .next (s.finish .ok ((fieldDiv cb x y).setWidth 32))
    else .next (s.raiseError .range)

/-- GF_LOG (R136). -/
def execGfLog (slot : BitVec 3) (x : Byte) (s : State) : Result :=
  withValidSlot slot s fun cb =>
    if inField cb x then .next (s.finish .ok ((cb.log x).val.setWidth 32))
    else .next (s.raiseError .range)

/-- GF_EXP (R138). -/
def execGfExp (slot : BitVec 3) (i : Byte) (s : State) : Result :=
  withValidSlot slot s fun cb =>
    if inField cb i then .next (s.finish .ok ((cb.antilog ⟨i⟩).setWidth 32))
    else .next (s.raiseError .range)

/-- GF_MODNN (R140). -/
def execGfModnn (slot : BitVec 3) (v : Half) (s : State) : Result :=
  withValidSlot slot s fun cb => .next (s.finish .ok ((cb.modnn v.toNat).val.setWidth 32))

/-- GF_GENPOLY (R142). -/
def execGfGenpoly (slot : BitVec 3) (i : Byte) (s : State) : Result :=
  withValidSlot slot s fun cb =>
    if i.toNat ≤ cb.roots then .next (s.finish .ok ((cb.gen i.toNat).val.setWidth 32))
    else .next (s.raiseError .range)

end Sys2Proof.Machine
end

