-- ==== Sys2Proof/Machine/Ngham.lean ====
section
/-! DEFINITION. The NGHam commands (43_ngham.md). -/

namespace Sys2Proof.Machine

/-- NGH_SELECT (R240). -/
def execNghSelect (n : Byte) (s : State) : Result :=
  match selectClass n.toNat with
  | none => .next (s.raiseError .len)
  | some c => .next (s.finish .ok (BitVec.ofNat 32 c.val))

/-- R242: RESULT of a tag lookup, 7 where no class matches. -/
def lookupWord (o : Option SlotId) : Word :=
  match o with
  | none => 7
  | some c => BitVec.ofNat 32 c.val

/-- NGH_TAG_LOOKUP (R242). -/
def execNghTagLookup (t : Tag) (s : State) : Result :=
  .next (s.finish .ok (lookupWord (tagClass s.params t)))

/-- NGH_ENCODE (R250): FBUF[0..flen−1] holds the frame and RESULT is flen. -/
def execNghEncode (len : Byte) (flags : BitVec 3) (s : State) : Result :=
  match selectClass len.toNat with
  | none => .next (s.raiseError .len)
  | some c =>
    if cfgOk s.cb[c] c then
      andThen (s.loadRange .dbuf 0 len.toNat) fun payload =>
        let frame := frameOf s.params s.cb[c] s.level4 c flags payload
        .next ((s.storeRange .fbuf 0 frame).finish .ok (BitVec.ofNat 32 frame.length))
    else .next (s.raiseError .config)

/-- R258: the decoder session at its reset values. -/
def State.resetSession (s : State) : State :=
  { s with
    decState := .sizeTagByte1, decTag := 0, decClass := 0, decPos := 0, rxLen := 0, rxFlags := 0, rxErrs := 0 }

/-- NGH_DEC_RESET (R258). -/
def execNghDecReset (s : State) : Result := .next (s.resetSession.finish .ok 0)

/-- R260, states 0 to 2: the tag accumulator and the next state. -/
def State.tagStep (s : State) (tag : Tag) (next : DecState) : State := { s with decTag := tag, decState := next }

/-- R260, state 2, on a match: lock onto class c. -/
def State.lockOn (s : State) (c : SlotId) : State :=
  { s with decClass := c, decPos := 0, decState := .codewordAccumulating }

/-- R260: "((R[DEC_TAG] << 8) | b) & 0xFFFFFF". -/
def shiftTag (t : Tag) (b : Byte) : Tag := (t <<< 8) ||| b.setWidth 24

/-- R260, state 3: DEC_POS <- p + 1 (R12: its low 8 bits). -/
def State.advancePos (s : State) : State := { s with decPos := s.decPos + 1 }

/-- R260, state 3: the codeword is complete, back to SIZE_TAG_BYTE_1. -/
def State.leaveFrame (s : State) : State := { s with decState := .sizeTagByte1 }

/-- R264 `accept(c, len, count)`. -/
def State.acceptFrame (s : State) (payload : List Byte) (flags : BitVec 3) (count : Nat) : State :=
  { s.storeRange .rxout 0 payload with
    rxLen := BitVec.ofNat 8 payload.length, rxFlags := flags, rxErrs := BitVec.ofNat 8 count }

/-- R261 after a successful RS decode: `cw` is the codeword, `count` the corrections. -/
def State.judge (s : State) (c : SlotId) (cw : List Byte) (count : Nat) : State :=
  match judgeFrame s.params c cw with
  | .negativeLength => s.finishEvent .negativeLength
  | .crcMismatch => s.finishEvent .crcMismatch
  | .accepted payload flags => (s.acceptFrame payload flags count).finishEvent .accepted

/-- R261: RXCW and the rest after the RS decode of the received word `d`, by its outcome. NERAS and EPOS are neither
read nor written. -/
def State.frameDecoded (s : State) (c : SlotId) (d : List Byte) (o : RsOutcome) : State :=
  match o with
  | .clean => s.judge c d 0
  | .uncorrectable => s.finishEvent .uncorrectable
  | .corrected ws positions => (s.storeWrites .rxcw ws).judge c (applyWrites d ws) positions.length

/-- R261 `frame_end(c)`. -/
def frameEnd (c : SlotId) (s : State) : Result :=
  if cfgOk s.cb[c] c then
    andThen (s.loadRange .rxcw 0 (swp c)) fun d =>
      .next (s.spendDraw.frameDecoded c d (rsOutcome s.params s.fresh s.cb[c] d []))
  else .next (s.finishEvent .badConfig)

/-- R260, state 3: the de-scrambled byte is stored and the position moves on. -/
def State.takeByte (s : State) (b : Byte) : State :=
  (s.storeByte .rxcw s.decPos.toNat (b ^^^ scramblerByte s.params s.decPos.toNat)).advancePos

/-- NGH_DEC_BYTE (R260). -/
def execNghDecByte (b : Byte) (s : State) : Result :=
  match s.decState with
  | .sizeTagByte1 => .next ((s.tagStep (b.setWidth 24) .sizeTagByte2).finishEvent .progress)
  | .sizeTagByte2 => .next ((s.tagStep (shiftTag s.decTag b) .sizeTagByte3).finishEvent .progress)
  | .sizeTagByte3 =>
    let tag := shiftTag s.decTag b
    match tagClass s.params tag with
    | some c => .next (((s.tagStep tag .sizeTagByte3).lockOn c).finishEvent .locked)
    | none => .next ((s.tagStep tag .sizeTagByte1).finishEvent .noMatch)
  | .codewordAccumulating =>
    if s.decPos.toNat + 1 < swp s.decClass then .next ((s.takeByte b).finishEvent .progress)
    else frameEnd s.decClass (s.takeByte b).leaveFrame

end Sys2Proof.Machine
end

