-- ==== Sys2Proof/Machine/Rs.lean ====
section
/-! DEFINITION. RS_ENCODE and RS_DECODE (41_rs.md). -/

namespace Sys2Proof.Machine

/-- RS_ENCODE (R161): the parity of DBUF[0..k−1] goes to PBUF[0..nr−1] and to DBUF[k..n−1]. -/
def execRsEncode (slot : BitVec 3) (s : State) : Result :=
  withValidSlot slot s fun cb =>
    andThen (s.loadRange .dbuf 0 cb.msgLen) fun msg =>
      if cb.anyOutside msg then .next (s.raiseError .range)
      else
        let p := rsParity cb msg
        .next (((s.storeRange .pbuf 0 p).storeRange .dbuf cb.msgLen p).finish .ok 0)

/-- R166: an erasure position is out of range when it exceeds nn − 1. -/
def badErasure (cb : ControlBlock) (q : List Byte) : Bool := q.any fun p => decide (cb.fieldSize - 1 < p.toNat)

/-- RS_DECODE (R166): the checks in order, then the decode of DBUF[0..n−1] with the NERAS erasures of EPOS. -/
def execRsDecode (slot : BitVec 3) (s : State) : Result :=
  withValidSlot slot s fun cb =>
    if cb.roots < s.neras.toNat then .next (s.raiseError .param)
    else
      andThen (s.loadRange .epos 0 s.neras.toNat) fun q =>
        if badErasure cb q then .next (s.raiseError .param)
        else
          andThen (s.loadRange .dbuf 0 cb.blockLen) fun d =>
            if cb.anyOutside d then .next (s.raiseError .range)
            else .next (s.spendDraw.reportDecode (rsOutcome s.params s.fresh cb d (q.map BitVec.toNat)))

end Sys2Proof.Machine
end

