-- ==== Sys2Proof/Machine/Dispatch.lean ====
section
/-! DEFINITION. The meaning of each command, one arm for each constructor of Instr (30_encoding.md R95, R96). -/

namespace Sys2Proof.Machine

/-- R96 "execute row.mnemonic with the fields of rule R92". -/
def exec (i : Instr) (s : State) : Host.Outcome State Fault Refusal :=
  match i with
  | .nop => Sys2Proof.Machine.execNop s
  | .gfInit slot => Sys2Proof.Machine.execGfInit slot s
  | .gfMul slot x y => Sys2Proof.Machine.execGfMul slot x y s
  | .gfDiv slot x y => Sys2Proof.Machine.execGfDiv slot x y s
  | .gfLog slot x => Sys2Proof.Machine.execGfLog slot x s
  | .gfExp slot n => Sys2Proof.Machine.execGfExp slot n s
  | .gfModnn slot v => Sys2Proof.Machine.execGfModnn slot v s
  | .gfGenpoly slot n => Sys2Proof.Machine.execGfGenpoly slot n s
  | .rsEncode slot => Sys2Proof.Machine.execRsEncode slot s
  | .rsDecode slot => Sys2Proof.Machine.execRsDecode slot s
  | .crcLoad v => Sys2Proof.Machine.execCrcLoad v s
  | .crcByte b => Sys2Proof.Machine.execCrcByte b s
  | .crcBuf off len => Sys2Proof.Machine.execCrcBuf off len s
  | .scrApply off len => Sys2Proof.Machine.execScrApply off len s
  | .scrRead n => Sys2Proof.Machine.execScrRead n s
  | .nghSelect n => Sys2Proof.Machine.execNghSelect n s
  | .nghTagLookup t => Sys2Proof.Machine.execNghTagLookup t s
  | .nghEncode len flags => Sys2Proof.Machine.execNghEncode len flags s
  | .nghDecReset => Sys2Proof.Machine.execNghDecReset s
  | .nghDecByte b => Sys2Proof.Machine.execNghDecByte b s

end Sys2Proof.Machine
end

