-- ==== Sys2Proof/Machine/Engine.lean ====
section
/-! DEFINITION. The completion step of the engine (44_control.md R281). -/

namespace Sys2Proof.Machine

/-- R281: decode w, run the command to its `finish` or `raise CmdError`, PENDING <- none. No command reads PENDING, so
clearing it first is the same step. An illegal word changes only CODE and RESULT (R96). -/
def complete (w : Word) (s : State) : Result :=
  match decode w with
  | .error _ => .next (s.retire.raiseError .illegal)
  | .ok i => exec i s.retire

/-- The state with the word pending and the engine about to complete it. -/
def State.poised (s : State) (w : Word) : State := { s with pending := some w, latency := 0 }

end Sys2Proof.Machine
end

