-- ==== Sys2Proof/Machine/Step.lean ====
section
/-! DEFINITION. One step of the block and its host (44_control.md R280): the completion of the pending command, or the
host's next move. -/

namespace Sys2Proof.Machine

/-- R280, R281. -/
def step (s : State) : Host.Outcome State Fault Refusal :=
  match s.pending with
  | none => hostStep s
  | some w => if s.engineReady then complete w s else hostStep s

/-- The block fetches nothing (R75): "where step fetches its next instruction" is PENDING. The word is pending and the
engine's turn has come, so the very next step completes exactly it, whatever moves the host still makes (log 17). -/
def State.withFetchWord (s : State) (nbits w : Nat) : State := s.poised (BitVec.ofNat 32 (w % 2 ^ nbits))

end Sys2Proof.Machine
end

