-- ==== Sys2Proof/Machine/Assembler.lean ====
section
/-! DEFINITION. The assembler's syntax and pseudo-instructions (30_encoding.md R99, R100): the words of a line, and the
reading of a line's text (log 26). -/

namespace Sys2Proof.Machine

/-- R99: one line: the mnemonic, then the operands in order. -/
structure AsmLine where
  /-- The mnemonic or pseudo-instruction. -/
  mnemonic : String
  /-- The operands. -/
  operands : List Nat
deriving DecidableEq, Repr

/-- R99: an operand that does not fit its field is an assembly error; it is never truncated. -/
def fits (n width : Nat) : Option (BitVec width) := if n < 2 ^ width then some (BitVec.ofNat width n) else none

/-- R93: a SLOT operand is 0..6. -/
def slotOperand (n : Nat) : Option (BitVec 3) := if n < 7 then some (BitVec.ofNat 3 n) else none

/-- R99: the command a line names. -/
def parseLine (l : AsmLine) : Option Instr :=
  match l.operands with
  | [] =>
    if l.mnemonic = "NOP" then some .nop
    else if l.mnemonic = "NGH_DEC_RESET" then some .nghDecReset
    else none
  | [a] =>
    if l.mnemonic = "GF_INIT" then (slotOperand a).map .gfInit
    else if l.mnemonic = "RS_ENCODE" then (slotOperand a).map .rsEncode
    else if l.mnemonic = "RS_DECODE" then (slotOperand a).map .rsDecode
    else if l.mnemonic = "CRC_LOAD" then (fits a 16).map .crcLoad
    else if l.mnemonic = "CRC_BYTE" then (fits a 8).map .crcByte
    else if l.mnemonic = "SCR_READ" then (fits a 8).map .scrRead
    else if l.mnemonic = "NGH_SELECT" then (fits a 8).map .nghSelect
    else if l.mnemonic = "NGH_TAG_LOOKUP" then (fits a 24).map .nghTagLookup
    else if l.mnemonic = "NGH_DEC_BYTE" then (fits a 8).map .nghDecByte
    else none
  | [a, b] =>
    if l.mnemonic = "GF_LOG" then (slotOperand a).bind fun s => (fits b 8).map (.gfLog s)
    else if l.mnemonic = "GF_EXP" then (slotOperand a).bind fun s => (fits b 8).map (.gfExp s)
    else if l.mnemonic = "GF_MODNN" then (slotOperand a).bind fun s => (fits b 16).map (.gfModnn s)
    else if l.mnemonic = "GF_GENPOLY" then (slotOperand a).bind fun s => (fits b 8).map (.gfGenpoly s)
    else if l.mnemonic = "CRC_BUF" then (fits a 8).bind fun o => (fits b 9).map (.crcBuf o)
    else if l.mnemonic = "SCR_APPLY" then (fits a 8).bind fun o => (fits b 9).map (.scrApply o)
    else if l.mnemonic = "NGH_ENCODE" then (fits a 8).bind fun n => (fits b 3).map (.nghEncode n)
    else none
  | [a, b, c] =>
    if l.mnemonic = "GF_MUL" then
      (slotOperand a).bind fun s => (fits b 8).bind fun x => (fits c 8).map (.gfMul s x)
    else if l.mnemonic = "GF_DIV" then
      (slotOperand a).bind fun s => (fits b 8).bind fun x => (fits c 8).map (.gfDiv s x)
    else none
  | _ => none

/-- R100: the expansion of a line; a line that is no pseudo-instruction stands for itself. -/
def expandLine (p : Params) (l : AsmLine) : List AsmLine :=
  match l.operands with
  | [] => if l.mnemonic = "CRC_RESET" then [⟨"CRC_LOAD", [p.crcInit.toNat]⟩] else [l]
  | [a, b] =>
    if l.mnemonic = "CRC_BUFFER" then [⟨"CRC_LOAD", [p.crcInit.toNat]⟩, ⟨"CRC_BUF", [a, b]⟩]
    else if l.mnemonic = "GF_INV" then [⟨"GF_DIV", [a, 1, b]⟩]
    else if l.mnemonic = "SCR_REMOVE" then [⟨"SCR_APPLY", [a, b]⟩]
    else [l]
  | _ => [l]

/-- R99, R100: the words of a line, or none where it is an assembly error. -/
def assembleLine (p : Params) (l : AsmLine) : Option (List Word) :=
  (expandLine p l).mapM fun x => (parseLine x).map encode

/-! ## The text of a line (R99) -/

/-- A decimal digit. -/
def decimalDigit? (c : Char) : Option Nat := if c.isDigit then some (c.toNat - 48) else none

/-- A hexadecimal digit, in either case. -/
def hexDigit? (c : Char) : Option Nat :=
  if c.isDigit then some (c.toNat - 48)
  else if 65 ≤ c.toNat ∧ c.toNat ≤ 70 then some (c.toNat - 55)
  else if 97 ≤ c.toNat ∧ c.toNat ≤ 102 then some (c.toNat - 87)
  else none

/-- The number a list of digits spells after `acc`, most significant first. -/
def digitsValue (base : Nat) (digit : Char → Option Nat) : Nat → List Char → Option Nat
  | acc, [] => some acc
  | acc, c :: cs =>
    match digit c with
    | none => none
    | some d => digitsValue base digit (acc * base + d) cs

/-- R99: "A number is decimal or `0x`-prefixed hex". -/
def readNumber : List Char → Option Nat
  | [] => none
  | '0' :: 'x' :: c :: cs => digitsValue 16 hexDigit? 0 (c :: cs)
  | cs => digitsValue 10 decimalDigit? 0 cs

/-- A blank between the parts of a line (log 26). -/
def isBlank (c : Char) : Bool := c == ' ' || c == '\t'

/-- A part of a line without the blanks around it. -/
def stripBlanks (cs : List Char) : List Char := ((cs.dropWhile isBlank).reverse.dropWhile isBlank).reverse

/-- The parts between commas. -/
def splitCommas : List Char → List (List Char)
  | [] => [[]]
  | c :: cs =>
    match splitCommas cs with
    | [] => [[c]]
    | w :: ws => if c = ',' then [] :: w :: ws else (c :: w) :: ws

/-- R99: the operands after a mnemonic, separated by commas. -/
def readOperands (cs : List Char) : Option (List Nat) :=
  if stripBlanks cs = [] then some [] else (splitCommas cs).mapM fun w => readNumber (stripBlanks w)

/-- R99: the mnemonic and the operands of a line's text. -/
def readLine (text : String) : Option AsmLine :=
  let cs := stripBlanks text.toList
  let name := cs.takeWhile fun c => !isBlank c
  (readOperands (cs.drop name.length)).map fun ops => ⟨String.ofList name, ops⟩

/-- R99, R100: the words of a line's text, or none where it is an assembly error. -/
def assembleText (p : Params) (text : String) : Option (List Word) := (readLine text).bind (assembleLine p)

end Sys2Proof.Machine
end

