-- ==== Sys2Proof/Safety.lean ====
section
/-! DEFINITION. What claims about the block are stated in: the invariants of its state, reading a byte, running commands,
and what counts as a safe run of a host program. -/

namespace Sys2Proof.Machine

/-! ## Reading -/

/-- A read of X[i] gives a value: the byte has been written, or unwritten bytes are drawn (R47). -/
abbrev State.readable (s : State) (b : Buf) (i : Nat) : Prop :=
  (s.written? b i).isSome = true ∨ s.params.unwritten = .draw

/-- The byte X[i] is the same in two states: its written mark, its value, and what a read of it gives. -/
abbrev sameByte (s t : State) (b : Buf) (i : Nat) : Prop :=
  t.written? b i = s.written? b i ∧ t.loadByte b i = s.loadByte b i

/-- ALPHA[n] of a slot, n in 0..255. -/
def ControlBlock.alphaAt (cb : ControlBlock) (n : Nat) : Elem := cb.alpha.toList.getD n 0

/-- INDEX[n] of a slot as a number, n in 0..255. -/
def ControlBlock.indexAt (cb : ControlBlock) (n : Nat) : Nat := (cb.index.toList.getD n ⟨0⟩).val.toNat

/-! ## Invariants -/

/-- R44, the invariant of a valid slot. -/
abbrev slotOk (cb : ControlBlock) : Prop :=
  cb.valid = true →
    1 ≤ cb.mm.toNat ∧ cb.mm.toNat ≤ 8 ∧ cb.nn.toNat = 2 ^ cb.mm.toNat - 1 ∧ cb.fcr.toNat < cb.nn.toNat ∧
    1 ≤ cb.prim.toNat ∧ cb.prim.toNat < cb.nn.toNat ∧ Nat.gcd cb.prim.toNat cb.nn.toNat = 1 ∧
    1 ≤ cb.nroots.toNat ∧ cb.nroots.toNat ≤ min maxRoots (cb.nn.toNat - 1) ∧
    cb.pad.toNat < cb.nn.toNat - cb.nroots.toNat ∧
    cb.iprim.toNat * cb.prim.toNat % cb.nn.toNat = 1 % cb.nn.toNat

/-- R44 of every slot. -/
abbrev slotsOk (s : State) : Prop := ∀ c : SlotId, slotOk s.cb[c]

/-- R128, the bound on IPRIM of a valid slot: 0 < IPRIM < NN. R44 gives only its residue, and the Chien search of R170
counts positions from IPRIM - 1. -/
abbrev iprimOk (cb : ControlBlock) : Prop :=
  cb.valid = true → 0 < cb.iprim.toNat ∧ cb.iprim.toNat < cb.nn.toNat

/-- R128's bound in every slot. -/
abbrev iprimsOk (s : State) : Prop := ∀ c : SlotId, iprimOk s.cb[c]

/-- R34, R41: while a codeword is accumulating, DEC_POS is below SWP[DEC_CLASS], and every codeword byte before it has
been written to RXCW. -/
abbrev decoderOk (s : State) : Prop :=
  s.decState = .codewordAccumulating →
    s.decPos.toNat < swp s.decClass ∧ ∀ i < s.decPos.toNat, (s.written? .rxcw i).isSome = true

/-! ## GF(2) polynomials (R133) -/

/-- The product of two polynomials over GF(2), by the low `n` bits of `y`. -/
def polyProduct (x y : Nat) : Nat → Nat
  | 0 => 0
  | n + 1 => polyProduct x y n ^^^ (if y.testBit n then x <<< n else 0)

/-- A polynomial reduced modulo `p` of degree `deg`: bits deg + n − 1 down to deg are cleared. -/
def polyReduce (p deg : Nat) : Nat → Nat → Nat
  | 0, v => v
  | n + 1, v => polyReduce p deg n (if v.testBit (deg + n) then v ^^^ (p <<< n) else v)

/-- R133: the product of two elements as polynomials over GF(2), reduced modulo a polynomial `p` of degree `deg`. -/
def polyMul (p deg x y : Nat) : Nat := polyReduce p deg deg (polyProduct x y deg)

/-- A primitive polynomial of degree `mm` (R126): its degree is mm and the powers of its root x are distinct until
x^(2^mm - 1) = 1. -/
abbrev primitiveGfpoly (mm gfpoly : Nat) : Prop :=
  gfpoly < 2 ^ (mm + 1) ∧ gfpoly.testBit mm = true ∧ finalSr mm gfpoly = 1 ∧ (generated mm gfpoly).Nodup

/-- R130: the slot holds what GF_INIT wrote for its own parameters. -/
abbrev builtSlot (cb : ControlBlock) : Prop :=
  initBlock cb.mm.toNat cb.gfpoly.toNat cb.fcr.toNat cb.prim.toNat cb.nroots.toNat cb.pad.toNat = .ok cb

/-- R130 of every valid slot. -/
abbrev slotsBuilt (s : State) : Prop := ∀ c : SlotId, s.cb[c].valid = true → builtSlot s.cb[c]

/-- A slot built with a primitive gfpoly, as the laws R133, R162, R176 and R268 require. -/
abbrev primitiveSlot (cb : ControlBlock) : Prop :=
  builtSlot cb ∧ primitiveGfpoly cb.mm.toNat cb.gfpoly.toNat

/-! ## The address map (R62) -/

/-- R62: the mapped offsets, range by range. -/
abbrev mappedOffset (a : Nat) : Prop :=
  a % 4 = 0 ∧ (a ≤ 0x0018 ∨ (0x0020 ≤ a ∧ a ≤ 0x0034) ∨ (0x0040 ≤ a ∧ a ≤ 0x0058) ∨ (0x0100 ≤ a ∧ a ≤ 0x01DC) ∨
    (0x0400 ≤ a ∧ a ≤ 0x07FC) ∨ (0x0800 ≤ a ∧ a ≤ 0x08FC) ∨ (0x0900 ≤ a ∧ a ≤ 0x09FC) ∨
    (0x0C00 ≤ a ∧ a ≤ 0x0FFC) ∨ (0x1000 ≤ a ∧ a ≤ 0x17FC) ∨ (0x2000 ≤ a ∧ a ≤ 0x23FC))

/-- R62, R67: the mapped offsets the host may not write: the RO registers, CB_INFO and the RO buffers. -/
abbrev readOnlyOffset (a : Nat) : Prop :=
  mappedOffset a ∧ (a = 0x0004 ∨ a = 0x0008 ∨ a = 0x0018 ∨ (0x0040 ≤ a ∧ a ≤ 0x0058) ∨ (0x0100 ≤ a ∧ a ≤ 0x01DC) ∨
    (0x0C00 ≤ a ∧ a ≤ 0x0FFC) ∨ (0x1000 ≤ a ∧ a ≤ 0x17FC) ∨ (0x2000 ≤ a ∧ a ≤ 0x23FC))

/-- R62, R67: the mapped offsets the host may write. -/
abbrev writableOffset (a : Nat) : Prop := mappedOffset a ∧ ¬ readOnlyOffset a

/-! ## The tables the spec writes out (95_test_vectors.md V-GF-2 to V-GF-4) -/

/-- V-GF-2: ALPHA of the reset slots, as the spec prints it. -/
def vectorAlpha : List Nat :=
  [0x01, 0x02, 0x04, 0x08, 0x10, 0x20, 0x40, 0x80, 0x87, 0x89, 0x95, 0xAD, 0xDD, 0x3D, 0x7A, 0xF4] ++
  [0x6F, 0xDE, 0x3B, 0x76, 0xEC, 0x5F, 0xBE, 0xFB, 0x71, 0xE2, 0x43, 0x86, 0x8B, 0x91, 0xA5, 0xCD] ++
  [0x1D, 0x3A, 0x74, 0xE8, 0x57, 0xAE, 0xDB, 0x31, 0x62, 0xC4, 0x0F, 0x1E, 0x3C, 0x78, 0xF0, 0x67] ++
  [0xCE, 0x1B, 0x36, 0x6C, 0xD8, 0x37, 0x6E, 0xDC, 0x3F, 0x7E, 0xFC, 0x7F, 0xFE, 0x7B, 0xF6, 0x6B] ++
  [0xD6, 0x2B, 0x56, 0xAC, 0xDF, 0x39, 0x72, 0xE4, 0x4F, 0x9E, 0xBB, 0xF1, 0x65, 0xCA, 0x13, 0x26] ++
  [0x4C, 0x98, 0xB7, 0xE9, 0x55, 0xAA, 0xD3, 0x21, 0x42, 0x84, 0x8F, 0x99, 0xB5, 0xED, 0x5D, 0xBA] ++
  [0xF3, 0x61, 0xC2, 0x03, 0x06, 0x0C, 0x18, 0x30, 0x60, 0xC0, 0x07, 0x0E, 0x1C, 0x38, 0x70, 0xE0] ++
  [0x47, 0x8E, 0x9B, 0xB1, 0xE5, 0x4D, 0x9A, 0xB3, 0xE1, 0x45, 0x8A, 0x93, 0xA1, 0xC5, 0x0D, 0x1A] ++
  [0x34, 0x68, 0xD0, 0x27, 0x4E, 0x9C, 0xBF, 0xF9, 0x75, 0xEA, 0x53, 0xA6, 0xCB, 0x11, 0x22, 0x44] ++
  [0x88, 0x97, 0xA9, 0xD5, 0x2D, 0x5A, 0xB4, 0xEF, 0x59, 0xB2, 0xE3, 0x41, 0x82, 0x83, 0x81, 0x85] ++
  [0x8D, 0x9D, 0xBD, 0xFD, 0x7D, 0xFA, 0x73, 0xE6, 0x4B, 0x96, 0xAB, 0xD1, 0x25, 0x4A, 0x94, 0xAF] ++
  [0xD9, 0x35, 0x6A, 0xD4, 0x2F, 0x5E, 0xBC, 0xFF, 0x79, 0xF2, 0x63, 0xC6, 0x0B, 0x16, 0x2C, 0x58] ++
  [0xB0, 0xE7, 0x49, 0x92, 0xA3, 0xC1, 0x05, 0x0A, 0x14, 0x28, 0x50, 0xA0, 0xC7, 0x09, 0x12, 0x24] ++
  [0x48, 0x90, 0xA7, 0xC9, 0x15, 0x2A, 0x54, 0xA8, 0xD7, 0x29, 0x52, 0xA4, 0xCF, 0x19, 0x32, 0x64] ++
  [0xC8, 0x17, 0x2E, 0x5C, 0xB8, 0xF7, 0x69, 0xD2, 0x23, 0x46, 0x8C, 0x9F, 0xB9, 0xF5, 0x6D, 0xDA] ++
  [0x33, 0x66, 0xCC, 0x1F, 0x3E, 0x7C, 0xF8, 0x77, 0xEE, 0x5B, 0xB6, 0xEB, 0x51, 0xA2, 0xC3, 0x00]

/-- V-GF-2: INDEX of the reset slots, as the spec prints it. -/
def vectorIndex : List Nat :=
  [0xFF, 0x00, 0x01, 0x63, 0x02, 0xC6, 0x64, 0x6A, 0x03, 0xCD, 0xC7, 0xBC, 0x65, 0x7E, 0x6B, 0x2A] ++
  [0x04, 0x8D, 0xCE, 0x4E, 0xC8, 0xD4, 0xBD, 0xE1, 0x66, 0xDD, 0x7F, 0x31, 0x6C, 0x20, 0x2B, 0xF3] ++
  [0x05, 0x57, 0x8E, 0xE8, 0xCF, 0xAC, 0x4F, 0x83, 0xC9, 0xD9, 0xD5, 0x41, 0xBE, 0x94, 0xE2, 0xB4] ++
  [0x67, 0x27, 0xDE, 0xF0, 0x80, 0xB1, 0x32, 0x35, 0x6D, 0x45, 0x21, 0x12, 0x2C, 0x0D, 0xF4, 0x38] ++
  [0x06, 0x9B, 0x58, 0x1A, 0x8F, 0x79, 0xE9, 0x70, 0xD0, 0xC2, 0xAD, 0xA8, 0x50, 0x75, 0x84, 0x48] ++
  [0xCA, 0xFC, 0xDA, 0x8A, 0xD6, 0x54, 0x42, 0x24, 0xBF, 0x98, 0x95, 0xF9, 0xE3, 0x5E, 0xB5, 0x15] ++
  [0x68, 0x61, 0x28, 0xBA, 0xDF, 0x4C, 0xF1, 0x2F, 0x81, 0xE6, 0xB2, 0x3F, 0x33, 0xEE, 0x36, 0x10] ++
  [0x6E, 0x18, 0x46, 0xA6, 0x22, 0x88, 0x13, 0xF7, 0x2D, 0xB8, 0x0E, 0x3D, 0xF5, 0xA4, 0x39, 0x3B] ++
  [0x07, 0x9E, 0x9C, 0x9D, 0x59, 0x9F, 0x1B, 0x08, 0x90, 0x09, 0x7A, 0x1C, 0xEA, 0xA0, 0x71, 0x5A] ++
  [0xD1, 0x1D, 0xC3, 0x7B, 0xAE, 0x0A, 0xA9, 0x91, 0x51, 0x5B, 0x76, 0x72, 0x85, 0xA1, 0x49, 0xEB] ++
  [0xCB, 0x7C, 0xFD, 0xC4, 0xDB, 0x1E, 0x8B, 0xD2, 0xD7, 0x92, 0x55, 0xAA, 0x43, 0x0B, 0x25, 0xAF] ++
  [0xC0, 0x73, 0x99, 0x77, 0x96, 0x5C, 0xFA, 0x52, 0xE4, 0xEC, 0x5F, 0x4A, 0xB6, 0xA2, 0x16, 0x86] ++
  [0x69, 0xC5, 0x62, 0xFE, 0x29, 0x7D, 0xBB, 0xCC, 0xE0, 0xD3, 0x4D, 0x8C, 0xF2, 0x1F, 0x30, 0xDC] ++
  [0x82, 0xAB, 0xE7, 0x56, 0xB3, 0x93, 0x40, 0xD8, 0x34, 0xB0, 0xEF, 0x26, 0x37, 0x0C, 0x11, 0x44] ++
  [0x6F, 0x78, 0x19, 0x9A, 0x47, 0x74, 0xA7, 0xC1, 0x23, 0x53, 0x89, 0xFB, 0x14, 0x5D, 0xF8, 0x97] ++
  [0x2E, 0x4B, 0xB9, 0x60, 0x0F, 0xED, 0x3E, 0xE5, 0xF6, 0x87, 0xA5, 0x17, 0x3A, 0xA3, 0x3C, 0xB7]

/-- V-GF-3: the 16-root generator, in index form. -/
def vectorGen16 : List Nat := [122, 240, 18, 180, 199, 181, 221, 49, 234, 225, 63, 199, 138, 40, 54, 197, 0]

/-- V-GF-4: the 32-root generator, in index form. -/
def vectorGen32 : List Nat :=
  [0, 249, 59, 66, 4, 43, 126, 251, 97, 30] ++
  [3, 213, 50, 66, 170, 5, 24, 5, 170, 66, 50, 213, 3, 30, 97, 251, 126, 43, 4, 66, 59, 249, 0]

/-! ## Codewords (R160, R176) -/

/-- The indices at which two words differ. -/
def differAt (d e : List Elem) : List Nat := (List.range d.length).filter fun j => d.getD j 0 ≠ e.getD j 0

/-! ## The streaming decoder -/

/-- R261, R262, R264: how a frame of class c ends once its codeword is `cw` after the RS decode with `count`
corrections, `s` being the state at the frame's last byte and `t` the state after it. -/
abbrev frameJudged (s t : State) (c : SlotId) (cw : List Byte) (count : Nat) : Prop :=
  let padding := (cw.getD 0 0).toNat % 32
  let len := pl c - padding
  let stored := (cw.getD (len + 1) 0).toNat * 256 + (cw.getD (len + 2) 0).toNat
  let dropped := t.rxLen = s.rxLen ∧ t.rxFlags = s.rxFlags ∧ t.rxErrs = s.rxErrs ∧ ∀ i, sameByte s t .rxout i
  (∀ i < swp c, t.written? .rxcw i = some (cw.getD i 0)) ∧
    if pl c < padding then t.result = 0xA ∧ dropped
    else if (crcFold s.params.crcInit (cw.take (len + 1))).toNat ≠ stored then t.result = 0x8 ∧ dropped
    else
      t.result = 0x1 ∧ t.rxLen.toNat = len ∧ t.rxFlags.toNat = (cw.getD 0 0).toNat / 32 ∧ t.rxErrs.toNat = count ∧
        (∀ i < len, t.written? .rxout i = some (cw.getD (i + 1) 0)) ∧ ∀ i, len ≤ i → sameByte s t .rxout i

/-! ## Runs -/

/-- Received bytes fed to the decoder, one NGH_DEC_BYTE a byte (R341). -/
def feedBytes : List Byte → State → Result
  | [], s => .next s
  | b :: bs, s =>
    match exec (.nghDecByte b) s with
    | .next t => feedBytes bs t
    | .fault f => .fault f
    | .refused r => .refused r

/-- R306: the host made no access the block rejects. A host program whose run does not keep this is at fault, and claims
about host programs take it as a hypothesis (log 3). -/
def busClean (s : State) : Bool := s.responses.all (fun r => decide (r ≠ .busError))

/-- A safe run of `k` steps: no fault, no refusal, and no bus error at the end of it (responses are never forgotten). -/
def safeRun (k : Nat) (s : State) : Prop :=
  ∃ t, Sys2Proof.core.run k s = .next t ∧ busClean t = true

end Sys2Proof.Machine
end

