-- ==== Sys2Proof/Certificates/Slice0/Obligations.lean ====
section
/-! DEFINITION. The statements for the provers, in the order of the spec's files: encoding, the step, the host's side,
reset, the Galois-field engine, Reed-Solomon, CRC and scrambler, NGHam, control, and the whole-machine rules.

A command's statement gives its next state as an update of the state it ran in, so that everything not named in the update
is unchanged. Where a command stores to buffers, the new `mem` is described byte by byte. A slot operand is `slotBits c`
for a slot `c` in 0..6; SLOT = 7 spells no command (R93), as the encoding statements say. -/

open Sys2Proof Sys2Proof.Machine

/-! ## Encoding (30_encoding.md) -/

/-- R90 to R95: decoding the word of a well-formed command gives the command back, every operand at every value. -/
def Obligations.EncodedCommandsDecode : Prop :=
  ∀ i : Instr, i.wellFormed = true → decode (encode i) = .ok i

/-- R90, R95: a word the decoder accepts is the word of the command it gives, so no bit of a word is dropped. -/
def Obligations.DecodedWordsReencode : Prop :=
  ∀ (w : Word) (i : Instr), decode w = .ok i → i.wellFormed = true ∧ encode i = w

/-- R95: the decoder accepts a word exactly when it spells a row of the opcode map, and gives that row's command; at most
one row matches any word. -/
def Obligations.WordsSpellOpcodeRows : Prop :=
  ∀ w : Word,
    (∀ r ∈ opcodeRows, r.spelledBy w → ∃ i, decode w = .ok i ∧ i.mnemonic = r.mnemonic) ∧
    ((∀ r ∈ opcodeRows, ¬ r.spelledBy w) → ∃ e, decode w = .error e) ∧
    (∀ r ∈ opcodeRows, ∀ r' ∈ opcodeRows, w &&& r.mask = r.pattern → w &&& r'.mask = r'.pattern → r = r')

/-- R102: the encoding examples, one for each format. -/
def Obligations.SampleWordsDecode : Prop :=
  decode 0x00000000 = .ok .nop ∧ decode 0x10030000 = .ok (.rsEncode 3) ∧
  decode 0x02000280 = .ok (.gfMul 0 0x02 0x80) ∧ decode 0x04000300 = .ok (.gfLog 0 0x03) ∧
  decode 0x060001FE = .ok (.gfModnn 0 510) ∧ decode 0x2000FFFF = .ok (.crcLoad 0xFFFF) ∧
  decode 0x340000ED = .ok (.nghDecByte 0xED) ∧ decode 0x22000100 = .ok (.crcBuf 0 256) ∧
  decode 0x313B49CD = .ok (.nghTagLookup 0x3B49CD) ∧ decode 0x3200050A = .ok (.nghEncode 10 5)

/-- R99: the word of each assembler line, and no word where an operand does not fit its field. A slot operand of 7 is
refused too, as 93_implementation_defined.md U10 says. -/
def Obligations.AssemblerWords : Prop :=
  let word (name : String) (operands : List Nat) : Option Nat :=
    (parseLine ⟨name, operands⟩).map fun i => (encode i).toNat
  word "NOP" [] = some 0x00000000 ∧ word "NGH_DEC_RESET" [] = some 0x33000000 ∧
  (∀ s, word "GF_INIT" [s] = if s < 7 then some (0x01000000 ||| s <<< 16) else none) ∧
  (∀ s, word "RS_ENCODE" [s] = if s < 7 then some (0x10000000 ||| s <<< 16) else none) ∧
  (∀ s, word "RS_DECODE" [s] = if s < 7 then some (0x11000000 ||| s <<< 16) else none) ∧
  (∀ s x y, word "GF_MUL" [s, x, y] =
    if s < 7 ∧ x < 256 ∧ y < 256 then some (0x02000000 ||| s <<< 16 ||| x <<< 8 ||| y) else none) ∧
  (∀ s x y, word "GF_DIV" [s, x, y] =
    if s < 7 ∧ x < 256 ∧ y < 256 then some (0x03000000 ||| s <<< 16 ||| x <<< 8 ||| y) else none) ∧
  (∀ s x, word "GF_LOG" [s, x] = if s < 7 ∧ x < 256 then some (0x04000000 ||| s <<< 16 ||| x <<< 8) else none) ∧
  (∀ s x, word "GF_EXP" [s, x] = if s < 7 ∧ x < 256 then some (0x05000000 ||| s <<< 16 ||| x <<< 8) else none) ∧
  (∀ s v, word "GF_MODNN" [s, v] = if s < 7 ∧ v < 65536 then some (0x06000000 ||| s <<< 16 ||| v) else none) ∧
  (∀ s x, word "GF_GENPOLY" [s, x] = if s < 7 ∧ x < 256 then some (0x07000000 ||| s <<< 16 ||| x <<< 8) else none) ∧
  (∀ v, word "CRC_LOAD" [v] = if v < 65536 then some (0x20000000 ||| v) else none) ∧
  (∀ b, word "CRC_BYTE" [b] = if b < 256 then some (0x21000000 ||| b) else none) ∧
  (∀ o n, word "CRC_BUF" [o, n] = if o < 256 ∧ n < 512 then some (0x22000000 ||| o <<< 16 ||| n) else none) ∧
  (∀ o n, word "SCR_APPLY" [o, n] = if o < 256 ∧ n < 512 then some (0x28000000 ||| o <<< 16 ||| n) else none) ∧
  (∀ n, word "SCR_READ" [n] = if n < 256 then some (0x29000000 ||| n) else none) ∧
  (∀ n, word "NGH_SELECT" [n] = if n < 256 then some (0x30000000 ||| n) else none) ∧
  (∀ t, word "NGH_TAG_LOOKUP" [t] = if t < 16777216 then some (0x31000000 ||| t) else none) ∧
  (∀ n f, word "NGH_ENCODE" [n, f] = if n < 256 ∧ f < 8 then some (0x32000000 ||| f <<< 8 ||| n) else none) ∧
  (∀ b, word "NGH_DEC_BYTE" [b] = if b < 256 then some (0x34000000 ||| b) else none)

/-! ## The step (44_control.md) -/

/-- R96, R281: a pending word whose turn has come and that spells a row runs that row's command, on the state with PENDING
cleared; a word that spells no row changes only STATUS.CODE, to 0xF8, and RESULT, to 0. That the step is the completion
exactly where `engineReady` holds, that `latency` is then 0, and that this comes before the host's next move are the
model's choices (logs 5, 17, 23). -/
def Obligations.StepRunsDecodedCommand : Prop :=
  ∀ (s : State) (w : Word), s.pending = some w → s.engineReady = true →
    (∀ i, decode w = .ok i → step s = exec i { s with pending := none, latency := 0 }) ∧
    (∀ r ∈ opcodeRows, r.spelledBy w → ∃ i, i.mnemonic = r.mnemonic ∧ encode i = w ∧
      step s = exec i { s with pending := none, latency := 0 }) ∧
    ((∀ r ∈ opcodeRows, ¬ r.spelledBy w) →
      step s = .next { s with pending := none, latency := 0, code := .illegal, result := 0 }) ∧
    StatusCode.illegal.byte = 0xF8

/-- R280, R101, R330: while nothing is pending, or the pending command's turn has not come, a step is the host's next
move: an access with its response, a read of STATUS that is repeated while BUSY is 1, a reset, or nothing. How moves and
responses are held is the model's choice (logs 2, 20, 21, 23). -/
def Obligations.StepMakesHostMove : Prop :=
  ∀ s : State, s.pending = none ∨ s.engineReady = false →
    (s.host = [] → step s = .next s) ∧
    (∀ a rest, s.host = .access a :: rest →
      (∀ f, State.serve { s with host := rest, latency := s.latency - 1 } a = .error f → step s = .fault f) ∧
      (∀ t r, State.serve { s with host := rest, latency := s.latency - 1 } a = .ok (t, r) →
        step s = .next { t with responses := r :: t.responses })) ∧
    (∀ rest, s.host = .wait :: rest →
      step s = .next { s with
        host := if s.pending.isSome then s.host else rest
        latency := s.latency - 1
        responses := .readOk s.statusWord :: s.responses }) ∧
    (∀ rest, s.host = .reset :: rest →
      step s = .next { State.afterReset s.params s.fresh with host := rest, responses := s.responses })

/-- R282, R70: a command cannot stay pending forever, and whatever the host does meanwhile short of a reset, it completes on
the state it was issued in: within `latency` steps the engine's turn comes, and until then only the host's own moves and
responses have changed. So no result depends on the latency. The latency is a free value (log 5). -/
def Obligations.PendingCommandReachesItsTurn : Prop :=
  ∀ (s : State) (w : Word), s.pending = some w → HostMove.reset ∉ s.host →
    ∃ k u, k ≤ s.latency ∧ Sys2Proof.core.run k s = .next u ∧ u.engineReady = true ∧
      u = { s with host := u.host, latency := u.latency, responses := u.responses }

/-! ## The host's side (20_memory.md, 10_state.md) -/

/-- R70: while a command is pending, reads of STATUS and CMD are served, and every other access is a bus error that changes
nothing. -/
def Obligations.BusyWindowRejectsAccesses : Prop :=
  ∀ (s : State) (a : Access), s.pending ≠ none →
    (a.kind = .read → a.size = 4 → a.offset = 0x0004 →
      ∃ v : Word, s.serve a = .ok (s, .readOk v) ∧ v.getLsbD 8 = true ∧ v.extractLsb' 0 8 = s.code.byte) ∧
    (a.kind = .read → a.size = 4 → a.offset = 0x0000 → s.serve a = .ok (s, .readOk 0)) ∧
    (a.kind = .read → ¬ (a.size = 4 ∧ (a.offset = 0x0004 ∨ a.offset = 0x0000)) → s.serve a = .ok (s, .busError)) ∧
    (a.kind = .write → s.serve a = .ok (s, .busError))

/-- From R69: a read never changes block state; a write issues a command only at CMD; a write anywhere else is idempotent.
That such a write changes only the location it addresses is said by RegisterWidths, BufferWords and RegisterWriteEffects. -/
def Obligations.OnlyCmdWritesHaveSideEffects : Prop :=
  ∀ (s t : State) (a : Access) (r : BusResponse), s.serve a = .ok (t, r) →
    (a.kind = .read → t = s) ∧
    (a.kind = .write → a.offset ≠ 0x0000 → t.pending = s.pending ∧ t.serve a = .ok (t, r)) ∧
    (a.kind = .write → a.offset = 0x0000 → a.size = 4 → s.pending = none → t.pending = some a.wdata)

/-- R64, R65, R68: an access that is misaligned, of another size than 4, or at an unmapped offset is a bus error with no
effect. -/
def Obligations.BadAccessesAreRejected : Prop :=
  ∀ (s : State) (a : Access),
    a.offset.toNat % 4 ≠ 0 ∨ a.size ≠ 4 ∨ ¬ mappedOffset a.offset.toNat → s.serve a = .ok (s, .busError)

/-- R62, R76: while the engine is idle, every mapped offset can be read where unwritten bytes are drawn, and every
writable one can be written. -/
def Obligations.MappedOffsetsAreServed : Prop :=
  ∀ (s : State) (a : Access), s.pending = none → a.size = 4 →
    (a.kind = .read → mappedOffset a.offset.toNat → s.params.unwritten = .draw → ∃ v, s.serve a = .ok (s, .readOk v)) ∧
    (a.kind = .write → writableOffset a.offset.toNat → ∃ t, s.serve a = .ok (t, .writeOk))

/-- R67: a write to a read-only register, CB_INFO or read-only buffer is a bus error and changes nothing; a read of CMD
returns 0. -/
def Obligations.ReadOnlyWritesAreRejected : Prop :=
  ∀ (s : State) (a : Access),
    (a.kind = .write → readOnlyOffset a.offset.toNat → s.serve a = .ok (s, .busError)) ∧
    (a.kind = .read → a.size = 4 → a.offset = 0x0000 → s.serve a = .ok (s, .readOk 0))

/-- R66: register bits beyond the width read as 0, and a write stores only the bits below it. A write to a register other
than CMD changes no other register and no buffer. -/
def Obligations.RegisterWidths : Prop :=
  (∀ (s : State) (r : Reg), (s.readReg r).toNat < 2 ^ r.width) ∧
  (∀ (s t : State) (w : Word) (r : Reg), r ≠ .cmd → s.writeReg w r = some t →
    (t.readReg r).toNat = w.toNat % 2 ^ r.width ∧ (∀ r', r' ≠ r → t.readReg r' = s.readReg r') ∧
    t.mem = s.mem ∧ t.cb = s.cb ∧ t.pending = s.pending)

/-- R63: buffer words. A read of a written element gives its byte; a read of one never written faults or gives some byte
(R47); a write to a writable buffer stores the low byte, marks the element written, and touches no other. -/
def Obligations.BufferWords : Prop :=
  ∀ (s : State) (b : Buf) (i : Nat) (a : Access), s.pending = none → i < b.size → a.size = 4 →
    a.offset.toNat = b.base + 4 * i →
    (a.kind = .read → ∀ x, s.written? b i = some x → s.serve a = .ok (s, .readOk (x.setWidth 32))) ∧
    (a.kind = .read → s.written? b i = none →
      s.serve a = .error (.unwrittenByte b i) ∨ ∃ x : Byte, s.serve a = .ok (s, .readOk (x.setWidth 32))) ∧
    (a.kind = .write → b = .dbuf ∨ b = .pbuf ∨ b = .epos →
      ∃ t, s.serve a = .ok (t, .writeOk) ∧ t = { s with mem := t.mem } ∧
        t.written? b i = some (a.wdata.extractLsb' 0 8) ∧ ∀ b' i', ¬ (b' = b ∧ i' = i) → sameByte s t b' i')

/-- R23: a write to CMD while the engine is idle makes the word pending, and STATUS.CODE, RESULT and all else keep their
values; while it is busy the write is a bus error; a read of CMD returns 0 and has no effect. -/
def Obligations.CmdWritesIssueCommands : Prop :=
  ∀ (s : State) (a : Access), a.offset = 0x0000 → a.size = 4 →
    (a.kind = .write → s.pending = none → ∃ t, s.serve a = .ok (t, .writeOk) ∧
      t = { s with pending := some a.wdata, latency := t.latency, fresh := t.fresh } ∧
      (t.readReg .status).getLsbD 8 = true) ∧
    (a.kind = .write → s.pending ≠ none → s.serve a = .ok (s, .busError)) ∧
    (a.kind = .read → s.serve a = .ok (s, .readOk 0))

/-- R22, R24, R29: what a read of each register gives while the engine is idle, by its offset. -/
def Obligations.RegisterReadValues : Prop :=
  ∀ s : State, s.pending = none →
    let read (off : BitVec 14) (v : Nat) : Prop :=
      s.serve { kind := .read, offset := off, size := 4, wdata := 0 } = .ok (s, .readOk (BitVec.ofNat 32 v))
    read 0x000 0 ∧ read 0x004 s.code.byte.toNat ∧ read 0x008 s.result.toNat ∧ read 0x00C s.crcAcc.toNat ∧
    read 0x010 s.level4.toNat ∧ read 0x014 s.neras.toNat ∧
    read 0x018 (s.cb[0].valid.toNat + 2 * s.cb[1].valid.toNat + 4 * s.cb[2].valid.toNat + 8 * s.cb[3].valid.toNat +
      16 * s.cb[4].valid.toNat + 32 * s.cb[5].valid.toNat + 64 * s.cb[6].valid.toNat) ∧
    read 0x020 s.pSymbits.toNat ∧ read 0x024 s.pGfpoly.toNat ∧ read 0x028 s.pFcr.toNat ∧ read 0x02C s.pPrim.toNat ∧
    read 0x030 s.pNroots.toNat ∧ read 0x034 s.pPad.toNat ∧
    read 0x040 (match s.decState with
      | .sizeTagByte1 => 0 | .sizeTagByte2 => 1 | .sizeTagByte3 => 2 | .codewordAccumulating => 3) ∧
    read 0x044 s.decTag.toNat ∧ read 0x048 s.decClass.val ∧ read 0x04C s.decPos.toNat ∧ read 0x050 s.rxLen.toNat ∧
    read 0x054 s.rxFlags.toNat ∧ read 0x058 s.rxErrs.toNat

/-- R26 to R28, R30: what a write to each read/write register does while the engine is idle, by its offset. -/
def Obligations.RegisterWriteEffects : Prop :=
  ∀ (s : State) (v : Word), s.pending = none →
    let write (off : BitVec 14) (t : State) : Prop :=
      s.serve { kind := .write, offset := off, size := 4, wdata := v } = .ok (t, .writeOk)
    write 0x00C { s with crcAcc := v.extractLsb' 0 16 } ∧ write 0x010 { s with level4 := v.extractLsb' 0 1 } ∧
    write 0x014 { s with neras := v.extractLsb' 0 8 } ∧ write 0x020 { s with pSymbits := v.extractLsb' 0 8 } ∧
    write 0x024 { s with pGfpoly := v.extractLsb' 0 16 } ∧ write 0x028 { s with pFcr := v.extractLsb' 0 16 } ∧
    write 0x02C { s with pPrim := v.extractLsb' 0 16 } ∧ write 0x030 { s with pNroots := v.extractLsb' 0 16 } ∧
    write 0x034 { s with pPad := v.extractLsb' 0 16 }

/-- R45: a read of CB_INFO gives the slot's scalar field, zero-extended. -/
def Obligations.ControlBlockInfo : Prop :=
  ∀ (s : State) (c : SlotId), s.pending = none →
    let read (f : Nat) (v : Nat) : Prop :=
      s.serve { kind := .read, offset := BitVec.ofNat 14 (0x100 + 0x20 * c.val + f), size := 4, wdata := 0 }
        = .ok (s, .readOk (BitVec.ofNat 32 v))
    read 0x00 s.cb[c].mm.toNat ∧ read 0x04 s.cb[c].nn.toNat ∧ read 0x08 s.cb[c].gfpoly.toNat ∧
    read 0x0C s.cb[c].fcr.toNat ∧ read 0x10 s.cb[c].prim.toNat ∧ read 0x14 s.cb[c].iprim.toNat ∧
    read 0x18 s.cb[c].nroots.toNat ∧ read 0x1C s.cb[c].pad.toNat

/-! ## Reset (70_reset_and_hazards.md) -/

/-- R332, R333: the registers and the decoder session after reset, for every value of the parameters. -/
def Obligations.RegistersAfterReset : Prop :=
  ∀ (p : Params) (n : Nat), let t := State.afterReset p n
    t.pending = none ∧ t.code.byte = 0x00 ∧ t.result = 0 ∧ t.crcAcc = p.crcInit ∧ t.level4 = 0 ∧ t.neras = 0 ∧
    t.readReg .cbValid = 0x7F ∧ t.pSymbits = 8 ∧ t.pGfpoly = 0x0187 ∧ t.pFcr = 112 ∧ t.pPrim = 11 ∧ t.pNroots = 16 ∧
    t.pPad = 208 ∧ t.decState = .sizeTagByte1 ∧ t.decTag = 0 ∧ t.decClass = 0 ∧ t.decPos = 0 ∧ t.rxLen = 0 ∧
    t.rxFlags = 0 ∧ t.rxErrs = 0 ∧ t.params = p ∧
    ∀ c : SlotId, t.cb[c].mm = 8 ∧ t.cb[c].nn = 255 ∧ t.cb[c].gfpoly = 0x187 ∧ t.cb[c].fcr = 112 ∧
      t.cb[c].prim = 11 ∧ t.cb[c].iprim = 116 ∧ t.cb[c].nroots.toNat = par c ∧ t.cb[c].pad.toNat = pads c

/-- R331, with the tables of 95_test_vectors.md V-GF-2 to V-GF-4 written out: the slots after reset are what GF_INIT
computes with the class's parameters. -/
def Obligations.SlotsAfterReset : Prop :=
  ∀ (p : Params) (n : Nat) (c : SlotId), let cb := (State.afterReset p n).cb[c]
    initBlock 8 0x187 112 11 (par c) (pads c) = .ok cb ∧ cb.valid = true ∧ cb.nn = 255 ∧ cb.iprim = 116 ∧
    cb.alpha.toList.map BitVec.toNat = vectorAlpha ∧ cb.index.toList.map LogSym.toNat = vectorIndex ∧
    cb.genpoly.toList.map LogSym.toNat =
      (if c.val < 3 then vectorGen16 ++ List.replicate 48 0 else vectorGen32 ++ List.replicate 32 0)

/-- R334, R47: no buffer byte is written after reset; a written byte reads as written; a range all of whose bytes are
readable loads, each byte as it reads. How a never-written byte reads is a parameter (log 4): a fault, or one free value
for each byte and draw. -/
def Obligations.BufferContents : Prop :=
  (∀ (p : Params) (n : Nat) (b : Buf) (i : Nat), (State.afterReset p n).written? b i = none) ∧
  (∀ (s : State) (b : Buf) (i : Nat),
    (∀ x, s.written? b i = some x → s.loadByte b i = .ok x) ∧
    (s.written? b i = none → s.params.unwritten = .fault → s.loadByte b i = .error (.unwrittenByte b i)) ∧
    (s.written? b i = none → s.params.unwritten = .draw →
      s.loadByte b i = .ok (Config.unwrittenByte s.powerOn (b.base + 4 * i)))) ∧
  (∀ (s : State) (b : Buf) (off len : Nat), (∀ i, off ≤ i → i < off + len → s.readable b i) →
    ∃ l, s.loadRange b off len = .ok l ∧ l.length = len ∧ ∀ i < len, s.loadByte b (off + i) = .ok (l.getD i 0))

/-! ## Galois-field engine (40_gf.md) -/

/-- R125, R127: GF_INIT's checks in their order; on each the slot is zeroed and nothing else but CODE and RESULT
changes. -/
def Obligations.GfInitFailures : Prop :=
  ∀ (c : SlotId) (s : State),
    let nn := 2 ^ s.pSymbits.toNat - 1
    let badParam := 8 < s.pSymbits.toNat ∨ nn ≤ s.pFcr.toNat ∨ s.pPrim.toNat = 0 ∨ nn ≤ s.pPrim.toNat ∨
      Nat.gcd s.pPrim.toNat nn ≠ 1 ∨ nn ≤ s.pNroots.toNat ∨ s.pNroots.toNat = 0 ∨ 64 < s.pNroots.toNat
    let badPadding := nn - s.pNroots.toNat ≤ s.pPad.toNat
    let badField := (buildTables s.pSymbits.toNat s.pGfpoly.toNat).sr ≠ 1
    let fails (e : StatusCode) : Prop :=
      exec (.gfInit (slotBits c)) s = .next { s with cb := s.cb.set c zeroBlock, code := e, result := 0 }
    (badParam → fails .param) ∧ (¬ badParam → badPadding → fails .padding) ∧
    (¬ badParam → ¬ badPadding → badField → fails .field)

/-- R124 to R129: where no check applies, GF_INIT installs a valid slot with the parameters, the tables the build loop
gives, the inverse of PRIM and the generator polynomial, and changes nothing else but CODE and RESULT. -/
def Obligations.GfInitInstallsSlot : Prop :=
  ∀ (c : SlotId) (s : State),
    let mm := s.pSymbits.toNat
    let nn := 2 ^ mm - 1
    mm ≤ 8 → s.pFcr.toNat < nn → 1 ≤ s.pPrim.toNat → s.pPrim.toNat < nn → Nat.gcd s.pPrim.toNat nn = 1 →
    1 ≤ s.pNroots.toNat → s.pNroots.toNat < nn → s.pNroots.toNat ≤ 64 → s.pPad.toNat < nn - s.pNroots.toNat →
    (buildTables mm s.pGfpoly.toNat).sr = 1 →
    ∃ cb : ControlBlock,
      exec (.gfInit (slotBits c)) s = .next { s with cb := s.cb.set c cb, code := .ok, result := 0 } ∧
      cb.valid = true ∧ cb.mm.toNat = mm ∧ cb.nn.toNat = nn ∧ cb.gfpoly = s.pGfpoly ∧ cb.fcr.toNat = s.pFcr.toNat ∧
      cb.prim.toNat = s.pPrim.toNat ∧ cb.iprim.toNat = primInverse s.pPrim.toNat nn ∧
      cb.nroots.toNat = s.pNroots.toNat ∧ cb.pad.toNat = s.pPad.toNat ∧
      cb.alpha = (buildTables mm s.pGfpoly.toNat).alpha ∧ cb.index = (buildTables mm s.pGfpoly.toNat).index ∧
      cb.genpoly = buildGenpoly cb s.pFcr.toNat s.pPrim.toNat s.pNroots.toNat

/-- R128: the search gives the inverse of PRIM modulo NN, between 0 and NN; 116 under the NGHam parameters. -/
def Obligations.PrimInverseInverts : Prop :=
  (∀ prim nn : Nat, 1 ≤ prim → prim < nn → Nat.gcd prim nn = 1 →
    primInverse prim nn * prim % nn = 1 ∧ 0 < primInverse prim nn ∧ primInverse prim nn < nn) ∧
  primInverse 11 255 = 116

/-- R126: the tables the model builds entry by entry are those of the build loop as the pseudocode writes it. -/
def Obligations.TablesMatchBuildLoop : Prop :=
  ∀ mm gfpoly : Nat, mm ≤ 8 →
    (buildTables mm gfpoly).alpha = alphaTable mm gfpoly ∧ (buildTables mm gfpoly).index = indexTable mm gfpoly ∧
    (buildTables mm gfpoly).sr = finalSr mm gfpoly

/-- R121: the folding loop computes x mod nn for every x and every mm in 2..8. -/
def Obligations.ModFieldIsModulo : Prop :=
  ∀ mm : Nat, 2 ≤ mm → mm ≤ 8 → ∀ x, modField mm x = x % (2 ^ mm - 1)

/-- R132: GF_MUL. The last clause needs R44's invariant of the slot. -/
def Obligations.GfMulResult : Prop :=
  ∀ (c : SlotId) (x y : Byte) (s : State), let cb := s.cb[c]
    (cb.valid = false → exec (.gfMul (slotBits c) x y) s = .next { s with code := .notInit, result := 0 }) ∧
    (cb.valid = true → cb.nn.toNat < x.toNat ∨ cb.nn.toNat < y.toNat →
      exec (.gfMul (slotBits c) x y) s = .next { s with code := .range, result := 0 }) ∧
    (slotOk cb → cb.valid = true → x.toNat ≤ cb.nn.toNat → y.toNat ≤ cb.nn.toNat →
      exec (.gfMul (slotBits c) x y) s = .next { s with
        code := .ok
        result := if x = 0 ∨ y = 0 then 0
          else (cb.alphaAt ((cb.indexAt x.toNat + cb.indexAt y.toNat) % cb.nn.toNat)).setWidth 32 })

/-- R134: GF_DIV. The last clause needs R44's invariant of the slot. -/
def Obligations.GfDivResult : Prop :=
  ∀ (c : SlotId) (x y : Byte) (s : State), let cb := s.cb[c]
    (cb.valid = false → exec (.gfDiv (slotBits c) x y) s = .next { s with code := .notInit, result := 0 }) ∧
    (cb.valid = true → cb.nn.toNat < x.toNat ∨ cb.nn.toNat < y.toNat →
      exec (.gfDiv (slotBits c) x y) s = .next { s with code := .range, result := 0 }) ∧
    (cb.valid = true → x.toNat ≤ cb.nn.toNat → y = 0 →
      exec (.gfDiv (slotBits c) x y) s = .next { s with code := .divZero, result := 0 }) ∧
    (slotOk cb → cb.valid = true → x.toNat ≤ cb.nn.toNat → y.toNat ≤ cb.nn.toNat → y ≠ 0 →
      exec (.gfDiv (slotBits c) x y) s = .next { s with
        code := .ok
        result := if x = 0 then 0
          else (cb.alphaAt (((cb.indexAt x.toNat : Int) - cb.indexAt y.toNat + cb.nn.toNat) % cb.nn.toNat).toNat).setWidth 32 })

/-- R136: GF_LOG. The logarithm of 0 is NN on every slot GF_INIT built; that of 1 is 0 where the gfpoly is primitive. -/
def Obligations.GfLogResult : Prop :=
  ∀ (c : SlotId) (x : Byte) (s : State), let cb := s.cb[c]
    (cb.valid = false → exec (.gfLog (slotBits c) x) s = .next { s with code := .notInit, result := 0 }) ∧
    (cb.valid = true → cb.nn.toNat < x.toNat →
      exec (.gfLog (slotBits c) x) s = .next { s with code := .range, result := 0 }) ∧
    (cb.valid = true → x.toNat ≤ cb.nn.toNat →
      exec (.gfLog (slotBits c) x) s = .next { s with
        code := .ok, result := BitVec.ofNat 32 (cb.indexAt x.toNat) }) ∧
    (builtSlot cb → cb.indexAt 0 = cb.nn.toNat) ∧ (primitiveSlot cb → cb.indexAt 1 = 0)

/-- R138: GF_EXP. -/
def Obligations.GfExpResult : Prop :=
  ∀ (c : SlotId) (n : Byte) (s : State), let cb := s.cb[c]
    (cb.valid = false → exec (.gfExp (slotBits c) n) s = .next { s with code := .notInit, result := 0 }) ∧
    (cb.valid = true → cb.nn.toNat < n.toNat →
      exec (.gfExp (slotBits c) n) s = .next { s with code := .range, result := 0 }) ∧
    (cb.valid = true → n.toNat ≤ cb.nn.toNat →
      exec (.gfExp (slotBits c) n) s = .next { s with code := .ok, result := (cb.alphaAt n.toNat).setWidth 32 }) ∧
    (builtSlot cb → cb.alphaAt cb.nn.toNat = 0 ∧ cb.alphaAt 0 = 1)

/-- R140: GF_MODNN. The last clause needs R44's invariant of the slot. -/
def Obligations.GfModnnResult : Prop :=
  ∀ (c : SlotId) (v : Half) (s : State), let cb := s.cb[c]
    (cb.valid = false → exec (.gfModnn (slotBits c) v) s = .next { s with code := .notInit, result := 0 }) ∧
    (slotOk cb → cb.valid = true →
      exec (.gfModnn (slotBits c) v) s = .next { s with
        code := .ok, result := BitVec.ofNat 32 (v.toNat % cb.nn.toNat) })

/-- R142: GF_GENPOLY. The third clause needs R44's invariant of the slot; the last says that the generator a primitive
gfpoly gives is monic. -/
def Obligations.GfGenpolyResult : Prop :=
  ∀ (c : SlotId) (n : Byte) (s : State), let cb := s.cb[c]
    (cb.valid = false → exec (.gfGenpoly (slotBits c) n) s = .next { s with code := .notInit, result := 0 }) ∧
    (cb.valid = true → cb.nroots.toNat < n.toNat →
      exec (.gfGenpoly (slotBits c) n) s = .next { s with code := .range, result := 0 }) ∧
    (slotOk cb → cb.valid = true → n.toNat ≤ cb.nroots.toNat →
      exec (.gfGenpoly (slotBits c) n) s = .next { s with
        code := .ok, result := (cb.genpoly.toList.getD n.toNat ⟨0⟩).val.setWidth 32 }) ∧
    (primitiveSlot cb → cb.gen cb.nroots.toNat = ⟨0⟩)

/-- R133: on a slot with a primitive gfpoly, GF_MUL gives the product of two nonzero elements as polynomials over GF(2),
reduced modulo gfpoly. -/
def Obligations.GfMulIsPolynomialProduct : Prop :=
  ∀ (c : SlotId) (x y : Byte) (s : State), let cb := s.cb[c]
    primitiveSlot cb → x ≠ 0 → y ≠ 0 → x.toNat ≤ cb.nn.toNat → y.toNat ≤ cb.nn.toNat →
    exec (.gfMul (slotBits c) x y) s = .next { s with
      code := .ok, result := BitVec.ofNat 32 (polyMul cb.gfpoly.toNat cb.mm.toNat x.toNat y.toNat) }

/-! ## Reed-Solomon (41_rs.md) -/

/-- R161: RS_ENCODE, with the parity the encoder loop gives. k is NN - NROOTS - PAD (R44); the premise is R44's
invariant. -/
def Obligations.RsEncodeEffect : Prop :=
  ∀ (c : SlotId) (s : State), let cb := s.cb[c]
    let k := cb.nn.toNat - cb.nroots.toNat - cb.pad.toNat
    slotOk cb →
    (cb.valid = false → exec (.rsEncode (slotBits c)) s = .next { s with code := .notInit, result := 0 }) ∧
    (cb.valid = true → ∀ msg, s.loadRange .dbuf 0 k = .ok msg →
      ((∃ x ∈ msg, cb.nn.toNat < x.toNat) →
        exec (.rsEncode (slotBits c)) s = .next { s with code := .range, result := 0 }) ∧
      ((∀ x ∈ msg, x.toNat ≤ cb.nn.toNat) →
        (rsParity cb msg).length = cb.nroots.toNat ∧
        ∃ t, exec (.rsEncode (slotBits c)) s = .next t ∧ t = { s with mem := t.mem, code := .ok, result := 0 } ∧
          (∀ j < cb.nroots.toNat, t.written? .pbuf j = some ((rsParity cb msg).getD j 0) ∧
            t.written? .dbuf (k + j) = some ((rsParity cb msg).getD j 0)) ∧
          ∀ b i, ¬ (b = .pbuf ∧ i < cb.nroots.toNat) → ¬ (b = .dbuf ∧ k ≤ i ∧ i < k + cb.nroots.toNat) →
            sameByte s t b i))

/-- R129, R160, R162: on a slot with a primitive gfpoly, the generator vanishes at each root α^((FCR+i)·PRIM), a message
followed by its parity is a codeword, and RS_DECODE of what RS_ENCODE left, without erasures, makes no correction and
writes nothing. -/
def Obligations.EncodedWordsAreCodewords : Prop :=
  (∀ cb : ControlBlock, primitiveSlot cb → ∀ i < cb.nroots.toNat,
    xorSum ((List.range (cb.nroots.toNat + 1)).map fun j =>
      cb.term (cb.gen j) (j * ((cb.fcr.toNat + i) * cb.prim.toNat))) = 0) ∧
  (∀ (cb : ControlBlock) (msg : List Elem), primitiveSlot cb → msg.length = cb.msgLen →
    (∀ x ∈ msg, x.toNat ≤ cb.nn.toNat) → isCodeword cb (msg ++ rsParity cb msg) = true) ∧
  (∀ (c : SlotId) (s : State) (msg : List Elem), primitiveSlot s.cb[c] → s.neras = 0 →
    s.loadRange .dbuf 0 s.cb[c].msgLen = .ok msg → (∀ x ∈ msg, x.toNat ≤ s.cb[c].nn.toNat) →
    ∃ t f, exec (.rsEncode (slotBits c)) s = .next t ∧
      exec (.rsDecode (slotBits c)) t = .next { t with code := .ok, result := 0, fresh := f })

/-- R166, R175: how RS_DECODE ends, by its checks in order and then by the outcome of the decode. A correction writes
only DBUF[0..n-1] and EPOS[0..count-1]. n is NN - PAD (R44). The decode's premises are R44's invariant of the slot and
R128's bound on IPRIM, which every step keeps (SlotsStayWellFormed). -/
def Obligations.RsDecodeEffect : Prop :=
  ∀ (c : SlotId) (s : State), let cb := s.cb[c]
    let run := exec (.rsDecode (slotBits c)) s
    let n := cb.nn.toNat - cb.pad.toNat
    (cb.valid = false → run = .next { s with code := .notInit, result := 0 }) ∧
    (cb.valid = true → cb.nroots.toNat < s.neras.toNat → run = .next { s with code := .param, result := 0 }) ∧
    (cb.valid = true → s.neras.toNat ≤ cb.nroots.toNat → ∀ q, s.loadRange .epos 0 s.neras.toNat = .ok q →
      ((∃ p ∈ q, cb.nn.toNat - 1 < p.toNat) → run = .next { s with code := .param, result := 0 }) ∧
      ((∀ p ∈ q, p.toNat ≤ cb.nn.toNat - 1) → ∀ d, s.loadRange .dbuf 0 n = .ok d →
        ((∃ x ∈ d, cb.nn.toNat < x.toNat) → run = .next { s with code := .range, result := 0 }) ∧
        (slotOk cb → iprimOk cb → (∀ x ∈ d, x.toNat ≤ cb.nn.toNat) →
          let o := rsOutcome s.params s.fresh cb d (q.map BitVec.toNat)
          (s.params.beyondBound = .exact → o = rsDecode cb d (q.map BitVec.toNat)) ∧
          (isCodeword cb d = true → o = .clean) ∧
          ∃ t, run = .next t ∧ t = { s with mem := t.mem, code := t.code, result := t.result, fresh := t.fresh } ∧
            (s.params.beyondBound = .exact → t.fresh = s.fresh) ∧
            match o with
            | .clean => t.code = .ok ∧ t.result = 0 ∧ t.mem = s.mem
            | .uncorrectable => t.code = .uncorrectable ∧ t.result = 0xFFFFFFFF ∧ t.mem = s.mem
            | .corrected ws ps => t.code = .ok ∧ t.result.toNat = ps.length ∧ ps.length ≤ cb.nroots.toNat ∧
              (ps = [] → ws = []) ∧
              (∀ j < n, t.loadByte .dbuf j = .ok ((applyWrites d ws).getD j 0)) ∧
              (∀ i < ps.length, t.written? .epos i = some (BitVec.ofNat 8 (ps.getD i 0))) ∧
              ∀ b i, ¬ (b = .dbuf ∧ i < n) → ¬ (b = .epos ∧ i < ps.length) → sameByte s t b i)))

/-- R176: the correction bound. On a slot with a primitive gfpoly, a word that differs from a codeword in ν positions that
are not erased, and in erased positions, is decoded to that codeword when 2ν + e ≤ NROOTS; unless it already is the
codeword, the count is e + ν. -/
def Obligations.ErrorsWithinBoundAreCorrected : Prop :=
  ∀ (cb : ControlBlock) (codeword d : List Elem) (q : List Nat), primitiveSlot cb →
    codeword.length = cb.blockLen → d.length = cb.blockLen → (∀ x ∈ codeword, x.toNat ≤ cb.nn.toNat) →
    (∀ x ∈ d, x.toNat ≤ cb.nn.toNat) → isCodeword cb codeword = true →
    q.Nodup → (∀ p ∈ q, cb.pad.toNat ≤ p ∧ p < cb.nn.toNat) →
    let wrong := (differAt d codeword).filter fun j => ¬ (j + cb.pad.toNat) ∈ q
    2 * wrong.length + q.length ≤ cb.nroots.toNat →
    if d = codeword then rsDecode cb d q = .clean
    else ∃ ws ps, rsDecode cb d q = .corrected ws ps ∧ applyWrites d ws = codeword ∧
      ps.length = q.length + wrong.length

/-! ## CRC and scrambler (42_crc_scrambler.md) -/

/-- R202, R203: CRC_LOAD and CRC_BYTE, with the step's shifts of R200. -/
def Obligations.CrcLoadAndByte : Prop :=
  (∀ (v : Half) (s : State),
    exec (.crcLoad v) s = .next { s with crcAcc := v, code := .ok, result := BitVec.ofNat 32 v.toNat }) ∧
  (∀ (b : Byte) (s : State),
    let c := crcByte b s.crcAcc
    exec (.crcByte b) s = .next { s with crcAcc := c, code := .ok, result := BitVec.ofNat 32 c.toNat }) ∧
  crcByte 0 0 = 0 ∧ crcByte 0x01 0 = 0x1021 ∧ crcByte 0x80 0 = 0x9188 ∧ crcByte 0xFF 0 = 0x1EF0

/-- R204: CRC_BUF. A range past DBUF[255] is refused; otherwise the bytes are folded into CRC_ACC in index order. The fold
of a buffer followed by its own CRC, high byte first, is 0, and two ranges in sequence fold as their concatenation. -/
def Obligations.CrcBufFoldsRange : Prop :=
  (∀ (off : Byte) (len : BitVec 9) (s : State),
    (256 < off.toNat + len.toNat → exec (.crcBuf off len) s = .next { s with code := .range, result := 0 }) ∧
    (off.toNat + len.toNat ≤ 256 → ∀ d, s.loadRange .dbuf off.toNat len.toNat = .ok d →
      let c := crcFold s.crcAcc d
      exec (.crcBuf off len) s = .next { s with crcAcc := c, code := .ok, result := BitVec.ofNat 32 c.toNat })) ∧
  (∀ (init : Half) (d : List Byte),
    crcFold init (d ++ [(crcFold init d).extractLsb' 8 8, (crcFold init d).extractLsb' 0 8]) = 0) ∧
  (∀ (off : Byte) (len len' : BitVec 9) (s : State) (d : List Byte), off.toNat + len.toNat + len'.toNat ≤ 256 →
    off.toNat + len.toNat < 256 → s.loadRange .dbuf off.toNat (len.toNat + len'.toNat) = .ok d →
    ∃ t u, exec (.crcBuf off len) s = .next t ∧
      exec (.crcBuf (BitVec.ofNat 8 (off.toNat + len.toNat)) len') t = .next u ∧ u.crcAcc = crcFold s.crcAcc d)

/-- R213, R211: SCR_APPLY. A bad range is refused; otherwise byte i of the range is exclusive-ored with entry i of the
table, whatever OFF is, and a second application restores every byte. -/
def Obligations.ScrApplyMasksRange : Prop :=
  ∀ (off : Byte) (len : BitVec 9) (s : State),
    (255 < len.toNat ∨ 256 < off.toNat + len.toNat →
      exec (.scrApply off len) s = .next { s with code := .range, result := 0 }) ∧
    (len.toNat ≤ 255 → off.toNat + len.toNat ≤ 256 → ∀ d, s.loadRange .dbuf off.toNat len.toNat = .ok d →
      ∃ t u, exec (.scrApply off len) s = .next t ∧ t = { s with mem := t.mem, code := .ok, result := 0 } ∧
        (∀ i < len.toNat,
          t.written? .dbuf (off.toNat + i) = some (d.getD i 0 ^^^ s.params.ccsdsTable.toList.getD i 0)) ∧
        (∀ b i, ¬ (b = .dbuf ∧ off.toNat ≤ i ∧ i < off.toNat + len.toNat) → sameByte s t b i) ∧
        exec (.scrApply off len) t = .next u ∧ ∀ b i, u.loadByte b i = s.loadByte b i)

/-- R214: SCR_READ. Under the default table entry 0 is 0xFF, entry 1 is 0x48, and the table is the sequence R212's
generator gives. That the default table is the source's is PRESUMED (log 8). -/
def Obligations.ScrReadResult : Prop :=
  (∀ (n : Byte) (s : State),
    (n = 255 → exec (.scrRead n) s = .next { s with code := .range, result := 0 }) ∧
    (n.toNat ≤ 254 → exec (.scrRead n) s = .next { s with
      code := .ok, result := BitVec.ofNat 32 (s.params.ccsdsTable.toList.getD n.toNat 0).toNat })) ∧
  ccsdsDefaultTable.toList.getD 0 0 = 0xFF ∧ ccsdsDefaultTable.toList.getD 1 0 = 0x48 ∧
  ccsdsDefaultTable.toList = ccsdsSequence 255 0xFF

/-! ## NGHam (43_ngham.md) -/

/-- R235, R240: NGH_SELECT gives the least class whose payload size holds the length, and refuses 0 and more than 220.
The selection is monotonic, and what is left over fits the five-bit padding count. -/
def Obligations.NghSelectResult : Prop :=
  (∀ (n : Byte) (s : State),
    (n.toNat = 0 ∨ 220 < n.toNat → exec (.nghSelect n) s = .next { s with code := .len, result := 0 }) ∧
    (1 ≤ n.toNat → n.toNat ≤ 220 → ∃ c : SlotId, n.toNat ≤ pl c ∧ (∀ c', n.toNat ≤ pl c' → c ≤ c') ∧
      pl c - n.toNat ≤ 31 ∧ exec (.nghSelect n) s = .next { s with code := .ok, result := BitVec.ofNat 32 c.val })) ∧
  (∀ (n m : Nat) (a b : SlotId), n ≤ m → selectClass n = some a → selectClass m = some b → a ≤ b)

/-- R233, R242: NGH_TAG_LOOKUP gives the least class whose tag is within 6 bits, or 7. -/
def Obligations.NghTagLookupResult : Prop :=
  ∀ (t : Tag) (s : State),
    (∀ c : SlotId, popcount (t ^^^ s.params.sizeTag[c]) ≤ 6 → (∀ c' < c, 6 < popcount (t ^^^ s.params.sizeTag[c'])) →
      exec (.nghTagLookup t) s = .next { s with code := .ok, result := BitVec.ofNat 32 c.val }) ∧
    ((∀ c : SlotId, 6 < popcount (t ^^^ s.params.sizeTag[c])) →
      exec (.nghTagLookup t) s = .next { s with code := .ok, result := 7 })

/-- R234: where the size tags are pairwise more than 12 bits apart (R10), at most one class is within 6 bits of any
tag. -/
def Obligations.TagMatchesAreUnique : Prop :=
  ∀ p : Params, sizeTagsFarApart p → ∀ (t : Tag) (a b : SlotId),
    popcount (t ^^^ p.sizeTag[a]) ≤ 6 → popcount (t ^^^ p.sizeTag[b]) ≤ 6 → a = b

/-- R250 to R252: NGH_ENCODE. A bad length or slot is refused; otherwise FBUF[0..flen-1] holds preamble, sync word, size tag
and scrambled codeword, RESULT is flen, and no other byte changes. The codeword is laid out byte by byte. -/
def Obligations.NghEncodeBuildsFrame : Prop :=
  ∀ (len : Byte) (flags : BitVec 3) (s : State),
    (len.toNat = 0 ∨ 220 < len.toNat → exec (.nghEncode len flags) s = .next { s with code := .len, result := 0 }) ∧
    (∀ c, selectClass len.toNat = some c →
      (cfgOk s.cb[c] c = false → exec (.nghEncode len flags) s = .next { s with code := .config, result := 0 }) ∧
      (cfgOk s.cb[c] c = true → ∀ payload, s.loadRange .dbuf 0 len.toNat = .ok payload →
        ∃ (t : State) (cw : List Byte), exec (.nghEncode len flags) s = .next t ∧
          let tag := s.params.sizeTag[c]
          let head : List Byte :=
            (if s.level4 = 0 then [0xAA, 0xAA, 0xAA, 0xAA, 0x5D, 0xE6, 0x2A, 0x7E]
             else [0xDD, 0xDD, 0xDD, 0xDD, 0xDD, 0xDD, 0xDD, 0xDD, 0x77, 0xF7, 0xFD, 0x7D, 0x5D, 0xDD, 0x7F, 0xFD]) ++
            [tag.extractLsb' 16 8, tag.extractLsb' 8 8, tag.extractLsb' 0 8]
          let crc := crcFold s.params.crcInit (cw.take (len.toNat + 1))
          cw.length = swp c ∧ (cw.getD 0 0).toNat = (pl c - len.toNat) + 32 * flags.toNat ∧
          (∀ i < len.toNat, cw.getD (i + 1) 0 = payload.getD i 0) ∧
          cw.getD (len.toNat + 1) 0 = crc.extractLsb' 8 8 ∧ cw.getD (len.toNat + 2) 0 = crc.extractLsb' 0 8 ∧
          (∀ i, len.toNat + 3 ≤ i → i < full c → cw.getD i 0 = 0) ∧
          cw.drop (full c) = rsParity s.cb[c] (cw.take (full c)) ∧
          t = { s with mem := t.mem, code := .ok, result := BitVec.ofNat 32 (head.length + swp c) } ∧
          (∀ i < head.length, t.written? .fbuf i = some (head.getD i 0)) ∧
          (∀ i < swp c, t.written? .fbuf (head.length + i) =
            some (cw.getD i 0 ^^^ s.params.ccsdsTable.toList.getD i 0)) ∧
          ∀ b i, ¬ (b = .fbuf ∧ i < head.length + swp c) → sameByte s t b i))

/-- R258: NGH_DEC_RESET puts the decoder session at its reset values; the buffers keep their contents. -/
def Obligations.NghDecResetEffect : Prop :=
  ∀ s : State, exec .nghDecReset s = .next { s with
    decState := .sizeTagByte1, decTag := 0, decClass := 0, decPos := 0, rxLen := 0, rxFlags := 0, rxErrs := 0
    code := .ok, result := 0 }

/-- R260, R265: NGH_DEC_BYTE in the three states of the tag search. -/
def Obligations.TagSearchSteps : Prop :=
  ∀ (b : Byte) (s : State), let tag : Tag := s.decTag.extractLsb' 0 16 ++ b
    (s.decState = .sizeTagByte1 → exec (.nghDecByte b) s = .next { s with
      decTag := b.setWidth 24, decState := .sizeTagByte2, code := .ok, result := 0 }) ∧
    (s.decState = .sizeTagByte2 → exec (.nghDecByte b) s = .next { s with
      decTag := tag, decState := .sizeTagByte3, code := .ok, result := 0 }) ∧
    (s.decState = .sizeTagByte3 →
      (∀ c : SlotId, popcount (tag ^^^ s.params.sizeTag[c]) ≤ 6 →
        (∀ c' < c, 6 < popcount (tag ^^^ s.params.sizeTag[c'])) →
        exec (.nghDecByte b) s = .next { s with
          decTag := tag, decClass := c, decPos := 0, decState := .codewordAccumulating, code := .ok, result := 0x2 }) ∧
      ((∀ c : SlotId, 6 < popcount (tag ^^^ s.params.sizeTag[c])) →
        exec (.nghDecByte b) s = .next { s with
          decTag := tag, decState := .sizeTagByte1, code := .ok, result := 0x4 }))

/-- R260: NGH_DEC_BYTE inside a codeword stores the de-scrambled byte and moves on. -/
def Obligations.CodewordBytesAccumulate : Prop :=
  ∀ (b : Byte) (s : State), s.decState = .codewordAccumulating → s.decPos.toNat + 1 < swp s.decClass →
    ∃ t, exec (.nghDecByte b) s = .next t ∧
      t = { s with mem := t.mem, decPos := s.decPos + 1, code := .ok, result := 0 } ∧
      t.written? .rxcw s.decPos.toNat = some (b ^^^ s.params.ccsdsTable.toList.getD s.decPos.toNat 0) ∧
      ∀ x i, ¬ (x = .rxcw ∧ i = s.decPos.toNat) → sameByte s t x i

/-- R261, R262, R264, R266: the last byte of a codeword. The premises are R44's invariant of the class's slot and R34's of
the decoder; `d` is the received codeword. -/
def Obligations.FrameEnds : Prop :=
  ∀ (b : Byte) (s : State), let c := s.decClass
    slotOk s.cb[c] → decoderOk s → s.decState = .codewordAccumulating → s.decPos.toNat + 1 = swp c →
    ∃ (d : List Byte) (t : State), d.length = swp c ∧
      (∀ i < s.decPos.toNat, s.written? .rxcw i = some (d.getD i 0)) ∧
      d.getD s.decPos.toNat 0 = b ^^^ s.params.ccsdsTable.toList.getD s.decPos.toNat 0 ∧
      exec (.nghDecByte b) s = .next t ∧
      t = { s with
        decState := .sizeTagByte1, decPos := BitVec.ofNat 8 (swp c), code := .ok, result := t.result, mem := t.mem
        rxLen := t.rxLen, rxFlags := t.rxFlags, rxErrs := t.rxErrs, fresh := t.fresh } ∧
      (s.params.beyondBound = .exact → t.fresh = s.fresh) ∧
      (∀ x i, x ≠ .rxcw → x ≠ .rxout → sameByte s t x i) ∧ (∀ i, swp c ≤ i → sameByte s t .rxcw i) ∧
      let dropped := t.rxLen = s.rxLen ∧ t.rxFlags = s.rxFlags ∧ t.rxErrs = s.rxErrs ∧
        (∀ i, sameByte s t .rxout i) ∧ ∀ i < swp c, t.written? .rxcw i = some (d.getD i 0)
      (cfgOk s.cb[c] c = false → t.result = 0xC ∧ dropped) ∧
      (cfgOk s.cb[c] c = true →
        match rsOutcome s.params s.fresh s.cb[c] d [] with
        | .uncorrectable => t.result = 0x6 ∧ dropped
        | .clean => frameJudged s t c d 0
        | .corrected ws ps => frameJudged s t c (applyWrites d ws) ps.length)

/-- R268: the round trip. A frame NGH_ENCODE builds, fed to the decoder from its size tag on, is accepted with the same
payload and flags and no corrections, for every length, flag value, scrambler table, CRC_INIT and modulation mode, and
under any size tags that keep R10. -/
def Obligations.EncodedFramesAreAccepted : Prop :=
  ∀ (len : Byte) (flags : BitVec 3) (s : State) (c : SlotId) (payload : List Byte),
    selectClass len.toNat = some c → cfgOk s.cb[c] c = true → primitiveSlot s.cb[c] → sizeTagsFarApart s.params →
    s.decState = .sizeTagByte1 → s.loadRange .dbuf 0 len.toNat = .ok payload →
    ∃ (t u : State) (frame : List Byte), exec (.nghEncode len flags) s = .next t ∧
      t.loadRange .fbuf 0 t.result.toNat = .ok frame ∧
      feedBytes (frame.drop (if s.level4 = 0 then 8 else 16)) t = .next u ∧
      u.result = 0x1 ∧ u.rxLen = len ∧ u.rxFlags = flags ∧ u.rxErrs = 0 ∧
      ∀ i < len.toNat, u.written? .rxout i = some (payload.getD i 0)

/-! ## Control and the whole machine -/

/-- R285: NOP. -/
def Obligations.NopEffect : Prop :=
  ∀ s : State, exec .nop s = .next { s with code := .ok, result := 0 }

/-- R286: no command reads STATUS or RESULT, so the error of one command never changes the effect of the next. -/
def Obligations.CommandsIgnoreStatusAndResult : Prop :=
  ∀ (i : Instr) (s : State) (code : StatusCode) (result : Word),
    exec i { s with code := code, result := result } = exec i s

/-- R281: every command ends. Where unwritten bytes are drawn it answers a next state, from every state; under the other
treatment it may stop, only on a read of a never-written byte (log 4); it is never refused. -/
def Obligations.EveryCommandCompletes : Prop :=
  ∀ (i : Instr) (s : State),
    (s.params.unwritten = .draw → ∃ t, exec i s = .next t) ∧
    (∀ f, exec i s = .fault f → ∃ b n, f = .unwrittenByte b n ∧ s.written? b n = none) ∧
    ∀ r, exec i s ≠ .refused r

/-- R304, R25: a failing command leaves every piece of state as it was, except STATUS.CODE, RESULT and, for GF_INIT, the
zeroed slot; RESULT is 0 except for an uncorrectable word, where it is 0xFFFFFFFF. `fresh` is the model's own counter
(log 16). -/
def Obligations.FailuresArePrecise : Prop :=
  ∀ (i : Instr) (s t : State), exec i s = .next t → t.code ≠ .ok →
    t = { s with code := t.code, result := t.result, cb := t.cb, fresh := t.fresh } ∧
    t.result = (if t.code = .uncorrectable then 0xFFFFFFFF else 0) ∧
    (t.cb = s.cb ∨ ∃ c : SlotId, i = .gfInit (slotBits c) ∧ t.cb = s.cb.set c zeroBlock)

/-- R130, R26, R35, R77: what each kind of state is written by. The parameters, the host's registers, the pending command
and the host's moves are written by no command; a slot only by GF_INIT; CRC_ACC only by the CRC commands; the decoder
session only by the decoder commands; each buffer only by the commands that name it. -/
def Obligations.CommandsWriteOnlyTheirState : Prop :=
  ∀ (i : Instr) (s t : State), exec i s = .next t →
    (t.pending = s.pending ∧ t.level4 = s.level4 ∧ t.neras = s.neras ∧ t.pSymbits = s.pSymbits ∧
      t.pGfpoly = s.pGfpoly ∧ t.pFcr = s.pFcr ∧ t.pPrim = s.pPrim ∧ t.pNroots = s.pNroots ∧ t.pPad = s.pPad ∧
      t.params = s.params ∧ t.host = s.host ∧ t.responses = s.responses ∧ t.latency = s.latency ∧
      t.powerOn = s.powerOn) ∧
    ((∀ c, i ≠ .gfInit c) → t.cb = s.cb) ∧
    ((∀ v, i ≠ .crcLoad v) → (∀ b, i ≠ .crcByte b) → (∀ o n, i ≠ .crcBuf o n) → t.crcAcc = s.crcAcc) ∧
    (i ≠ .nghDecReset → (∀ b, i ≠ .nghDecByte b) →
      t.decState = s.decState ∧ t.decTag = s.decTag ∧ t.decClass = s.decClass ∧ t.decPos = s.decPos ∧
      t.rxLen = s.rxLen ∧ t.rxFlags = s.rxFlags ∧ t.rxErrs = s.rxErrs) ∧
    ((∀ c, i ≠ .rsEncode c) → (∀ c, i ≠ .rsDecode c) → (∀ o n, i ≠ .scrApply o n) → ∀ n, sameByte s t .dbuf n) ∧
    ((∀ c, i ≠ .rsEncode c) → ∀ n, sameByte s t .pbuf n) ∧ ((∀ c, i ≠ .rsDecode c) → ∀ n, sameByte s t .epos n) ∧
    ((∀ n f, i ≠ .nghEncode n f) → ∀ n, sameByte s t .fbuf n) ∧
    ((∀ b, i ≠ .nghDecByte b) → ∀ n, sameByte s t .rxcw n ∧ sameByte s t .rxout n)

/-- The model's memory keeps its canonical form (log 24) across every step. -/
def Obligations.MemoryStaysCanonical : Prop :=
  ∀ s t : State, s.mem.wf → step s = .next t → t.mem.wf

/-- R44, R128, R130: every step keeps the invariant of the valid slots, the bound on their IPRIM, and that each holds what
GF_INIT computes from its own parameters. -/
def Obligations.SlotsStayWellFormed : Prop :=
  ∀ s t : State, step s = .next t →
    (slotsOk s → slotsOk t) ∧ (iprimsOk s → iprimsOk t) ∧ (slotsBuilt s → slotsBuilt t)

/-- R34, R41: every step keeps DEC_POS inside the codeword while one accumulates, and the bytes before it written. -/
def Obligations.DecoderStaysInRange : Prop :=
  ∀ s t : State, decoderOk s → step s = .next t → decoderOk t

/-- The invariants hold after reset, for every value of the parameters. -/
def Obligations.InvariantsHoldAfterReset : Prop :=
  ∀ (p : Params) (n : Nat),
    let t := State.afterReset p n
    t.mem.wf ∧ slotsOk t ∧ iprimsOk t ∧ slotsBuilt t ∧ decoderOk t ∧ (∀ c, primitiveSlot t.cb[c] ∧ cfgOk t.cb[c] c = true) ∧
    State.reset = State.afterReset defaultParams 0
end

