-- ==== Sys2Proof/Laws/Field.lean ====
section
/-! SUPPORT. What GF_INIT's function gives, said once: the bounds its checks leave, and the fields of the slot. -/

namespace Sys2Proof.Machine

/-- The bounds R125's checks leave. -/
theorem checkParams_none {mm fcr prim nroots pad : Nat} (h : checkParams mm fcr prim nroots pad = none) :
    mm ≤ 8 ∧ fcr < 2 ^ mm - 1 ∧ 1 ≤ prim ∧ prim < 2 ^ mm - 1 ∧ Nat.gcd prim (2 ^ mm - 1) = 1 ∧ 1 ≤ nroots ∧
      nroots ≤ 64 ∧ nroots < 2 ^ mm - 1 ∧ pad < 2 ^ mm - 1 - nroots := by
  simp only [checkParams] at h
  split at h
  · cases h
  split at h
  · cases h
  split at h
  · cases h
  split at h
  · cases h
  split at h
  · cases h
  split at h
  · cases h
  split at h
  · cases h
  · rename_i h1 h2 h3 h4 h5 h6 h7
    simp only [maxRoots] at h6
    exact ⟨by omega, by omega, by omega, by omega, by simpa using h4, by omega, by omega, by omega, by omega⟩

theorem two_pow_le {mm : Nat} (h : mm ≤ 8) : 2 ^ mm ≤ 256 :=
  Nat.le_trans (Nat.pow_le_pow_right (by decide) h) (by decide)

/-- R124: everything a successful GF_INIT says about its slot. -/
theorem initBlock_ok {mm gfpoly fcr prim nroots pad : Nat} {cb : ControlBlock}
    (h : initBlock mm gfpoly fcr prim nroots pad = .ok cb) :
    checkParams mm fcr prim nroots pad = none ∧ finalSr mm gfpoly = 1 ∧
      ∃ base : ControlBlock, base.alpha = alphaTable mm gfpoly ∧ base.index = indexTable mm gfpoly ∧
        cb = { base with genpoly := buildGenpoly base fcr prim nroots } ∧ base.valid = true ∧
        base.mm = BitVec.ofNat 8 mm ∧ base.nn = BitVec.ofNat 8 (2 ^ mm - 1) ∧ base.gfpoly = BitVec.ofNat 16 gfpoly ∧
        base.fcr = BitVec.ofNat 8 fcr ∧ base.prim = BitVec.ofNat 8 prim ∧
        base.iprim = BitVec.ofNat 8 (primInverse prim (2 ^ mm - 1)) ∧ base.nroots = BitVec.ofNat 8 nroots ∧
        base.pad = BitVec.ofNat 8 pad := by
  simp only [initBlock] at h
  split at h
  · cases h
  · rename_i hc
    split at h
    · cases h
    · rename_i hs
      cases h
      refine ⟨hc, by simpa using hs, ?_⟩
      refine ⟨{
          mm := BitVec.ofNat 8 mm
          nn := BitVec.ofNat 8 (2 ^ mm - 1)
          gfpoly := BitVec.ofNat 16 gfpoly
          fcr := BitVec.ofNat 8 fcr
          prim := BitVec.ofNat 8 prim
          iprim := BitVec.ofNat 8 (primInverse prim (2 ^ mm - 1))
          nroots := BitVec.ofNat 8 nroots
          pad := BitVec.ofNat 8 pad
          alpha := alphaTable mm gfpoly
          index := indexTable mm gfpoly
          genpoly := Vector.replicate 65 ⟨0⟩
          valid := true }, rfl, rfl, rfl, rfl, rfl, rfl, rfl, rfl, rfl, rfl, rfl, rfl⟩

/-- R43: the scalar fields of the slot as numbers. -/
theorem initBlock_fields {mm gfpoly fcr prim nroots pad : Nat} {cb : ControlBlock}
    (h : initBlock mm gfpoly fcr prim nroots pad = .ok cb) (hg : gfpoly < 65536) :
    cb.mm.toNat = mm ∧ cb.nn.toNat = 2 ^ mm - 1 ∧ cb.gfpoly.toNat = gfpoly ∧ cb.fcr.toNat = fcr ∧
      cb.prim.toNat = prim ∧ cb.nroots.toNat = nroots ∧ cb.pad.toNat = pad ∧ cb.valid = true := by
  obtain ⟨hc, -, base, -, -, rfl, hv, h1, h2, h3, h4, h5, -, h7, h8⟩ := initBlock_ok h
  obtain ⟨c1, c2, c3, c4, c5, c6, c7, c8, c9⟩ := checkParams_none hc
  have hp := two_pow_le c1
  simp only [h1, h2, h3, h4, h5, h7, h8, hv, BitVec.toNat_ofNat]
  exact ⟨by omega, by omega, by omega, by omega, by omega, by omega, by omega, trivial⟩

/-- A slot GF_INIT gives is built from its own fields. -/
theorem builtSlot_of_initBlock {mm gfpoly fcr prim nroots pad : Nat} {cb : ControlBlock}
    (h : initBlock mm gfpoly fcr prim nroots pad = .ok cb) (hg : gfpoly < 65536) : builtSlot cb := by
  obtain ⟨h1, -, h3, h4, h5, h6, h7, -⟩ := initBlock_fields h hg
  simp only [builtSlot, h1, h3, h4, h5, h6, h7, h]

/-- The slot chosen from a successful GF_INIT, as `resetBlock` chooses it. -/
theorem initBlock_choose {mm gfpoly fcr prim nroots pad : Nat}
    (h : (initBlock mm gfpoly fcr prim nroots pad).toBool = true) :
    initBlock mm gfpoly fcr prim nroots pad =
      .ok (match initBlock mm gfpoly fcr prim nroots pad with | .ok cb => cb | .error _ => zeroBlock) := by
  revert h
  cases initBlock mm gfpoly fcr prim nroots pad with
  | error e => intro h; cases h
  | ok cb => intro _; rfl

/-- R331: the reset slots are what GF_INIT builds. -/
theorem resetBlock_built (c : SlotId) : builtSlot (resetBlock c) := by
  have h : ∀ c : SlotId, (initBlock 8 gfpolyNgh fcrNgh primNgh (par c) (pads c)).toBool = true := by decide +kernel
  exact builtSlot_of_initBlock (initBlock_choose (h c)) (by decide)

/-- R331: the slots after reset. -/
theorem State.afterReset_cb (p : Params) (n : Nat) (c : SlotId) : (State.afterReset p n).cb[c] = resetBlock c := by
  fin_cases c <;> simp [State.afterReset]

theorem State.afterReset_slot0 (p : Params) (n : Nat) : (State.afterReset p n).cb[0] = resetBlock 0 := by
  simp [State.afterReset]

end Sys2Proof.Machine
end

