-- ==== Sys2Proof/Laws/State.lean ====
section
/-! SUPPORT. One lemma for each field of State and each update of it. -/

namespace Sys2Proof.Machine

/-! ### State.finish -/

@[simp] theorem State.finish_pending (s : State) (c : StatusCode) (r : Word) :
    (s.finish c r).pending = s.pending := rfl

@[simp] theorem State.finish_code (s : State) (c : StatusCode) (r : Word) :
    (s.finish c r).code = c := rfl

@[simp] theorem State.finish_result (s : State) (c : StatusCode) (r : Word) :
    (s.finish c r).result = r := rfl

@[simp] theorem State.finish_crcAcc (s : State) (c : StatusCode) (r : Word) :
    (s.finish c r).crcAcc = s.crcAcc := rfl

@[simp] theorem State.finish_level4 (s : State) (c : StatusCode) (r : Word) :
    (s.finish c r).level4 = s.level4 := rfl

@[simp] theorem State.finish_neras (s : State) (c : StatusCode) (r : Word) :
    (s.finish c r).neras = s.neras := rfl

@[simp] theorem State.finish_pSymbits (s : State) (c : StatusCode) (r : Word) :
    (s.finish c r).pSymbits = s.pSymbits := rfl

@[simp] theorem State.finish_pGfpoly (s : State) (c : StatusCode) (r : Word) :
    (s.finish c r).pGfpoly = s.pGfpoly := rfl

@[simp] theorem State.finish_pFcr (s : State) (c : StatusCode) (r : Word) :
    (s.finish c r).pFcr = s.pFcr := rfl

@[simp] theorem State.finish_pPrim (s : State) (c : StatusCode) (r : Word) :
    (s.finish c r).pPrim = s.pPrim := rfl

@[simp] theorem State.finish_pNroots (s : State) (c : StatusCode) (r : Word) :
    (s.finish c r).pNroots = s.pNroots := rfl

@[simp] theorem State.finish_pPad (s : State) (c : StatusCode) (r : Word) :
    (s.finish c r).pPad = s.pPad := rfl

@[simp] theorem State.finish_decState (s : State) (c : StatusCode) (r : Word) :
    (s.finish c r).decState = s.decState := rfl

@[simp] theorem State.finish_decTag (s : State) (c : StatusCode) (r : Word) :
    (s.finish c r).decTag = s.decTag := rfl

@[simp] theorem State.finish_decClass (s : State) (c : StatusCode) (r : Word) :
    (s.finish c r).decClass = s.decClass := rfl

@[simp] theorem State.finish_decPos (s : State) (c : StatusCode) (r : Word) :
    (s.finish c r).decPos = s.decPos := rfl

@[simp] theorem State.finish_rxLen (s : State) (c : StatusCode) (r : Word) :
    (s.finish c r).rxLen = s.rxLen := rfl

@[simp] theorem State.finish_rxFlags (s : State) (c : StatusCode) (r : Word) :
    (s.finish c r).rxFlags = s.rxFlags := rfl

@[simp] theorem State.finish_rxErrs (s : State) (c : StatusCode) (r : Word) :
    (s.finish c r).rxErrs = s.rxErrs := rfl

@[simp] theorem State.finish_cb (s : State) (c : StatusCode) (r : Word) :
    (s.finish c r).cb = s.cb := rfl

@[simp] theorem State.finish_mem (s : State) (c : StatusCode) (r : Word) :
    (s.finish c r).mem = s.mem := rfl

@[simp] theorem State.finish_params (s : State) (c : StatusCode) (r : Word) :
    (s.finish c r).params = s.params := rfl

@[simp] theorem State.finish_host (s : State) (c : StatusCode) (r : Word) :
    (s.finish c r).host = s.host := rfl

@[simp] theorem State.finish_responses (s : State) (c : StatusCode) (r : Word) :
    (s.finish c r).responses = s.responses := rfl

@[simp] theorem State.finish_latency (s : State) (c : StatusCode) (r : Word) :
    (s.finish c r).latency = s.latency := rfl

@[simp] theorem State.finish_fresh (s : State) (c : StatusCode) (r : Word) :
    (s.finish c r).fresh = s.fresh := rfl

@[simp] theorem State.finish_powerOn (s : State) (c : StatusCode) (r : Word) :
    (s.finish c r).powerOn = s.powerOn := rfl

/-! ### State.raiseError -/

@[simp] theorem State.raiseError_pending (s : State) (c : StatusCode) :
    (s.raiseError c).pending = s.pending := rfl

@[simp] theorem State.raiseError_code (s : State) (c : StatusCode) :
    (s.raiseError c).code = c := rfl

@[simp] theorem State.raiseError_result (s : State) (c : StatusCode) :
    (s.raiseError c).result = 0 := rfl

@[simp] theorem State.raiseError_crcAcc (s : State) (c : StatusCode) :
    (s.raiseError c).crcAcc = s.crcAcc := rfl

@[simp] theorem State.raiseError_level4 (s : State) (c : StatusCode) :
    (s.raiseError c).level4 = s.level4 := rfl

@[simp] theorem State.raiseError_neras (s : State) (c : StatusCode) :
    (s.raiseError c).neras = s.neras := rfl

@[simp] theorem State.raiseError_pSymbits (s : State) (c : StatusCode) :
    (s.raiseError c).pSymbits = s.pSymbits := rfl

@[simp] theorem State.raiseError_pGfpoly (s : State) (c : StatusCode) :
    (s.raiseError c).pGfpoly = s.pGfpoly := rfl

@[simp] theorem State.raiseError_pFcr (s : State) (c : StatusCode) :
    (s.raiseError c).pFcr = s.pFcr := rfl

@[simp] theorem State.raiseError_pPrim (s : State) (c : StatusCode) :
    (s.raiseError c).pPrim = s.pPrim := rfl

@[simp] theorem State.raiseError_pNroots (s : State) (c : StatusCode) :
    (s.raiseError c).pNroots = s.pNroots := rfl

@[simp] theorem State.raiseError_pPad (s : State) (c : StatusCode) :
    (s.raiseError c).pPad = s.pPad := rfl

@[simp] theorem State.raiseError_decState (s : State) (c : StatusCode) :
    (s.raiseError c).decState = s.decState := rfl

@[simp] theorem State.raiseError_decTag (s : State) (c : StatusCode) :
    (s.raiseError c).decTag = s.decTag := rfl

@[simp] theorem State.raiseError_decClass (s : State) (c : StatusCode) :
    (s.raiseError c).decClass = s.decClass := rfl

@[simp] theorem State.raiseError_decPos (s : State) (c : StatusCode) :
    (s.raiseError c).decPos = s.decPos := rfl

@[simp] theorem State.raiseError_rxLen (s : State) (c : StatusCode) :
    (s.raiseError c).rxLen = s.rxLen := rfl

@[simp] theorem State.raiseError_rxFlags (s : State) (c : StatusCode) :
    (s.raiseError c).rxFlags = s.rxFlags := rfl

@[simp] theorem State.raiseError_rxErrs (s : State) (c : StatusCode) :
    (s.raiseError c).rxErrs = s.rxErrs := rfl

@[simp] theorem State.raiseError_cb (s : State) (c : StatusCode) :
    (s.raiseError c).cb = s.cb := rfl

@[simp] theorem State.raiseError_mem (s : State) (c : StatusCode) :
    (s.raiseError c).mem = s.mem := rfl

@[simp] theorem State.raiseError_params (s : State) (c : StatusCode) :
    (s.raiseError c).params = s.params := rfl

@[simp] theorem State.raiseError_host (s : State) (c : StatusCode) :
    (s.raiseError c).host = s.host := rfl

@[simp] theorem State.raiseError_responses (s : State) (c : StatusCode) :
    (s.raiseError c).responses = s.responses := rfl

@[simp] theorem State.raiseError_latency (s : State) (c : StatusCode) :
    (s.raiseError c).latency = s.latency := rfl

@[simp] theorem State.raiseError_fresh (s : State) (c : StatusCode) :
    (s.raiseError c).fresh = s.fresh := rfl

@[simp] theorem State.raiseError_powerOn (s : State) (c : StatusCode) :
    (s.raiseError c).powerOn = s.powerOn := rfl

/-! ### State.retire -/

@[simp] theorem State.retire_pending (s : State) :
    s.retire.pending = none := rfl

@[simp] theorem State.retire_code (s : State) :
    s.retire.code = s.code := rfl

@[simp] theorem State.retire_result (s : State) :
    s.retire.result = s.result := rfl

@[simp] theorem State.retire_crcAcc (s : State) :
    s.retire.crcAcc = s.crcAcc := rfl

@[simp] theorem State.retire_level4 (s : State) :
    s.retire.level4 = s.level4 := rfl

@[simp] theorem State.retire_neras (s : State) :
    s.retire.neras = s.neras := rfl

@[simp] theorem State.retire_pSymbits (s : State) :
    s.retire.pSymbits = s.pSymbits := rfl

@[simp] theorem State.retire_pGfpoly (s : State) :
    s.retire.pGfpoly = s.pGfpoly := rfl

@[simp] theorem State.retire_pFcr (s : State) :
    s.retire.pFcr = s.pFcr := rfl

@[simp] theorem State.retire_pPrim (s : State) :
    s.retire.pPrim = s.pPrim := rfl

@[simp] theorem State.retire_pNroots (s : State) :
    s.retire.pNroots = s.pNroots := rfl

@[simp] theorem State.retire_pPad (s : State) :
    s.retire.pPad = s.pPad := rfl

@[simp] theorem State.retire_decState (s : State) :
    s.retire.decState = s.decState := rfl

@[simp] theorem State.retire_decTag (s : State) :
    s.retire.decTag = s.decTag := rfl

@[simp] theorem State.retire_decClass (s : State) :
    s.retire.decClass = s.decClass := rfl

@[simp] theorem State.retire_decPos (s : State) :
    s.retire.decPos = s.decPos := rfl

@[simp] theorem State.retire_rxLen (s : State) :
    s.retire.rxLen = s.rxLen := rfl

@[simp] theorem State.retire_rxFlags (s : State) :
    s.retire.rxFlags = s.rxFlags := rfl

@[simp] theorem State.retire_rxErrs (s : State) :
    s.retire.rxErrs = s.rxErrs := rfl

@[simp] theorem State.retire_cb (s : State) :
    s.retire.cb = s.cb := rfl

@[simp] theorem State.retire_mem (s : State) :
    s.retire.mem = s.mem := rfl

@[simp] theorem State.retire_params (s : State) :
    s.retire.params = s.params := rfl

@[simp] theorem State.retire_host (s : State) :
    s.retire.host = s.host := rfl

@[simp] theorem State.retire_responses (s : State) :
    s.retire.responses = s.responses := rfl

@[simp] theorem State.retire_latency (s : State) :
    s.retire.latency = 0 := rfl

@[simp] theorem State.retire_fresh (s : State) :
    s.retire.fresh = s.fresh := rfl

@[simp] theorem State.retire_powerOn (s : State) :
    s.retire.powerOn = s.powerOn := rfl

/-! ### State.setSlot -/

@[simp] theorem State.setSlot_pending (s : State) (c : SlotId) (b : ControlBlock) :
    (s.setSlot c b).pending = s.pending := rfl

@[simp] theorem State.setSlot_code (s : State) (c : SlotId) (b : ControlBlock) :
    (s.setSlot c b).code = s.code := rfl

@[simp] theorem State.setSlot_result (s : State) (c : SlotId) (b : ControlBlock) :
    (s.setSlot c b).result = s.result := rfl

@[simp] theorem State.setSlot_crcAcc (s : State) (c : SlotId) (b : ControlBlock) :
    (s.setSlot c b).crcAcc = s.crcAcc := rfl

@[simp] theorem State.setSlot_level4 (s : State) (c : SlotId) (b : ControlBlock) :
    (s.setSlot c b).level4 = s.level4 := rfl

@[simp] theorem State.setSlot_neras (s : State) (c : SlotId) (b : ControlBlock) :
    (s.setSlot c b).neras = s.neras := rfl

@[simp] theorem State.setSlot_pSymbits (s : State) (c : SlotId) (b : ControlBlock) :
    (s.setSlot c b).pSymbits = s.pSymbits := rfl

@[simp] theorem State.setSlot_pGfpoly (s : State) (c : SlotId) (b : ControlBlock) :
    (s.setSlot c b).pGfpoly = s.pGfpoly := rfl

@[simp] theorem State.setSlot_pFcr (s : State) (c : SlotId) (b : ControlBlock) :
    (s.setSlot c b).pFcr = s.pFcr := rfl

@[simp] theorem State.setSlot_pPrim (s : State) (c : SlotId) (b : ControlBlock) :
    (s.setSlot c b).pPrim = s.pPrim := rfl

@[simp] theorem State.setSlot_pNroots (s : State) (c : SlotId) (b : ControlBlock) :
    (s.setSlot c b).pNroots = s.pNroots := rfl

@[simp] theorem State.setSlot_pPad (s : State) (c : SlotId) (b : ControlBlock) :
    (s.setSlot c b).pPad = s.pPad := rfl

@[simp] theorem State.setSlot_decState (s : State) (c : SlotId) (b : ControlBlock) :
    (s.setSlot c b).decState = s.decState := rfl

@[simp] theorem State.setSlot_decTag (s : State) (c : SlotId) (b : ControlBlock) :
    (s.setSlot c b).decTag = s.decTag := rfl

@[simp] theorem State.setSlot_decClass (s : State) (c : SlotId) (b : ControlBlock) :
    (s.setSlot c b).decClass = s.decClass := rfl

@[simp] theorem State.setSlot_decPos (s : State) (c : SlotId) (b : ControlBlock) :
    (s.setSlot c b).decPos = s.decPos := rfl

@[simp] theorem State.setSlot_rxLen (s : State) (c : SlotId) (b : ControlBlock) :
    (s.setSlot c b).rxLen = s.rxLen := rfl

@[simp] theorem State.setSlot_rxFlags (s : State) (c : SlotId) (b : ControlBlock) :
    (s.setSlot c b).rxFlags = s.rxFlags := rfl

@[simp] theorem State.setSlot_rxErrs (s : State) (c : SlotId) (b : ControlBlock) :
    (s.setSlot c b).rxErrs = s.rxErrs := rfl

@[simp] theorem State.setSlot_cb (s : State) (c : SlotId) (b : ControlBlock) :
    (s.setSlot c b).cb = s.cb.set c b := rfl

@[simp] theorem State.setSlot_mem (s : State) (c : SlotId) (b : ControlBlock) :
    (s.setSlot c b).mem = s.mem := rfl

@[simp] theorem State.setSlot_params (s : State) (c : SlotId) (b : ControlBlock) :
    (s.setSlot c b).params = s.params := rfl

@[simp] theorem State.setSlot_host (s : State) (c : SlotId) (b : ControlBlock) :
    (s.setSlot c b).host = s.host := rfl

@[simp] theorem State.setSlot_responses (s : State) (c : SlotId) (b : ControlBlock) :
    (s.setSlot c b).responses = s.responses := rfl

@[simp] theorem State.setSlot_latency (s : State) (c : SlotId) (b : ControlBlock) :
    (s.setSlot c b).latency = s.latency := rfl

@[simp] theorem State.setSlot_fresh (s : State) (c : SlotId) (b : ControlBlock) :
    (s.setSlot c b).fresh = s.fresh := rfl

@[simp] theorem State.setSlot_powerOn (s : State) (c : SlotId) (b : ControlBlock) :
    (s.setSlot c b).powerOn = s.powerOn := rfl

/-! ### State.setCrc -/

@[simp] theorem State.setCrc_pending (s : State) (v : Half) :
    (s.setCrc v).pending = s.pending := rfl

@[simp] theorem State.setCrc_code (s : State) (v : Half) :
    (s.setCrc v).code = s.code := rfl

@[simp] theorem State.setCrc_result (s : State) (v : Half) :
    (s.setCrc v).result = s.result := rfl

@[simp] theorem State.setCrc_crcAcc (s : State) (v : Half) :
    (s.setCrc v).crcAcc = v := rfl

@[simp] theorem State.setCrc_level4 (s : State) (v : Half) :
    (s.setCrc v).level4 = s.level4 := rfl

@[simp] theorem State.setCrc_neras (s : State) (v : Half) :
    (s.setCrc v).neras = s.neras := rfl

@[simp] theorem State.setCrc_pSymbits (s : State) (v : Half) :
    (s.setCrc v).pSymbits = s.pSymbits := rfl

@[simp] theorem State.setCrc_pGfpoly (s : State) (v : Half) :
    (s.setCrc v).pGfpoly = s.pGfpoly := rfl

@[simp] theorem State.setCrc_pFcr (s : State) (v : Half) :
    (s.setCrc v).pFcr = s.pFcr := rfl

@[simp] theorem State.setCrc_pPrim (s : State) (v : Half) :
    (s.setCrc v).pPrim = s.pPrim := rfl

@[simp] theorem State.setCrc_pNroots (s : State) (v : Half) :
    (s.setCrc v).pNroots = s.pNroots := rfl

@[simp] theorem State.setCrc_pPad (s : State) (v : Half) :
    (s.setCrc v).pPad = s.pPad := rfl

@[simp] theorem State.setCrc_decState (s : State) (v : Half) :
    (s.setCrc v).decState = s.decState := rfl

@[simp] theorem State.setCrc_decTag (s : State) (v : Half) :
    (s.setCrc v).decTag = s.decTag := rfl

@[simp] theorem State.setCrc_decClass (s : State) (v : Half) :
    (s.setCrc v).decClass = s.decClass := rfl

@[simp] theorem State.setCrc_decPos (s : State) (v : Half) :
    (s.setCrc v).decPos = s.decPos := rfl

@[simp] theorem State.setCrc_rxLen (s : State) (v : Half) :
    (s.setCrc v).rxLen = s.rxLen := rfl

@[simp] theorem State.setCrc_rxFlags (s : State) (v : Half) :
    (s.setCrc v).rxFlags = s.rxFlags := rfl

@[simp] theorem State.setCrc_rxErrs (s : State) (v : Half) :
    (s.setCrc v).rxErrs = s.rxErrs := rfl

@[simp] theorem State.setCrc_cb (s : State) (v : Half) :
    (s.setCrc v).cb = s.cb := rfl

@[simp] theorem State.setCrc_mem (s : State) (v : Half) :
    (s.setCrc v).mem = s.mem := rfl

@[simp] theorem State.setCrc_params (s : State) (v : Half) :
    (s.setCrc v).params = s.params := rfl

@[simp] theorem State.setCrc_host (s : State) (v : Half) :
    (s.setCrc v).host = s.host := rfl

@[simp] theorem State.setCrc_responses (s : State) (v : Half) :
    (s.setCrc v).responses = s.responses := rfl

@[simp] theorem State.setCrc_latency (s : State) (v : Half) :
    (s.setCrc v).latency = s.latency := rfl

@[simp] theorem State.setCrc_fresh (s : State) (v : Half) :
    (s.setCrc v).fresh = s.fresh := rfl

@[simp] theorem State.setCrc_powerOn (s : State) (v : Half) :
    (s.setCrc v).powerOn = s.powerOn := rfl

/-! ### State.resetSession -/

@[simp] theorem State.resetSession_pending (s : State) :
    s.resetSession.pending = s.pending := rfl

@[simp] theorem State.resetSession_code (s : State) :
    s.resetSession.code = s.code := rfl

@[simp] theorem State.resetSession_result (s : State) :
    s.resetSession.result = s.result := rfl

@[simp] theorem State.resetSession_crcAcc (s : State) :
    s.resetSession.crcAcc = s.crcAcc := rfl

@[simp] theorem State.resetSession_level4 (s : State) :
    s.resetSession.level4 = s.level4 := rfl

@[simp] theorem State.resetSession_neras (s : State) :
    s.resetSession.neras = s.neras := rfl

@[simp] theorem State.resetSession_pSymbits (s : State) :
    s.resetSession.pSymbits = s.pSymbits := rfl

@[simp] theorem State.resetSession_pGfpoly (s : State) :
    s.resetSession.pGfpoly = s.pGfpoly := rfl

@[simp] theorem State.resetSession_pFcr (s : State) :
    s.resetSession.pFcr = s.pFcr := rfl

@[simp] theorem State.resetSession_pPrim (s : State) :
    s.resetSession.pPrim = s.pPrim := rfl

@[simp] theorem State.resetSession_pNroots (s : State) :
    s.resetSession.pNroots = s.pNroots := rfl

@[simp] theorem State.resetSession_pPad (s : State) :
    s.resetSession.pPad = s.pPad := rfl

@[simp] theorem State.resetSession_decState (s : State) :
    s.resetSession.decState = .sizeTagByte1 := rfl

@[simp] theorem State.resetSession_decTag (s : State) :
    s.resetSession.decTag = 0 := rfl

@[simp] theorem State.resetSession_decClass (s : State) :
    s.resetSession.decClass = 0 := rfl

@[simp] theorem State.resetSession_decPos (s : State) :
    s.resetSession.decPos = 0 := rfl

@[simp] theorem State.resetSession_rxLen (s : State) :
    s.resetSession.rxLen = 0 := rfl

@[simp] theorem State.resetSession_rxFlags (s : State) :
    s.resetSession.rxFlags = 0 := rfl

@[simp] theorem State.resetSession_rxErrs (s : State) :
    s.resetSession.rxErrs = 0 := rfl

@[simp] theorem State.resetSession_cb (s : State) :
    s.resetSession.cb = s.cb := rfl

@[simp] theorem State.resetSession_mem (s : State) :
    s.resetSession.mem = s.mem := rfl

@[simp] theorem State.resetSession_params (s : State) :
    s.resetSession.params = s.params := rfl

@[simp] theorem State.resetSession_host (s : State) :
    s.resetSession.host = s.host := rfl

@[simp] theorem State.resetSession_responses (s : State) :
    s.resetSession.responses = s.responses := rfl

@[simp] theorem State.resetSession_latency (s : State) :
    s.resetSession.latency = s.latency := rfl

@[simp] theorem State.resetSession_fresh (s : State) :
    s.resetSession.fresh = s.fresh := rfl

@[simp] theorem State.resetSession_powerOn (s : State) :
    s.resetSession.powerOn = s.powerOn := rfl

/-! ### State.tagStep -/

@[simp] theorem State.tagStep_pending (s : State) (t : Tag) (n : DecState) :
    (s.tagStep t n).pending = s.pending := rfl

@[simp] theorem State.tagStep_code (s : State) (t : Tag) (n : DecState) :
    (s.tagStep t n).code = s.code := rfl

@[simp] theorem State.tagStep_result (s : State) (t : Tag) (n : DecState) :
    (s.tagStep t n).result = s.result := rfl

@[simp] theorem State.tagStep_crcAcc (s : State) (t : Tag) (n : DecState) :
    (s.tagStep t n).crcAcc = s.crcAcc := rfl

@[simp] theorem State.tagStep_level4 (s : State) (t : Tag) (n : DecState) :
    (s.tagStep t n).level4 = s.level4 := rfl

@[simp] theorem State.tagStep_neras (s : State) (t : Tag) (n : DecState) :
    (s.tagStep t n).neras = s.neras := rfl

@[simp] theorem State.tagStep_pSymbits (s : State) (t : Tag) (n : DecState) :
    (s.tagStep t n).pSymbits = s.pSymbits := rfl

@[simp] theorem State.tagStep_pGfpoly (s : State) (t : Tag) (n : DecState) :
    (s.tagStep t n).pGfpoly = s.pGfpoly := rfl

@[simp] theorem State.tagStep_pFcr (s : State) (t : Tag) (n : DecState) :
    (s.tagStep t n).pFcr = s.pFcr := rfl

@[simp] theorem State.tagStep_pPrim (s : State) (t : Tag) (n : DecState) :
    (s.tagStep t n).pPrim = s.pPrim := rfl

@[simp] theorem State.tagStep_pNroots (s : State) (t : Tag) (n : DecState) :
    (s.tagStep t n).pNroots = s.pNroots := rfl

@[simp] theorem State.tagStep_pPad (s : State) (t : Tag) (n : DecState) :
    (s.tagStep t n).pPad = s.pPad := rfl

@[simp] theorem State.tagStep_decState (s : State) (t : Tag) (n : DecState) :
    (s.tagStep t n).decState = n := rfl

@[simp] theorem State.tagStep_decTag (s : State) (t : Tag) (n : DecState) :
    (s.tagStep t n).decTag = t := rfl

@[simp] theorem State.tagStep_decClass (s : State) (t : Tag) (n : DecState) :
    (s.tagStep t n).decClass = s.decClass := rfl

@[simp] theorem State.tagStep_decPos (s : State) (t : Tag) (n : DecState) :
    (s.tagStep t n).decPos = s.decPos := rfl

@[simp] theorem State.tagStep_rxLen (s : State) (t : Tag) (n : DecState) :
    (s.tagStep t n).rxLen = s.rxLen := rfl

@[simp] theorem State.tagStep_rxFlags (s : State) (t : Tag) (n : DecState) :
    (s.tagStep t n).rxFlags = s.rxFlags := rfl

@[simp] theorem State.tagStep_rxErrs (s : State) (t : Tag) (n : DecState) :
    (s.tagStep t n).rxErrs = s.rxErrs := rfl

@[simp] theorem State.tagStep_cb (s : State) (t : Tag) (n : DecState) :
    (s.tagStep t n).cb = s.cb := rfl

@[simp] theorem State.tagStep_mem (s : State) (t : Tag) (n : DecState) :
    (s.tagStep t n).mem = s.mem := rfl

@[simp] theorem State.tagStep_params (s : State) (t : Tag) (n : DecState) :
    (s.tagStep t n).params = s.params := rfl

@[simp] theorem State.tagStep_host (s : State) (t : Tag) (n : DecState) :
    (s.tagStep t n).host = s.host := rfl

@[simp] theorem State.tagStep_responses (s : State) (t : Tag) (n : DecState) :
    (s.tagStep t n).responses = s.responses := rfl

@[simp] theorem State.tagStep_latency (s : State) (t : Tag) (n : DecState) :
    (s.tagStep t n).latency = s.latency := rfl

@[simp] theorem State.tagStep_fresh (s : State) (t : Tag) (n : DecState) :
    (s.tagStep t n).fresh = s.fresh := rfl

@[simp] theorem State.tagStep_powerOn (s : State) (t : Tag) (n : DecState) :
    (s.tagStep t n).powerOn = s.powerOn := rfl

/-! ### State.lockOn -/

@[simp] theorem State.lockOn_pending (s : State) (c : SlotId) :
    (s.lockOn c).pending = s.pending := rfl

@[simp] theorem State.lockOn_code (s : State) (c : SlotId) :
    (s.lockOn c).code = s.code := rfl

@[simp] theorem State.lockOn_result (s : State) (c : SlotId) :
    (s.lockOn c).result = s.result := rfl

@[simp] theorem State.lockOn_crcAcc (s : State) (c : SlotId) :
    (s.lockOn c).crcAcc = s.crcAcc := rfl

@[simp] theorem State.lockOn_level4 (s : State) (c : SlotId) :
    (s.lockOn c).level4 = s.level4 := rfl

@[simp] theorem State.lockOn_neras (s : State) (c : SlotId) :
    (s.lockOn c).neras = s.neras := rfl

@[simp] theorem State.lockOn_pSymbits (s : State) (c : SlotId) :
    (s.lockOn c).pSymbits = s.pSymbits := rfl

@[simp] theorem State.lockOn_pGfpoly (s : State) (c : SlotId) :
    (s.lockOn c).pGfpoly = s.pGfpoly := rfl

@[simp] theorem State.lockOn_pFcr (s : State) (c : SlotId) :
    (s.lockOn c).pFcr = s.pFcr := rfl

@[simp] theorem State.lockOn_pPrim (s : State) (c : SlotId) :
    (s.lockOn c).pPrim = s.pPrim := rfl

@[simp] theorem State.lockOn_pNroots (s : State) (c : SlotId) :
    (s.lockOn c).pNroots = s.pNroots := rfl

@[simp] theorem State.lockOn_pPad (s : State) (c : SlotId) :
    (s.lockOn c).pPad = s.pPad := rfl

@[simp] theorem State.lockOn_decState (s : State) (c : SlotId) :
    (s.lockOn c).decState = .codewordAccumulating := rfl

@[simp] theorem State.lockOn_decTag (s : State) (c : SlotId) :
    (s.lockOn c).decTag = s.decTag := rfl

@[simp] theorem State.lockOn_decClass (s : State) (c : SlotId) :
    (s.lockOn c).decClass = c := rfl

@[simp] theorem State.lockOn_decPos (s : State) (c : SlotId) :
    (s.lockOn c).decPos = 0 := rfl

@[simp] theorem State.lockOn_rxLen (s : State) (c : SlotId) :
    (s.lockOn c).rxLen = s.rxLen := rfl

@[simp] theorem State.lockOn_rxFlags (s : State) (c : SlotId) :
    (s.lockOn c).rxFlags = s.rxFlags := rfl

@[simp] theorem State.lockOn_rxErrs (s : State) (c : SlotId) :
    (s.lockOn c).rxErrs = s.rxErrs := rfl

@[simp] theorem State.lockOn_cb (s : State) (c : SlotId) :
    (s.lockOn c).cb = s.cb := rfl

@[simp] theorem State.lockOn_mem (s : State) (c : SlotId) :
    (s.lockOn c).mem = s.mem := rfl

@[simp] theorem State.lockOn_params (s : State) (c : SlotId) :
    (s.lockOn c).params = s.params := rfl

@[simp] theorem State.lockOn_host (s : State) (c : SlotId) :
    (s.lockOn c).host = s.host := rfl

@[simp] theorem State.lockOn_responses (s : State) (c : SlotId) :
    (s.lockOn c).responses = s.responses := rfl

@[simp] theorem State.lockOn_latency (s : State) (c : SlotId) :
    (s.lockOn c).latency = s.latency := rfl

@[simp] theorem State.lockOn_fresh (s : State) (c : SlotId) :
    (s.lockOn c).fresh = s.fresh := rfl

@[simp] theorem State.lockOn_powerOn (s : State) (c : SlotId) :
    (s.lockOn c).powerOn = s.powerOn := rfl

/-! ### State.advancePos -/

@[simp] theorem State.advancePos_pending (s : State) :
    s.advancePos.pending = s.pending := rfl

@[simp] theorem State.advancePos_code (s : State) :
    s.advancePos.code = s.code := rfl

@[simp] theorem State.advancePos_result (s : State) :
    s.advancePos.result = s.result := rfl

@[simp] theorem State.advancePos_crcAcc (s : State) :
    s.advancePos.crcAcc = s.crcAcc := rfl

@[simp] theorem State.advancePos_level4 (s : State) :
    s.advancePos.level4 = s.level4 := rfl

@[simp] theorem State.advancePos_neras (s : State) :
    s.advancePos.neras = s.neras := rfl

@[simp] theorem State.advancePos_pSymbits (s : State) :
    s.advancePos.pSymbits = s.pSymbits := rfl

@[simp] theorem State.advancePos_pGfpoly (s : State) :
    s.advancePos.pGfpoly = s.pGfpoly := rfl

@[simp] theorem State.advancePos_pFcr (s : State) :
    s.advancePos.pFcr = s.pFcr := rfl

@[simp] theorem State.advancePos_pPrim (s : State) :
    s.advancePos.pPrim = s.pPrim := rfl

@[simp] theorem State.advancePos_pNroots (s : State) :
    s.advancePos.pNroots = s.pNroots := rfl

@[simp] theorem State.advancePos_pPad (s : State) :
    s.advancePos.pPad = s.pPad := rfl

@[simp] theorem State.advancePos_decState (s : State) :
    s.advancePos.decState = s.decState := rfl

@[simp] theorem State.advancePos_decTag (s : State) :
    s.advancePos.decTag = s.decTag := rfl

@[simp] theorem State.advancePos_decClass (s : State) :
    s.advancePos.decClass = s.decClass := rfl

@[simp] theorem State.advancePos_decPos (s : State) :
    s.advancePos.decPos = s.decPos + 1 := rfl

@[simp] theorem State.advancePos_rxLen (s : State) :
    s.advancePos.rxLen = s.rxLen := rfl

@[simp] theorem State.advancePos_rxFlags (s : State) :
    s.advancePos.rxFlags = s.rxFlags := rfl

@[simp] theorem State.advancePos_rxErrs (s : State) :
    s.advancePos.rxErrs = s.rxErrs := rfl

@[simp] theorem State.advancePos_cb (s : State) :
    s.advancePos.cb = s.cb := rfl

@[simp] theorem State.advancePos_mem (s : State) :
    s.advancePos.mem = s.mem := rfl

@[simp] theorem State.advancePos_params (s : State) :
    s.advancePos.params = s.params := rfl

@[simp] theorem State.advancePos_host (s : State) :
    s.advancePos.host = s.host := rfl

@[simp] theorem State.advancePos_responses (s : State) :
    s.advancePos.responses = s.responses := rfl

@[simp] theorem State.advancePos_latency (s : State) :
    s.advancePos.latency = s.latency := rfl

@[simp] theorem State.advancePos_fresh (s : State) :
    s.advancePos.fresh = s.fresh := rfl

@[simp] theorem State.advancePos_powerOn (s : State) :
    s.advancePos.powerOn = s.powerOn := rfl

/-! ### State.leaveFrame -/

@[simp] theorem State.leaveFrame_pending (s : State) :
    s.leaveFrame.pending = s.pending := rfl

@[simp] theorem State.leaveFrame_code (s : State) :
    s.leaveFrame.code = s.code := rfl

@[simp] theorem State.leaveFrame_result (s : State) :
    s.leaveFrame.result = s.result := rfl

@[simp] theorem State.leaveFrame_crcAcc (s : State) :
    s.leaveFrame.crcAcc = s.crcAcc := rfl

@[simp] theorem State.leaveFrame_level4 (s : State) :
    s.leaveFrame.level4 = s.level4 := rfl

@[simp] theorem State.leaveFrame_neras (s : State) :
    s.leaveFrame.neras = s.neras := rfl

@[simp] theorem State.leaveFrame_pSymbits (s : State) :
    s.leaveFrame.pSymbits = s.pSymbits := rfl

@[simp] theorem State.leaveFrame_pGfpoly (s : State) :
    s.leaveFrame.pGfpoly = s.pGfpoly := rfl

@[simp] theorem State.leaveFrame_pFcr (s : State) :
    s.leaveFrame.pFcr = s.pFcr := rfl

@[simp] theorem State.leaveFrame_pPrim (s : State) :
    s.leaveFrame.pPrim = s.pPrim := rfl

@[simp] theorem State.leaveFrame_pNroots (s : State) :
    s.leaveFrame.pNroots = s.pNroots := rfl

@[simp] theorem State.leaveFrame_pPad (s : State) :
    s.leaveFrame.pPad = s.pPad := rfl

@[simp] theorem State.leaveFrame_decState (s : State) :
    s.leaveFrame.decState = .sizeTagByte1 := rfl

@[simp] theorem State.leaveFrame_decTag (s : State) :
    s.leaveFrame.decTag = s.decTag := rfl

@[simp] theorem State.leaveFrame_decClass (s : State) :
    s.leaveFrame.decClass = s.decClass := rfl

@[simp] theorem State.leaveFrame_decPos (s : State) :
    s.leaveFrame.decPos = s.decPos := rfl

@[simp] theorem State.leaveFrame_rxLen (s : State) :
    s.leaveFrame.rxLen = s.rxLen := rfl

@[simp] theorem State.leaveFrame_rxFlags (s : State) :
    s.leaveFrame.rxFlags = s.rxFlags := rfl

@[simp] theorem State.leaveFrame_rxErrs (s : State) :
    s.leaveFrame.rxErrs = s.rxErrs := rfl

@[simp] theorem State.leaveFrame_cb (s : State) :
    s.leaveFrame.cb = s.cb := rfl

@[simp] theorem State.leaveFrame_mem (s : State) :
    s.leaveFrame.mem = s.mem := rfl

@[simp] theorem State.leaveFrame_params (s : State) :
    s.leaveFrame.params = s.params := rfl

@[simp] theorem State.leaveFrame_host (s : State) :
    s.leaveFrame.host = s.host := rfl

@[simp] theorem State.leaveFrame_responses (s : State) :
    s.leaveFrame.responses = s.responses := rfl

@[simp] theorem State.leaveFrame_latency (s : State) :
    s.leaveFrame.latency = s.latency := rfl

@[simp] theorem State.leaveFrame_fresh (s : State) :
    s.leaveFrame.fresh = s.fresh := rfl

@[simp] theorem State.leaveFrame_powerOn (s : State) :
    s.leaveFrame.powerOn = s.powerOn := rfl

/-! ### State.finishEvent -/

@[simp] theorem State.finishEvent_pending (s : State) (e : Event) :
    (s.finishEvent e).pending = s.pending := rfl

@[simp] theorem State.finishEvent_code (s : State) (e : Event) :
    (s.finishEvent e).code = .ok := rfl

@[simp] theorem State.finishEvent_result (s : State) (e : Event) :
    (s.finishEvent e).result = e.word := rfl

@[simp] theorem State.finishEvent_crcAcc (s : State) (e : Event) :
    (s.finishEvent e).crcAcc = s.crcAcc := rfl

@[simp] theorem State.finishEvent_level4 (s : State) (e : Event) :
    (s.finishEvent e).level4 = s.level4 := rfl

@[simp] theorem State.finishEvent_neras (s : State) (e : Event) :
    (s.finishEvent e).neras = s.neras := rfl

@[simp] theorem State.finishEvent_pSymbits (s : State) (e : Event) :
    (s.finishEvent e).pSymbits = s.pSymbits := rfl

@[simp] theorem State.finishEvent_pGfpoly (s : State) (e : Event) :
    (s.finishEvent e).pGfpoly = s.pGfpoly := rfl

@[simp] theorem State.finishEvent_pFcr (s : State) (e : Event) :
    (s.finishEvent e).pFcr = s.pFcr := rfl

@[simp] theorem State.finishEvent_pPrim (s : State) (e : Event) :
    (s.finishEvent e).pPrim = s.pPrim := rfl

@[simp] theorem State.finishEvent_pNroots (s : State) (e : Event) :
    (s.finishEvent e).pNroots = s.pNroots := rfl

@[simp] theorem State.finishEvent_pPad (s : State) (e : Event) :
    (s.finishEvent e).pPad = s.pPad := rfl

@[simp] theorem State.finishEvent_decState (s : State) (e : Event) :
    (s.finishEvent e).decState = s.decState := rfl

@[simp] theorem State.finishEvent_decTag (s : State) (e : Event) :
    (s.finishEvent e).decTag = s.decTag := rfl

@[simp] theorem State.finishEvent_decClass (s : State) (e : Event) :
    (s.finishEvent e).decClass = s.decClass := rfl

@[simp] theorem State.finishEvent_decPos (s : State) (e : Event) :
    (s.finishEvent e).decPos = s.decPos := rfl

@[simp] theorem State.finishEvent_rxLen (s : State) (e : Event) :
    (s.finishEvent e).rxLen = s.rxLen := rfl

@[simp] theorem State.finishEvent_rxFlags (s : State) (e : Event) :
    (s.finishEvent e).rxFlags = s.rxFlags := rfl

@[simp] theorem State.finishEvent_rxErrs (s : State) (e : Event) :
    (s.finishEvent e).rxErrs = s.rxErrs := rfl

@[simp] theorem State.finishEvent_cb (s : State) (e : Event) :
    (s.finishEvent e).cb = s.cb := rfl

@[simp] theorem State.finishEvent_mem (s : State) (e : Event) :
    (s.finishEvent e).mem = s.mem := rfl

@[simp] theorem State.finishEvent_params (s : State) (e : Event) :
    (s.finishEvent e).params = s.params := rfl

@[simp] theorem State.finishEvent_host (s : State) (e : Event) :
    (s.finishEvent e).host = s.host := rfl

@[simp] theorem State.finishEvent_responses (s : State) (e : Event) :
    (s.finishEvent e).responses = s.responses := rfl

@[simp] theorem State.finishEvent_latency (s : State) (e : Event) :
    (s.finishEvent e).latency = s.latency := rfl

@[simp] theorem State.finishEvent_fresh (s : State) (e : Event) :
    (s.finishEvent e).fresh = s.fresh := rfl

@[simp] theorem State.finishEvent_powerOn (s : State) (e : Event) :
    (s.finishEvent e).powerOn = s.powerOn := rfl

/-! ### State.respond -/

@[simp] theorem State.respond_pending (s : State) (r : BusResponse) :
    (s.respond r).pending = s.pending := rfl

@[simp] theorem State.respond_code (s : State) (r : BusResponse) :
    (s.respond r).code = s.code := rfl

@[simp] theorem State.respond_result (s : State) (r : BusResponse) :
    (s.respond r).result = s.result := rfl

@[simp] theorem State.respond_crcAcc (s : State) (r : BusResponse) :
    (s.respond r).crcAcc = s.crcAcc := rfl

@[simp] theorem State.respond_level4 (s : State) (r : BusResponse) :
    (s.respond r).level4 = s.level4 := rfl

@[simp] theorem State.respond_neras (s : State) (r : BusResponse) :
    (s.respond r).neras = s.neras := rfl

@[simp] theorem State.respond_pSymbits (s : State) (r : BusResponse) :
    (s.respond r).pSymbits = s.pSymbits := rfl

@[simp] theorem State.respond_pGfpoly (s : State) (r : BusResponse) :
    (s.respond r).pGfpoly = s.pGfpoly := rfl

@[simp] theorem State.respond_pFcr (s : State) (r : BusResponse) :
    (s.respond r).pFcr = s.pFcr := rfl

@[simp] theorem State.respond_pPrim (s : State) (r : BusResponse) :
    (s.respond r).pPrim = s.pPrim := rfl

@[simp] theorem State.respond_pNroots (s : State) (r : BusResponse) :
    (s.respond r).pNroots = s.pNroots := rfl

@[simp] theorem State.respond_pPad (s : State) (r : BusResponse) :
    (s.respond r).pPad = s.pPad := rfl

@[simp] theorem State.respond_decState (s : State) (r : BusResponse) :
    (s.respond r).decState = s.decState := rfl

@[simp] theorem State.respond_decTag (s : State) (r : BusResponse) :
    (s.respond r).decTag = s.decTag := rfl

@[simp] theorem State.respond_decClass (s : State) (r : BusResponse) :
    (s.respond r).decClass = s.decClass := rfl

@[simp] theorem State.respond_decPos (s : State) (r : BusResponse) :
    (s.respond r).decPos = s.decPos := rfl

@[simp] theorem State.respond_rxLen (s : State) (r : BusResponse) :
    (s.respond r).rxLen = s.rxLen := rfl

@[simp] theorem State.respond_rxFlags (s : State) (r : BusResponse) :
    (s.respond r).rxFlags = s.rxFlags := rfl

@[simp] theorem State.respond_rxErrs (s : State) (r : BusResponse) :
    (s.respond r).rxErrs = s.rxErrs := rfl

@[simp] theorem State.respond_cb (s : State) (r : BusResponse) :
    (s.respond r).cb = s.cb := rfl

@[simp] theorem State.respond_mem (s : State) (r : BusResponse) :
    (s.respond r).mem = s.mem := rfl

@[simp] theorem State.respond_params (s : State) (r : BusResponse) :
    (s.respond r).params = s.params := rfl

@[simp] theorem State.respond_host (s : State) (r : BusResponse) :
    (s.respond r).host = s.host := rfl

@[simp] theorem State.respond_responses (s : State) (r : BusResponse) :
    (s.respond r).responses = r :: s.responses := rfl

@[simp] theorem State.respond_latency (s : State) (r : BusResponse) :
    (s.respond r).latency = s.latency := rfl

@[simp] theorem State.respond_fresh (s : State) (r : BusResponse) :
    (s.respond r).fresh = s.fresh := rfl

@[simp] theorem State.respond_powerOn (s : State) (r : BusResponse) :
    (s.respond r).powerOn = s.powerOn := rfl

/-! ### State.hostMoved -/

@[simp] theorem State.hostMoved_pending (s : State) (m : List HostMove) :
    (s.hostMoved m).pending = s.pending := rfl

@[simp] theorem State.hostMoved_code (s : State) (m : List HostMove) :
    (s.hostMoved m).code = s.code := rfl

@[simp] theorem State.hostMoved_result (s : State) (m : List HostMove) :
    (s.hostMoved m).result = s.result := rfl

@[simp] theorem State.hostMoved_crcAcc (s : State) (m : List HostMove) :
    (s.hostMoved m).crcAcc = s.crcAcc := rfl

@[simp] theorem State.hostMoved_level4 (s : State) (m : List HostMove) :
    (s.hostMoved m).level4 = s.level4 := rfl

@[simp] theorem State.hostMoved_neras (s : State) (m : List HostMove) :
    (s.hostMoved m).neras = s.neras := rfl

@[simp] theorem State.hostMoved_pSymbits (s : State) (m : List HostMove) :
    (s.hostMoved m).pSymbits = s.pSymbits := rfl

@[simp] theorem State.hostMoved_pGfpoly (s : State) (m : List HostMove) :
    (s.hostMoved m).pGfpoly = s.pGfpoly := rfl

@[simp] theorem State.hostMoved_pFcr (s : State) (m : List HostMove) :
    (s.hostMoved m).pFcr = s.pFcr := rfl

@[simp] theorem State.hostMoved_pPrim (s : State) (m : List HostMove) :
    (s.hostMoved m).pPrim = s.pPrim := rfl

@[simp] theorem State.hostMoved_pNroots (s : State) (m : List HostMove) :
    (s.hostMoved m).pNroots = s.pNroots := rfl

@[simp] theorem State.hostMoved_pPad (s : State) (m : List HostMove) :
    (s.hostMoved m).pPad = s.pPad := rfl

@[simp] theorem State.hostMoved_decState (s : State) (m : List HostMove) :
    (s.hostMoved m).decState = s.decState := rfl

@[simp] theorem State.hostMoved_decTag (s : State) (m : List HostMove) :
    (s.hostMoved m).decTag = s.decTag := rfl

@[simp] theorem State.hostMoved_decClass (s : State) (m : List HostMove) :
    (s.hostMoved m).decClass = s.decClass := rfl

@[simp] theorem State.hostMoved_decPos (s : State) (m : List HostMove) :
    (s.hostMoved m).decPos = s.decPos := rfl

@[simp] theorem State.hostMoved_rxLen (s : State) (m : List HostMove) :
    (s.hostMoved m).rxLen = s.rxLen := rfl

@[simp] theorem State.hostMoved_rxFlags (s : State) (m : List HostMove) :
    (s.hostMoved m).rxFlags = s.rxFlags := rfl

@[simp] theorem State.hostMoved_rxErrs (s : State) (m : List HostMove) :
    (s.hostMoved m).rxErrs = s.rxErrs := rfl

@[simp] theorem State.hostMoved_cb (s : State) (m : List HostMove) :
    (s.hostMoved m).cb = s.cb := rfl

@[simp] theorem State.hostMoved_mem (s : State) (m : List HostMove) :
    (s.hostMoved m).mem = s.mem := rfl

@[simp] theorem State.hostMoved_params (s : State) (m : List HostMove) :
    (s.hostMoved m).params = s.params := rfl

@[simp] theorem State.hostMoved_host (s : State) (m : List HostMove) :
    (s.hostMoved m).host = m := rfl

@[simp] theorem State.hostMoved_responses (s : State) (m : List HostMove) :
    (s.hostMoved m).responses = s.responses := rfl

@[simp] theorem State.hostMoved_latency (s : State) (m : List HostMove) :
    (s.hostMoved m).latency = s.latency - 1 := rfl

@[simp] theorem State.hostMoved_fresh (s : State) (m : List HostMove) :
    (s.hostMoved m).fresh = s.fresh := rfl

@[simp] theorem State.hostMoved_powerOn (s : State) (m : List HostMove) :
    (s.hostMoved m).powerOn = s.powerOn := rfl

/-! ### State.queue -/

@[simp] theorem State.queue_pending (s : State) (m : List HostMove) :
    (s.queue m).pending = s.pending := rfl

@[simp] theorem State.queue_code (s : State) (m : List HostMove) :
    (s.queue m).code = s.code := rfl

@[simp] theorem State.queue_result (s : State) (m : List HostMove) :
    (s.queue m).result = s.result := rfl

@[simp] theorem State.queue_crcAcc (s : State) (m : List HostMove) :
    (s.queue m).crcAcc = s.crcAcc := rfl

@[simp] theorem State.queue_level4 (s : State) (m : List HostMove) :
    (s.queue m).level4 = s.level4 := rfl

@[simp] theorem State.queue_neras (s : State) (m : List HostMove) :
    (s.queue m).neras = s.neras := rfl

@[simp] theorem State.queue_pSymbits (s : State) (m : List HostMove) :
    (s.queue m).pSymbits = s.pSymbits := rfl

@[simp] theorem State.queue_pGfpoly (s : State) (m : List HostMove) :
    (s.queue m).pGfpoly = s.pGfpoly := rfl

@[simp] theorem State.queue_pFcr (s : State) (m : List HostMove) :
    (s.queue m).pFcr = s.pFcr := rfl

@[simp] theorem State.queue_pPrim (s : State) (m : List HostMove) :
    (s.queue m).pPrim = s.pPrim := rfl

@[simp] theorem State.queue_pNroots (s : State) (m : List HostMove) :
    (s.queue m).pNroots = s.pNroots := rfl

@[simp] theorem State.queue_pPad (s : State) (m : List HostMove) :
    (s.queue m).pPad = s.pPad := rfl

@[simp] theorem State.queue_decState (s : State) (m : List HostMove) :
    (s.queue m).decState = s.decState := rfl

@[simp] theorem State.queue_decTag (s : State) (m : List HostMove) :
    (s.queue m).decTag = s.decTag := rfl

@[simp] theorem State.queue_decClass (s : State) (m : List HostMove) :
    (s.queue m).decClass = s.decClass := rfl

@[simp] theorem State.queue_decPos (s : State) (m : List HostMove) :
    (s.queue m).decPos = s.decPos := rfl

@[simp] theorem State.queue_rxLen (s : State) (m : List HostMove) :
    (s.queue m).rxLen = s.rxLen := rfl

@[simp] theorem State.queue_rxFlags (s : State) (m : List HostMove) :
    (s.queue m).rxFlags = s.rxFlags := rfl

@[simp] theorem State.queue_rxErrs (s : State) (m : List HostMove) :
    (s.queue m).rxErrs = s.rxErrs := rfl

@[simp] theorem State.queue_cb (s : State) (m : List HostMove) :
    (s.queue m).cb = s.cb := rfl

@[simp] theorem State.queue_mem (s : State) (m : List HostMove) :
    (s.queue m).mem = s.mem := rfl

@[simp] theorem State.queue_params (s : State) (m : List HostMove) :
    (s.queue m).params = s.params := rfl

@[simp] theorem State.queue_host (s : State) (m : List HostMove) :
    (s.queue m).host = m := rfl

@[simp] theorem State.queue_responses (s : State) (m : List HostMove) :
    (s.queue m).responses = s.responses := rfl

@[simp] theorem State.queue_latency (s : State) (m : List HostMove) :
    (s.queue m).latency = s.latency := rfl

@[simp] theorem State.queue_fresh (s : State) (m : List HostMove) :
    (s.queue m).fresh = s.fresh := rfl

@[simp] theorem State.queue_powerOn (s : State) (m : List HostMove) :
    (s.queue m).powerOn = s.powerOn := rfl

/-! ### State.issue -/

@[simp] theorem State.issue_pending (s : State) (w : Word) :
    (s.issue w).pending = some w := rfl

@[simp] theorem State.issue_code (s : State) (w : Word) :
    (s.issue w).code = s.code := rfl

@[simp] theorem State.issue_result (s : State) (w : Word) :
    (s.issue w).result = s.result := rfl

@[simp] theorem State.issue_crcAcc (s : State) (w : Word) :
    (s.issue w).crcAcc = s.crcAcc := rfl

@[simp] theorem State.issue_level4 (s : State) (w : Word) :
    (s.issue w).level4 = s.level4 := rfl

@[simp] theorem State.issue_neras (s : State) (w : Word) :
    (s.issue w).neras = s.neras := rfl

@[simp] theorem State.issue_pSymbits (s : State) (w : Word) :
    (s.issue w).pSymbits = s.pSymbits := rfl

@[simp] theorem State.issue_pGfpoly (s : State) (w : Word) :
    (s.issue w).pGfpoly = s.pGfpoly := rfl

@[simp] theorem State.issue_pFcr (s : State) (w : Word) :
    (s.issue w).pFcr = s.pFcr := rfl

@[simp] theorem State.issue_pPrim (s : State) (w : Word) :
    (s.issue w).pPrim = s.pPrim := rfl

@[simp] theorem State.issue_pNroots (s : State) (w : Word) :
    (s.issue w).pNroots = s.pNroots := rfl

@[simp] theorem State.issue_pPad (s : State) (w : Word) :
    (s.issue w).pPad = s.pPad := rfl

@[simp] theorem State.issue_decState (s : State) (w : Word) :
    (s.issue w).decState = s.decState := rfl

@[simp] theorem State.issue_decTag (s : State) (w : Word) :
    (s.issue w).decTag = s.decTag := rfl

@[simp] theorem State.issue_decClass (s : State) (w : Word) :
    (s.issue w).decClass = s.decClass := rfl

@[simp] theorem State.issue_decPos (s : State) (w : Word) :
    (s.issue w).decPos = s.decPos := rfl

@[simp] theorem State.issue_rxLen (s : State) (w : Word) :
    (s.issue w).rxLen = s.rxLen := rfl

@[simp] theorem State.issue_rxFlags (s : State) (w : Word) :
    (s.issue w).rxFlags = s.rxFlags := rfl

@[simp] theorem State.issue_rxErrs (s : State) (w : Word) :
    (s.issue w).rxErrs = s.rxErrs := rfl

@[simp] theorem State.issue_cb (s : State) (w : Word) :
    (s.issue w).cb = s.cb := rfl

@[simp] theorem State.issue_mem (s : State) (w : Word) :
    (s.issue w).mem = s.mem := rfl

@[simp] theorem State.issue_params (s : State) (w : Word) :
    (s.issue w).params = s.params := rfl

@[simp] theorem State.issue_host (s : State) (w : Word) :
    (s.issue w).host = s.host := rfl

@[simp] theorem State.issue_responses (s : State) (w : Word) :
    (s.issue w).responses = s.responses := rfl

@[simp] theorem State.issue_latency (s : State) (w : Word) :
    (s.issue w).latency = Config.cmdLatency s.fresh := rfl

@[simp] theorem State.issue_fresh (s : State) (w : Word) :
    (s.issue w).fresh = s.fresh + 1 := rfl

@[simp] theorem State.issue_powerOn (s : State) (w : Word) :
    (s.issue w).powerOn = s.powerOn := rfl

/-! ### State.poised -/

@[simp] theorem State.poised_pending (s : State) (w : Word) :
    (s.poised w).pending = some w := rfl

@[simp] theorem State.poised_code (s : State) (w : Word) :
    (s.poised w).code = s.code := rfl

@[simp] theorem State.poised_result (s : State) (w : Word) :
    (s.poised w).result = s.result := rfl

@[simp] theorem State.poised_crcAcc (s : State) (w : Word) :
    (s.poised w).crcAcc = s.crcAcc := rfl

@[simp] theorem State.poised_level4 (s : State) (w : Word) :
    (s.poised w).level4 = s.level4 := rfl

@[simp] theorem State.poised_neras (s : State) (w : Word) :
    (s.poised w).neras = s.neras := rfl

@[simp] theorem State.poised_pSymbits (s : State) (w : Word) :
    (s.poised w).pSymbits = s.pSymbits := rfl

@[simp] theorem State.poised_pGfpoly (s : State) (w : Word) :
    (s.poised w).pGfpoly = s.pGfpoly := rfl

@[simp] theorem State.poised_pFcr (s : State) (w : Word) :
    (s.poised w).pFcr = s.pFcr := rfl

@[simp] theorem State.poised_pPrim (s : State) (w : Word) :
    (s.poised w).pPrim = s.pPrim := rfl

@[simp] theorem State.poised_pNroots (s : State) (w : Word) :
    (s.poised w).pNroots = s.pNroots := rfl

@[simp] theorem State.poised_pPad (s : State) (w : Word) :
    (s.poised w).pPad = s.pPad := rfl

@[simp] theorem State.poised_decState (s : State) (w : Word) :
    (s.poised w).decState = s.decState := rfl

@[simp] theorem State.poised_decTag (s : State) (w : Word) :
    (s.poised w).decTag = s.decTag := rfl

@[simp] theorem State.poised_decClass (s : State) (w : Word) :
    (s.poised w).decClass = s.decClass := rfl

@[simp] theorem State.poised_decPos (s : State) (w : Word) :
    (s.poised w).decPos = s.decPos := rfl

@[simp] theorem State.poised_rxLen (s : State) (w : Word) :
    (s.poised w).rxLen = s.rxLen := rfl

@[simp] theorem State.poised_rxFlags (s : State) (w : Word) :
    (s.poised w).rxFlags = s.rxFlags := rfl

@[simp] theorem State.poised_rxErrs (s : State) (w : Word) :
    (s.poised w).rxErrs = s.rxErrs := rfl

@[simp] theorem State.poised_cb (s : State) (w : Word) :
    (s.poised w).cb = s.cb := rfl

@[simp] theorem State.poised_mem (s : State) (w : Word) :
    (s.poised w).mem = s.mem := rfl

@[simp] theorem State.poised_params (s : State) (w : Word) :
    (s.poised w).params = s.params := rfl

@[simp] theorem State.poised_host (s : State) (w : Word) :
    (s.poised w).host = s.host := rfl

@[simp] theorem State.poised_responses (s : State) (w : Word) :
    (s.poised w).responses = s.responses := rfl

@[simp] theorem State.poised_latency (s : State) (w : Word) :
    (s.poised w).latency = 0 := rfl

@[simp] theorem State.poised_fresh (s : State) (w : Word) :
    (s.poised w).fresh = s.fresh := rfl

@[simp] theorem State.poised_powerOn (s : State) (w : Word) :
    (s.poised w).powerOn = s.powerOn := rfl

/-! ### State.spendDraw -/

@[simp] theorem State.spendDraw_pending (s : State) :
    s.spendDraw.pending = s.pending := by
  unfold State.spendDraw; split <;> rfl

@[simp] theorem State.spendDraw_code (s : State) :
    s.spendDraw.code = s.code := by
  unfold State.spendDraw; split <;> rfl

@[simp] theorem State.spendDraw_result (s : State) :
    s.spendDraw.result = s.result := by
  unfold State.spendDraw; split <;> rfl

@[simp] theorem State.spendDraw_crcAcc (s : State) :
    s.spendDraw.crcAcc = s.crcAcc := by
  unfold State.spendDraw; split <;> rfl

@[simp] theorem State.spendDraw_level4 (s : State) :
    s.spendDraw.level4 = s.level4 := by
  unfold State.spendDraw; split <;> rfl

@[simp] theorem State.spendDraw_neras (s : State) :
    s.spendDraw.neras = s.neras := by
  unfold State.spendDraw; split <;> rfl

@[simp] theorem State.spendDraw_pSymbits (s : State) :
    s.spendDraw.pSymbits = s.pSymbits := by
  unfold State.spendDraw; split <;> rfl

@[simp] theorem State.spendDraw_pGfpoly (s : State) :
    s.spendDraw.pGfpoly = s.pGfpoly := by
  unfold State.spendDraw; split <;> rfl

@[simp] theorem State.spendDraw_pFcr (s : State) :
    s.spendDraw.pFcr = s.pFcr := by
  unfold State.spendDraw; split <;> rfl

@[simp] theorem State.spendDraw_pPrim (s : State) :
    s.spendDraw.pPrim = s.pPrim := by
  unfold State.spendDraw; split <;> rfl

@[simp] theorem State.spendDraw_pNroots (s : State) :
    s.spendDraw.pNroots = s.pNroots := by
  unfold State.spendDraw; split <;> rfl

@[simp] theorem State.spendDraw_pPad (s : State) :
    s.spendDraw.pPad = s.pPad := by
  unfold State.spendDraw; split <;> rfl

@[simp] theorem State.spendDraw_decState (s : State) :
    s.spendDraw.decState = s.decState := by
  unfold State.spendDraw; split <;> rfl

@[simp] theorem State.spendDraw_decTag (s : State) :
    s.spendDraw.decTag = s.decTag := by
  unfold State.spendDraw; split <;> rfl

@[simp] theorem State.spendDraw_decClass (s : State) :
    s.spendDraw.decClass = s.decClass := by
  unfold State.spendDraw; split <;> rfl

@[simp] theorem State.spendDraw_decPos (s : State) :
    s.spendDraw.decPos = s.decPos := by
  unfold State.spendDraw; split <;> rfl

@[simp] theorem State.spendDraw_rxLen (s : State) :
    s.spendDraw.rxLen = s.rxLen := by
  unfold State.spendDraw; split <;> rfl

@[simp] theorem State.spendDraw_rxFlags (s : State) :
    s.spendDraw.rxFlags = s.rxFlags := by
  unfold State.spendDraw; split <;> rfl

@[simp] theorem State.spendDraw_rxErrs (s : State) :
    s.spendDraw.rxErrs = s.rxErrs := by
  unfold State.spendDraw; split <;> rfl

@[simp] theorem State.spendDraw_cb (s : State) :
    s.spendDraw.cb = s.cb := by
  unfold State.spendDraw; split <;> rfl

@[simp] theorem State.spendDraw_mem (s : State) :
    s.spendDraw.mem = s.mem := by
  unfold State.spendDraw; split <;> rfl

@[simp] theorem State.spendDraw_params (s : State) :
    s.spendDraw.params = s.params := by
  unfold State.spendDraw; split <;> rfl

@[simp] theorem State.spendDraw_host (s : State) :
    s.spendDraw.host = s.host := by
  unfold State.spendDraw; split <;> rfl

@[simp] theorem State.spendDraw_responses (s : State) :
    s.spendDraw.responses = s.responses := by
  unfold State.spendDraw; split <;> rfl

@[simp] theorem State.spendDraw_latency (s : State) :
    s.spendDraw.latency = s.latency := by
  unfold State.spendDraw; split <;> rfl

@[simp] theorem State.spendDraw_powerOn (s : State) :
    s.spendDraw.powerOn = s.powerOn := by
  unfold State.spendDraw; split <;> rfl

/-! ### State.storeByte -/

@[simp] theorem State.storeByte_pending (s : State) (b : Buf) (i : Nat) (v : Byte) :
    (s.storeByte b i v).pending = s.pending := by
  unfold State.storeByte; split <;> rfl

@[simp] theorem State.storeByte_code (s : State) (b : Buf) (i : Nat) (v : Byte) :
    (s.storeByte b i v).code = s.code := by
  unfold State.storeByte; split <;> rfl

@[simp] theorem State.storeByte_result (s : State) (b : Buf) (i : Nat) (v : Byte) :
    (s.storeByte b i v).result = s.result := by
  unfold State.storeByte; split <;> rfl

@[simp] theorem State.storeByte_crcAcc (s : State) (b : Buf) (i : Nat) (v : Byte) :
    (s.storeByte b i v).crcAcc = s.crcAcc := by
  unfold State.storeByte; split <;> rfl

@[simp] theorem State.storeByte_level4 (s : State) (b : Buf) (i : Nat) (v : Byte) :
    (s.storeByte b i v).level4 = s.level4 := by
  unfold State.storeByte; split <;> rfl

@[simp] theorem State.storeByte_neras (s : State) (b : Buf) (i : Nat) (v : Byte) :
    (s.storeByte b i v).neras = s.neras := by
  unfold State.storeByte; split <;> rfl

@[simp] theorem State.storeByte_pSymbits (s : State) (b : Buf) (i : Nat) (v : Byte) :
    (s.storeByte b i v).pSymbits = s.pSymbits := by
  unfold State.storeByte; split <;> rfl

@[simp] theorem State.storeByte_pGfpoly (s : State) (b : Buf) (i : Nat) (v : Byte) :
    (s.storeByte b i v).pGfpoly = s.pGfpoly := by
  unfold State.storeByte; split <;> rfl

@[simp] theorem State.storeByte_pFcr (s : State) (b : Buf) (i : Nat) (v : Byte) :
    (s.storeByte b i v).pFcr = s.pFcr := by
  unfold State.storeByte; split <;> rfl

@[simp] theorem State.storeByte_pPrim (s : State) (b : Buf) (i : Nat) (v : Byte) :
    (s.storeByte b i v).pPrim = s.pPrim := by
  unfold State.storeByte; split <;> rfl

@[simp] theorem State.storeByte_pNroots (s : State) (b : Buf) (i : Nat) (v : Byte) :
    (s.storeByte b i v).pNroots = s.pNroots := by
  unfold State.storeByte; split <;> rfl

@[simp] theorem State.storeByte_pPad (s : State) (b : Buf) (i : Nat) (v : Byte) :
    (s.storeByte b i v).pPad = s.pPad := by
  unfold State.storeByte; split <;> rfl

@[simp] theorem State.storeByte_decState (s : State) (b : Buf) (i : Nat) (v : Byte) :
    (s.storeByte b i v).decState = s.decState := by
  unfold State.storeByte; split <;> rfl

@[simp] theorem State.storeByte_decTag (s : State) (b : Buf) (i : Nat) (v : Byte) :
    (s.storeByte b i v).decTag = s.decTag := by
  unfold State.storeByte; split <;> rfl

@[simp] theorem State.storeByte_decClass (s : State) (b : Buf) (i : Nat) (v : Byte) :
    (s.storeByte b i v).decClass = s.decClass := by
  unfold State.storeByte; split <;> rfl

@[simp] theorem State.storeByte_decPos (s : State) (b : Buf) (i : Nat) (v : Byte) :
    (s.storeByte b i v).decPos = s.decPos := by
  unfold State.storeByte; split <;> rfl

@[simp] theorem State.storeByte_rxLen (s : State) (b : Buf) (i : Nat) (v : Byte) :
    (s.storeByte b i v).rxLen = s.rxLen := by
  unfold State.storeByte; split <;> rfl

@[simp] theorem State.storeByte_rxFlags (s : State) (b : Buf) (i : Nat) (v : Byte) :
    (s.storeByte b i v).rxFlags = s.rxFlags := by
  unfold State.storeByte; split <;> rfl

@[simp] theorem State.storeByte_rxErrs (s : State) (b : Buf) (i : Nat) (v : Byte) :
    (s.storeByte b i v).rxErrs = s.rxErrs := by
  unfold State.storeByte; split <;> rfl

@[simp] theorem State.storeByte_cb (s : State) (b : Buf) (i : Nat) (v : Byte) :
    (s.storeByte b i v).cb = s.cb := by
  unfold State.storeByte; split <;> rfl

@[simp] theorem State.storeByte_mem (s : State) (b : Buf) (i : Nat) (v : Byte) :
    (s.storeByte b i v).mem = if i < b.size then writeCell s.mem (b.addr i) v else s.mem := by
  unfold State.storeByte; split <;> rfl

@[simp] theorem State.storeByte_params (s : State) (b : Buf) (i : Nat) (v : Byte) :
    (s.storeByte b i v).params = s.params := by
  unfold State.storeByte; split <;> rfl

@[simp] theorem State.storeByte_host (s : State) (b : Buf) (i : Nat) (v : Byte) :
    (s.storeByte b i v).host = s.host := by
  unfold State.storeByte; split <;> rfl

@[simp] theorem State.storeByte_responses (s : State) (b : Buf) (i : Nat) (v : Byte) :
    (s.storeByte b i v).responses = s.responses := by
  unfold State.storeByte; split <;> rfl

@[simp] theorem State.storeByte_latency (s : State) (b : Buf) (i : Nat) (v : Byte) :
    (s.storeByte b i v).latency = s.latency := by
  unfold State.storeByte; split <;> rfl

@[simp] theorem State.storeByte_fresh (s : State) (b : Buf) (i : Nat) (v : Byte) :
    (s.storeByte b i v).fresh = s.fresh := by
  unfold State.storeByte; split <;> rfl

@[simp] theorem State.storeByte_powerOn (s : State) (b : Buf) (i : Nat) (v : Byte) :
    (s.storeByte b i v).powerOn = s.powerOn := by
  unfold State.storeByte; split <;> rfl

/-! ### State.storeRange -/

@[simp] theorem State.storeRange_pending (s : State) (b : Buf) (off : Nat) (vs : List Byte) :
    (s.storeRange b off vs).pending = s.pending := by
  induction vs generalizing s off with
  | nil => rfl
  | cons v vs ih => simp [State.storeRange, ih]

@[simp] theorem State.storeRange_code (s : State) (b : Buf) (off : Nat) (vs : List Byte) :
    (s.storeRange b off vs).code = s.code := by
  induction vs generalizing s off with
  | nil => rfl
  | cons v vs ih => simp [State.storeRange, ih]

@[simp] theorem State.storeRange_result (s : State) (b : Buf) (off : Nat) (vs : List Byte) :
    (s.storeRange b off vs).result = s.result := by
  induction vs generalizing s off with
  | nil => rfl
  | cons v vs ih => simp [State.storeRange, ih]

@[simp] theorem State.storeRange_crcAcc (s : State) (b : Buf) (off : Nat) (vs : List Byte) :
    (s.storeRange b off vs).crcAcc = s.crcAcc := by
  induction vs generalizing s off with
  | nil => rfl
  | cons v vs ih => simp [State.storeRange, ih]

@[simp] theorem State.storeRange_level4 (s : State) (b : Buf) (off : Nat) (vs : List Byte) :
    (s.storeRange b off vs).level4 = s.level4 := by
  induction vs generalizing s off with
  | nil => rfl
  | cons v vs ih => simp [State.storeRange, ih]

@[simp] theorem State.storeRange_neras (s : State) (b : Buf) (off : Nat) (vs : List Byte) :
    (s.storeRange b off vs).neras = s.neras := by
  induction vs generalizing s off with
  | nil => rfl
  | cons v vs ih => simp [State.storeRange, ih]

@[simp] theorem State.storeRange_pSymbits (s : State) (b : Buf) (off : Nat) (vs : List Byte) :
    (s.storeRange b off vs).pSymbits = s.pSymbits := by
  induction vs generalizing s off with
  | nil => rfl
  | cons v vs ih => simp [State.storeRange, ih]

@[simp] theorem State.storeRange_pGfpoly (s : State) (b : Buf) (off : Nat) (vs : List Byte) :
    (s.storeRange b off vs).pGfpoly = s.pGfpoly := by
  induction vs generalizing s off with
  | nil => rfl
  | cons v vs ih => simp [State.storeRange, ih]

@[simp] theorem State.storeRange_pFcr (s : State) (b : Buf) (off : Nat) (vs : List Byte) :
    (s.storeRange b off vs).pFcr = s.pFcr := by
  induction vs generalizing s off with
  | nil => rfl
  | cons v vs ih => simp [State.storeRange, ih]

@[simp] theorem State.storeRange_pPrim (s : State) (b : Buf) (off : Nat) (vs : List Byte) :
    (s.storeRange b off vs).pPrim = s.pPrim := by
  induction vs generalizing s off with
  | nil => rfl
  | cons v vs ih => simp [State.storeRange, ih]

@[simp] theorem State.storeRange_pNroots (s : State) (b : Buf) (off : Nat) (vs : List Byte) :
    (s.storeRange b off vs).pNroots = s.pNroots := by
  induction vs generalizing s off with
  | nil => rfl
  | cons v vs ih => simp [State.storeRange, ih]

@[simp] theorem State.storeRange_pPad (s : State) (b : Buf) (off : Nat) (vs : List Byte) :
    (s.storeRange b off vs).pPad = s.pPad := by
  induction vs generalizing s off with
  | nil => rfl
  | cons v vs ih => simp [State.storeRange, ih]

@[simp] theorem State.storeRange_decState (s : State) (b : Buf) (off : Nat) (vs : List Byte) :
    (s.storeRange b off vs).decState = s.decState := by
  induction vs generalizing s off with
  | nil => rfl
  | cons v vs ih => simp [State.storeRange, ih]

@[simp] theorem State.storeRange_decTag (s : State) (b : Buf) (off : Nat) (vs : List Byte) :
    (s.storeRange b off vs).decTag = s.decTag := by
  induction vs generalizing s off with
  | nil => rfl
  | cons v vs ih => simp [State.storeRange, ih]

@[simp] theorem State.storeRange_decClass (s : State) (b : Buf) (off : Nat) (vs : List Byte) :
    (s.storeRange b off vs).decClass = s.decClass := by
  induction vs generalizing s off with
  | nil => rfl
  | cons v vs ih => simp [State.storeRange, ih]

@[simp] theorem State.storeRange_decPos (s : State) (b : Buf) (off : Nat) (vs : List Byte) :
    (s.storeRange b off vs).decPos = s.decPos := by
  induction vs generalizing s off with
  | nil => rfl
  | cons v vs ih => simp [State.storeRange, ih]

@[simp] theorem State.storeRange_rxLen (s : State) (b : Buf) (off : Nat) (vs : List Byte) :
    (s.storeRange b off vs).rxLen = s.rxLen := by
  induction vs generalizing s off with
  | nil => rfl
  | cons v vs ih => simp [State.storeRange, ih]

@[simp] theorem State.storeRange_rxFlags (s : State) (b : Buf) (off : Nat) (vs : List Byte) :
    (s.storeRange b off vs).rxFlags = s.rxFlags := by
  induction vs generalizing s off with
  | nil => rfl
  | cons v vs ih => simp [State.storeRange, ih]

@[simp] theorem State.storeRange_rxErrs (s : State) (b : Buf) (off : Nat) (vs : List Byte) :
    (s.storeRange b off vs).rxErrs = s.rxErrs := by
  induction vs generalizing s off with
  | nil => rfl
  | cons v vs ih => simp [State.storeRange, ih]

@[simp] theorem State.storeRange_cb (s : State) (b : Buf) (off : Nat) (vs : List Byte) :
    (s.storeRange b off vs).cb = s.cb := by
  induction vs generalizing s off with
  | nil => rfl
  | cons v vs ih => simp [State.storeRange, ih]

@[simp] theorem State.storeRange_params (s : State) (b : Buf) (off : Nat) (vs : List Byte) :
    (s.storeRange b off vs).params = s.params := by
  induction vs generalizing s off with
  | nil => rfl
  | cons v vs ih => simp [State.storeRange, ih]

@[simp] theorem State.storeRange_host (s : State) (b : Buf) (off : Nat) (vs : List Byte) :
    (s.storeRange b off vs).host = s.host := by
  induction vs generalizing s off with
  | nil => rfl
  | cons v vs ih => simp [State.storeRange, ih]

@[simp] theorem State.storeRange_responses (s : State) (b : Buf) (off : Nat) (vs : List Byte) :
    (s.storeRange b off vs).responses = s.responses := by
  induction vs generalizing s off with
  | nil => rfl
  | cons v vs ih => simp [State.storeRange, ih]

@[simp] theorem State.storeRange_latency (s : State) (b : Buf) (off : Nat) (vs : List Byte) :
    (s.storeRange b off vs).latency = s.latency := by
  induction vs generalizing s off with
  | nil => rfl
  | cons v vs ih => simp [State.storeRange, ih]

@[simp] theorem State.storeRange_fresh (s : State) (b : Buf) (off : Nat) (vs : List Byte) :
    (s.storeRange b off vs).fresh = s.fresh := by
  induction vs generalizing s off with
  | nil => rfl
  | cons v vs ih => simp [State.storeRange, ih]

@[simp] theorem State.storeRange_powerOn (s : State) (b : Buf) (off : Nat) (vs : List Byte) :
    (s.storeRange b off vs).powerOn = s.powerOn := by
  induction vs generalizing s off with
  | nil => rfl
  | cons v vs ih => simp [State.storeRange, ih]

/-! ### State.storeWrites -/

@[simp] theorem State.storeWrites_pending (s : State) (b : Buf) (ws : List (Nat × Byte)) :
    (s.storeWrites b ws).pending = s.pending := by
  induction ws generalizing s with
  | nil => rfl
  | cons w ws ih => simp [State.storeWrites, ih]

@[simp] theorem State.storeWrites_code (s : State) (b : Buf) (ws : List (Nat × Byte)) :
    (s.storeWrites b ws).code = s.code := by
  induction ws generalizing s with
  | nil => rfl
  | cons w ws ih => simp [State.storeWrites, ih]

@[simp] theorem State.storeWrites_result (s : State) (b : Buf) (ws : List (Nat × Byte)) :
    (s.storeWrites b ws).result = s.result := by
  induction ws generalizing s with
  | nil => rfl
  | cons w ws ih => simp [State.storeWrites, ih]

@[simp] theorem State.storeWrites_crcAcc (s : State) (b : Buf) (ws : List (Nat × Byte)) :
    (s.storeWrites b ws).crcAcc = s.crcAcc := by
  induction ws generalizing s with
  | nil => rfl
  | cons w ws ih => simp [State.storeWrites, ih]

@[simp] theorem State.storeWrites_level4 (s : State) (b : Buf) (ws : List (Nat × Byte)) :
    (s.storeWrites b ws).level4 = s.level4 := by
  induction ws generalizing s with
  | nil => rfl
  | cons w ws ih => simp [State.storeWrites, ih]

@[simp] theorem State.storeWrites_neras (s : State) (b : Buf) (ws : List (Nat × Byte)) :
    (s.storeWrites b ws).neras = s.neras := by
  induction ws generalizing s with
  | nil => rfl
  | cons w ws ih => simp [State.storeWrites, ih]

@[simp] theorem State.storeWrites_pSymbits (s : State) (b : Buf) (ws : List (Nat × Byte)) :
    (s.storeWrites b ws).pSymbits = s.pSymbits := by
  induction ws generalizing s with
  | nil => rfl
  | cons w ws ih => simp [State.storeWrites, ih]

@[simp] theorem State.storeWrites_pGfpoly (s : State) (b : Buf) (ws : List (Nat × Byte)) :
    (s.storeWrites b ws).pGfpoly = s.pGfpoly := by
  induction ws generalizing s with
  | nil => rfl
  | cons w ws ih => simp [State.storeWrites, ih]

@[simp] theorem State.storeWrites_pFcr (s : State) (b : Buf) (ws : List (Nat × Byte)) :
    (s.storeWrites b ws).pFcr = s.pFcr := by
  induction ws generalizing s with
  | nil => rfl
  | cons w ws ih => simp [State.storeWrites, ih]

@[simp] theorem State.storeWrites_pPrim (s : State) (b : Buf) (ws : List (Nat × Byte)) :
    (s.storeWrites b ws).pPrim = s.pPrim := by
  induction ws generalizing s with
  | nil => rfl
  | cons w ws ih => simp [State.storeWrites, ih]

@[simp] theorem State.storeWrites_pNroots (s : State) (b : Buf) (ws : List (Nat × Byte)) :
    (s.storeWrites b ws).pNroots = s.pNroots := by
  induction ws generalizing s with
  | nil => rfl
  | cons w ws ih => simp [State.storeWrites, ih]

@[simp] theorem State.storeWrites_pPad (s : State) (b : Buf) (ws : List (Nat × Byte)) :
    (s.storeWrites b ws).pPad = s.pPad := by
  induction ws generalizing s with
  | nil => rfl
  | cons w ws ih => simp [State.storeWrites, ih]

@[simp] theorem State.storeWrites_decState (s : State) (b : Buf) (ws : List (Nat × Byte)) :
    (s.storeWrites b ws).decState = s.decState := by
  induction ws generalizing s with
  | nil => rfl
  | cons w ws ih => simp [State.storeWrites, ih]

@[simp] theorem State.storeWrites_decTag (s : State) (b : Buf) (ws : List (Nat × Byte)) :
    (s.storeWrites b ws).decTag = s.decTag := by
  induction ws generalizing s with
  | nil => rfl
  | cons w ws ih => simp [State.storeWrites, ih]

@[simp] theorem State.storeWrites_decClass (s : State) (b : Buf) (ws : List (Nat × Byte)) :
    (s.storeWrites b ws).decClass = s.decClass := by
  induction ws generalizing s with
  | nil => rfl
  | cons w ws ih => simp [State.storeWrites, ih]

@[simp] theorem State.storeWrites_decPos (s : State) (b : Buf) (ws : List (Nat × Byte)) :
    (s.storeWrites b ws).decPos = s.decPos := by
  induction ws generalizing s with
  | nil => rfl
  | cons w ws ih => simp [State.storeWrites, ih]

@[simp] theorem State.storeWrites_rxLen (s : State) (b : Buf) (ws : List (Nat × Byte)) :
    (s.storeWrites b ws).rxLen = s.rxLen := by
  induction ws generalizing s with
  | nil => rfl
  | cons w ws ih => simp [State.storeWrites, ih]

@[simp] theorem State.storeWrites_rxFlags (s : State) (b : Buf) (ws : List (Nat × Byte)) :
    (s.storeWrites b ws).rxFlags = s.rxFlags := by
  induction ws generalizing s with
  | nil => rfl
  | cons w ws ih => simp [State.storeWrites, ih]

@[simp] theorem State.storeWrites_rxErrs (s : State) (b : Buf) (ws : List (Nat × Byte)) :
    (s.storeWrites b ws).rxErrs = s.rxErrs := by
  induction ws generalizing s with
  | nil => rfl
  | cons w ws ih => simp [State.storeWrites, ih]

@[simp] theorem State.storeWrites_cb (s : State) (b : Buf) (ws : List (Nat × Byte)) :
    (s.storeWrites b ws).cb = s.cb := by
  induction ws generalizing s with
  | nil => rfl
  | cons w ws ih => simp [State.storeWrites, ih]

@[simp] theorem State.storeWrites_params (s : State) (b : Buf) (ws : List (Nat × Byte)) :
    (s.storeWrites b ws).params = s.params := by
  induction ws generalizing s with
  | nil => rfl
  | cons w ws ih => simp [State.storeWrites, ih]

@[simp] theorem State.storeWrites_host (s : State) (b : Buf) (ws : List (Nat × Byte)) :
    (s.storeWrites b ws).host = s.host := by
  induction ws generalizing s with
  | nil => rfl
  | cons w ws ih => simp [State.storeWrites, ih]

@[simp] theorem State.storeWrites_responses (s : State) (b : Buf) (ws : List (Nat × Byte)) :
    (s.storeWrites b ws).responses = s.responses := by
  induction ws generalizing s with
  | nil => rfl
  | cons w ws ih => simp [State.storeWrites, ih]

@[simp] theorem State.storeWrites_latency (s : State) (b : Buf) (ws : List (Nat × Byte)) :
    (s.storeWrites b ws).latency = s.latency := by
  induction ws generalizing s with
  | nil => rfl
  | cons w ws ih => simp [State.storeWrites, ih]

@[simp] theorem State.storeWrites_fresh (s : State) (b : Buf) (ws : List (Nat × Byte)) :
    (s.storeWrites b ws).fresh = s.fresh := by
  induction ws generalizing s with
  | nil => rfl
  | cons w ws ih => simp [State.storeWrites, ih]

@[simp] theorem State.storeWrites_powerOn (s : State) (b : Buf) (ws : List (Nat × Byte)) :
    (s.storeWrites b ws).powerOn = s.powerOn := by
  induction ws generalizing s with
  | nil => rfl
  | cons w ws ih => simp [State.storeWrites, ih]

end Sys2Proof.Machine
end

