-- ==== Sys2Proof/Laws/Memory.lean ====
section
/-! SUPPORT. The memory laws: a read after a write, and the canonical form kept by every memory operation. -/

namespace Sys2Proof.Machine

/-! ### Cells -/

theorem readCell_writeCell_same (m : Memory) (a : Nat) (v : Byte) : readCell (writeCell m a v) a = some v := by
  induction m with
  | nil => simp [writeCell, readCell]
  | cons c m ih =>
    obtain ⟨k, w⟩ := c
    simp only [writeCell]
    split
    · simp [readCell]
    · split
      · simp [readCell]
      · rename_i h1 h2
        simp [readCell, show k ≠ a by omega, ih]

theorem readCell_writeCell_other (m : Memory) {a x : Nat} (v : Byte) (h : x ≠ a) :
    readCell (writeCell m a v) x = readCell m x := by
  induction m with
  | nil => simp [writeCell, readCell, h.symm]
  | cons c m ih =>
    obtain ⟨k, w⟩ := c
    simp only [writeCell]
    split
    · simp [readCell, h.symm]
    · split
      · rename_i h1 h2
        subst h2
        simp [readCell, h.symm]
      · simp [readCell, ih]

/-- The offsets listed after a write are the old ones and the written one. -/
theorem fst_of_mem_writeCell {m : Memory} {a : Nat} {v : Byte} {c : Host.Cell} (h : c ∈ writeCell m a v) :
    c.1 = a ∨ ∃ d ∈ m, d.1 = c.1 := by
  induction m with
  | nil => simp only [writeCell, List.mem_singleton] at h; exact .inl (by rw [h])
  | cons x m ih =>
    obtain ⟨k, w⟩ := x
    simp only [writeCell] at h
    split at h
    · rcases List.mem_cons.1 h with rfl | h
      · exact .inl rfl
      · exact .inr ⟨c, h, rfl⟩
    · split at h
      · rcases List.mem_cons.1 h with rfl | h
        · exact .inl rfl
        · exact .inr ⟨c, List.mem_cons_of_mem _ h, rfl⟩
      · rcases List.mem_cons.1 h with rfl | h
        · exact .inr ⟨_, List.mem_cons_self, rfl⟩
        · rcases ih h with h | ⟨d, hd, he⟩
          · exact .inl h
          · exact .inr ⟨d, List.mem_cons_of_mem _ hd, he⟩

theorem writeCell_sorted {m : Memory} (a : Nat) (v : Byte) (h : m.Pairwise (fun x y => x.1 < y.1)) :
    (writeCell m a v).Pairwise (fun x y => x.1 < y.1) := by
  induction m with
  | nil => simp [writeCell]
  | cons c m ih =>
    obtain ⟨k, w⟩ := c
    rw [List.pairwise_cons] at h
    simp only [writeCell]
    split
    · rename_i hk
      refine List.pairwise_cons.2 ⟨fun d hd => ?_, List.pairwise_cons.2 h⟩
      rcases List.mem_cons.1 hd with rfl | hd
      · exact hk
      · have := h.1 d hd
        simp only at this ⊢
        omega
    · split
      · rename_i h1 h2
        subst h2
        exact List.pairwise_cons.2 h
      · rename_i h1 h2
        refine List.pairwise_cons.2 ⟨fun d hd => ?_, ih h.2⟩
        rcases fst_of_mem_writeCell hd with hd | ⟨e, he, hde⟩
        · simp only
          omega
        · have := h.1 e he
          simp only at this ⊢
          omega

theorem writeCell_wf {m : Memory} {a : Nat} (v : Byte) (h : m.wf) (ha : isBufferWord a = true) :
    (writeCell m a v).wf := by
  refine ⟨writeCell_sorted a v h.1, fun c hc => ?_⟩
  rcases fst_of_mem_writeCell hc with hc | ⟨d, hd, he⟩
  · rw [hc]; exact ha
  · rw [← he]; exact h.2 d hd

/-! ### Buffer addresses (R62, R63) -/

/-- No two buffer bytes share an offset. -/
theorem Buf.addr_inj {b c : Buf} {i j : Nat} (hi : i < b.size) (hj : j < c.size) (h : b.addr i = c.addr j) :
    b = c ∧ i = j := by
  cases b <;> cases c <;> simp only [Buf.addr, Buf.base, Buf.size, reduceCtorEq, true_and, false_and] at * <;> omega

theorem Buf.isBufferWord_addr (b : Buf) {i : Nat} (h : i < b.size) : isBufferWord (b.addr i) = true := by
  simp only [isBufferWord, List.any_eq_true, allBufs]
  refine ⟨b, by cases b <;> simp, ?_⟩
  have : b.base % 4 = 0 := by cases b <;> rfl
  simp only [Buf.covers, Buf.addr, Bool.and_eq_true]
  exact ⟨⟨decide_eq_true (by omega), decide_eq_true (by omega)⟩, decide_eq_true (by omega)⟩

/-! ### Reading after a store -/

theorem State.written?_storeByte_same (s : State) (b : Buf) {i : Nat} (v : Byte) (h : i < b.size) :
    (s.storeByte b i v).written? b i = some v := by
  simp [State.written?, h, readCell_writeCell_same]

theorem State.written?_storeByte_other (s : State) {b c : Buf} {i j : Nat} (v : Byte) (h : ¬ (c = b ∧ j = i)) :
    (s.storeByte b i v).written? c j = s.written? c j := by
  simp only [State.written?, State.storeByte_mem]
  split
  · rename_i hj
    split
    · rename_i hi
      exact readCell_writeCell_other _ _ fun he => h (Buf.addr_inj hj hi he)
    · rfl
  · rfl

/-- A store of a list of bytes leaves every byte outside its range alone. -/
theorem State.written?_storeRange_other (s : State) {b c : Buf} {off j : Nat} (vs : List Byte)
    (h : ¬ (c = b ∧ off ≤ j ∧ j < off + vs.length)) :
    (s.storeRange b off vs).written? c j = s.written? c j := by
  induction vs generalizing s off with
  | nil => rfl
  | cons v vs ih =>
    simp only [List.length_cons] at h
    simp only [State.storeRange]
    rw [ih _ fun ⟨h1, h2, h3⟩ => h ⟨h1, by omega, by omega⟩,
      State.written?_storeByte_other _ _ fun ⟨h1, h2⟩ => h ⟨h1, by omega, by omega⟩]

/-- A store of a list of bytes gives each of them back. -/
theorem State.written?_storeRange_same (s : State) (b : Buf) {off j : Nat} (vs : List Byte)
    (hj : j < vs.length) (hs : off + j < b.size) :
    (s.storeRange b off vs).written? b (off + j) = some vs[j] := by
  induction vs generalizing s off j with
  | nil => simp at hj
  | cons v vs ih =>
    simp only [State.storeRange]
    cases j with
    | zero =>
      rw [State.written?_storeRange_other _ _ (by omega)]
      exact State.written?_storeByte_same _ _ _ hs
    | succ j =>
      have := ih (s := s.storeByte b off v) (off := off + 1) (j := j) (by simpa using hj) (by omega)
      simpa [Nat.add_assoc, Nat.add_comm 1 j] using this

/-- Single writes leave every other byte alone. -/
theorem State.written?_storeWrites_other (s : State) {b c : Buf} {j : Nat} (ws : List (Nat × Byte))
    (h : ∀ w ∈ ws, ¬ (c = b ∧ j = w.1)) :
    (s.storeWrites b ws).written? c j = s.written? c j := by
  induction ws generalizing s with
  | nil => rfl
  | cons w ws ih =>
    simp only [State.storeWrites]
    rw [ih _ fun x hx => h x (List.mem_cons_of_mem _ hx),
      State.written?_storeByte_other _ _ (h w List.mem_cons_self)]

/-- A stored byte stays written. -/
theorem State.isSome_written?_storeByte (s : State) (b c : Buf) (i j : Nat) (v : Byte)
    (h : (s.written? c j).isSome = true) : ((s.storeByte b i v).written? c j).isSome = true := by
  by_cases hc : c = b ∧ j = i
  · obtain ⟨rfl, rfl⟩ := hc
    by_cases hj : j < c.size
    · rw [State.written?_storeByte_same _ _ _ hj]; rfl
    · simp [State.written?, hj] at h
  · rw [State.written?_storeByte_other _ _ hc]; exact h

/-! ### The canonical form -/

theorem State.storeByte_wf (s : State) (b : Buf) (i : Nat) (v : Byte) (h : s.mem.wf) :
    (s.storeByte b i v).mem.wf := by
  simp only [State.storeByte_mem]
  split
  · exact writeCell_wf v h (Buf.isBufferWord_addr b ‹_›)
  · exact h

theorem State.storeRange_wf (s : State) (b : Buf) (off : Nat) (vs : List Byte) (h : s.mem.wf) :
    (s.storeRange b off vs).mem.wf := by
  induction vs generalizing s off with
  | nil => exact h
  | cons v vs ih => exact ih _ _ (s.storeByte_wf b off v h)

theorem State.storeWrites_wf (s : State) (b : Buf) (ws : List (Nat × Byte)) (h : s.mem.wf) :
    (s.storeWrites b ws).mem.wf := by
  induction ws generalizing s with
  | nil => exact h
  | cons w ws ih => exact ih _ (s.storeByte_wf b w.1 w.2 h)

/-! ### Loads -/

/-- Everything a load of one byte can do (R47). -/
theorem State.loadByte_cases (s : State) (b : Buf) (i : Nat) :
    (∃ v, s.written? b i = some v ∧ s.loadByte b i = .ok v) ∨
    (s.written? b i = none ∧ s.params.unwritten = .draw ∧
      s.loadByte b i = .ok (Config.unwrittenByte s.powerOn (b.addr i))) ∨
    (s.written? b i = none ∧ s.params.unwritten = .fault ∧ s.loadByte b i = .error (.unwrittenByte b i)) := by
  simp only [State.loadByte, State.readUnwritten]
  cases s.written? b i with
  | some v => exact .inl ⟨v, rfl, rfl⟩
  | none => cases s.params.unwritten <;> simp

/-- A load depends only on the byte, the parameters and the draw of the unspecified contents. -/
theorem State.loadByte_congr {s t : State} {b : Buf} {i : Nat} (hw : t.written? b i = s.written? b i)
    (hp : t.params = s.params) (ho : t.powerOn = s.powerOn) : t.loadByte b i = s.loadByte b i := by
  simp [State.loadByte, State.readUnwritten, hw, hp, ho]

/-- A loaded range has the length asked for, and each byte is the load of that byte. -/
theorem State.loadRange_ok {s : State} {b : Buf} {off len : Nat} {l : List Byte}
    (h : s.loadRange b off len = .ok l) :
    l.length = len ∧ ∀ j (hj : j < l.length), s.loadByte b (off + j) = .ok l[j] := by
  induction len generalizing off l with
  | zero =>
    simp only [State.loadRange, Except.ok.injEq] at h
    subst h
    simp
  | succ len ih =>
    simp only [State.loadRange] at h
    split at h
    · cases h
    · rename_i v hv
      split at h
      · cases h
      · rename_i vs hvs
        simp only [Except.ok.injEq] at h
        subst h
        obtain ⟨h1, h2⟩ := ih hvs
        refine ⟨by simp [h1], fun j hj => ?_⟩
        cases j with
        | zero => simpa using hv
        | succ j =>
          have := h2 j (by simpa using hj)
          simpa [Nat.add_assoc, Nat.add_comm 1 j] using this

/-- The load of a range whose bytes all load. -/
theorem State.loadRange_of_loadByte {s : State} {b : Buf} {off : Nat} (l : List Byte)
    (h : ∀ j (hj : j < l.length), s.loadByte b (off + j) = .ok l[j]) : s.loadRange b off l.length = .ok l := by
  induction l generalizing off with
  | nil => rfl
  | cons v vs ih =>
    have h0 := h 0 (by simp)
    have hrest := ih (off := off + 1) fun j hj => by
      have := h (j + 1) (by simpa using hj)
      simpa [Nat.add_assoc, Nat.add_comm 1 j] using this
    simp only [Nat.add_zero, List.getElem_cons_zero] at h0
    simp [State.loadRange, h0, hrest]

end Sys2Proof.Machine
end

