-- ==== Sys2Proof/Laws/Ops.lean ====
section
/-! SUPPORT. One lemma for each shared operation, saying once everything it can do: slot operands, loads and stores of
ranges, the report of a decode, a host access. -/

namespace Sys2Proof.Machine

/-! ### Slot operands (R93, R131) -/

theorem slotOf?_slotBits (c : SlotId) : slotOf? (slotBits c) = some c := by
  revert c; decide

theorem slotOf?_seven : slotOf? 7 = none := by decide

theorem withSlot_slotBits (c : SlotId) (s : State) (k : SlotId → ControlBlock → Result) :
    withSlot (slotBits c) s k = k c s.cb[c] := by
  simp [withSlot, slotOf?_slotBits]

theorem withValidSlot_slotBits (c : SlotId) (s : State) (k : ControlBlock → Result) :
    withValidSlot (slotBits c) s k = if s.cb[c].valid then k s.cb[c] else .next (s.raiseError .notInit) := by
  simp [withValidSlot, withSlot_slotBits]

theorem withValidSlot_seven (s : State) (k : ControlBlock → Result) :
    withValidSlot 7 s k = .next (s.raiseError .illegal) := by
  rw [withValidSlot, withSlot, slotOf?_seven]

/-- A SLOT operand is 7 or names a slot. -/
theorem slot_cases (slot : BitVec 3) : slot = 7 ∨ ∃ c : SlotId, slot = slotBits c := by
  revert slot; decide

/-! ### Loads and stores -/

theorem andThen_ok {α : Type} {r : Except Fault α} {a : α} (k : α → Result) (h : r = .ok a) : andThen r k = k a := by
  subst h; rfl

theorem andThen_next {α : Type} {r : Except Fault α} {k : α → Result} {t : State} (h : andThen r k = .next t) :
    ∃ a, r = .ok a ∧ k a = .next t := by
  cases r with
  | error f => cases h
  | ok a => exact ⟨a, rfl, h⟩

theorem State.storeByte_eq (s : State) (b : Buf) (i : Nat) (v : Byte) :
    s.storeByte b i v = { s with mem := (s.storeByte b i v).mem } := by
  simp only [State.storeByte]; split <;> rfl

theorem State.storeRange_eq (s : State) (b : Buf) (off : Nat) (vs : List Byte) :
    s.storeRange b off vs = { s with mem := (s.storeRange b off vs).mem } := by
  induction vs generalizing s off with
  | nil => rfl
  | cons v vs ih =>
    simp only [State.storeRange]
    rw [ih, State.storeByte_eq]

theorem State.storeWrites_eq (s : State) (b : Buf) (ws : List (Nat × Byte)) :
    s.storeWrites b ws = { s with mem := (s.storeWrites b ws).mem } := by
  induction ws generalizing s with
  | nil => rfl
  | cons w ws ih =>
    simp only [State.storeWrites]
    rw [ih, State.storeByte_eq]

/-- Where unwritten bytes are drawn, every byte loads (R47). -/
theorem State.exists_loadByte {s : State} (h : s.params.unwritten = .draw) (b : Buf) (i : Nat) :
    ∃ v, s.loadByte b i = .ok v := by
  obtain ⟨v, -, hv⟩ | ⟨-, -, hv⟩ | ⟨-, hf, -⟩ := s.loadByte_cases b i
  · exact ⟨v, hv⟩
  · exact ⟨_, hv⟩
  · rw [h] at hf; cases hf

/-- Where unwritten bytes are drawn, every range loads. -/
theorem State.exists_loadRange {s : State} (h : s.params.unwritten = .draw) (b : Buf) (off len : Nat) :
    ∃ l, s.loadRange b off len = .ok l := by
  induction len generalizing off with
  | zero => exact ⟨[], rfl⟩
  | succ len ih =>
    obtain ⟨v, hv⟩ := State.exists_loadByte h b off
    obtain ⟨vs, hvs⟩ := ih (off + 1)
    exact ⟨v :: vs, by simp [State.loadRange, hv, hvs]⟩

/-! ### The report of a decode (R175) -/

/-- All that the report of a decode can do: it ends the command, and on a correction it writes DBUF and EPOS. -/
theorem State.reportDecode_cases (s : State) (o : RsOutcome) :
    (o = .clean ∧ s.reportDecode o = { s with code := .ok, result := 0 }) ∨
    (o = .uncorrectable ∧ s.reportDecode o = { s with code := .uncorrectable, result := 0xFFFFFFFF }) ∨
    ∃ ws ps, o = .corrected ws ps ∧
      s.reportDecode o =
        { s with
          mem := ((s.storeWrites .dbuf ws).storeRange .epos 0 (ps.map (BitVec.ofNat 8))).mem, code := .ok,
          result := BitVec.ofNat 32 ps.length } := by
  cases o with
  | clean => exact .inl ⟨rfl, rfl⟩
  | uncorrectable => exact .inr (.inl ⟨rfl, rfl⟩)
  | corrected ws ps =>
    refine .inr (.inr ⟨ws, ps, rfl, ?_⟩)
    simp only [State.reportDecode, State.finish]
    rw [State.storeRange_eq, State.storeWrites_eq]

/-! ### Host accesses (R61 to R70) -/

/-- All that a host access can do: it faults only on a read of a never-written byte, a read changes nothing, and a write
that changes anything was served by `writeAt` while the engine was idle. -/
theorem State.serve_cases {s t : State} {a : Access} {r : BusResponse} (h : s.serve a = .ok (t, r)) :
    t = s ∨ (a.kind = .write ∧ s.pending = none ∧ r = .writeOk ∧
      ∃ l, locate a.offset.toNat = some l ∧ s.writeAt a.wdata l = some t) := by
  simp only [State.serve] at h
  split at h
  · cases h; exact .inl rfl
  · split at h
    · cases h; exact .inl rfl
    · rename_i l hl
      split at h
      · split at h
        · cases h; exact .inl rfl
        · split at h
          · cases h
          · cases h; exact .inl rfl
      · rename_i hk
        split at h
        · cases h; exact .inl rfl
        · rename_i hb
          split at h
          · cases h; exact .inl rfl
          · rename_i s' hw
            cases h
            exact .inr ⟨hk, by simpa [State.busy] using hb, rfl, l, hl, hw⟩

end Sys2Proof.Machine
end

