-- ==== Sys2Proof/Laws/PerInstr.lean ====
section
/-! SUPPORT. Facts stated for every command as syntax, one lemma for each constructor of Instr. -/

namespace Sys2Proof.Laws.OpcodeField

/-- R91, R95: bits 31:24 of a command's word are its opcode. -/
def Statement (i : Instr) : Prop := opcField (encode i) = i.opcode

/-- The upper bits of a concatenation. -/
theorem extract_append {w v : Nat} (x : BitVec w) (y : BitVec v) : (x ++ y).extractLsb' v w = x := by
  apply BitVec.eq_of_getLsbD_eq
  intro n hn
  simp [hn, BitVec.getLsbD_append]

/-- The bits above the lowest `v + k` of a concatenation are those above `k` of its upper part. -/
theorem extract_append_high {w v k n : Nat} (x : BitVec w) (y : BitVec v) :
    (x ++ y).extractLsb' (v + k) n = x.extractLsb' k n := by
  apply BitVec.eq_of_getLsbD_eq
  intro j hj
  simp only [BitVec.getLsbD_extractLsb', BitVec.getLsbD_append]
  have h1 : ¬ v + k + j < v := by omega
  have h2 : v + k + j - v = k + j := by omega
  simp [h1, h2]

theorem nop : Statement .nop :=
  extract_append _ _

theorem gfInit (slot : BitVec 3) : Statement (.gfInit slot) :=
  Eq.trans (extract_append_high (v := 16) (k := 8) _ _) (Eq.trans (extract_append_high (v := 3) (k := 5) _ _) (extract_append _ _))

theorem gfMul (slot : BitVec 3) (x y : Byte) : Statement (.gfMul slot x y) :=
  Eq.trans (extract_append_high (v := 8) (k := 16) _ _) (Eq.trans (extract_append_high (v := 8) (k := 8) _ _) (Eq.trans (extract_append_high (v := 3) (k := 5) _ _) (extract_append _ _)))

theorem gfDiv (slot : BitVec 3) (x y : Byte) : Statement (.gfDiv slot x y) :=
  Eq.trans (extract_append_high (v := 8) (k := 16) _ _) (Eq.trans (extract_append_high (v := 8) (k := 8) _ _) (Eq.trans (extract_append_high (v := 3) (k := 5) _ _) (extract_append _ _)))

theorem gfLog (slot : BitVec 3) (x : Byte) : Statement (.gfLog slot x) :=
  Eq.trans (extract_append_high (v := 8) (k := 16) _ _) (Eq.trans (extract_append_high (v := 8) (k := 8) _ _) (Eq.trans (extract_append_high (v := 3) (k := 5) _ _) (extract_append _ _)))

theorem gfExp (slot : BitVec 3) (i : Byte) : Statement (.gfExp slot i) :=
  Eq.trans (extract_append_high (v := 8) (k := 16) _ _) (Eq.trans (extract_append_high (v := 8) (k := 8) _ _) (Eq.trans (extract_append_high (v := 3) (k := 5) _ _) (extract_append _ _)))

theorem gfModnn (slot : BitVec 3) (v : Half) : Statement (.gfModnn slot v) :=
  Eq.trans (extract_append_high (v := 16) (k := 8) _ _) (Eq.trans (extract_append_high (v := 3) (k := 5) _ _) (extract_append _ _))

theorem gfGenpoly (slot : BitVec 3) (i : Byte) : Statement (.gfGenpoly slot i) :=
  Eq.trans (extract_append_high (v := 8) (k := 16) _ _) (Eq.trans (extract_append_high (v := 8) (k := 8) _ _) (Eq.trans (extract_append_high (v := 3) (k := 5) _ _) (extract_append _ _)))

theorem rsEncode (slot : BitVec 3) : Statement (.rsEncode slot) :=
  Eq.trans (extract_append_high (v := 16) (k := 8) _ _) (Eq.trans (extract_append_high (v := 3) (k := 5) _ _) (extract_append _ _))

theorem rsDecode (slot : BitVec 3) : Statement (.rsDecode slot) :=
  Eq.trans (extract_append_high (v := 16) (k := 8) _ _) (Eq.trans (extract_append_high (v := 3) (k := 5) _ _) (extract_append _ _))

theorem crcLoad (v : Half) : Statement (.crcLoad v) :=
  Eq.trans (extract_append_high (v := 16) (k := 8) _ _) (extract_append _ _)

theorem crcByte (b : Byte) : Statement (.crcByte b) :=
  Eq.trans (extract_append_high (v := 8) (k := 16) _ _) (extract_append _ _)

theorem crcBuf (off : Byte) (len : BitVec 9) : Statement (.crcBuf off len) :=
  Eq.trans (extract_append_high (v := 9) (k := 15) _ _) (Eq.trans (extract_append_high (v := 7) (k := 8) _ _) (extract_append _ _))

theorem scrApply (off : Byte) (len : BitVec 9) : Statement (.scrApply off len) :=
  Eq.trans (extract_append_high (v := 9) (k := 15) _ _) (Eq.trans (extract_append_high (v := 7) (k := 8) _ _) (extract_append _ _))

theorem scrRead (i : Byte) : Statement (.scrRead i) :=
  Eq.trans (extract_append_high (v := 8) (k := 16) _ _) (extract_append _ _)

theorem nghSelect (n : Byte) : Statement (.nghSelect n) :=
  Eq.trans (extract_append_high (v := 8) (k := 16) _ _) (extract_append _ _)

theorem nghTagLookup (t : Tag) : Statement (.nghTagLookup t) :=
  extract_append _ _

theorem nghEncode (len : Byte) (flags : BitVec 3) : Statement (.nghEncode len flags) :=
  Eq.trans (extract_append_high (v := 8) (k := 16) _ _) (Eq.trans (extract_append_high (v := 3) (k := 13) _ _) (extract_append _ _))

theorem nghDecReset : Statement .nghDecReset :=
  extract_append _ _

theorem nghDecByte (b : Byte) : Statement (.nghDecByte b) :=
  Eq.trans (extract_append_high (v := 8) (k := 16) _ _) (extract_append _ _)

end Sys2Proof.Laws.OpcodeField
end

