-- ==== Sys2Proof/Laws/ReedSolomon.lean ====
section
/-! SUPPORT. Sizes and ranges in the Reed-Solomon functions: how long each list is, that a correction lies inside the
word, and what the buffers hold after an outcome is written. -/

namespace Sys2Proof.Machine

/-! ## Lists by index -/

theorem mapFrom_length {α β : Type} (f : Nat → α → β) (j : Nat) (l : List α) : (mapFrom f j l).length = l.length := by
  induction l generalizing j with
  | nil => rfl
  | cons x xs ih => simp [mapFrom, ih]

@[simp] theorem mapIndexed_length {α β : Type} (l : List α) (f : Nat → α → β) : (mapIndexed l f).length = l.length :=
  mapFrom_length f 0 l

theorem mapFrom_getElem? {α β : Type} (f : Nat → α → β) (j n : Nat) (l : List α) :
    (mapFrom f j l)[n]? = l[n]?.map (f (j + n)) := by
  induction l generalizing j n with
  | nil => rfl
  | cons x xs ih =>
    cases n with
    | zero => rfl
    | succ n => simp [mapFrom, ih, Nat.add_assoc, Nat.add_comm 1 n]

/-- The element at an index of a list mapped with its indices. -/
theorem mapIndexed_getElem? {α β : Type} (l : List α) (f : Nat → α → β) (n : Nat) :
    (mapIndexed l f)[n]? = l[n]?.map (f n) := by
  simp [mapIndexed, mapFrom_getElem?]

/-! ## Encoder -/

@[simp] theorem parityStep_length (cb : ControlBlock) (p : List Elem) (m : Elem) :
    (parityStep cb p m).length = cb.roots := by
  simp [parityStep]

/-- The parity of a message has one symbol for each root. -/
@[simp] theorem rsParity_length (cb : ControlBlock) (msg : List Elem) : (rsParity cb msg).length = cb.roots := by
  have h : ∀ (msg p : List Elem), p.length = cb.roots → (msg.foldl (parityStep cb) p).length = cb.roots := by
    intro msg
    induction msg with
    | nil => intro p hp; exact hp
    | cons m ms ih => intro p _; exact ih _ (parityStep_length cb p m)
  exact h msg _ (by simp)

/-! ## Decoder -/

@[simp] theorem syndromes_length (cb : ControlBlock) (d : List Elem) : (syndromes cb d).length = cb.roots := by
  simp [syndromes]

@[simp] theorem toLogs_length (cb : ControlBlock) (l : List Elem) : (cb.toLogs l).length = l.length := by
  simp [ControlBlock.toLogs]

theorem eraseRest_length (cb : ControlBlock) (i : Nat) (q : List Nat) (lam : List Elem) :
    (eraseRest cb i q lam).length = lam.length := by
  induction q generalizing i lam with
  | nil => rfl
  | cons q qs ih => simp [eraseRest, ih, eraseStep]

/-- The locator has one coefficient more than there are roots. -/
@[simp] theorem erasureSeed_length (cb : ControlBlock) (q : List Nat) :
    (erasureSeed cb q).length = cb.roots + 1 := by
  cases q <;> simp [erasureSeed, eraseRest_length]

theorem bmLoop_length (cb : ControlBlock) (s : List LogSym) (e fuel r el : Nat) (b : List LogSym) (lam : List Elem) :
    (bmLoop cb s e fuel r el b lam).length = lam.length := by
  induction fuel generalizing r el b lam with
  | zero => rfl
  | succ fuel ih =>
    simp only [bmLoop]
    split
    · exact ih ..
    · split <;> (rw [ih]; simp)

@[simp] theorem berlekampMassey_length (cb : ControlBlock) (s : List LogSym) (lam : List Elem) (e : Nat) :
    (berlekampMassey cb s lam e).length = lam.length := by
  simp [berlekampMassey, bmLoop_length]

/-- The degree is the index of a coefficient. -/
theorem degree_lt (cb : ControlBlock) (lx : List LogSym) (h : lx ≠ []) : degree cb lx < lx.length := by
  have key : ∀ (l : List Nat) (acc : Nat), acc < lx.length → (∀ i ∈ l, i < lx.length) →
      l.foldl (fun acc i => if lx.getD i cb.a0 ≠ cb.a0 then i else acc) acc < lx.length := by
    intro l
    induction l with
    | nil => intro acc hacc _; exact hacc
    | cons i is ih =>
      intro acc hacc hl
      simp only [List.foldl_cons]
      apply ih
      · split
        · exact hl i List.mem_cons_self
        · exact hacc
      · exact fun j hj => hl j (List.mem_cons_of_mem _ hj)
  exact key _ 0 (List.length_pos_iff.mpr h) (by simp)

/-- A position modulo NN is below NN. -/
theorem modnn_lt (cb : ControlBlock) (x : Nat) (h : 0 < cb.fieldSize) : (cb.modnn x).toNat < cb.fieldSize := by
  have h1 := Nat.mod_lt x h
  have h2 : cb.fieldSize < 256 := cb.nn.isLt
  have h3 : x % cb.fieldSize % 256 = x % cb.fieldSize := Nat.mod_eq_of_lt (by omega)
  simp only [ControlBlock.modnn, LogSym.toNat, BitVec.toNat_ofNat]
  omega

theorem chienLoop_loc (cb : ControlBlock) (deg fuel i kk : Nat) (r : List LogSym) (found : List Located)
    (h : 0 < cb.fieldSize) (hk : kk < cb.fieldSize) (hf : ∀ f ∈ found, f.loc < cb.fieldSize) :
    ∀ f ∈ chienLoop cb deg fuel i kk r found, f.loc < cb.fieldSize := by
  induction fuel generalizing i kk r found with
  | zero => exact hf
  | succ fuel ih =>
    simp only [chienLoop]
    have hf' : ∀ f ∈ (⟨i, kk⟩ :: found : List Located), f.loc < cb.fieldSize := by
      intro f hm
      rcases List.mem_cons.mp hm with rfl | hm
      · exact hk
      · exact hf f hm
    split
    · split
      · exact hf'
      · exact ih _ _ _ _ (modnn_lt cb _ h) hf'
    · exact ih _ _ _ _ (modnn_lt cb _ h) hf

/-- Every location the Chien search finds is a full-length position (R18). -/
theorem chien_loc (cb : ControlBlock) (lx : List LogSym) (h : 0 < cb.fieldSize)
    (hi : cb.iprim.toNat - 1 < cb.fieldSize) : ∀ f ∈ chien cb lx, f.loc < cb.fieldSize := by
  intro f hf
  exact chienLoop_loc cb _ _ _ _ _ [] h hi (by simp) f (by simpa [chien] using hf)

/-- A correction lies inside the word: never in the padding (R173, R179). -/
theorem corrections_lt (cb : ControlBlock) (s lx : List LogSym) (found : List Located)
    (h : ∀ f ∈ found, f.loc < cb.fieldSize) : ∀ c ∈ corrections cb s lx found, c.1 < cb.blockLen := by
  intro c hc
  simp only [corrections, List.mem_filterMap, List.mem_reverse] at hc
  obtain ⟨f, hf, hc⟩ := hc
  simp only [forneyAt] at hc
  split at hc
  · rename_i hcond
    have := h f hf
    simp only [Option.some.injEq] at hc
    subst hc
    simp only [ControlBlock.blockLen]
    omega
  · cases hc

/-- What a corrected outcome of the algorithm says: as many positions as the locator's degree, at most NROOTS, writes
inside the word, and none where no position is reported (R181). -/
theorem rsDecode_corrected {cb : ControlBlock} {d : List Elem} {q : List Nat} {ws : List (Nat × Elem)} {ps : List Nat}
    (h : rsDecode cb d q = .corrected ws ps) (hn : 0 < cb.fieldSize) (hi : cb.iprim.toNat - 1 < cb.fieldSize) :
    ps.length ≤ cb.roots ∧ (∀ w ∈ ws, w.1 < cb.blockLen) ∧ (∀ p ∈ ps, p < cb.fieldSize) ∧ (ps = [] → ws = []) := by
  simp only [rsDecode] at h
  split at h
  · cases h
  · split at h
    · cases h
    · rename_i hd
      simp only [RsOutcome.corrected.injEq] at h
      obtain ⟨rfl, rfl⟩ := h
      simp only [ne_eq, Decidable.not_not] at hd
      refine ⟨?_, ?_, ?_, ?_⟩
      · simp only [List.length_map]
        rw [hd]
        have := degree_lt cb (cb.toLogs (berlekampMassey cb (cb.toLogs (syndromes cb d)) (erasureSeed cb q) q.length))
          (by rw [← List.length_pos_iff]; simp)
        simp only [toLogs_length, berlekampMassey_length, erasureSeed_length] at this
        omega
      · intro w hw
        obtain ⟨c, hc, rfl⟩ := List.mem_map.mp hw
        exact corrections_lt cb _ _ _ (chien_loc cb _ hn hi) c hc
      · intro p hp
        obtain ⟨f, hf, rfl⟩ := List.mem_map.mp hp
        exact chien_loc cb _ hn hi f hf
      · intro hp
        simp [corrections, List.map_eq_nil_iff.mp hp]

/-- The same of the outcome under either value of DECODE_BEYOND_BOUND (R177). -/
theorem rsOutcome_corrected {p : Params} {draw : Nat} {cb : ControlBlock} {d : List Elem} {q : List Nat}
    {ws : List (Nat × Elem)} {ps : List Nat} (h : rsOutcome p draw cb d q = .corrected ws ps)
    (hn : 0 < cb.fieldSize) (hi : cb.iprim.toNat - 1 < cb.fieldSize) (hr : 0 < cb.roots)
    (hd : d.length = cb.blockLen) :
    ps.length ≤ cb.roots ∧ (∀ w ∈ ws, w.1 < cb.blockLen) ∧ (ps = [] → ws = []) := by
  have exact_case : rsDecode cb d q = .corrected ws ps →
      ps.length ≤ cb.roots ∧ (∀ w ∈ ws, w.1 < cb.blockLen) ∧ (ps = [] → ws = []) := fun h =>
    have ⟨h1, h2, _, h4⟩ := rsDecode_corrected h hn hi
    ⟨h1, h2, h4⟩
  simp only [rsOutcome] at h
  split at h
  · exact exact_case h
  · split at h
    · exact exact_case h
    · simp only [drawnOutcome] at h
      split at h
      · cases h
      · simp only [RsOutcome.corrected.injEq] at h
        obtain ⟨rfl, rfl⟩ := h
        refine ⟨?_, ?_, by simp⟩
        · have := Nat.mod_lt (Config.decodeDraw draw 1) hr
          simp only [List.length_map, List.length_range]
          omega
        · intro w hw
          obtain ⟨j, hj, rfl⟩ := List.mem_map.mp hw
          simpa [hd] using hj

/-- The numeric conditions the decoder's laws ask for, from R44's invariant of a valid slot and R128's bound. -/
theorem slotOk_bounds {cb : ControlBlock} (h : slotOk cb) (hi : iprimOk cb) (hv : cb.valid = true) :
    0 < cb.fieldSize ∧ cb.iprim.toNat - 1 < cb.fieldSize ∧ 0 < cb.roots ∧ cb.roots ≤ maxRoots ∧ cb.blockLen ≤ 255 := by
  have hb := h hv
  have hp := hi hv
  have hn := cb.nn.isLt
  simp only [ControlBlock.blockLen, ControlBlock.fieldSize, ControlBlock.roots] at *
  omega

/-- A codeword is clean under either value of DECODE_BEYOND_BOUND. -/
theorem rsOutcome_clean (p : Params) (draw : Nat) (cb : ControlBlock) (d : List Elem) (q : List Nat)
    (h : isCodeword cb d = true) : rsOutcome p draw cb d q = .clean := by
  have hc : rsDecode cb d q = .clean := by simp [rsDecode, h]
  simp only [rsOutcome, hc, withinBound]
  split <;> rfl

/-! ## Writing an outcome -/

@[simp] theorem applyWrites_length (d : List Elem) (ws : List (Nat × Elem)) : (applyWrites d ws).length = d.length := by
  induction ws generalizing d with
  | nil => rfl
  | cons w ws ih => simpa [applyWrites] using ih (d.set w.1 w.2)

/-- After single writes into a buffer whose bytes were `l`, its bytes are `l` with those writes. -/
theorem State.loadByte_storeWrites (s : State) (b : Buf) (l : List Byte) (ws : List (Nat × Byte))
    (hl : ∀ j (hj : j < l.length), s.loadByte b j = .ok l[j]) (hb : l.length ≤ b.size)
    (hw : ∀ w ∈ ws, w.1 < l.length) (j : Nat) (hj : j < l.length) :
    (s.storeWrites b ws).loadByte b j = .ok ((applyWrites l ws)[j]'(by simpa using hj)) := by
  induction ws generalizing s l with
  | nil => exact hl j hj
  | cons w ws ih =>
    have hw0 := hw w List.mem_cons_self
    have hl' : ∀ i (hi : i < (l.set w.1 w.2).length), (s.storeByte b w.1 w.2).loadByte b i = .ok (l.set w.1 w.2)[i] := by
      intro i hi
      by_cases he : i = w.1
      · subst he
        have : (s.storeByte b w.1 w.2).written? b w.1 = some w.2 :=
          State.written?_storeByte_same s b w.2 (by omega)
        simp [State.loadByte, this]
      · have hi' : i < l.length := by simpa using hi
        rw [List.getElem_set_ne (Ne.symm he), ← hl i hi']
        exact State.loadByte_congr (State.written?_storeByte_other s w.2 (by simpa using he)) (by simp) (by simp)
    have := ih (s.storeByte b w.1 w.2) (l.set w.1 w.2) hl' (by simpa using hb)
      (fun x hx => by simpa using hw x (List.mem_cons_of_mem _ hx)) (by simpa using hj)
    simpa [State.storeWrites, applyWrites] using this

end Sys2Proof.Machine
end

