-- ==== Sys2Proof/Tests/Slice0.lean ====
section
/-! SUPPORT. Tests of the model against the spec's own words and vectors (30_encoding.md, 95_test_vectors.md), and for
every obligation with hypotheses a witness that they can be met together. Every expected value is copied from the spec or
worked out from its tables by hand. -/

namespace Sys2Proof.Tests

open Sys2Proof.Machine

-- One theorem at a time: many kernel decisions waiting side by side would hold a thread each.
set_option Elab.async false

/-! ## Helpers -/

/-- STATUS.CODE and RESULT of a next state. -/
def codeResult (r : Result) : Option (Byte × Nat) :=
  match r with
  | .next t => some (t.code.byte, t.result.toNat)
  | .fault _ => none
  | .refused _ => none

/-- Something of a next state. -/
def ofNext {α : Type} (r : Result) (f : State → α) : Option α :=
  match r with
  | .next t => some (f t)
  | .fault _ => none
  | .refused _ => none

/-- The command word run as the very next step. -/
def runWord (s : State) (w : Nat) : Result := step (s.withFetchWord 32 w)

/-- The slot a GF_INIT gives. -/
def chosen (r : Except StatusCode ControlBlock) : ControlBlock :=
  match r with
  | .ok cb => cb
  | .error _ => zeroBlock
theorem eq_ok_chosen {r : Except StatusCode ControlBlock} (h : r.toBool = true) : r = .ok (chosen r) := by
  cases r with
  | ok cb => rfl
  | error e => cases h

/-- The GF(16) slot of V-GF-11. -/
def gf16 : ControlBlock := chosen (initBlock 4 0x13 0 1 4 0)

/-- The reset state with slot 6 holding the GF(16) slot. -/
def on16 : State := State.reset.setSlot 6 gf16

/-- The reset state with slot 6 zeroed. -/
def on0 : State := State.reset.setSlot 6 zeroBlock

/-- The reset state with the bytes stored in DBUF from index 0 on. -/
def withData (d : List Byte) : State := State.reset.storeRange .dbuf 0 d

/-- Size tags that keep R10; entry 0 is SIZE_TAG[0]. -/
def farTags : Params :=
  { defaultParams with sizeTag := #v[0x3B49CD, 0x23D7B0, 0xADA64C, 0xDAF563, 0x84C93E, 0xF51EAB, 0xD22294] }

/-- The reset state under those tags. -/
def farState : State := State.afterReset farTags 0

/-- The parameters under which never-written bytes fault. -/
def faulting : State := State.afterReset { defaultParams with unwritten := .fault } 0

/-- An aligned word access. -/
def readAcc (off : BitVec 14) : Access := { kind := .read, offset := off, size := 4, wdata := 0 }
/-- An aligned word write. -/
def writeAcc (off : BitVec 14) (v : Word) : Access := { kind := .write, offset := off, size := 4, wdata := v }

/-! ## WellFormed: each command with a SLOT operand refuses 7 (R93) -/

theorem smoke_gfInit : (Instr.gfInit 7).wellFormed = false ∧ (Instr.gfInit 6).wellFormed = true := by decide
theorem smoke_gfMul : (Instr.gfMul 7 1 1).wellFormed = false := by decide
theorem smoke_gfDiv : (Instr.gfDiv 7 1 1).wellFormed = false := by decide
theorem smoke_gfLog : (Instr.gfLog 7 1).wellFormed = false := by decide
theorem smoke_gfExp : (Instr.gfExp 7 1).wellFormed = false := by decide
theorem smoke_gfModnn : (Instr.gfModnn 7 1).wellFormed = false := by decide
theorem smoke_gfGenpoly : (Instr.gfGenpoly 7 1).wellFormed = false := by decide
theorem smoke_rs : (Instr.rsEncode 7).wellFormed = false ∧ (Instr.rsDecode 7).wellFormed = false := by decide

/-! ## Decoding: words written out from R92 and R95, every constructor, with V-ENC-1's words -/

theorem test_decode_control : decode 0x00000000 = .ok .nop ∧ decode 0x33000000 = .ok .nghDecReset := by decide
theorem test_decode_S : decode 0x01010000 = .ok (.gfInit 1) ∧ decode 0x10030000 = .ok (.rsEncode 3) ∧
    decode 0x11060000 = .ok (.rsDecode 6) := by decide
theorem test_decode_G : decode 0x02000280 = .ok (.gfMul 0 0x02 0x80) ∧
    decode 0b00000011000001011000011100000010 = .ok (.gfDiv 5 0x87 0x02) := by decide
theorem test_decode_G1 : decode 0x04000300 = .ok (.gfLog 0 0x03) ∧ decode 0x05000800 = .ok (.gfExp 0 8) ∧
    decode 0x07030100 = .ok (.gfGenpoly 3 1) := by decide
theorem test_decode_W : decode 0x060001FE = .ok (.gfModnn 0 510) ∧ decode 0x0606FFFF = .ok (.gfModnn 6 0xFFFF) := by
  decide
theorem test_decode_I16 : decode 0x2000FFFF = .ok (.crcLoad 0xFFFF) := by decide
theorem test_decode_I8 : decode 0x210000FF = .ok (.crcByte 0xFF) ∧ decode 0x290000FF = .ok (.scrRead 0xFF) ∧
    decode 0x300000DC = .ok (.nghSelect 220) ∧ decode 0x340000ED = .ok (.nghDecByte 0xED) := by decide
theorem test_decode_B : decode 0x22000100 = .ok (.crcBuf 0 256) ∧ decode 0x22FF0001 = .ok (.crcBuf 255 1) ∧
    decode 0x280100FF = .ok (.scrApply 1 255) ∧ decode 0x280001FF = .ok (.scrApply 0 511) := by decide
theorem test_decode_T : decode 0x313B49CD = .ok (.nghTagLookup 0x3B49CD) := by decide
theorem test_decode_E : decode 0x3200070A = .ok (.nghEncode 10 7) ∧ decode 0x3200050A = .ok (.nghEncode 10 5) := by
  decide

/-- V-ENC-2, the words whose opcode has a row. -/
theorem test_reject_bits : decode 0x00000001 = .error .reservedBits ∧ decode 0x01080000 = .error .reservedBits ∧
    decode 0x04000301 = .error .reservedBits ∧ decode 0x22000200 = .error .reservedBits ∧
    decode 0x20010000 = .error .reservedBits ∧ decode 0x32000800 = .error .reservedBits ∧
    decode 0x33000001 = .error .reservedBits := by decide
theorem test_reject_slot : decode 0x01070000 = .error .slotSeven ∧ decode 0x11070000 = .error .slotSeven := by decide
/-- V-ENC-2, the reserved opcodes. -/
theorem test_reject_opcode : decode 0x08000000 = .error .reservedOpcode ∧ decode 0x12000000 = .error .reservedOpcode ∧
    decode 0x35000000 = .error .reservedOpcode ∧ decode 0xFFFFFFFF = .error .reservedOpcode := by decide
theorem test_tableWord : decodeTableWord 32 0x3200050A = some (.nghEncode 10 5) ∧
    decodeTableWord 32 0x35000000 = none ∧ decodeTableWord 24 0 = some .nop := by decide
theorem test_assemble : assembleLine defaultParams ⟨"GF_INV", [0, 2]⟩ = some [0x03000102] ∧
    assembleLine defaultParams ⟨"CRC_BUFFER", [0, 11]⟩ = some [0x20000000, 0x2200000B] ∧
    assembleLine defaultParams ⟨"NGH_SELECT", [256]⟩ = none := by decide +kernel

/-- R102's examples as text. -/
theorem test_assembleText : assembleText defaultParams "GF_MUL 0, 0x02, 0x80" = some [0x02000280] ∧
    assembleText defaultParams "NGH_ENCODE 10, 5" = some [0x3200050A] ∧ assembleText defaultParams "NOP" = some [0] ∧
    assembleText defaultParams "CRC_BUF 0, 512" = none ∧ assembleText defaultParams "GF_LOG 0 3" = none := by
  decide +kernel

/-! ## Galois field (V-GF) -/

/-- V-GF-9: the error rows run on the reset state with the parameter changed, and V-GF-11's slot. -/
theorem test_gfInit_errors :
    codeResult (exec (.gfInit 6) { State.reset with pSymbits := 9 }) = some (0xFF, 0) ∧
    codeResult (exec (.gfInit 6) { State.reset with pPrim := 3 }) = some (0xFF, 0) ∧
    codeResult (exec (.gfInit 6) { State.reset with pPad := 239 }) = some (0xFE, 0) ∧
    codeResult (exec (.gfInit 6) { State.reset with pGfpoly := 0x100, pFcr := 0, pPrim := 1, pPad := 0 })
      = some (0xFD, 0) := by decide +kernel
theorem test_gfInit_gf16 :
    ofNext (exec (.gfInit 6)
      { State.reset with pSymbits := 4, pGfpoly := 0x13, pFcr := 0, pPrim := 1, pNroots := 4, pPad := 0 })
      (fun t => (t.code, (t.cb[6].genpoly.toList.take 6).map LogSym.toNat, t.cb[6].valid))
      = some (.ok, [6, 0, 4, 12, 0, 0], true) := by decide +kernel
/-- V-GF-5. -/
theorem test_gfMul : codeResult (runWord State.reset 0x02000280) = some (0, 0x87) ∧
    codeResult (runWord State.reset 0x020053CA) = some (0, 0xA8) ∧
    codeResult (exec (.gfMul 0 0x00 0x05) State.reset) = some (0, 0) := by decide +kernel
/-- V-GF-11 and the note of V-GF-9. -/
theorem test_gfMul_errors : codeResult (exec (.gfMul 6 0x10 1) on16) = some (0xFB, 0) ∧
    codeResult (exec (.gfMul 6 2 8) on16) = some (0, 3) ∧
    codeResult (exec (.gfMul 6 1 1) on0) = some (0xFC, 0) := by decide +kernel
/-- V-GF-6. -/
theorem test_gfDiv : codeResult (runWord State.reset 0x03008702) = some (0, 0x80) ∧
    codeResult (exec (.gfDiv 0 0x01 0x02) State.reset) = some (0, 0xC3) := by decide +kernel
theorem test_gfDiv_zero : codeResult (exec (.gfDiv 0 0x00 0x07) State.reset) = some (0, 0) ∧
    codeResult (exec (.gfDiv 0 0x00 0x00) State.reset) = some (0xF7, 0) := by decide +kernel
/-- V-GF-7. -/
theorem test_gfLog : codeResult (runWord State.reset 0x04000300) = some (0, 99) ∧
    codeResult (exec (.gfLog 0 0) State.reset) = some (0, 255) := by decide +kernel
/-- V-GF-8. -/
theorem test_gfExp : codeResult (runWord State.reset 0x05000800) = some (0, 0x87) ∧
    codeResult (exec (.gfExp 0 255) State.reset) = some (0, 0) := by decide +kernel
theorem test_gfModnn : codeResult (runWord State.reset 0x0600012C) = some (0, 45) ∧
    codeResult (exec (.gfModnn 6 31) on16) = some (0, 1) := by decide +kernel
/-- V-GF-3, V-GF-11. -/
theorem test_gfGenpoly : codeResult (exec (.gfGenpoly 0 17) State.reset) = some (0xFB, 0) ∧
    codeResult (exec (.gfGenpoly 6 3) on16) = some (0, 12) := by decide +kernel
/-- R128. -/
theorem test_primInverse : primInverse 11 255 = 116 := by decide +kernel

/-! ## Reed-Solomon, on the GF(16) slot: a message of 11 symbols and 4 parity symbols -/

/-- The message 0 0 .. 0 1. Its parity is x^4 mod g(x), that is F 3 1 C, since g(x) = x^4 + F x^3 + 3 x^2 + x + C
(V-GF-11, R162). -/
def unitMessage : List Byte := List.replicate 10 0 ++ [1]

theorem test_rsEncode :
    ofNext (exec (.rsEncode 6) (on16.storeRange .dbuf 0 unitMessage))
      (fun t => (t.code, t.result, (List.range 4).map (t.written? .pbuf), (List.range 5).map fun i => t.written? .dbuf (10 + i)))
      = some (.ok, 0, [some 0xF, some 3, some 1, some 0xC], [some 1, some 0xF, some 3, some 1, some 0xC]) := by
  decide +kernel
theorem test_rsEncode_range :
    codeResult (exec (.rsEncode 6) (on16.storeRange .dbuf 0 (List.replicate 10 0 ++ [16]))) = some (0xFB, 0) := by
  decide +kernel
/-- R176: one error and two erasures (one of a right symbol) are the bound 2·1 + 2 = 4; the count is 3. -/
theorem test_rsDecode_bound :
    ofNext (exec (.rsDecode 6) { (on16.storeRange .dbuf 0 ([0, 7, 9] ++ List.replicate 12 0)).storeRange .epos 0 [2, 5]
        with neras := 2 })
      (fun t => (t.code, t.result, (List.range 4).map (t.written? .dbuf))) =
      some (.ok, 3, [some 0, some 0, some 0, some 0]) := by decide +kernel
/-- R166: more erasures than roots, and a position beyond NN - 1. -/
theorem test_rsDecode_checks :
    codeResult (exec (.rsDecode 6) { on16 with neras := 5 }) = some (0xFF, 0) ∧
    codeResult (exec (.rsDecode 6) { on16.storeByte .epos 0 15 with neras := 1 }) = some (0xFF, 0) := by decide +kernel

/-! ## CRC and scrambler (V-CRC, V-SCR) -/

/-- V-CRC-4's bytes. -/
def crcBytes : List Byte := [0x12, 0x00, 0x01, 0x02, 0x03, 0x04, 0x05, 0x06, 0x07, 0x08, 0x09]

theorem test_crcLoad : ofNext (runWord State.reset 0x2000FFFF) (fun t => (t.crcAcc, t.result)) =
    some (0xFFFF, 0x0000FFFF) := by decide +kernel
/-- V-CRC-1. -/
theorem test_crcByte : ofNext (runWord State.reset 0x210000FF) (fun t => (t.crcAcc, t.result)) =
    some (0x1EF0, 0x1EF0) := by decide +kernel
/-- V-CRC-4 and V-CRC-5. -/
theorem test_crcBuf : ofNext (runWord (withData crcBytes) 0x2200000B) (fun t => (t.crcAcc, t.result)) =
    some (0xD6F6, 0xD6F6) := by decide +kernel
theorem test_crcBuf_range : codeResult (runWord State.reset 0x22FA0007) = some (0xFB, 0) := by decide +kernel
/-- V-CRC-2: the fold over "123456789" from 0x0000 and from 0xFFFF. -/
theorem test_crcFold : crcFold 0 [0x31, 0x32, 0x33, 0x34, 0x35, 0x36, 0x37, 0x38, 0x39] = 0x31C3 ∧
    crcFold 0xFFFF [0x31, 0x32, 0x33, 0x34, 0x35, 0x36, 0x37, 0x38, 0x39] = 0x29B1 := by decide +kernel
/-- V-SCR-2. -/
theorem test_scrApply : ofNext (runWord (withData crcBytes) 0x2800000B)
    (fun t => (List.range 12).map (t.written? .dbuf)) =
    some ([0xED, 0x48, 0x0F, 0xC2, 0x99, 0x09, 0x75, 0xBA, 0x89, 0x24, 0x9A].map some ++ [none]) := by decide +kernel
theorem test_scrApply_range : codeResult (runWord State.reset 0x28000100) = some (0xFB, 0) ∧
    codeResult (exec (.scrApply 2 255) State.reset) = some (0xFB, 0) := by decide +kernel
/-- V-SCR-1. -/
theorem test_scrRead : codeResult (runWord State.reset 0x29000001) = some (0, 0x48) ∧
    codeResult (exec (.scrRead 254) State.reset) = some (0, 0x58) := by decide +kernel
theorem test_scrRead_range : codeResult (runWord State.reset 0x290000FF) = some (0xFB, 0) := by decide +kernel

/-! ## NGHam (L-SRC, V-NGH) -/

/-- L-SRC-2. -/
theorem test_nghSelect : codeResult (runWord State.reset 0x3000001C) = some (0, 0) ∧
    codeResult (runWord State.reset 0x3000001D) = some (0, 1) ∧
    codeResult (runWord State.reset 0x300000DC) = some (0, 6) := by decide +kernel
theorem test_nghSelect_len : codeResult (runWord State.reset 0x30000000) = some (0xFA, 0) ∧
    codeResult (runWord State.reset 0x300000DD) = some (0xFA, 0) := by decide +kernel
/-- R242's examples, whatever the open size tags are; L-SRC-3's pairs. -/
theorem test_nghTagLookup : codeResult (runWord State.reset 0x313B49CD) = some (0, 0) ∧
    codeResult (runWord State.reset 0x310449CD) = some (0, 0) := by decide +kernel
theorem test_tagCheck : tagCheck 0x3B49CD 0x0449CD = true ∧ tagCheck 0x3B49CD 0x4449CD = false ∧
    popcount 0x3B49CD = 13 := by decide +kernel
/-- L-SRC-1 and V-NGH-1, the frame up to the CRC: bytes 0 to 23. -/
theorem test_frameFront :
    frameHeader 0 ++ tagBytes sizeTag0 ++
      scramble defaultParams ((messageOf defaultParams 0 0 [0, 1, 2, 3, 4, 5, 6, 7, 8, 9]).take 13) =
    [0xAA, 0xAA, 0xAA, 0xAA, 0x5D, 0xE6, 0x2A, 0x7E, 0x3B, 0x49, 0xCD, 0xED, 0x48, 0x0F, 0xC2, 0x99] ++
      [0x09, 0x75, 0xBA, 0x89, 0x24, 0x9A, 0x7B, 0x51] := by decide +kernel
/-- V-NGH-2d. -/
theorem test_nghEncode_errors : codeResult (runWord State.reset 0x32000000) = some (0xFA, 0) ∧
    codeResult (runWord State.reset 0x320000DD) = some (0xFA, 0) ∧
    codeResult (runWord on0 0x320000C8) = some (0xF6, 0) := by decide +kernel
/-- V-NGH-8. -/
theorem test_nghDecReset : ofNext (runWord { State.reset with
      decState := .codewordAccumulating, decTag := 0x3B49CD, decClass := 3, decPos := 47, rxLen := 10 } 0x33000000)
    (fun t => (t.decState, t.decTag, t.decClass, t.decPos, t.rxLen)) = some (.sizeTagByte1, 0, 0, 0, 0) := by
  decide +kernel
/-- V-NGH-3: the third byte of the tag locks onto class 0. -/
theorem test_nghDecByte_lock : ofNext (runWord { State.reset with decState := .sizeTagByte3, decTag := 0x3B49 } 0x340000CD)
    (fun t => (t.result, t.decTag, t.decClass, t.decPos, t.decState)) =
    some (2, 0x3B49CD, 0, 0, .codewordAccumulating) := by decide +kernel
/-- R261, R264 with V-NGH-5's row "payload length 0": the codeword 1C D3 BD, 28 zero bytes and its parity. -/
theorem test_judge : judgeFrame defaultParams 0 ([0x1C, 0xD3, 0xBD] ++ List.replicate 44 0) = .accepted [] 0 ∧
    judgeFrame defaultParams 0 (0x1D :: List.replicate 46 0) = .negativeLength ∧
    judgeFrame defaultParams 0 ([0x12, 0, 1, 2, 3, 4, 5, 6, 7, 8, 9, 0xD6, 0xF7] ++ List.replicate 34 0) = .crcMismatch := by
  decide +kernel

/-! ## Control, bus, reset (V-CTL, V-BUS) -/

theorem test_nop : codeResult (runWord { State.reset with code := .range, result := 5 } 0x00000000) = some (0, 0) := by
  decide +kernel
theorem test_illegal : codeResult (runWord State.reset 0x12000000) = some (0xF8, 0) := by decide +kernel
/-- V-BUS-1. -/
theorem test_bus : State.reset.serve (readAcc 0x001) = .ok (State.reset, .busError) ∧
    State.reset.serve (readAcc 0x01C) = .ok (State.reset, .busError) ∧
    State.reset.serve (writeAcc 0x004 1) = .ok (State.reset, .busError) := ⟨rfl, rfl, rfl⟩
theorem test_bus_write : (match State.reset.serve (writeAcc 0x400 0x12345678) with
    | .ok (t, .writeOk) => t.serve (readAcc 0x400) |>.toOption |>.map (·.2)
    | _ => none) = some (.readOk 0x78) := by decide +kernel
theorem test_reset_cbValid : (State.reset.serve (readAcc 0x018)).toOption.map (·.2) = some (.readOk 0x7F) := by
  decide +kernel
/-- 10_state.md R45, R331. -/
theorem test_reset_iprim : State.reset.cb[0].iprim = 116 ∧ State.reset.cb[6].nroots = 32 := by decide +kernel
/-- V-GF-2: entries 8, 100 and 254 of ALPHA. -/
theorem test_alpha : (alphaTable 8 0x187)[8] = 0x87 ∧ (alphaTable 8 0x187)[100] = 0x06 ∧
    (alphaTable 8 0x187)[254] = 0xC3 := by decide +kernel
/-- R212: the default table is the generator's sequence. -/
theorem test_ccsds : ccsdsDefaultTable.toList = ccsdsSequence 255 0xFF := by decide +kernel

/-! ## Witnesses: the hypotheses of each obligation, met together, clause by clause

Each theorem names the obligation; the values stand at the ends of the ranges where a clause has one. -/

theorem gf16_slotOk : slotOk gf16 ∧ gf16.valid = true ∧ gf16.nn.toNat = 15 ∧ gf16.nroots.toNat = 4 := by decide +kernel
theorem gf16_built : builtSlot gf16 := by
  have h : (initBlock 4 0x13 0 1 4 0).toBool = true := by decide +kernel
  exact builtSlot_of_initBlock (eq_ok_chosen h) (by decide)
theorem gf16_primitive : primitiveSlot gf16 := ⟨gf16_built, by decide +kernel⟩
theorem gf16_iprimOk : iprimOk gf16 := by decide +kernel
theorem on16_slot : on16.cb[6] = gf16 := by simp [on16, State.setSlot]
theorem on0_slot : on0.cb[6].valid = false := by simp [on0, State.setSlot, zeroBlock]

theorem witness_EncodedCommandsDecode : (Instr.gfMul 6 255 0).wellFormed = true := by decide
theorem witness_DecodedWordsReencode : decode 0x0606FFFF = .ok (.gfModnn 6 0xFFFF) := by decide
theorem witness_WordsSpellOpcodeRows :
    (∃ r ∈ opcodeRows, r.spelledBy 0x01060000) ∧ (∀ r ∈ opcodeRows, ¬ r.spelledBy 0x01070000) ∧
    (∃ r ∈ opcodeRows, (0x01070000 : Word) &&& r.mask = r.pattern) := by decide

theorem witness_StepRunsDecodedCommand :
    (State.reset.poised 0x01060000).pending = some 0x01060000 ∧ (State.reset.poised 0x01060000).engineReady = true ∧
    decode 0x01060000 = .ok (.gfInit 6) ∧ (∃ r ∈ opcodeRows, r.spelledBy 0x01060000) ∧
    (∀ r ∈ opcodeRows, ¬ r.spelledBy 0xFFFFFFFF) := ⟨rfl, rfl, by decide, by decide, by decide⟩
/-- A pending command whose turn has not come. -/
def waiting (moves : List HostMove) : State :=
  { State.reset with pending := some 0, latency := 1, host := moves }
theorem witness_StepMakesHostMove :
    State.reset.pending = none ∧ State.reset.host = [] ∧
    (waiting [.wait]).engineReady = false ∧ (waiting [.reset]).engineReady = false ∧
    (waiting [.access (readAcc 0x004)]).engineReady = false ∧
    (∃ t r, State.serve { waiting [.access (readAcc 0x004)] with host := [], latency := 0 } (readAcc 0x004) = .ok (t, r)) ∧
    (∃ f, State.serve { { faulting with host := [.access (readAcc 0x400)] } with host := [], latency := 0 }
      (readAcc 0x400) = .error f) :=
  ⟨rfl, rfl, rfl, rfl, rfl, ⟨_, _, rfl⟩, ⟨_, rfl⟩⟩
theorem witness_PendingCommandReachesItsTurn :
    (waiting [.wait, .wait]).pending = some 0 ∧ HostMove.reset ∉ (waiting [.wait, .wait]).host :=
  ⟨rfl, by decide⟩

theorem witness_BusyWindowRejectsAccesses : (waiting []).pending ≠ none ∧
    ((readAcc 0x004).kind = .read ∧ (readAcc 0x004).size = 4 ∧ (readAcc 0x004).offset = 0x0004) ∧
    ((readAcc 0x000).offset = 0x0000) ∧
    ¬ ((readAcc 0x008).size = 4 ∧ ((readAcc 0x008).offset = 0x0004 ∨ (readAcc 0x008).offset = 0x0000)) ∧
    (writeAcc 0x000 0).kind = .write := by
  refine ⟨?_, ?_⟩
  · simp [waiting]
  · decide
theorem witness_OnlyCmdWritesHaveSideEffects :
    (∃ t r, State.reset.serve (readAcc 0x004) = .ok (t, r)) ∧
    (∃ t r, State.reset.serve (writeAcc 0x7FC 0xFFFFFFFF) = .ok (t, r)) ∧
    (∃ t r, State.reset.serve (writeAcc 0x000 0) = .ok (t, r)) ∧ State.reset.pending = none :=
  ⟨⟨_, _, rfl⟩, ⟨_, _, rfl⟩, ⟨_, _, rfl⟩, rfl⟩
theorem witness_BadAccessesAreRejected : (readAcc 0x001).offset.toNat % 4 ≠ 0 ∧
    ({ kind := .read, offset := 0x400, size := 8, wdata := 0 } : Access).size ≠ 4 ∧
    ¬ mappedOffset (readAcc 0x01C).offset.toNat ∧ ¬ mappedOffset (readAcc 0x1E0).offset.toNat ∧
    ¬ mappedOffset (readAcc 0x3FFC).offset.toNat := by decide
theorem witness_MappedOffsetsAreServed : State.reset.pending = none ∧ State.reset.params.unwritten = .draw ∧
    mappedOffset (readAcc 0x23FC).offset.toNat ∧ mappedOffset (readAcc 0x1DC).offset.toNat ∧
    writableOffset (writeAcc 0x9FC 0).offset.toNat ∧ writableOffset (writeAcc 0x000 0).offset.toNat :=
  ⟨rfl, rfl, by decide, by decide, by decide, by decide⟩
theorem witness_ReadOnlyWritesAreRejected : readOnlyOffset (writeAcc 0x058 0).offset.toNat ∧
    readOnlyOffset (writeAcc 0x100 0).offset.toNat ∧ readOnlyOffset (writeAcc 0x23FC 0).offset.toNat ∧
    ¬ readOnlyOffset (writeAcc 0x000 0).offset.toNat ∧ (readAcc 0x000).offset = 0x0000 :=
  ⟨by decide, by decide, by decide, by decide, rfl⟩
theorem witness_RegisterWidths : ∃ t, State.reset.writeReg 0xFFFFFFFF .mode = some t := ⟨_, rfl⟩
theorem witness_BufferWords : State.reset.pending = none ∧ 511 < Buf.size .fbuf ∧
    (readAcc 0x17FC).offset.toNat = Buf.base .fbuf + 4 * 511 ∧
    (State.reset.storeByte .fbuf 511 7).written? .fbuf 511 = some 7 ∧ State.reset.written? .fbuf 511 = none ∧
    (writeAcc 0x7FC 0x178).offset.toNat = Buf.base .dbuf + 4 * 255 ∧ 255 < Buf.size .dbuf :=
  ⟨rfl, by decide, by decide, State.written?_storeByte_same _ _ _ (by decide), rfl, by decide, by decide⟩
theorem witness_CmdWritesIssueCommands : (writeAcc 0x000 0).offset = 0x0000 ∧ (writeAcc 0x000 0).size = 4 ∧
    State.reset.pending = none ∧ (waiting []).pending ≠ none := ⟨rfl, rfl, rfl, by simp [waiting]⟩
theorem witness_RegisterReadValues : State.reset.pending = none := rfl
theorem witness_RegisterWriteEffects : State.reset.pending = none := rfl
theorem witness_ControlBlockInfo : State.reset.pending = none := rfl
theorem witness_BufferContents : (State.reset.storeByte .epos 63 1).written? .epos 63 = some 1 ∧
    State.reset.written? .epos 63 = none ∧ State.reset.params.unwritten = .draw ∧
    faulting.written? .epos 63 = none ∧ faulting.params.unwritten = .fault ∧
    (∀ i, 0 ≤ i → i < 0 + 256 → State.reset.readable .dbuf i) :=
  ⟨State.written?_storeByte_same _ _ _ (by decide), rfl, rfl, rfl, rfl, fun _ _ _ => .inr rfl⟩

/-- The parameter registers of a GF_INIT. -/
def initOf (mm : Byte) (gfpoly fcr prim nroots pad : Half) : State :=
  { State.reset with pSymbits := mm, pGfpoly := gfpoly, pFcr := fcr, pPrim := prim, pNroots := nroots, pPad := pad }
/-- The parameter checks hold of a state, up to the padding. -/
abbrev goodParams (s : State) : Prop :=
  ¬ (8 < s.pSymbits.toNat ∨ 2 ^ s.pSymbits.toNat - 1 ≤ s.pFcr.toNat ∨ s.pPrim.toNat = 0 ∨
    2 ^ s.pSymbits.toNat - 1 ≤ s.pPrim.toNat ∨ Nat.gcd s.pPrim.toNat (2 ^ s.pSymbits.toNat - 1) ≠ 1 ∨
    2 ^ s.pSymbits.toNat - 1 ≤ s.pNroots.toNat ∨ s.pNroots.toNat = 0 ∨ 64 < s.pNroots.toNat)
/-- The rows of V-GF-9, each at the end of its check's range. -/
theorem witness_GfInitFailures :
    ¬ goodParams (initOf 9 0x187 112 11 32 0) ∧ ¬ goodParams (initOf 8 0x187 255 11 32 0) ∧
    ¬ goodParams (initOf 8 0x187 112 3 32 0) ∧ ¬ goodParams (initOf 8 0x187 112 11 65 0) ∧
    (goodParams (initOf 8 0x187 112 11 16 239) ∧ 255 - 16 ≤ (initOf 8 0x187 112 11 16 239).pPad.toNat) ∧
    (goodParams (initOf 4 0x10 0 1 4 10) ∧ ¬ 15 - 4 ≤ (initOf 4 0x10 0 1 4 10).pPad.toNat ∧
      (buildTables (initOf 4 0x10 0 1 4 10).pSymbits.toNat (initOf 4 0x10 0 1 4 10).pGfpoly.toNat).sr ≠ 1) := by
  decide +kernel
theorem witness_GfInitInstallsSlot : let s := initOf 4 0x13 14 14 4 10
    s.pSymbits.toNat ≤ 8 ∧ s.pFcr.toNat < 2 ^ s.pSymbits.toNat - 1 ∧ 1 ≤ s.pPrim.toNat ∧
    s.pPrim.toNat < 2 ^ s.pSymbits.toNat - 1 ∧ Nat.gcd s.pPrim.toNat (2 ^ s.pSymbits.toNat - 1) = 1 ∧
    1 ≤ s.pNroots.toNat ∧ s.pNroots.toNat < 2 ^ s.pSymbits.toNat - 1 ∧ s.pNroots.toNat ≤ 64 ∧
    s.pPad.toNat < 2 ^ s.pSymbits.toNat - 1 - s.pNroots.toNat ∧
    (buildTables s.pSymbits.toNat s.pGfpoly.toNat).sr = 1 := by decide +kernel
theorem witness_PrimInverseInverts : 1 ≤ 254 ∧ 254 < 255 ∧ Nat.gcd 254 255 = 1 ∧ 1 < 2 ∧ Nat.gcd 1 2 = 1 := by decide
theorem witness_TablesMatchBuildLoop : 8 ≤ 8 := by decide
theorem witness_ModFieldIsModulo : 2 ≤ 2 ∧ 2 ≤ 8 ∧ 2 ≤ 8 ∧ 8 ≤ 8 := by decide

theorem witness_GfMulResult : on0.cb[6].valid = false ∧ slotOk on16.cb[6] ∧ on16.cb[6].valid = true ∧
    on16.cb[6].nn.toNat < (16 : Byte).toNat ∧ (15 : Byte).toNat ≤ on16.cb[6].nn.toNat := by
  rw [on16_slot]; exact ⟨on0_slot, gf16_slotOk.1, gf16_slotOk.2.1, by rw [gf16_slotOk.2.2.1]; decide, by rw [gf16_slotOk.2.2.1]; decide⟩
theorem witness_GfDivResult : on0.cb[6].valid = false ∧ slotOk on16.cb[6] ∧ on16.cb[6].valid = true ∧
    on16.cb[6].nn.toNat < (16 : Byte).toNat ∧ (15 : Byte).toNat ≤ on16.cb[6].nn.toNat ∧ (15 : Byte) ≠ 0 := by
  rw [on16_slot]
  exact ⟨on0_slot, gf16_slotOk.1, gf16_slotOk.2.1, by rw [gf16_slotOk.2.2.1]; decide, by rw [gf16_slotOk.2.2.1]; decide, by decide⟩
theorem witness_GfLogResult : on0.cb[6].valid = false ∧ builtSlot on16.cb[6] ∧ primitiveSlot on16.cb[6] ∧ on16.cb[6].valid = true ∧
    on16.cb[6].nn.toNat < (16 : Byte).toNat ∧ (15 : Byte).toNat ≤ on16.cb[6].nn.toNat := by
  rw [on16_slot]
  exact ⟨on0_slot, gf16_built, gf16_primitive, gf16_slotOk.2.1, by rw [gf16_slotOk.2.2.1]; decide, by rw [gf16_slotOk.2.2.1]; decide⟩
theorem witness_GfExpResult : on0.cb[6].valid = false ∧ builtSlot on16.cb[6] ∧ on16.cb[6].valid = true ∧
    on16.cb[6].nn.toNat < (16 : Byte).toNat ∧ (15 : Byte).toNat ≤ on16.cb[6].nn.toNat := by
  rw [on16_slot]
  exact ⟨on0_slot, gf16_built, gf16_slotOk.2.1, by rw [gf16_slotOk.2.2.1]; decide, by rw [gf16_slotOk.2.2.1]; decide⟩
theorem witness_GfModnnResult : on0.cb[6].valid = false ∧ slotOk on16.cb[6] ∧ on16.cb[6].valid = true := by
  rw [on16_slot]; exact ⟨on0_slot, gf16_slotOk.1, gf16_slotOk.2.1⟩
theorem witness_GfGenpolyResult : on0.cb[6].valid = false ∧ slotOk on16.cb[6] ∧ on16.cb[6].valid = true ∧
    primitiveSlot on16.cb[6] ∧ (4 : Byte).toNat ≤ on16.cb[6].nroots.toNat ∧
    on16.cb[6].nroots.toNat < (5 : Byte).toNat := by
  rw [on16_slot]
  exact ⟨on0_slot, gf16_slotOk.1, gf16_slotOk.2.1, gf16_primitive, by rw [gf16_slotOk.2.2.2]; decide,
    by rw [gf16_slotOk.2.2.2]; decide⟩
theorem witness_GfMulIsPolynomialProduct : primitiveSlot on16.cb[6] ∧ (15 : Byte) ≠ 0 ∧
    (15 : Byte).toNat ≤ on16.cb[6].nn.toNat := by
  rw [on16_slot]; exact ⟨gf16_primitive, by decide, by rw [gf16_slotOk.2.2.1]; decide⟩

/-- The result of a load of a range as data. -/
def loaded (r : Except Fault (List Byte)) : Option (List Byte) := r.toOption
theorem eq_ok_of_loaded {r : Except Fault (List Byte)} {l : List Byte} (h : loaded r = some l) : r = .ok l := by
  cases r with
  | error e => cases h
  | ok l' => cases h; rfl

/-- Slot 6 is the GF(16) slot and DBUF holds the message. -/
def encoding (msg : List Byte) : State := on16.storeRange .dbuf 0 msg
theorem encoding_slot (msg : List Byte) : (encoding msg).cb[6] = gf16 := by simpa [encoding] using on16_slot
theorem gf16_pad : gf16.pad.toNat = 0 := by decide +kernel
theorem gf16_msgLen : gf16.msgLen = 11 := by
  rw [ControlBlock.msgLen, ControlBlock.fieldSize, ControlBlock.roots, gf16_slotOk.2.2.1, gf16_slotOk.2.2.2, gf16_pad]
theorem witness_RsEncodeEffect_invalid : slotOk on0.cb[6] ∧ on0.cb[6].valid = false :=
  ⟨fun h => absurd h (by rw [on0_slot]; decide), on0_slot⟩
theorem witness_RsEncodeEffect : slotOk (encoding unitMessage).cb[6] ∧ (encoding unitMessage).cb[6].valid = true ∧
    (encoding unitMessage).loadRange .dbuf 0 ((encoding unitMessage).cb[6].nn.toNat -
      (encoding unitMessage).cb[6].nroots.toNat - (encoding unitMessage).cb[6].pad.toNat) = .ok unitMessage ∧
    ∀ x ∈ unitMessage, x.toNat ≤ (encoding unitMessage).cb[6].nn.toNat := by
  rw [encoding_slot, gf16_slotOk.2.2.1, gf16_slotOk.2.2.2, gf16_pad]
  exact ⟨gf16_slotOk.1, gf16_slotOk.2.1, eq_ok_of_loaded (by decide +kernel), by decide⟩
theorem witness_RsEncodeEffect_range : (encoding (unitMessage.set 10 16)).loadRange .dbuf 0 (15 - 4 - 0) =
    .ok (unitMessage.set 10 16) ∧ ∃ x ∈ unitMessage.set 10 16, (encoding (unitMessage.set 10 16)).cb[6].nn.toNat < x.toNat := by
  rw [encoding_slot, gf16_slotOk.2.2.1]
  exact ⟨eq_ok_of_loaded (by decide +kernel), by decide⟩
theorem witness_EncodedWordsAreCodewords : primitiveSlot (encoding unitMessage).cb[6] ∧ (encoding unitMessage).neras = 0 ∧
    3 < (encoding unitMessage).cb[6].nroots.toNat ∧ unitMessage.length = (encoding unitMessage).cb[6].msgLen ∧
    (encoding unitMessage).loadRange .dbuf 0 (encoding unitMessage).cb[6].msgLen = .ok unitMessage ∧
    ∀ x ∈ unitMessage, x.toNat ≤ (encoding unitMessage).cb[6].nn.toNat := by
  rw [encoding_slot, gf16_msgLen, gf16_slotOk.2.2.1, gf16_slotOk.2.2.2]
  exact ⟨gf16_primitive, by simp [encoding, on16, State.setSlot, State.reset, State.afterReset], by decide, by decide,
    eq_ok_of_loaded (by decide +kernel), by decide⟩
/-- Slot 6 is the GF(16) slot, DBUF holds a word and EPOS erasure positions. -/
def decoding (d q : List Byte) (e : Byte) : State :=
  { (on16.storeRange .dbuf 0 d).storeRange .epos 0 q with neras := e }
theorem decoding_slot (d q : List Byte) (e : Byte) : (decoding d q e).cb[6] = gf16 := by
  simpa [decoding] using on16_slot
theorem witness_RsDecodeEffect :
    let s := decoding (List.replicate 15 15) [0, 1, 2, 14] 4
    slotOk s.cb[6] ∧ iprimOk s.cb[6] ∧ s.cb[6].valid = true ∧ s.neras.toNat ≤ s.cb[6].nroots.toNat ∧
    s.loadRange .epos 0 s.neras.toNat = .ok [0, 1, 2, 14] ∧
    (∀ p ∈ ([0, 1, 2, 14] : List Byte), p.toNat ≤ s.cb[6].nn.toNat - 1) ∧
    s.loadRange .dbuf 0 (s.cb[6].nn.toNat - s.cb[6].pad.toNat) = .ok (List.replicate 15 15) ∧
    ∀ x ∈ (List.replicate 15 15 : List Byte), x.toNat ≤ s.cb[6].nn.toNat := by
  intro s
  have hs : s.cb[6] = gf16 := decoding_slot _ _ _
  rw [hs, gf16_slotOk.2.2.1, gf16_slotOk.2.2.2, gf16_pad]
  exact ⟨gf16_slotOk.1, gf16_iprimOk, gf16_slotOk.2.1, by decide, eq_ok_of_loaded (by decide +kernel), by decide,
    eq_ok_of_loaded (by decide +kernel), by decide⟩
/-- R128's bound at its ends: IPRIM is 1 where PRIM is 1 (above), and NN - 1 = 14 where PRIM is 14. -/
theorem witness_RsDecodeEffect_iprim : let cb := chosen (initBlock 4 0x13 0 14 4 10)
    slotOk cb ∧ iprimOk cb ∧ cb.valid = true ∧ gf16.iprim = 1 ∧ cb.iprim = 14 := by decide +kernel
theorem witness_RsDecodeEffect_checks :
    (decoding [] [] 5).cb[6].nroots.toNat < (decoding [] [] 5).neras.toNat ∧
    ((decoding [] [15] 1).loadRange .epos 0 (decoding [] [15] 1).neras.toNat = .ok [15] ∧
      ∃ p ∈ ([15] : List Byte), (decoding [] [15] 1).cb[6].nn.toNat - 1 < p.toNat) ∧
    ((decoding (List.replicate 15 16) [] 0).loadRange .dbuf 0 (15 - 0) = .ok (List.replicate 15 16) ∧
      ∃ x ∈ (List.replicate 15 16 : List Byte), (decoding (List.replicate 15 16) [] 0).cb[6].nn.toNat < x.toNat) := by
  rw [decoding_slot, decoding_slot, decoding_slot, gf16_slotOk.2.2.1, gf16_slotOk.2.2.2]
  exact ⟨by decide, ⟨eq_ok_of_loaded (by decide +kernel), by decide⟩, ⟨eq_ok_of_loaded (by decide +kernel), by decide⟩⟩
/-- Each outcome of a decode occurs: no error, one error, and three errors with four roots. -/
theorem witness_RsDecodeEffect_outcomes : rsDecode gf16 (List.replicate 15 0) [] = .clean ∧
    rsDecode gf16 (7 :: List.replicate 14 0) [] = .corrected [(0, 0)] [0] ∧
    rsDecode gf16 ([1, 1, 1] ++ List.replicate 12 0) [] = .uncorrectable := by decide +kernel
theorem witness_ErrorsWithinBoundAreCorrected : primitiveSlot gf16 ∧
    (List.replicate 15 0 : List Elem).length = gf16.blockLen ∧
    isCodeword gf16 (List.replicate 15 0) = true ∧ ([2, 5] : List Nat).Nodup ∧
    (∀ p ∈ ([2, 5] : List Nat), gf16.pad.toNat ≤ p ∧ p < gf16.nn.toNat) ∧
    (let d : List Elem := [0, 7, 9] ++ List.replicate 12 0
     let wrong := (differAt d (List.replicate 15 0)).filter fun j => ¬ (j + gf16.pad.toNat) ∈ [2, 5]
     d.length = gf16.blockLen ∧ (∀ x ∈ d, x.toNat ≤ gf16.nn.toNat) ∧
       2 * wrong.length + [2, 5].length = gf16.nroots.toNat) :=
  ⟨gf16_primitive, by decide +kernel, by decide +kernel, by decide +kernel, by decide +kernel, by decide +kernel⟩

theorem witness_CrcBufFoldsRange : 256 < (255 : Byte).toNat + (2 : BitVec 9).toNat ∧
    (0 : Byte).toNat + (256 : BitVec 9).toNat ≤ 256 ∧
    (∃ d, State.reset.loadRange .dbuf (0 : Byte).toNat (256 : BitVec 9).toNat = .ok d) ∧
    ((254 : Byte).toNat + (1 : BitVec 9).toNat + (1 : BitVec 9).toNat ≤ 256 ∧
      (254 : Byte).toNat + (1 : BitVec 9).toNat < 256) ∧
    (∃ d, State.reset.loadRange .dbuf (254 : Byte).toNat ((1 : BitVec 9).toNat + (1 : BitVec 9).toNat) = .ok d) :=
  ⟨by decide, by decide, State.exists_loadRange rfl .., by decide, State.exists_loadRange rfl ..⟩
theorem witness_ScrApplyMasksRange : 255 < (256 : BitVec 9).toNat ∧ 256 < (2 : Byte).toNat + (255 : BitVec 9).toNat ∧
    ((255 : BitVec 9).toNat ≤ 255 ∧ (1 : Byte).toNat + (255 : BitVec 9).toNat ≤ 256) ∧
    (∃ d, State.reset.loadRange .dbuf (1 : Byte).toNat (255 : BitVec 9).toNat = .ok d) :=
  ⟨by decide, by decide, by decide, State.exists_loadRange rfl ..⟩
theorem witness_ScrReadResult : (255 : Byte) = 255 ∧ (254 : Byte).toNat ≤ 254 := by decide

theorem witness_NghSelectResult : (0 : Byte).toNat = 0 ∧ 220 < (221 : Byte).toNat ∧ 1 ≤ (1 : Byte).toNat ∧
    (220 : Byte).toNat ≤ 220 ∧ 28 ≤ 29 ∧ selectClass 28 = some 0 ∧ selectClass 29 = some 1 := by decide
theorem witness_NghTagLookupResult :
    (popcount (0x0449CD ^^^ farState.params.sizeTag[(0 : SlotId)]) ≤ 6) ∧ (∀ c' < (0 : SlotId), 6 < popcount (0x0449CD ^^^ farState.params.sizeTag[c'])) ∧
    (∀ c : SlotId, 6 < popcount (0x4449CD ^^^ farState.params.sizeTag[c])) ∧
    (popcount (0x23D7B0 ^^^ farState.params.sizeTag[(1 : SlotId)]) ≤ 6 ∧
      ∀ c' < (1 : SlotId), 6 < popcount (0x23D7B0 ^^^ farState.params.sizeTag[c'])) := by decide +kernel
theorem witness_TagMatchesAreUnique : sizeTagsFarApart farTags ∧
    popcount (0x0449CD ^^^ farTags.sizeTag[(0 : SlotId)]) = 6 := by decide +kernel
theorem witness_NghEncodeBuildsFrame : (0 : Byte).toNat = 0 ∧ 220 < (221 : Byte).toNat ∧
    selectClass (220 : Byte).toNat = some 6 ∧ cfgOk on0.cb[6] 6 = false ∧ cfgOk State.reset.cb[6] 6 = true ∧
    ∃ d, State.reset.loadRange .dbuf 0 (220 : Byte).toNat = .ok d :=
  ⟨rfl, by decide, by decide, by decide +kernel, by decide +kernel, State.exists_loadRange rfl ..⟩
theorem witness_TagSearchSteps : State.reset.decState = .sizeTagByte1 ∧
    ({ farState with decState := .sizeTagByte3, decTag := 0x0449 } : State).decState = .sizeTagByte3 ∧
    popcount (((0x0449 : Tag).extractLsb' 0 16 ++ (0xCD : Byte) : Tag) ^^^ farTags.sizeTag[(0 : SlotId)]) ≤ 6 ∧
    (∀ c : SlotId, 6 < popcount (((0x4449 : Tag).extractLsb' 0 16 ++ (0xCD : Byte) : Tag) ^^^ farTags.sizeTag[c])) := by
  refine ⟨rfl, rfl, ?_, ?_⟩ <;> decide +kernel
/-- The decoder inside a codeword of class c, with the bytes before position p written. -/
def accumulating (c : SlotId) (p : Nat) : State :=
  { State.reset.storeRange .rxcw 0 (List.replicate p 0) with
    decState := .codewordAccumulating, decClass := c, decPos := BitVec.ofNat 8 p }
theorem witness_CodewordBytesAccumulate : (accumulating 0 45).decState = .codewordAccumulating ∧
    (accumulating 0 45).decPos.toNat + 1 < swp (accumulating 0 45).decClass ∧
    (accumulating 6 0).decPos.toNat + 1 < swp (accumulating 6 0).decClass := ⟨rfl, by decide, by decide⟩
theorem witness_FrameEnds : slotOk (accumulating 0 46).cb[0] ∧ decoderOk (accumulating 0 46) ∧
    (accumulating 0 46).decState = .codewordAccumulating ∧
    (accumulating 0 46).decPos.toNat + 1 = swp (accumulating 0 46).decClass ∧
    cfgOk (accumulating 0 46).cb[0] 0 = true ∧
    cfgOk ({ accumulating 0 46 with cb := Vector.replicate 7 gf16 } : State).cb[0] 0 = false := by decide +kernel
theorem reset_gfpoly_primitive : primitiveGfpoly (resetBlock 0).mm.toNat (resetBlock 0).gfpoly.toNat := by decide +kernel
theorem witness_EncodedFramesAreAccepted : selectClass (28 : Byte).toNat = some 0 ∧ cfgOk farState.cb[0] 0 = true ∧
    primitiveSlot farState.cb[0] ∧ sizeTagsFarApart farState.params ∧ farState.decState = .sizeTagByte1 ∧
    ∃ d, farState.loadRange .dbuf 0 (28 : Byte).toNat = .ok d := by
  refine ⟨by decide, ?_, ?_, by decide +kernel, rfl, State.exists_loadRange rfl ..⟩
  · rw [farState, State.afterReset_slot0]; decide +kernel
  · rw [farState, State.afterReset_slot0]
    exact ⟨resetBlock_built 0, reset_gfpoly_primitive⟩

theorem witness_EveryCommandCompletes : State.reset.params.unwritten = .draw ∧
    ∃ f, exec (.crcBuf 255 1) faulting = .fault f := ⟨rfl, _, rfl⟩
/-- A result that is a next state has one. -/
theorem exists_next {r : Result} (h : (codeResult r).isSome = true) : ∃ t, r = .next t := by
  cases r with
  | next t => exact ⟨t, rfl⟩
  | fault f => cases h
  | refused r => cases h
/-- What is known of something of a next state. -/
theorem of_ofNext {α : Type} {r : Result} {f : State → α} {a : α} (h : ofNext r f = some a) : ∃ t, r = .next t ∧ f t = a := by
  cases r with
  | next t => exact ⟨t, rfl, by simpa [ofNext] using h⟩
  | fault f => cases h
  | refused r => cases h
theorem witness_FailuresArePrecise : ∃ t, exec (.nghSelect 221) State.reset = .next t ∧ t.code = .len :=
  of_ofNext (by decide +kernel)
theorem witness_FailuresArePrecise_slot : codeResult (exec (.gfInit 6) { State.reset with pSymbits := 9 }) =
    some (0xFF, 0) := by decide +kernel
theorem witness_CommandsWriteOnlyTheirState : ∃ t, exec (.crcByte 0xFF) State.reset = .next t := ⟨_, rfl⟩
theorem witness_MemoryStaysCanonical : (withData [1, 2]).mem.wf ∧
    ∃ t, step ((withData [1, 2]).withFetchWord 32 0x28000002) = .next t :=
  ⟨by decide +kernel, exists_next (by decide +kernel)⟩
theorem witness_SlotsStayWellFormed :
    slotsOk State.reset ∧ iprimsOk State.reset ∧ slotsBuilt State.reset ∧
    ∃ t, step (State.reset.withFetchWord 32 0x01000000) = .next t :=
  ⟨by decide +kernel, by decide +kernel, fun c _ => State.afterReset_cb .. ▸ resetBlock_built c,
    exists_next (by decide +kernel)⟩
theorem witness_DecoderStaysInRange : decoderOk (accumulating 0 45) ∧
    ∃ t, step ((accumulating 0 45).withFetchWord 32 0x340000ED) = .next t :=
  ⟨by decide +kernel, exists_next (by decide +kernel)⟩

end Sys2Proof.Tests
end

section
/-! PROOFS. The statements of 10_state.md: the invariants of the slots and of the decoder session across every step, the
buffers' contents, and what the host reads and writes in registers and CB_INFO. -/

namespace Sys2Proof.Machine

/-! ## Built slots (R44, R124, R128) -/

/-- R128: the search ends at the first `t + j·nn` that `prim` divides. -/
theorem primInverseFrom_eq_div (prim nn fuel t k : Nat) (hk : k ≤ fuel) (hd : prim ∣ t + k * nn) :
    ∃ j ≤ k, prim ∣ t + j * nn ∧ primInverseFrom prim nn fuel t = (t + j * nn) / prim := by
  induction fuel generalizing t k with
  | zero =>
    obtain rfl : k = 0 := by omega
    exact ⟨0, le_rfl, hd, by simp [primInverseFrom]⟩
  | succ fuel ih =>
    by_cases ht : t % prim = 0
    · exact ⟨0, Nat.zero_le k, by simpa using Nat.dvd_of_mod_eq_zero ht, by simp [primInverseFrom, ht]⟩
    · cases k with
      | zero => exact absurd (Nat.mod_eq_zero_of_dvd (by simpa using hd)) ht
      | succ k =>
        have shift : ∀ j, t + nn + j * nn = t + (j + 1) * nn := fun j => by ring
        obtain ⟨j, hj, hdj, he⟩ := ih (t + nn) k (by omega) (shift k ▸ hd)
        exact ⟨j + 1, by omega, shift j ▸ hdj, by rw [primInverseFrom, if_neg ht, he, shift]⟩

/-- R128: a multiple of `prim` that is 1 more than a multiple of `nn` lies within the search. -/
theorem exists_primInverse_witness {prim nn : Nat} (hp : 1 ≤ prim) (hn : 1 < nn) (hg : Nat.gcd prim nn = 1) :
    ∃ k < prim, prim ∣ 1 + k * nn := by
  obtain ⟨m, hm, hmod⟩ := Nat.exists_mul_mod_eq_one_of_coprime hg hn
  have hdiv := Nat.mod_add_div' (prim * m) nn
  rw [hmod] at hdiv
  exact ⟨prim * m / nn, Nat.div_lt_of_lt_mul (Nat.mul_comm nn prim ▸ Nat.mul_lt_mul_of_pos_left hm hp), m, hdiv⟩

/-- R128: the search gives an inverse of `prim` modulo `nn`, between 0 and `nn`. -/
theorem primInverse_spec {prim nn : Nat} (hp : 1 ≤ prim) (hn : 1 < nn) (hg : Nat.gcd prim nn = 1) :
    primInverse prim nn * prim % nn = 1 ∧ 0 < primInverse prim nn ∧ primInverse prim nn < nn := by
  obtain ⟨k, hk, hdk⟩ := exists_primInverse_witness hp hn hg
  obtain ⟨j, hj, hdj, he⟩ := primInverseFrom_eq_div prim nn prim 1 k hk.le hdk
  have hmul : primInverse prim nn * prim = 1 + j * nn := by
    rw [primInverse, he, Nat.div_mul_cancel hdj]
  have hlt : primInverse prim nn * prim < nn * prim := by
    calc primInverse prim nn * prim = 1 + j * nn := hmul
      _ < (j + 1) * nn := by rw [Nat.succ_mul]; omega
      _ ≤ nn * prim := by rw [Nat.mul_comm nn]; exact Nat.mul_le_mul_right nn (by omega)
  refine ⟨?_, Nat.pos_of_ne_zero fun h0 => ?_, Nat.lt_of_mul_lt_mul_right hlt⟩
  · rw [hmul, Nat.add_mul_mod_self_right, Nat.mod_eq_of_lt hn]
  · rw [h0, Nat.zero_mul] at hmul
    omega

/-- R124, R128: IPRIM of a slot GF_INIT built. -/
theorem builtSlot_iprim {cb : ControlBlock} (h : builtSlot cb) :
    cb.iprim.toNat = primInverse cb.prim.toNat cb.nn.toNat % 256 := by
  obtain ⟨-, hnn, -⟩ := initBlock_fields h cb.gfpoly.isLt
  obtain ⟨-, -, base, -, -, hcb, -, -, -, -, -, -, hi, -⟩ := initBlock_ok h
  have hbase : cb.iprim = base.iprim := by rw [hcb]
  rw [hbase, hi, BitVec.toNat_ofNat, hnn]

/-- R44 and R128: what a slot GF_INIT built satisfies. -/
theorem builtSlot_ok {cb : ControlBlock} (h : builtSlot cb) : slotOk cb ∧ iprimOk cb := by
  obtain ⟨-, hnn, -⟩ := initBlock_fields h cb.gfpoly.isLt
  obtain ⟨hmm, hfcr, hp1, hp2, hg, hr1, hr2, hr3, hpad⟩ := checkParams_none (initBlock_ok h).1
  rw [← hnn] at hfcr hp2 hg hr3 hpad
  have hn : 1 < cb.nn.toNat := by omega
  have h256 := cb.nn.isLt
  obtain ⟨hinv, hpos, hlt⟩ := primInverse_spec hp1 hn hg
  have hi : cb.iprim.toNat = primInverse cb.prim.toNat cb.nn.toNat := by
    rw [builtSlot_iprim h, Nat.mod_eq_of_lt (by omega)]
  have hmm1 : 1 ≤ cb.mm.toNat := by
    rcases Nat.eq_zero_or_pos cb.mm.toNat with h0 | h0
    · rw [h0] at hnn; omega
    · exact h0
  refine ⟨fun _ => ⟨hmm1, hmm, hnn, hfcr, hp1, hp2, hg, hr1, ?_, hpad, ?_⟩, fun _ => hi ▸ ⟨hpos, hlt⟩⟩
  · simp only [maxRoots]; omega
  · rw [hi, hinv, Nat.mod_eq_of_lt hn]

/-! ## What a step keeps of the slots and the decoder session

Outside GF_INIT and the decoder's two commands no command or host access touches a slot or the decoder's position, and no
written byte becomes unwritten. -/

/-- Which bytes are written, and with what, is the memory's alone. -/
theorem State.written?_congr {s t : State} (h : t.mem = s.mem) (b : Buf) (i : Nat) :
    t.written? b i = s.written? b i := by
  simp [State.written?, h]

/-- From `s` to `t` the decoder stands where it stood, and every written byte stays written. -/
structure SessionKept (s t : State) : Prop where
  decState : t.decState = s.decState
  decClass : t.decClass = s.decClass
  decPos : t.decPos = s.decPos
  written : ∀ b i, (s.written? b i).isSome = true → (t.written? b i).isSome = true

/-- The same, with every slot as it was. -/
structure EngineKept (s t : State) : Prop extends SessionKept s t where
  cb : t.cb = s.cb

theorem SessionKept.of_mem_eq {s t : State} (hst : t.decState = s.decState) (hc : t.decClass = s.decClass)
    (hp : t.decPos = s.decPos) (hm : t.mem = s.mem) : SessionKept s t :=
  ⟨hst, hc, hp, fun b i h => by rwa [State.written?_congr hm]⟩

namespace EngineKept

variable {s t u : State}

theorem refl (s : State) : EngineKept s s := ⟨⟨rfl, rfl, rfl, fun _ _ h => h⟩, rfl⟩

theorem trans (h : EngineKept s t) (h' : EngineKept t u) : EngineKept s u where
  decState := h'.decState.trans h.decState
  decClass := h'.decClass.trans h.decClass
  decPos := h'.decPos.trans h.decPos
  written b i hw := h'.written b i (h.written b i hw)
  cb := h'.cb.trans h.cb

theorem of_mem_eq (hst : t.decState = s.decState) (hc : t.decClass = s.decClass) (hp : t.decPos = s.decPos)
    (hm : t.mem = s.mem) (hcb : t.cb = s.cb) : EngineKept s t := ⟨.of_mem_eq hst hc hp hm, hcb⟩

theorem finish (h : EngineKept s t) (c : StatusCode) (v : Word) : EngineKept s (t.finish c v) :=
  h.trans (.of_mem_eq rfl rfl rfl rfl rfl)

theorem raiseError (s : State) (c : StatusCode) : EngineKept s (s.raiseError c) := (refl s).finish c 0

theorem setCrc (h : EngineKept s t) (v : Half) : EngineKept s (t.setCrc v) :=
  h.trans (.of_mem_eq rfl rfl rfl rfl rfl)

theorem retire (s : State) : EngineKept s s.retire := .of_mem_eq rfl rfl rfl rfl rfl

theorem spendDraw (h : EngineKept s t) : EngineKept s t.spendDraw :=
  h.trans (.of_mem_eq (by simp) (by simp) (by simp) (by simp) (by simp))

theorem storeByte (h : EngineKept s t) (b : Buf) (i : Nat) (v : Byte) : EngineKept s (t.storeByte b i v) :=
  h.trans ⟨⟨by simp, by simp, by simp, fun c j => t.isSome_written?_storeByte b c i j v⟩, by simp⟩

theorem storeRange (h : EngineKept s t) (b : Buf) (off : Nat) (vs : List Byte) :
    EngineKept s (t.storeRange b off vs) := by
  induction vs generalizing t off with
  | nil => exact h
  | cons v vs ih => exact ih (h.storeByte b off v) (off + 1)

theorem storeWrites (h : EngineKept s t) (b : Buf) (ws : List (Nat × Byte)) : EngineKept s (t.storeWrites b ws) := by
  induction ws generalizing t with
  | nil => exact h
  | cons w ws ih => exact ih (h.storeByte b w.1 w.2)

theorem acceptFrame (h : EngineKept s t) (payload : List Byte) (flags : BitVec 3) (n : Nat) :
    EngineKept s (t.acceptFrame payload flags n) :=
  (h.storeRange .rxout 0 payload).trans (.of_mem_eq rfl rfl rfl rfl rfl)

theorem reportDecode (h : EngineKept s t) (o : RsOutcome) : EngineKept s (t.reportDecode o) := by
  cases o with
  | clean => exact h.finish _ _
  | uncorrectable => exact h.finish _ _
  | corrected ws ps => exact ((h.storeWrites .dbuf ws).storeRange .epos 0 _).finish _ _

/-- A command with a valid slot keeps what its continuation keeps. -/
theorem of_withValidSlot {slot : BitVec 3} {k : ControlBlock → Result}
    (h : withValidSlot slot s k = .next t) (hk : ∀ cb, k cb = .next t → EngineKept s t) : EngineKept s t := by
  rcases slot_cases slot with rfl | ⟨c, rfl⟩
  · rw [withValidSlot_seven] at h
    cases h
    exact raiseError s _
  · rw [withValidSlot_slotBits] at h
    split at h
    · exact hk _ h
    · cases h
      exact raiseError s _

/-- A check that ends in an error keeps what the other branch keeps. -/
theorem of_check {p : Prop} [Decidable p] {c : StatusCode} {k : Result}
    (hk : k = .next t → EngineKept s t) (h : (if p then k else .next (s.raiseError c)) = .next t) : EngineKept s t := by
  split at h
  · exact hk h
  · cases h
    exact raiseError s c

/-- The same with the error in the first branch. -/
theorem of_failCheck {p : Prop} [Decidable p] {c : StatusCode} {k : Result}
    (hk : k = .next t → EngineKept s t) (h : (if p then .next (s.raiseError c) else k) = .next t) : EngineKept s t := by
  split at h
  · cases h
    exact raiseError s c
  · exact hk h

/-- A command that only ends keeps everything here. -/
theorem of_finish {c : StatusCode} {v : Word} (h : (.next (s.finish c v) : Result) = .next t) : EngineKept s t := by
  cases h
  exact (refl s).finish c v

/-- A command that goes on with a read keeps what its continuation keeps. -/
theorem of_andThen {α : Type} {x : Except Fault α} {k : α → Result} (hk : ∀ a, k a = .next t → EngineKept s t)
    (h : andThen x k = .next t) : EngineKept s t := by
  obtain ⟨a, -, ha⟩ := andThen_next h
  exact hk a ha

end EngineKept

/-! ### The commands -/

theorem execCrcBuf_kept {off : Byte} {len : BitVec 9} {s t : State} (h : execCrcBuf off len s = .next t) :
    EngineKept s t :=
  .of_check (.of_andThen fun d hd => by cases hd; exact ((EngineKept.refl s).setCrc _).finish _ _) h

theorem execScrApply_kept {off : Byte} {len : BitVec 9} {s t : State} (h : execScrApply off len s = .next t) :
    EngineKept s t :=
  .of_check (.of_andThen fun d hd => by cases hd; exact ((EngineKept.refl s).storeRange ..).finish _ _) h

theorem execGfMul_kept {slot : BitVec 3} {x y : Byte} {s t : State} (h : execGfMul slot x y s = .next t) :
    EngineKept s t :=
  .of_withValidSlot h fun _ => .of_check .of_finish

theorem execGfDiv_kept {slot : BitVec 3} {x y : Byte} {s t : State} (h : execGfDiv slot x y s = .next t) :
    EngineKept s t :=
  .of_withValidSlot h fun _ => .of_check (.of_failCheck .of_finish)

theorem execGfLog_kept {slot : BitVec 3} {x : Byte} {s t : State} (h : execGfLog slot x s = .next t) :
    EngineKept s t :=
  .of_withValidSlot h fun _ => .of_check .of_finish

theorem execGfExp_kept {slot : BitVec 3} {n : Byte} {s t : State} (h : execGfExp slot n s = .next t) :
    EngineKept s t :=
  .of_withValidSlot h fun _ => .of_check .of_finish

theorem execGfModnn_kept {slot : BitVec 3} {v : Half} {s t : State} (h : execGfModnn slot v s = .next t) :
    EngineKept s t :=
  .of_withValidSlot h fun _ => .of_finish

theorem execGfGenpoly_kept {slot : BitVec 3} {n : Byte} {s t : State} (h : execGfGenpoly slot n s = .next t) :
    EngineKept s t :=
  .of_withValidSlot h fun _ => .of_check .of_finish

theorem execNghSelect_kept {n : Byte} {s t : State} (h : execNghSelect n s = .next t) : EngineKept s t := by
  unfold execNghSelect at h
  split at h <;> exact .of_finish h

theorem execNghEncode_kept {len : Byte} {flags : BitVec 3} {s t : State} (h : execNghEncode len flags s = .next t) :
    EngineKept s t := by
  unfold execNghEncode at h
  split at h
  · exact .of_finish h
  · exact .of_check (.of_andThen fun p hp => by cases hp; exact ((EngineKept.refl s).storeRange ..).finish _ _) h

theorem execRsEncode_kept {slot : BitVec 3} {s t : State} (h : execRsEncode slot s = .next t) : EngineKept s t :=
  .of_withValidSlot h fun _ => .of_andThen fun _ => .of_failCheck fun hp => by
    cases hp
    exact (((EngineKept.refl s).storeRange ..).storeRange ..).finish _ _

theorem execRsDecode_kept {slot : BitVec 3} {s t : State} (h : execRsDecode slot s = .next t) : EngineKept s t :=
  .of_withValidSlot h fun _ => .of_failCheck <| .of_andThen fun _ => .of_failCheck <| .of_andThen fun _ =>
    .of_failCheck fun hp => by
      cases hp
      exact (EngineKept.refl s).spendDraw.reportDecode _

/-- Every command but GF_INIT and the decoder's two keeps the slots and the session (R130, R35). -/
theorem exec_kept_or {i : Instr} {s t : State} (h : exec i s = .next t) :
    EngineKept s t ∨ (∃ slot, i = .gfInit slot) ∨ i = .nghDecReset ∨ ∃ b, i = .nghDecByte b := by
  cases i with
  | gfInit slot => exact .inr (.inl ⟨slot, rfl⟩)
  | nghDecReset => exact .inr (.inr (.inl rfl))
  | nghDecByte b => exact .inr (.inr (.inr ⟨b, rfl⟩))
  | nop => exact .inl (.of_finish h)
  | gfMul slot x y => exact .inl (execGfMul_kept h)
  | gfDiv slot x y => exact .inl (execGfDiv_kept h)
  | gfLog slot x => exact .inl (execGfLog_kept h)
  | gfExp slot n => exact .inl (execGfExp_kept h)
  | gfModnn slot v => exact .inl (execGfModnn_kept h)
  | gfGenpoly slot n => exact .inl (execGfGenpoly_kept h)
  | rsEncode slot => exact .inl (execRsEncode_kept h)
  | rsDecode slot => exact .inl (execRsDecode_kept h)
  | crcLoad v => cases h; exact .inl (((EngineKept.refl s).setCrc v).finish _ _)
  | crcByte b => cases h; exact .inl (((EngineKept.refl s).setCrc _).finish _ _)
  | crcBuf off len => exact .inl (execCrcBuf_kept h)
  | scrApply off len => exact .inl (execScrApply_kept h)
  | scrRead n => exact .inl (.of_check .of_finish h)
  | nghSelect n => exact .inl (execNghSelect_kept h)
  | nghTagLookup tag => exact .inl (.of_finish h)
  | nghEncode len flags => exact .inl (execNghEncode_kept h)

/-- All that GF_INIT can do (R124): SLOT = 7 is illegal, or one slot is zeroed or holds what the parameters give. -/
theorem execGfInit_cases {slot : BitVec 3} {s t : State} (h : execGfInit slot s = .next t) :
    t = s.raiseError .illegal ∨
    ∃ c cb code v, t = (s.setSlot c cb).finish code v ∧ (cb = zeroBlock ∨ s.initParams = .ok cb) := by
  rcases slot_cases slot with rfl | ⟨c, rfl⟩
  · rw [execGfInit, withSlot, slotOf?_seven] at h
    cases h
    exact .inl rfl
  · rw [execGfInit, withSlot_slotBits] at h
    cases hp : s.initParams with
    | error e =>
      rw [hp] at h
      cases h
      exact .inr ⟨c, zeroBlock, e, 0, rfl, .inl rfl⟩
    | ok cb =>
      rw [hp] at h
      cases h
      exact .inr ⟨c, cb, .ok, 0, rfl, .inr rfl⟩

/-- GF_INIT keeps the decoder session and the buffers. -/
theorem execGfInit_session {slot : BitVec 3} {s t : State} (h : execGfInit slot s = .next t) : SessionKept s t := by
  obtain rfl | ⟨c, cb, code, v, rfl, -⟩ := execGfInit_cases h
  · exact (EngineKept.raiseError s _).toSessionKept
  · exact .of_mem_eq rfl rfl rfl rfl

/-! ### NGH_DEC_BYTE -/

/-- Judging a frame changes no slot and leaves the decoder in its state (R261). -/
theorem State.judge_kept {s t : State} (h : EngineKept s t) (c : SlotId) (cw : List Byte) (n : Nat) :
    EngineKept s (t.judge c cw n) := by
  unfold State.judge
  split
  · exact h.finish _ _
  · exact h.finish _ _
  · exact (h.acceptFrame ..).finish _ _

/-- The end of a frame changes no slot and leaves the decoder in its state (R261). -/
theorem frameEnd_kept {c : SlotId} {s t : State} (h : frameEnd c s = .next t) : EngineKept s t := by
  unfold frameEnd at h
  split at h
  · obtain ⟨d, -, h⟩ := andThen_next h
    cases h
    have hs := (EngineKept.refl s).spendDraw
    unfold State.frameDecoded
    split
    · exact State.judge_kept hs _ _ _
    · exact hs.finish _ _
    · exact State.judge_kept (hs.storeWrites .rxcw _) _ _ _
  · exact .of_finish h

/-- All that NGH_DEC_BYTE can do to the slots and the position (R260): no slot changes, and the decoder is searching for a
tag, has just locked on, or has taken one byte that is not its codeword's last. -/
theorem execNghDecByte_cases {b : Byte} {s t : State} (h : execNghDecByte b s = .next t) :
    t.cb = s.cb ∧ (t.decState ≠ .codewordAccumulating ∨ t.decPos = 0 ∨
      s.decState = .codewordAccumulating ∧ s.decPos.toNat + 1 < swp s.decClass ∧
        t = (s.takeByte b).finishEvent .progress) := by
  unfold execNghDecByte at h
  split at h
  · cases h
    exact ⟨rfl, .inl (by simp)⟩
  · cases h
    exact ⟨rfl, .inl (by simp)⟩
  · simp only at h
    split at h
    · cases h
      exact ⟨rfl, .inr (.inl rfl)⟩
    · cases h
      exact ⟨rfl, .inl (by simp)⟩
  · rename_i hd
    split at h
    · rename_i hlt
      cases h
      exact ⟨by simp [State.takeByte], .inr (.inr ⟨hd, hlt, rfl⟩)⟩
    · have hk := frameEnd_kept h
      exact ⟨by rw [hk.cb]; simp [State.takeByte], .inl (by rw [hk.decState]; simp)⟩

/-! ### The step -/

/-- All that the completion of a word can do (R96, R281). -/
theorem complete_cases {w : Word} {s t : State} (h : complete w s = .next t) :
    t = s.retire.raiseError .illegal ∨ ∃ i, decode w = .ok i ∧ exec i s.retire = .next t := by
  unfold complete at h
  split at h
  · cases h
    exact .inl rfl
  · exact .inr ⟨_, ‹_›, h⟩

/-- All that a host move can do (R280): nothing, a reset, or an access whose response is recorded. -/
theorem hostStep_cases {s t : State} (h : hostStep s = .next t) :
    t = s ∨ (∃ rest, t = (s.hostMoved rest).assertReset) ∨
    ∃ rest a u r, (s.hostMoved rest).serve a = .ok (u, r) ∧ (t = u.respond r ∨ t = (u.respond r).queue s.host) := by
  unfold hostStep at h
  split at h
  · cases h
    exact .inl rfl
  · cases h
    exact .inr (.inl ⟨_, rfl⟩)
  · split at h
    · cases h
    · cases h
      exact .inr (.inr ⟨_, _, _, _, ‹_›, .inl rfl⟩)
  · split at h
    · cases h
    · cases h
      refine .inr (.inr ⟨_, _, _, _, ‹_›, ?_⟩)
      split
      · exact .inr rfl
      · exact .inl rfl

/-- A register write touches no slot, no buffer and not the decoder (R66, R67). -/
theorem State.writeReg_kept {s t : State} {w : Word} {r : Reg} (h : s.writeReg w r = some t) : EngineKept s t := by
  cases r <;> cases h <;> exact .of_mem_eq rfl rfl rfl rfl rfl

theorem State.writeAt_kept {s t : State} {w : Word} {l : Location} (h : s.writeAt w l = some t) : EngineKept s t := by
  cases l with
  | reg r => exact State.writeReg_kept h
  | info c f => cases h
  | byte b i =>
    simp only [State.writeAt] at h
    split at h
    · cases h
      exact (EngineKept.refl s).storeByte _ _ _
    · cases h

theorem State.serve_kept {s t : State} {a : Access} {r : BusResponse} (h : s.serve a = .ok (t, r)) : EngineKept s t := by
  obtain rfl | ⟨-, -, -, l, -, hw⟩ := State.serve_cases h
  · exact .refl t
  · exact State.writeAt_kept hw

/-- A step keeps the slots and the session, or runs a command on the retired state, or resets the block. -/
theorem step_kept_or {s t : State} (h : step s = .next t) :
    EngineKept s t ∨ (∃ i, exec i s.retire = .next t) ∨ ∃ u : State, t = u.assertReset := by
  have of_host (h : hostStep s = .next t) : EngineKept s t ∨ ∃ u : State, t = u.assertReset := by
    obtain rfl | ⟨rest, rfl⟩ | ⟨rest, a, u, r, hu, rfl | rfl⟩ := hostStep_cases h
    · exact .inl (.refl t)
    · exact .inr ⟨_, rfl⟩
    all_goals
      have hmoved : EngineKept s (s.hostMoved rest) := .of_mem_eq rfl rfl rfl rfl rfl
      exact .inl ((hmoved.trans (State.serve_kept hu)).trans (.of_mem_eq rfl rfl rfl rfl rfl))
  unfold step at h
  split at h
  · exact (of_host h).imp_right .inr
  · split at h
    · obtain rfl | ⟨i, -, hi⟩ := complete_cases h
      · exact .inl ((EngineKept.retire s).finish _ _)
      · exact .inr (.inl ⟨i, hi⟩)
    · exact (of_host h).imp_right .inr

/-! ### The slots -/

/-- GF_INIT leaves each slot as it was, zeroed, or built (R124). -/
theorem execGfInit_slot {slot : BitVec 3} {s t : State} (h : execGfInit slot s = .next t) (c : SlotId) :
    t.cb[c] = s.cb[c] ∨ t.cb[c] = zeroBlock ∨ builtSlot t.cb[c] := by
  obtain rfl | ⟨d, cb, code, v, rfl, hcb⟩ := execGfInit_cases h
  · exact .inl rfl
  · by_cases hd : c = d
    · subst hd
      have hset : ((s.setSlot c cb).finish code v).cb[c] = cb := by simp
      rw [hset]
      exact .inr (hcb.imp_right fun hb => builtSlot_of_initBlock hb s.pGfpoly.isLt)
    · exact .inl (by simp [Vector.getElem_set_ne _ _ (fun he => hd (Fin.ext he.symm))])

/-- Every step leaves each slot as it was, zeroed, or built (R124, R130, R331). -/
theorem step_slot {s t : State} (h : step s = .next t) (c : SlotId) :
    t.cb[c] = s.cb[c] ∨ t.cb[c] = zeroBlock ∨ builtSlot t.cb[c] := by
  obtain hk | ⟨i, hi⟩ | ⟨u, rfl⟩ := step_kept_or h
  · exact .inl (by rw [hk.cb])
  · obtain hk | ⟨slot, rfl⟩ | rfl | ⟨b, rfl⟩ := exec_kept_or hi
    · exact .inl (by rw [hk.cb]; rfl)
    · exact execGfInit_slot hi c
    · cases hi
      exact .inl rfl
    · exact .inl (by rw [(execNghDecByte_cases hi).1]; rfl)
  · exact .inr (.inr (State.afterReset_cb u.params u.fresh c ▸ resetBlock_built c))

/-- What a zeroed slot and a built slot satisfy, every step keeps of every slot. -/
theorem step_keeps_slots {P : ControlBlock → Prop} {s t : State} (hzero : P zeroBlock)
    (hbuilt : ∀ cb, builtSlot cb → P cb) (h : step s = .next t) (hs : ∀ c : SlotId, P s.cb[c]) (c : SlotId) :
    P t.cb[c] := by
  obtain he | he | hb := step_slot h c
  · exact he ▸ hs c
  · exact he ▸ hzero
  · exact hbuilt _ hb

/-- Settles O58: a step leaves a slot as it was, zeroed (not valid), or built by GF_INIT, and a built slot keeps R44 and
R128. -/
theorem slotsStayWellFormed : Obligations.SlotsStayWellFormed := by
  intro s t h
  exact ⟨step_keeps_slots nofun (fun _ hb => (builtSlot_ok hb).1) h,
    step_keeps_slots nofun (fun _ hb => (builtSlot_ok hb).2) h,
    step_keeps_slots (P := fun cb => cb.valid = true → builtSlot cb) nofun (fun _ hb _ => hb) h⟩

/-! ### The decoder session -/

theorem swp_pos (c : SlotId) : 0 < swp c := by revert c; decide

theorem swp_le (c : SlotId) : swp c ≤ 255 := by revert c; decide

theorem SessionKept.decoderOk {s t : State} (h : SessionKept s t) (hs : decoderOk s) : decoderOk t := by
  intro hd
  obtain ⟨hpos, hw⟩ := hs (h.decState ▸ hd)
  rw [h.decPos, h.decClass]
  exact ⟨hpos, fun i hi => h.written _ _ (hw i hi)⟩

/-- The byte taken is written at DEC_POS, and the position moves past it (R260). -/
theorem State.takeByte_decoderOk {s : State} {b : Byte} (hs : decoderOk s) (hd : s.decState = .codewordAccumulating)
    (hlt : s.decPos.toNat + 1 < swp s.decClass) : decoderOk ((s.takeByte b).finishEvent .progress) := by
  intro _
  have hswp := swp_le s.decClass
  have hpos : ((s.takeByte b).finishEvent .progress).decPos.toNat = s.decPos.toNat + 1 := by
    have hmod : (s.decPos.toNat + 1) % 256 = s.decPos.toNat + 1 := Nat.mod_eq_of_lt (by omega)
    simp [State.takeByte, BitVec.toNat_add, hmod]
  rw [hpos]
  refine ⟨by simpa [State.takeByte] using hlt, fun i hi => ?_⟩
  have hmem : ((s.takeByte b).finishEvent .progress).mem =
    (s.storeByte .rxcw s.decPos.toNat (b ^^^ scramblerByte s.params s.decPos.toNat)).mem := rfl
  rw [State.written?_congr hmem]
  rcases Nat.lt_succ_iff_lt_or_eq.mp hi with hi | rfl
  · exact State.isSome_written?_storeByte _ _ _ _ _ _ ((hs hd).2 i hi)
  · rw [State.written?_storeByte_same _ _ _ s.decPos.isLt]
    rfl

/-- Every command keeps R34 (R258, R260). -/
theorem exec_decoderOk {i : Instr} {s t : State} (h : exec i s = .next t) (hs : decoderOk s) : decoderOk t := by
  obtain hk | ⟨slot, rfl⟩ | rfl | ⟨b, rfl⟩ := exec_kept_or h
  · exact hk.decoderOk hs
  · exact (execGfInit_session h).decoderOk hs
  · cases h
    exact nofun
  · obtain ⟨-, hsearch | hlocked | ⟨hd, hlt, rfl⟩⟩ := execNghDecByte_cases h
    · exact fun hd => absurd hd hsearch
    · intro _
      rw [hlocked]
      exact ⟨swp_pos _, nofun⟩
    · exact State.takeByte_decoderOk hs hd hlt

/-- Settles O59: only NGH_DEC_BYTE moves the decoder into or along a codeword, and it writes the byte it moves past. -/
theorem decoderStaysInRange : Obligations.DecoderStaysInRange := by
  intro s t hs h
  obtain hk | ⟨i, hi⟩ | ⟨u, rfl⟩ := step_kept_or h
  · exact hk.decoderOk hs
  · exact exec_decoderOk hi ((EngineKept.retire s).decoderOk hs)
  · exact nofun

/-! ## Buffer contents (R47, R334) -/

theorem State.written?_afterReset (p : Params) (n : Nat) (b : Buf) (i : Nat) :
    (State.afterReset p n).written? b i = none := by
  have hmem : (State.afterReset p n).mem = [] := rfl
  simp [State.written?, hmem, readCell]

theorem State.loadByte_of_written {s : State} {b : Buf} {i : Nat} {x : Byte} (h : s.written? b i = some x) :
    s.loadByte b i = .ok x := by
  simp [State.loadByte, h]

/-- A readable byte loads. -/
theorem State.exists_loadByte_of_readable {s : State} {b : Buf} {i : Nat} (h : s.readable b i) :
    ∃ v, s.loadByte b i = .ok v := by
  obtain hw | hd := h
  · obtain ⟨v, hv⟩ := Option.isSome_iff_exists.mp hw
    exact ⟨v, State.loadByte_of_written hv⟩
  · exact State.exists_loadByte hd b i

/-- A range of readable bytes loads. -/
theorem State.exists_loadRange_of_readable {s : State} {b : Buf} {off len : Nat}
    (h : ∀ i, off ≤ i → i < off + len → s.readable b i) : ∃ l, s.loadRange b off len = .ok l := by
  induction len generalizing off with
  | zero => exact ⟨[], rfl⟩
  | succ len ih =>
    obtain ⟨v, hv⟩ := State.exists_loadByte_of_readable (h off le_rfl (by omega))
    obtain ⟨vs, hvs⟩ := ih (off := off + 1) fun i h1 h2 => h i (by omega) (by omega)
    exact ⟨v :: vs, by simp [State.loadRange, hv, hvs]⟩

/-- Settles O22: the reset memory lists no byte, a load follows the written mark, and a range loads byte by byte. -/
theorem bufferContents : Obligations.BufferContents := by
  refine ⟨State.written?_afterReset, fun s b i => ⟨fun x hx => State.loadByte_of_written hx, ?_, ?_⟩, ?_⟩
  · intro hw hf
    simp [State.loadByte, State.readUnwritten, hw, hf]
  · intro hw hd
    simp [State.loadByte, State.readUnwritten, Buf.addr, hw, hd]
  · intro s b off len h
    obtain ⟨l, hl⟩ := State.exists_loadRange_of_readable h
    obtain ⟨hlen, hload⟩ := State.loadRange_ok hl
    refine ⟨l, hl, hlen, fun i hi => ?_⟩
    rw [hload i (by omega), List.getD_eq_getElem]

/-! ## Served accesses (R61 to R70) -/

/-- A read of a mapped word is served while the engine is idle, and at STATUS and CMD always. -/
theorem State.serve_read {s : State} {a : Access} {l : Location} {v : Word} (hk : a.kind = .read) (hz : a.size = 4)
    (hl : locate a.offset.toNat = some l) (hb : s.pending = none ∨ servedWhileBusy l = true) (hv : s.readAt l = .ok v) :
    s.serve a = .ok (s, .readOk v) := by
  have hserved : (s.busy && !servedWhileBusy l) = false := by
    obtain hb | hb := hb <;> simp [State.busy, hb]
  simp [State.serve, hk, hz, hl, hv, hserved]

/-- A write of a location that takes it is served while the engine is idle. -/
theorem State.serve_write {s t : State} {a : Access} {l : Location} (hk : a.kind = .write) (hz : a.size = 4)
    (hl : locate a.offset.toNat = some l) (hp : s.pending = none) (hw : s.writeAt a.wdata l = some t) :
    s.serve a = .ok (t, .writeOk) := by
  simp [State.serve, hk, hz, hl, hw, State.busy, hp]

/-- R70: while a command is pending every write is a bus error. -/
theorem State.serve_write_busy {s : State} {a : Access} (hk : a.kind = .write) (hp : s.pending ≠ none) :
    s.serve a = .ok (s, .busError) := by
  have hbusy : s.busy = true := Option.isSome_iff_ne_none.mpr hp
  simp only [State.serve, hk, hbusy]
  split
  · rfl
  · split <;> rfl

/-! ## Registers (R22 to R35) -/

/-- R24: BUSY is bit 8 of STATUS. -/
theorem State.statusWord_busy (s : State) : s.statusWord.getLsbD 8 = s.busy := by
  unfold State.statusWord
  cases s.busy <;> cases s.code <;> rfl

/-- R24: STATUS is CODE while the engine is idle. -/
theorem State.statusWord_idle {s : State} (h : s.pending = none) :
    s.statusWord = s.code.byte.setWidth 32 := by
  have hbusy : s.busy = false := by simp [State.busy, h]
  unfold State.statusWord
  rw [hbusy]
  cases s.code <;> rfl

/-- R29: seven bits joined, bit s being flag s. -/
theorem ofBool_append_eq_ofNat : ∀ v0 v1 v2 v3 v4 v5 v6 : Bool,
    (BitVec.ofBool v6 ++ BitVec.ofBool v5 ++ BitVec.ofBool v4 ++ BitVec.ofBool v3 ++ BitVec.ofBool v2 ++
      BitVec.ofBool v1 ++ BitVec.ofBool v0).setWidth 32 =
    BitVec.ofNat 32 (v0.toNat + 2 * v1.toNat + 4 * v2.toNat + 8 * v3.toNat + 16 * v4.toNat + 32 * v5.toNat +
      64 * v6.toNat) := by
  decide

/-- R31: DEC_STATE reads as its encoding. -/
theorem State.readReg_decState (s : State) : s.readReg .decState = BitVec.ofNat 32 (match s.decState with
    | .sizeTagByte1 => 0 | .sizeTagByte2 => 1 | .sizeTagByte3 => 2 | .codewordAccumulating => 3) := by
  unfold State.readReg
  cases s.decState <;> rfl

/-- A read of a register while the engine is idle. -/
theorem State.serve_readReg {s : State} (hp : s.pending = none) {off : BitVec 14} {r : Reg} {v : Word}
    (hl : locate off.toNat = some (.reg r)) (hv : s.readReg r = v) :
    s.serve { kind := .read, offset := off, size := 4, wdata := 0 } = .ok (s, .readOk v) :=
  State.serve_read rfl rfl hl (.inl hp) (congrArg Except.ok hv)

/-- A write of a register while the engine is idle. -/
theorem State.serve_writeReg {s t : State} (hp : s.pending = none) {off : BitVec 14} {r : Reg} {v : Word}
    (hl : locate off.toNat = some (.reg r)) (hw : s.writeReg v r = some t) :
    s.serve { kind := .write, offset := off, size := 4, wdata := v } = .ok (t, .writeOk) :=
  State.serve_write rfl rfl hl hp hw

/-- Settles O16: a served write at CMD is `issue`, a write while busy is a bus error, and CMD is readable always. -/
theorem cmdWritesIssueCommands : Obligations.CmdWritesIssueCommands := by
  intro s a ho hz
  have hl : locate a.offset.toNat = some (.reg .cmd) := by rw [ho]; rfl
  refine ⟨fun hk hp => ?_, fun hk hp => State.serve_write_busy hk hp, fun hk => ?_⟩
  · exact ⟨s.issue a.wdata, State.serve_write hk hz hl hp rfl, rfl, State.statusWord_busy _⟩
  · exact State.serve_read hk hz hl (.inr rfl) rfl

/-- Settles O17: every offset is its register's, and each register reads as its value zero-extended. -/
theorem registerReadValues : Obligations.RegisterReadValues := by
  intro s hp
  have hread {off : BitVec 14} {r : Reg} {v : Word} (hl : locate off.toNat = some (.reg r)) (hv : s.readReg r = v) :=
    State.serve_readReg hp hl hv
  simp only [BitVec.ofNat_toNat, BitVec.setWidth_eq]
  exact ⟨hread rfl rfl, hread rfl (State.statusWord_idle hp), hread rfl rfl, hread rfl rfl, hread rfl rfl,
    hread rfl rfl, hread rfl (ofBool_append_eq_ofNat ..), hread rfl rfl, hread rfl rfl, hread rfl rfl, hread rfl rfl,
    hread rfl rfl, hread rfl rfl, hread rfl (State.readReg_decState s), hread rfl rfl, hread rfl rfl, hread rfl rfl,
    hread rfl rfl, hread rfl rfl, hread rfl rfl⟩

/-- Settles O18: every offset is its register's, and a served write is `writeReg`. -/
theorem registerWriteEffects : Obligations.RegisterWriteEffects := by
  intro s v hp write
  have hlow {n : Nat} (hn : n ≤ 32) : v.extractLsb' 0 n = v.setWidth n := (BitVec.setWidth_eq_extractLsb' hn).symm
  rw [hlow (n := 16) (by decide), hlow (n := 8) (by decide), hlow (n := 1) (by decide)]
  refine ⟨?_, ?_, ?_, ?_, ?_, ?_, ?_, ?_, ?_⟩ <;> exact State.serve_writeReg hp rfl rfl

/-! ## CB_INFO (R45) -/

/-- R45: what stands at a field's offset within slot `c`'s eight words. -/
theorem locate_info (c : SlotId) {f : Nat} {field : CbField} (h : cbFieldAt f = some field) :
    locate (BitVec.ofNat 14 (0x100 + 0x20 * c.val + f)).toNat = some (.info c field) := by
  unfold cbFieldAt at h
  split at h <;> cases h <;> revert c <;> decide

/-- A read of CB_INFO while the engine is idle. -/
theorem State.serve_info {s : State} (hp : s.pending = none) (c : SlotId) {f : Nat} {field : CbField} {v : Word}
    (hf : cbFieldAt f = some field) (hv : s.cb[c].info field = v) :
    s.serve { kind := .read, offset := BitVec.ofNat 14 (0x100 + 0x20 * c.val + f), size := 4, wdata := 0 } =
      .ok (s, .readOk v) :=
  State.serve_read rfl rfl (locate_info c hf) (.inl hp) (congrArg Except.ok hv)

/-- Settles O19: each of a slot's eight offsets is its field's, read zero-extended. -/
theorem controlBlockInfo : Obligations.ControlBlockInfo := by
  intro s c hp
  simp only [BitVec.ofNat_toNat]
  refine ⟨?_, ?_, ?_, ?_, ?_, ?_, ?_, ?_⟩ <;> exact State.serve_info hp c rfl rfl

end Sys2Proof.Machine
end

section
/-! PROOFS. The statements of 20_memory.md: the memory's canonical form across every step, the address map, and what an
access does at each kind of location. -/

namespace Sys2Proof.Machine

/-! ## What is stored where (R37 to R42, R77)

A command or a host access changes the memory only by writes of buffer bytes, and each command has its own buffers. -/

/-- `m'` is `m` after writes of bytes of the buffers `bufs`. -/
inductive Stored (bufs : List Buf) (m : Memory) : Memory → Prop
  | refl : Stored bufs m m
  | write {m' : Memory} (h : Stored bufs m m') {b : Buf} (hb : b ∈ bufs) {i : Nat} (hi : i < b.size) (v : Byte) :
    Stored bufs m (writeCell m' (b.addr i) v)

namespace Stored

variable {bufs : List Buf} {m m' : Memory} {s : State} {b : Buf}

/-- Writes of buffer bytes keep the canonical form (log 24). -/
theorem wf (h : Stored bufs m m') (hm : m.wf) : m'.wf := by
  induction h with
  | refl => exact hm
  | write _ _ hi v ih => exact writeCell_wf v ih (Buf.isBufferWord_addr _ hi)

theorem storeByte (h : Stored bufs m s.mem) (hb : b ∈ bufs) (i : Nat) (v : Byte) :
    Stored bufs m (s.storeByte b i v).mem := by
  rw [State.storeByte_mem]
  split
  · exact h.write hb ‹_› v
  · exact h

theorem storeRange (h : Stored bufs m s.mem) (hb : b ∈ bufs) (off : Nat) (vs : List Byte) :
    Stored bufs m (s.storeRange b off vs).mem := by
  induction vs generalizing s off with
  | nil => exact h
  | cons v vs ih => exact ih (h.storeByte hb off v) (off + 1)

theorem storeWrites (h : Stored bufs m s.mem) (hb : b ∈ bufs) (ws : List (Nat × Byte)) :
    Stored bufs m (s.storeWrites b ws).mem := by
  induction ws generalizing s with
  | nil => exact h
  | cons w ws ih => exact ih (h.storeByte hb w.1 w.2)

theorem spendDraw (h : Stored bufs m s.mem) : Stored bufs m s.spendDraw.mem := by
  rwa [State.spendDraw_mem]

end Stored

/-- Where the result is a next state, only bytes of the buffers `bufs` were written on the way to it from `s`. -/
def StoresOnly (bufs : List Buf) (s : State) (r : Result) : Prop := ∀ t, r = .next t → Stored bufs s.mem t.mem

namespace StoresOnly

variable {bufs : List Buf} {s : State}

theorem next {t : State} (h : Stored bufs s.mem t.mem) : StoresOnly bufs s (.next t) := by
  rintro _ ⟨⟩
  exact h

/-- A next state with the same memory. -/
theorem same {t : State} (h : t.mem = s.mem) : StoresOnly bufs s (.next t) := next (h ▸ .refl)

theorem ite {p : Prop} [Decidable p] {r r' : Result} (h : StoresOnly bufs s r) (h' : StoresOnly bufs s r') :
    StoresOnly bufs s (if p then r else r') := by
  split
  · exact h
  · exact h'

theorem andThen {α : Type} {x : Except Fault α} {k : α → Result} (h : ∀ a, StoresOnly bufs s (k a)) :
    StoresOnly bufs s (andThen x k) := by
  intro t ht
  obtain ⟨a, -, ha⟩ := andThen_next ht
  exact h a t ha

theorem withSlot {slot : BitVec 3} {k : SlotId → ControlBlock → Result} (h : ∀ c cb, StoresOnly bufs s (k c cb)) :
    StoresOnly bufs s (withSlot slot s k) := by
  unfold Machine.withSlot
  split
  · exact same rfl
  · exact h _ _

theorem withValidSlot {slot : BitVec 3} {k : ControlBlock → Result} (h : ∀ cb, StoresOnly bufs s (k cb)) :
    StoresOnly bufs s (withValidSlot slot s k) :=
  withSlot fun _ cb => ite (h cb) (same rfl)

end StoresOnly

/-! ### The commands -/

theorem execGfInit_stores (slot : BitVec 3) (s : State) : StoresOnly [] s (execGfInit slot s) :=
  .withSlot fun c _ => by split <;> exact .same rfl

theorem execGfMul_stores (slot : BitVec 3) (x y : Byte) (s : State) : StoresOnly [] s (execGfMul slot x y s) :=
  .withValidSlot fun _ => .ite (.same rfl) (.same rfl)

theorem execGfDiv_stores (slot : BitVec 3) (x y : Byte) (s : State) : StoresOnly [] s (execGfDiv slot x y s) :=
  .withValidSlot fun _ => .ite (.ite (.same rfl) (.same rfl)) (.same rfl)

theorem execGfLog_stores (slot : BitVec 3) (x : Byte) (s : State) : StoresOnly [] s (execGfLog slot x s) :=
  .withValidSlot fun _ => .ite (.same rfl) (.same rfl)

theorem execGfExp_stores (slot : BitVec 3) (n : Byte) (s : State) : StoresOnly [] s (execGfExp slot n s) :=
  .withValidSlot fun _ => .ite (.same rfl) (.same rfl)

theorem execGfModnn_stores (slot : BitVec 3) (v : Half) (s : State) : StoresOnly [] s (execGfModnn slot v s) :=
  .withValidSlot fun _ => .same rfl

theorem execGfGenpoly_stores (slot : BitVec 3) (n : Byte) (s : State) : StoresOnly [] s (execGfGenpoly slot n s) :=
  .withValidSlot fun _ => .ite (.same rfl) (.same rfl)

theorem execNghSelect_stores (n : Byte) (s : State) : StoresOnly [] s (execNghSelect n s) := by
  unfold execNghSelect
  split <;> exact .same rfl

theorem execScrApply_stores (off : Byte) (len : BitVec 9) (s : State) :
    StoresOnly [.dbuf] s (execScrApply off len s) :=
  .ite (.andThen fun _ => .next (Stored.storeRange .refl (by simp) _ _)) (.same rfl)

theorem execNghEncode_stores (len : Byte) (flags : BitVec 3) (s : State) :
    StoresOnly [.fbuf] s (execNghEncode len flags s) := by
  unfold execNghEncode
  split
  · exact .same rfl
  · exact .ite (.andThen fun _ => .next (Stored.storeRange .refl (by simp) _ _)) (.same rfl)

theorem execRsEncode_stores (slot : BitVec 3) (s : State) : StoresOnly [.dbuf, .pbuf] s (execRsEncode slot s) :=
  .withValidSlot fun _ => .andThen fun _ =>
    .ite (.same rfl) (.next ((Stored.storeRange .refl (by simp) _ _).storeRange (by simp) _ _))

/-- The report of a decode writes DBUF and EPOS (R175). -/
theorem State.reportDecode_stored {m : Memory} {s : State} (h : Stored [.dbuf, .epos] m s.mem) (o : RsOutcome) :
    Stored [.dbuf, .epos] m (s.reportDecode o).mem := by
  cases o with
  | clean => exact h
  | uncorrectable => exact h
  | corrected ws ps => exact (h.storeWrites (by simp) ws).storeRange (by simp) 0 _

theorem execRsDecode_stores (slot : BitVec 3) (s : State) : StoresOnly [.dbuf, .epos] s (execRsDecode slot s) :=
  .withValidSlot fun _ => .ite (.same rfl) <| .andThen fun _ => .ite (.same rfl) <| .andThen fun _ =>
    .ite (.same rfl) (.next (State.reportDecode_stored (Stored.spendDraw .refl) _))

/-- Judging a frame writes RXOUT (R261, R264). -/
theorem State.judge_stored {m : Memory} {s : State} (h : Stored [.rxcw, .rxout] m s.mem) (c : SlotId) (cw : List Byte)
    (n : Nat) : Stored [.rxcw, .rxout] m (s.judge c cw n).mem := by
  unfold State.judge
  split
  · exact h
  · exact h
  · exact h.storeRange (by simp) 0 _

/-- The end of a frame writes RXCW and RXOUT (R261). -/
theorem State.frameDecoded_stored {m : Memory} {s : State} (h : Stored [.rxcw, .rxout] m s.mem) (c : SlotId)
    (d : List Byte) (o : RsOutcome) : Stored [.rxcw, .rxout] m (s.frameDecoded c d o).mem := by
  cases o with
  | clean => exact State.judge_stored h c d 0
  | uncorrectable => exact h
  | corrected ws ps => exact State.judge_stored (h.storeWrites (by simp) ws) c _ _

theorem execNghDecByte_stores (b : Byte) (s : State) : StoresOnly [.rxcw, .rxout] s (execNghDecByte b s) := by
  have hbyte : Stored [.rxcw, .rxout] s.mem (s.takeByte b).mem := Stored.storeByte .refl (by simp) _ _
  have hend : Stored [.rxcw, .rxout] s.mem (s.takeByte b).leaveFrame.mem := hbyte
  unfold execNghDecByte
  split
  · exact .same rfl
  · exact .same rfl
  · simp only
    split <;> exact .same rfl
  · exact .ite (.next hbyte) <| .ite (.andThen fun _ => .next (State.frameDecoded_stored hend.spendDraw _ _ _))
      (.next hbyte)

/-- The buffers a command writes. -/
def storedBuffers : Instr → List Buf
  | .scrApply _ _ => [.dbuf]
  | .nghEncode _ _ => [.fbuf]
  | .rsEncode _ => [.dbuf, .pbuf]
  | .rsDecode _ => [.dbuf, .epos]
  | .nghDecByte _ => [.rxcw, .rxout]
  | _ => []

/-- Every command writes only bytes of its own buffers. -/
theorem exec_stores (i : Instr) (s : State) : StoresOnly (storedBuffers i) s (exec i s) := by
  cases i with
  | nop => exact .same rfl
  | gfInit slot => exact execGfInit_stores slot s
  | gfMul slot x y => exact execGfMul_stores slot x y s
  | gfDiv slot x y => exact execGfDiv_stores slot x y s
  | gfLog slot x => exact execGfLog_stores slot x s
  | gfExp slot n => exact execGfExp_stores slot n s
  | gfModnn slot v => exact execGfModnn_stores slot v s
  | gfGenpoly slot n => exact execGfGenpoly_stores slot n s
  | rsEncode slot => exact execRsEncode_stores slot s
  | rsDecode slot => exact execRsDecode_stores slot s
  | crcLoad v => exact .same rfl
  | crcByte b => exact .same rfl
  | crcBuf off len => exact .ite (.andThen fun _ => .same rfl) (.same rfl)
  | scrApply off len => exact execScrApply_stores off len s
  | scrRead n => exact .ite (.same rfl) (.same rfl)
  | nghSelect n => exact execNghSelect_stores n s
  | nghTagLookup t => exact .same rfl
  | nghEncode len flags => exact execNghEncode_stores len flags s
  | nghDecReset => exact .same rfl
  | nghDecByte b => exact execNghDecByte_stores b s

/-! ### The step -/

/-- R62: the buffers the host may write. -/
theorem Buf.hostWritable_iff (b : Buf) : b.hostWritable = true ↔ b = .dbuf ∨ b = .pbuf ∨ b = .epos := by
  cases b <;> decide

theorem State.writeReg_mem {s t : State} {w : Word} {r : Reg} (h : s.writeReg w r = some t) : t.mem = s.mem := by
  cases r <;> cases h <;> rfl

/-- The host writes only bytes of DBUF, PBUF and EPOS (R62, R67). -/
theorem State.writeAt_stored {s t : State} {w : Word} {l : Location} (h : s.writeAt w l = some t) :
    Stored [.dbuf, .pbuf, .epos] s.mem t.mem := by
  cases l with
  | reg r => exact State.writeReg_mem h ▸ .refl
  | info c f => cases h
  | byte b i =>
    simp only [State.writeAt] at h
    split at h
    · rename_i hb
      cases h
      exact Stored.storeByte .refl (by simpa using b.hostWritable_iff.mp hb) _ _
    · cases h

theorem State.serve_stored {s t : State} {a : Access} {r : BusResponse} (h : s.serve a = .ok (t, r)) :
    Stored [.dbuf, .pbuf, .epos] s.mem t.mem := by
  obtain rfl | ⟨-, -, -, l, -, hw⟩ := State.serve_cases h
  · exact .refl
  · exact State.writeAt_stored hw

/-- A step is the completion of the pending word or a host move (R280, R281). -/
theorem step_cases {s t : State} (h : step s = .next t) :
    (∃ w, s.pending = some w ∧ complete w s = .next t) ∨ hostStep s = .next t := by
  unfold step at h
  split at h
  · exact .inr h
  · split at h
    · exact .inl ⟨_, ‹_›, h⟩
    · exact .inr h

/-- A completed word writes only buffer bytes. -/
theorem complete_stored {w : Word} {s t : State} (h : complete w s = .next t) :
    ∃ bufs, Stored bufs s.mem t.mem := by
  obtain rfl | ⟨i, -, hi⟩ := complete_cases h
  · exact ⟨[], .refl⟩
  · exact ⟨_, exec_stores i s.retire t hi⟩

/-- A host move writes only bytes of DBUF, PBUF and EPOS, or is a reset, which leaves no byte written (R330, R334). -/
theorem hostStep_stored {s t : State} (h : hostStep s = .next t) :
    Stored [.dbuf, .pbuf, .epos] s.mem t.mem ∨ t.mem = [] := by
  obtain rfl | ⟨rest, rfl⟩ | ⟨rest, a, u, r, hu, ht⟩ := hostStep_cases h
  · exact .inl .refl
  · exact .inr rfl
  · have hst : Stored [.dbuf, .pbuf, .epos] s.mem u.mem := State.serve_stored (s := s.hostMoved rest) hu
    obtain rfl | rfl := ht <;> exact .inl hst

/-- Settles O57: a step writes buffer bytes one by one, or is a reset, which empties the memory. -/
theorem memoryStaysCanonical : Obligations.MemoryStaysCanonical := by
  intro s t hwf h
  obtain ⟨w, -, hw⟩ | hh := step_cases h
  · obtain ⟨bufs, hst⟩ := complete_stored hw
    exact hst.wf hwf
  · obtain hst | hempty := hostStep_stored hh
    · exact hst.wf hwf
    · simp [hempty, Memory.wf]

/-! ## The address map (R22, R45, R62, R63) -/

/-- R22: a register's offset. -/
def Reg.offset : Reg → Nat
  | .cmd => 0x000
  | .status => 0x004
  | .result => 0x008
  | .crcAcc => 0x00C
  | .mode => 0x010
  | .neras => 0x014
  | .cbValid => 0x018
  | .pSymbits => 0x020
  | .pGfpoly => 0x024
  | .pFcr => 0x028
  | .pPrim => 0x02C
  | .pNroots => 0x030
  | .pPad => 0x034
  | .decState => 0x040
  | .decTag => 0x044
  | .decClass => 0x048
  | .decPos => 0x04C
  | .rxLen => 0x050
  | .rxFlags => 0x054
  | .rxErrs => 0x058

theorem regAt_eq_some_iff {a : Nat} {r : Reg} : regAt a = some r ↔ a = r.offset := by
  constructor
  · intro h
    unfold regAt at h
    split at h <;> cases h <;> rfl
  · rintro rfl
    cases r <;> rfl

/-- R62: the registers' words. -/
theorem regAt_isSome_iff {a : Nat} : (regAt a).isSome = true ↔
    a % 4 = 0 ∧ (a ≤ 0x0018 ∨ (0x0020 ≤ a ∧ a ≤ 0x0034) ∨ (0x0040 ≤ a ∧ a ≤ 0x0058)) := by
  constructor
  · intro h
    obtain ⟨r, hr⟩ := Option.isSome_iff_exists.mp h
    obtain rfl := regAt_eq_some_iff.mp hr
    cases r <;> decide
  · intro h
    have hwords : ∀ k < 23, (k ≤ 6 ∨ (8 ≤ k ∧ k ≤ 13) ∨ 16 ≤ k) → (regAt (4 * k)).isSome = true := by decide
    obtain ⟨k, rfl⟩ := Nat.dvd_of_mod_eq_zero h.1
    exact hwords k (by omega) (by omega)

/-- R45: a word of CB_INFO stands at every fourth offset of a slot's eight words. -/
theorem cbFieldAt_isSome : ∀ f < 0x20, (cbFieldAt f).isSome = decide (f % 4 = 0) := by decide

/-- R62: the words of CB_INFO. -/
theorem infoAt_isSome_iff {a : Nat} : (infoAt a).isSome = true ↔ a % 4 = 0 ∧ 0x0100 ≤ a ∧ a ≤ 0x01DC := by
  have hf := cbFieldAt_isSome ((a - 0x100) % 0x20) (Nat.mod_lt _ (by decide))
  unfold infoAt
  split
  · rw [Option.isSome_map, hf, decide_eq_true_iff]
    omega
  · simp only [Option.isSome_none, Bool.false_eq_true, false_iff]
    omega

theorem infoAt_eq_some {a : Nat} {l : Location} (h : infoAt a = some l) : ∃ c f, l = .info c f := by
  unfold infoAt at h
  split at h
  · obtain ⟨f, -, rfl⟩ := Option.map_eq_some_iff.mp h
    exact ⟨_, f, rfl⟩
  · cases h

/-- R62: a buffer's words as a range. -/
theorem Buf.covers_iff_range {b : Buf} {a : Nat} :
    b.covers a = true ↔ (b.base ≤ a ∧ a < b.base + 4 * b.size) ∧ a % 4 = 0 := by
  simp only [Buf.covers, Bool.and_eq_true, decide_eq_true_iff]

/-- R63: a buffer's words are its elements' addresses. -/
theorem Buf.covers_iff {b : Buf} {a : Nat} : b.covers a = true ↔ ∃ i < b.size, a = b.addr i := by
  have hbase : b.base % 4 = 0 := by cases b <;> rfl
  rw [Buf.covers_iff_range]
  unfold Buf.addr
  constructor
  · intro h
    exact ⟨(a - b.base) / 4, by omega, by omega⟩
  · rintro ⟨i, hi, rfl⟩
    omega

/-- R63: the element at each of a buffer's words. -/
theorem byteAt_addr {b : Buf} {i : Nat} (hi : i < b.size) : byteAt (b.addr i) = some (.byte b i) := by
  obtain ⟨c, hc⟩ : ∃ c, allBufs.find? (fun b' => b'.covers (b.addr i)) = some c := by
    rw [← Option.isSome_iff_exists, List.find?_isSome]
    exact ⟨b, by cases b <;> decide, Buf.covers_iff.mpr ⟨i, hi, rfl⟩⟩
  have hcov : c.covers (b.addr i) = true := List.find?_some (p := fun b' : Buf => b'.covers (b.addr i)) hc
  obtain ⟨j, hj, he⟩ := Buf.covers_iff.mp hcov
  obtain ⟨rfl, rfl⟩ := Buf.addr_inj hi hj he
  have hindex : (b.addr i - b.base) / 4 = i := by simp [Buf.addr]
  rw [byteAt, hc, Option.map_some, hindex]

theorem byteAt_eq_some {a : Nat} {l : Location} (h : byteAt a = some l) :
    ∃ b i, i < b.size ∧ a = b.addr i ∧ l = .byte b i := by
  obtain ⟨b, hb, -⟩ := Option.map_eq_some_iff.mp h
  have hcov : b.covers a = true := List.find?_some (p := fun b : Buf => b.covers a) hb
  obtain ⟨i, hi, rfl⟩ := Buf.covers_iff.mp hcov
  exact ⟨b, i, hi, rfl, Option.some.inj (h.symm.trans (byteAt_addr hi))⟩

/-- R62: the buffers' words. -/
theorem byteAt_isSome_iff {a : Nat} : (byteAt a).isSome = true ↔
    a % 4 = 0 ∧ ((0x0400 ≤ a ∧ a ≤ 0x07FC) ∨ (0x0800 ≤ a ∧ a ≤ 0x08FC) ∨ (0x0900 ≤ a ∧ a ≤ 0x09FC) ∨
      (0x0C00 ≤ a ∧ a ≤ 0x0FFC) ∨ (0x1000 ≤ a ∧ a ≤ 0x17FC) ∨ (0x2000 ≤ a ∧ a ≤ 0x23FC)) := by
  simp only [byteAt, Option.isSome_map, List.find?_isSome, allBufs, List.mem_cons, List.not_mem_nil, or_false,
    exists_eq_or_imp, exists_eq_left, Buf.covers_iff_range, Buf.base, Buf.size]
  omega

/-- All that can stand at an offset (R62). -/
theorem locate_cases {a : Nat} {l : Location} (h : locate a = some l) :
    (∃ r, l = .reg r ∧ a = r.offset) ∨ (∃ c f, l = .info c f ∧ 0x0100 ≤ a ∧ a ≤ 0x01DC ∧ a % 4 = 0) ∨
    ∃ b i, l = .byte b i ∧ i < b.size ∧ a = b.addr i := by
  unfold locate at h
  split at h
  · cases h
    exact .inl ⟨_, rfl, regAt_eq_some_iff.mp ‹_›⟩
  · split at h
    · rename_i hinfo
      cases h
      obtain ⟨c, f, rfl⟩ := infoAt_eq_some hinfo
      obtain ⟨h1, h2, h3⟩ := infoAt_isSome_iff.mp (Option.isSome_of_eq_some hinfo)
      exact .inr (.inl ⟨c, f, rfl, h2, h3, h1⟩)
    · obtain ⟨b, i, hi, ha, hl⟩ := byteAt_eq_some h
      exact .inr (.inr ⟨b, i, hl, hi, ha⟩)

/-- R62, R64, R68: something stands exactly at the mapped offsets. -/
theorem locate_isSome_iff {a : Nat} : (locate a).isSome = true ↔ mappedOffset a := by
  have hor : (locate a).isSome = true ↔
      (regAt a).isSome = true ∨ (infoAt a).isSome = true ∨ (byteAt a).isSome = true := by
    unfold locate
    cases regAt a <;> cases infoAt a <;> simp
  rw [hor, regAt_isSome_iff, infoAt_isSome_iff, byteAt_isSome_iff]
  unfold mappedOffset
  omega

theorem locate_eq_none_iff {a : Nat} : locate a = none ↔ ¬ mappedOffset a := by
  rw [← locate_isSome_iff, Option.not_isSome_iff_eq_none]

/-- R62: a mapped offset has its location. -/
theorem exists_locate {a : Nat} (h : mappedOffset a) : ∃ l, locate a = some l :=
  Option.isSome_iff_exists.mp (locate_isSome_iff.mpr h)

/-- R22: a register stands at its offset alone. -/
theorem locate_eq_reg_iff {a : Nat} {r : Reg} : locate a = some (.reg r) ↔ a = r.offset := by
  constructor
  · intro h
    obtain ⟨r', hr, ha⟩ | ⟨c, f, hr, -⟩ | ⟨b, i, hr, -⟩ := locate_cases h <;> cases hr
    exact ha
  · intro h
    simp only [locate, regAt_eq_some_iff.mpr h]

theorem locate_cmd_iff {o : BitVec 14} : locate o.toNat = some (.reg .cmd) ↔ o = 0x0000 := by
  rw [locate_eq_reg_iff, ← BitVec.toNat_inj]
  rfl

/-- R63: element X[i] stands at its address. -/
theorem locate_addr {b : Buf} {i : Nat} (hi : i < b.size) : locate (b.addr i) = some (.byte b i) := by
  have hlow : 0x0400 ≤ b.addr i := by cases b <;> simp only [Buf.addr, Buf.base] <;> omega
  have hreg : regAt (b.addr i) = none := by
    rw [← Option.not_isSome_iff_eq_none, regAt_isSome_iff]
    omega
  have hinfo : infoAt (b.addr i) = none := by
    rw [← Option.not_isSome_iff_eq_none, infoAt_isSome_iff]
    omega
  simp only [locate, hreg, hinfo, byteAt_addr hi]

/-- R70: only at STATUS and CMD can a word be read while a command is pending. -/
theorem offset_of_servedWhileBusy {a : Nat} {l : Location} (hl : locate a = some l) (hb : servedWhileBusy l = true) :
    a = 0x0004 ∨ a = 0x0000 := by
  obtain ⟨r, rfl, rfl⟩ | ⟨c, f, rfl, -⟩ | ⟨b, i, rfl, -⟩ := locate_cases hl
  · cases r
    case status => exact .inl rfl
    case cmd => exact .inr rfl
    all_goals cases hb
  · cases hb
  · cases hb

theorem State.isSome_writeAt_byte (s : State) (w : Word) (b : Buf) (i : Nat) :
    (s.writeAt w (.byte b i)).isSome = b.hostWritable := by
  cases h : b.hostWritable <;> simp [State.writeAt, h]

/-- R62, R67: the words of the buffers the host may not write are read only. -/
theorem Buf.readOnlyOffset_addr_iff {b : Buf} {i : Nat} (hi : i < b.size) :
    readOnlyOffset (b.addr i) ↔ b.hostWritable = false := by
  unfold readOnlyOffset mappedOffset Buf.addr
  cases b <;> simp only [Buf.hostWritable, Buf.base, Buf.size, reduceCtorEq, iff_true, iff_false] at hi ⊢ <;> omega

/-- R62, R67: a location takes a write exactly where its offset is not read only. -/
theorem State.writeAt_isSome_iff (s : State) (w : Word) {a : Nat} {l : Location} (hl : locate a = some l) :
    (s.writeAt w l).isSome = true ↔ ¬ readOnlyOffset a := by
  obtain ⟨r, rfl, rfl⟩ | ⟨c, f, rfl, h⟩ | ⟨b, i, rfl, hi, rfl⟩ := locate_cases hl
  · cases r <;> simp [State.writeAt, State.writeReg, Reg.offset, readOnlyOffset, mappedOffset]
  · simp only [State.writeAt, Option.isSome_none, Bool.false_eq_true, false_iff, not_not, readOnlyOffset, mappedOffset]
    omega
  · rw [State.isSome_writeAt_byte, Buf.readOnlyOffset_addr_iff hi, Bool.not_eq_false]

/-! ## Rejected accesses (R64 to R70) -/

/-- R64, R65, R68: an access of another size than 4, or where nothing stands, is a bus error. -/
theorem State.serve_unfit {s : State} {a : Access} (h : a.size ≠ 4 ∨ locate a.offset.toNat = none) :
    s.serve a = .ok (s, .busError) := by
  unfold State.serve
  obtain hz | hl := h
  · rw [if_pos hz]
  · rw [hl]
    exact ite_self _

/-- R70: while a command is pending, a read at another location than STATUS and CMD is a bus error. -/
theorem State.serve_read_busy {s : State} {a : Access} {l : Location} (hk : a.kind = .read) (hp : s.pending ≠ none)
    (hl : locate a.offset.toNat = some l) (hb : servedWhileBusy l = false) : s.serve a = .ok (s, .busError) := by
  have hbusy : s.busy = true := Option.isSome_iff_ne_none.mpr hp
  simp [State.serve, hk, hl, hb, hbusy]

/-- R67: a write of a location that takes none is a bus error. -/
theorem State.serve_write_readOnly {s : State} {a : Access} {l : Location} (hk : a.kind = .write)
    (hl : locate a.offset.toNat = some l) (hw : s.writeAt a.wdata l = none) : s.serve a = .ok (s, .busError) := by
  simp [State.serve, hk, hl, hw]

/-- R67: CMD reads 0, always. -/
theorem State.serve_read_cmd (s : State) {a : Access} (hk : a.kind = .read) (hz : a.size = 4) (ho : a.offset = 0x0000) :
    s.serve a = .ok (s, .readOk 0) :=
  State.serve_read hk hz (locate_cmd_iff.mpr ho) (.inr rfl) rfl

/-- R24: CODE is bits 7:0 of STATUS. -/
theorem State.statusWord_code (s : State) : s.statusWord.extractLsb' 0 8 = s.code.byte := by
  unfold State.statusWord
  cases s.busy <;> cases s.code <;> rfl

/-- Settles O9: STATUS and CMD are the locations served while busy, and the other accesses are rejected. -/
theorem busyWindowRejectsAccesses : Obligations.BusyWindowRejectsAccesses := by
  intro s a hp
  refine ⟨fun hk hz ho => ?_, fun hk hz ho => s.serve_read_cmd hk hz ho, fun hk hn => ?_,
    fun hk => State.serve_write_busy hk hp⟩
  · have hl : locate a.offset.toNat = some (.reg .status) := locate_eq_reg_iff.mpr (congrArg BitVec.toNat ho)
    exact ⟨s.statusWord, State.serve_read hk hz hl (.inr rfl) rfl,
      s.statusWord_busy.trans (Option.isSome_iff_ne_none.mpr hp), s.statusWord_code⟩
  · by_cases hz : a.size = 4
    · cases hl : locate a.offset.toNat with
      | none => exact State.serve_unfit (.inr hl)
      | some l =>
        refine State.serve_read_busy hk hp hl (Bool.eq_false_iff.mpr fun hb => hn ⟨hz, ?_⟩)
        exact (offset_of_servedWhileBusy hl hb).imp BitVec.eq_of_toNat_eq BitVec.eq_of_toNat_eq
    · exact State.serve_unfit (.inl hz)

/-- Settles O11: nothing stands at a misaligned or unmapped offset. -/
theorem badAccessesAreRejected : Obligations.BadAccessesAreRejected := by
  intro s a h
  obtain hmis | hz | hun := h
  · exact State.serve_unfit (.inr (locate_eq_none_iff.mpr fun hm => hmis hm.1))
  · exact State.serve_unfit (.inl hz)
  · exact State.serve_unfit (.inr (locate_eq_none_iff.mpr hun))

/-- Settles O13: the location at a read-only offset takes no write. -/
theorem readOnlyWritesAreRejected : Obligations.ReadOnlyWritesAreRejected := by
  intro s a
  refine ⟨fun hk hro => ?_, fun hk hz ho => s.serve_read_cmd hk hz ho⟩
  obtain ⟨l, hl⟩ := exists_locate hro.1
  refine State.serve_write_readOnly hk hl (Option.not_isSome_iff_eq_none.mp ?_)
  rw [State.writeAt_isSome_iff s a.wdata hl]
  exact not_not_intro hro

/-! ## Served accesses -/

/-- A read of an element gives the byte that loads, zero-extended. -/
theorem State.readAt_byte {s : State} {b : Buf} {i : Nat} {x : Byte} (h : s.loadByte b i = .ok x) :
    s.readAt (.byte b i) = .ok (x.setWidth 32) := by
  simp only [State.readAt, h]

/-- Where unwritten bytes are drawn, every location can be read (R47). -/
theorem State.exists_readAt {s : State} (h : s.params.unwritten = .draw) (l : Location) : ∃ v, s.readAt l = .ok v := by
  cases l with
  | reg r => exact ⟨_, rfl⟩
  | info c f => exact ⟨_, rfl⟩
  | byte b i =>
    obtain ⟨v, hv⟩ := State.exists_loadByte h b i
    exact ⟨_, State.readAt_byte hv⟩

/-- Settles O12: a location stands at a mapped offset; it can be read, and takes a write where it is not read only. -/
theorem mappedOffsetsAreServed : Obligations.MappedOffsetsAreServed := by
  intro s a hp hz
  refine ⟨fun hk hm hd => ?_, fun hk hwr => ?_⟩
  · obtain ⟨l, hl⟩ := exists_locate hm
    obtain ⟨v, hv⟩ := State.exists_readAt hd l
    exact ⟨v, State.serve_read hk hz hl (.inl hp) hv⟩
  · obtain ⟨l, hl⟩ := exists_locate hwr.1
    obtain ⟨t, ht⟩ := Option.isSome_iff_exists.mp ((State.writeAt_isSome_iff s a.wdata hl).mpr hwr.2)
    exact ⟨t, State.serve_write hk hz hl hp ht⟩

/-! ## Buffer words (R63) -/

/-- A read of an element whose load faults is that fault. -/
theorem State.serve_read_fault {s : State} {a : Access} {b : Buf} {i : Nat} {f : Fault} (hk : a.kind = .read)
    (hz : a.size = 4) (hp : s.pending = none) (hl : locate a.offset.toNat = some (.byte b i))
    (hf : s.loadByte b i = .error f) : s.serve a = .error f := by
  simp [State.serve, hk, hz, hl, State.busy, hp, State.readAt, hf]

/-- A store of one byte leaves every other byte as it was. -/
theorem State.storeByte_sameByte (s : State) {b b' : Buf} {i i' : Nat} (v : Byte) (h : ¬ (b' = b ∧ i' = i)) :
    sameByte s (s.storeByte b i v) b' i' :=
  have hw := s.written?_storeByte_other v h
  ⟨hw, State.loadByte_congr hw (s.storeByte_params b i v) (s.storeByte_powerOn b i v)⟩

/-- Settles O15: element X[i] stands at its address, a read there is its load and a write its store. -/
theorem bufferWords : Obligations.BufferWords := by
  intro s b i a hp hi hz ho
  have hl : locate a.offset.toNat = some (.byte b i) := ho ▸ locate_addr hi
  have hread {x : Byte} (hk : a.kind = .read) (hx : s.loadByte b i = .ok x) :
      s.serve a = .ok (s, .readOk (x.setWidth 32)) :=
    State.serve_read hk hz hl (.inl hp) (State.readAt_byte hx)
  refine ⟨fun hk x hx => hread hk (State.loadByte_of_written hx), fun hk _ => ?_, fun hk hb => ?_⟩
  · obtain ⟨x, -, hx⟩ | ⟨-, -, hx⟩ | ⟨-, -, hf⟩ := s.loadByte_cases b i
    · exact .inr ⟨x, hread hk hx⟩
    · exact .inr ⟨_, hread hk hx⟩
    · exact .inl (State.serve_read_fault hk hz hp hl hf)
  · have hw : s.writeAt a.wdata (.byte b i) = some (s.storeByte b i (a.wdata.setWidth 8)) :=
      if_pos (b.hostWritable_iff.mpr hb)
    refine ⟨_, State.serve_write hk hz hl hp hw, s.storeByte_eq b i _, ?_, fun b' i' h => s.storeByte_sameByte _ h⟩
    rw [← BitVec.setWidth_eq_extractLsb' (by decide)]
    exact s.written?_storeByte_same b _ hi

/-! ## Repeated accesses (R69) -/

/-- The same write once more changes nothing. -/
theorem writeCell_writeCell_self (m : Memory) (a : Nat) (v : Byte) :
    writeCell (writeCell m a v) a v = writeCell m a v := by
  induction m with
  | nil => simp [writeCell]
  | cons c m ih =>
    obtain ⟨k, w⟩ := c
    simp only [writeCell]
    split
    · simp [writeCell]
    · split
      · simp [writeCell]
      · rename_i h1 h2
        simp [writeCell, h1, h2, ih]

theorem State.storeByte_storeByte_self (s : State) (b : Buf) (i : Nat) (v : Byte) :
    (s.storeByte b i v).storeByte b i v = s.storeByte b i v := by
  unfold State.storeByte
  split
  · simp only [writeCell_writeCell_self]
  · rfl

/-- A write of another location than CMD issues nothing, and once more changes nothing. -/
theorem State.writeAt_repeat {s t : State} {w : Word} {l : Location} (hl : l ≠ .reg .cmd)
    (h : s.writeAt w l = some t) : t.pending = s.pending ∧ t.writeAt w l = some t := by
  cases l with
  | reg r =>
    cases r
    case cmd => exact absurd rfl hl
    all_goals cases h <;> exact ⟨rfl, rfl⟩
  | info c f => cases h
  | byte b i =>
    simp only [State.writeAt] at h ⊢
    split at h
    · cases h
      rw [if_pos ‹_›, State.storeByte_storeByte_self]
      exact ⟨s.storeByte_pending b i _, rfl⟩
    · cases h

/-- Settles O10: a read changes nothing, a write issues at CMD only, and elsewhere it can be repeated. -/
theorem onlyCmdWritesHaveSideEffects : Obligations.OnlyCmdWritesHaveSideEffects := by
  intro s t a r h
  refine ⟨fun hk => ?_, fun hk ho => ?_, fun hk ho hz hp => ?_⟩
  · obtain rfl | ⟨hw, -⟩ := State.serve_cases h
    · rfl
    · rw [hk] at hw
      cases hw
  · obtain rfl | ⟨-, hp, rfl, l, hl, hw⟩ := State.serve_cases h
    · exact ⟨rfl, h⟩
    · have hz : a.size = 4 := by
        by_contra hz
        rw [State.serve_unfit (.inl hz)] at h
        cases h
      have hcmd : l ≠ .reg .cmd := fun he => ho (locate_cmd_iff.mp (he ▸ hl))
      obtain ⟨hpend, hagain⟩ := State.writeAt_repeat hcmd hw
      exact ⟨hpend, State.serve_write hk hz hl (hpend.trans hp) hagain⟩
  · rw [State.serve_write hk hz (locate_cmd_iff.mpr ho) hp rfl] at h
    cases h
    rfl

/-! ## Register widths (R66) -/

theorem toNat_setWidth_lt {n m : Nat} (x : BitVec n) : (x.setWidth m).toNat < 2 ^ n := by
  rw [BitVec.toNat_setWidth]
  exact (Nat.mod_le _ _).trans_lt x.isLt

theorem toNat_setWidth_setWidth {n : Nat} (hn : n ≤ 32) (w : Word) :
    ((w.setWidth n).setWidth 32).toNat = w.toNat % 2 ^ n := by
  rw [BitVec.toNat_setWidth_of_le hn, BitVec.toNat_setWidth]

/-- R24: STATUS has nine bits. -/
theorem State.statusWord_lt (s : State) : s.statusWord.toNat < 2 ^ 9 := by
  unfold State.statusWord
  cases s.busy <;> cases s.code <;> decide

/-- A register reads as 0 beyond its width. -/
theorem State.readReg_lt (s : State) (r : Reg) : (s.readReg r).toNat < 2 ^ r.width := by
  cases r
  case cmd => exact Nat.two_pow_pos 32
  case status => exact s.statusWord_lt
  case result => exact s.result.isLt
  case decClass =>
    have h : s.decClass.val % 2 ^ 32 ≤ s.decClass.val := Nat.mod_le _ _
    have hlt := s.decClass.isLt
    simp only [State.readReg, Reg.width, BitVec.toNat_ofNat]
    omega
  all_goals exact toNat_setWidth_lt _

/-- What a write of a register other than CMD stores. -/
theorem State.writeReg_readReg_same {s t : State} {w : Word} {r : Reg} (hr : r ≠ .cmd) (h : s.writeReg w r = some t) :
    (t.readReg r).toNat = w.toNat % 2 ^ r.width := by
  cases r <;> cases h
  case cmd => exact absurd rfl hr
  all_goals exact toNat_setWidth_setWidth (by decide) w

theorem State.writeReg_readReg_other {s t : State} {w : Word} {r r' : Reg} (hr : r ≠ .cmd)
    (h : s.writeReg w r = some t) (hne : r' ≠ r) : t.readReg r' = s.readReg r' := by
  cases r <;> cases h
  case cmd => exact absurd rfl hr
  all_goals cases r' <;> try contradiction
  all_goals rfl

/-- Settles O14: every register by its width, and every write by its register. -/
theorem registerWidths : Obligations.RegisterWidths := by
  refine ⟨State.readReg_lt, fun s t w r hr h => ?_⟩
  have hpend := (State.writeAt_repeat (l := .reg r) (by simpa using hr) h).1
  have hcb := (State.writeReg_kept h).cb
  exact ⟨State.writeReg_readReg_same hr h, fun r' hne => State.writeReg_readReg_other hr h hne, State.writeReg_mem h,
    hcb, hpend⟩

end Sys2Proof.Machine
end

section
/-! PROOFS. The statements of 30_encoding.md: the fields of a word, the readers of the ten formats, the rows of the
opcode map, the assembler's words, and the step that runs a decoded command. -/

namespace Sys2Proof.Machine

/-! ## Words as concatenations of fields -/

theorem append_eq_iff {a b : Nat} {x : BitVec a} {y : BitVec b} {w : BitVec (a + b)} :
    x ++ y = w ↔ w.extractLsb' b a = x ∧ w.extractLsb' 0 b = y := by
  constructor
  · rintro rfl
    exact ⟨BitVec.extractLsb'_append_eq_left, BitVec.extractLsb'_append_eq_right⟩
  · rintro ⟨rfl, rfl⟩
    exact BitVec.extractLsb'_append_extractLsb'

/-- A field splits at any of its bits. -/
theorem extract_eq_append_iff {n p a b : Nat} {x : BitVec a} {y : BitVec b} {w : BitVec n} :
    w.extractLsb' p (a + b) = x ++ y ↔ w.extractLsb' (p + b) a = x ∧ w.extractLsb' p b = y := by
  rw [← BitVec.extractLsb'_append_extractLsb'_eq_extractLsb' (start₂ := p + b) rfl, eq_comm, append_eq_iff,
    BitVec.extractLsb'_append_eq_left, BitVec.extractLsb'_append_eq_right]

theorem extract_eq_zero_iff {n p a b : Nat} {w : BitVec n} :
    w.extractLsb' p (a + b) = 0 ↔ w.extractLsb' (p + b) a = 0 ∧ w.extractLsb' p b = 0 := by
  rw [← extract_eq_append_iff]
  exact Iff.of_eq (congrArg _ BitVec.zero_append_zero.symm)

/-! The layouts of R92, with `r` in the place of the reserved zeros: a word is a concatenation of fields exactly where
reading it gives those fields. -/

section Layouts

variable {w : Word} {o : BitVec 8}

/-- Formats N and T. -/
theorem wordT_eq_iff {t : Tag} : o ++ t = w ↔ opcField w = o ∧ tagField w = t := append_eq_iff

/-- Formats S and W. -/
theorem wordW_eq_iff {r : BitVec 5} {s : BitVec 3} {v : Half} :
    o ++ r ++ s ++ v = w ↔ opcField w = o ∧ w.extractLsb' 19 5 = r ∧ slotField w = s ∧ lowHalfField w = v := by
  rw [append_eq_iff, extract_eq_append_iff, extract_eq_append_iff, and_assoc, and_assoc]
  rfl

/-- Formats G and G1. -/
theorem wordG_eq_iff {r : BitVec 5} {s : BitVec 3} {x y : Byte} :
    o ++ r ++ s ++ x ++ y = w ↔
      opcField w = o ∧ w.extractLsb' 19 5 = r ∧ slotField w = s ∧ xField w = x ∧ lowByteField w = y := by
  rw [append_eq_iff, extract_eq_append_iff, extract_eq_append_iff, extract_eq_append_iff, and_assoc, and_assoc,
    and_assoc]
  rfl

/-- Format I16. -/
theorem wordI16_eq_iff {r : BitVec 8} {v : Half} :
    o ++ r ++ v = w ↔ opcField w = o ∧ w.extractLsb' 16 8 = r ∧ lowHalfField w = v := by
  rw [append_eq_iff, extract_eq_append_iff, and_assoc]
  rfl

/-- Format I8. -/
theorem wordI8_eq_iff {r : BitVec 16} {b : Byte} :
    o ++ r ++ b = w ↔ opcField w = o ∧ w.extractLsb' 8 16 = r ∧ lowByteField w = b := by
  rw [append_eq_iff, extract_eq_append_iff, and_assoc]
  rfl

/-- Format B. -/
theorem wordB_eq_iff {off : Byte} {r : BitVec 7} {len : BitVec 9} :
    o ++ off ++ r ++ len = w ↔ opcField w = o ∧ offField w = off ∧ w.extractLsb' 9 7 = r ∧ lenField w = len := by
  rw [append_eq_iff, extract_eq_append_iff, extract_eq_append_iff, and_assoc, and_assoc]
  rfl

/-- Format E. -/
theorem wordE_eq_iff {r : BitVec 13} {flags : BitVec 3} {len : Byte} :
    o ++ r ++ flags ++ len = w ↔
      opcField w = o ∧ w.extractLsb' 11 13 = r ∧ flagsField w = flags ∧ lowByteField w = len := by
  rw [append_eq_iff, extract_eq_append_iff, extract_eq_append_iff, and_assoc, and_assoc]
  rfl

end Layouts

/-! ## The readers (R92, R93, R98): what each takes, and what it gives -/

section Readers

variable {w : Word} {i : Instr}

theorem checked_eq_ok_iff {c : Prop} [Decidable c] {x : Except Reject Instr} {e : Reject} :
    (if c then x else .error e) = .ok i ↔ c ∧ x = .ok i := by
  split
  · next hc => rw [and_iff_right hc]
  · next hc => exact iff_of_false nofun fun h => hc h.1

theorem withSlotField_eq_ok_iff {k : BitVec 3 → Instr} :
    withSlotField w k = .ok i ↔ slotField w ≠ 7 ∧ k (slotField w) = i := by
  rw [withSlotField, ← ite_not, checked_eq_ok_iff, Except.ok.injEq]

theorem formatN_eq_ok_iff {j : Instr} : formatN w j = .ok i ↔ tagField w = 0 ∧ j = i := by
  rw [formatN, checked_eq_ok_iff, Except.ok.injEq, tagField]

theorem formatS_eq_ok_iff {k : BitVec 3 → Instr} :
    formatS w k = .ok i ↔
      (w.extractLsb' 19 5 = 0 ∧ lowHalfField w = 0) ∧ slotField w ≠ 7 ∧ k (slotField w) = i := by
  rw [formatS, checked_eq_ok_iff, withSlotField_eq_ok_iff, lowHalfField]

theorem formatG_eq_ok_iff {k : BitVec 3 → Byte → Byte → Instr} :
    formatG w k = .ok i ↔
      w.extractLsb' 19 5 = 0 ∧ slotField w ≠ 7 ∧ k (slotField w) (xField w) (lowByteField w) = i := by
  rw [formatG, checked_eq_ok_iff, withSlotField_eq_ok_iff]

theorem formatG1_eq_ok_iff {k : BitVec 3 → Byte → Instr} :
    formatG1 w k = .ok i ↔
      (w.extractLsb' 19 5 = 0 ∧ lowByteField w = 0) ∧ slotField w ≠ 7 ∧ k (slotField w) (xField w) = i := by
  rw [formatG1, checked_eq_ok_iff, withSlotField_eq_ok_iff, lowByteField]

theorem formatW_eq_ok_iff {k : BitVec 3 → Half → Instr} :
    formatW w k = .ok i ↔ w.extractLsb' 19 5 = 0 ∧ slotField w ≠ 7 ∧ k (slotField w) (lowHalfField w) = i := by
  rw [formatW, checked_eq_ok_iff, withSlotField_eq_ok_iff]

theorem formatI16_eq_ok_iff {k : Half → Instr} :
    formatI16 w k = .ok i ↔ w.extractLsb' 16 8 = 0 ∧ k (lowHalfField w) = i := by
  rw [formatI16, checked_eq_ok_iff, Except.ok.injEq]

theorem formatI8_eq_ok_iff {k : Byte → Instr} :
    formatI8 w k = .ok i ↔ w.extractLsb' 8 16 = 0 ∧ k (lowByteField w) = i := by
  rw [formatI8, checked_eq_ok_iff, Except.ok.injEq]

theorem formatB_eq_ok_iff {k : Byte → BitVec 9 → Instr} :
    formatB w k = .ok i ↔ w.extractLsb' 9 7 = 0 ∧ k (offField w) (lenField w) = i := by
  rw [formatB, checked_eq_ok_iff, Except.ok.injEq]

theorem formatT_eq_ok_iff {k : Tag → Instr} : formatT w k = .ok i ↔ k (tagField w) = i := by
  rw [formatT, Except.ok.injEq]

theorem formatE_eq_ok_iff {k : Byte → BitVec 3 → Instr} :
    formatE w k = .ok i ↔ w.extractLsb' 11 13 = 0 ∧ k (lowByteField w) (flagsField w) = i := by
  rw [formatE, checked_eq_ok_iff, Except.ok.injEq]

end Readers

/-! ## Decoding and encoding -/

theorem wellFormed_of_slot {i : Instr} {s : BitVec 3} (hi : i.slot? = some s) : i.wellFormed = true ↔ s ≠ 7 := by
  simp [Instr.wellFormed, hi]

/-- R91, R95: bits 31:24 of every command's word are its opcode. -/
theorem opcField_encode : ∀ i : Instr, opcField (encode i) = i.opcode
  | .nop => Laws.OpcodeField.nop
  | .gfInit slot => Laws.OpcodeField.gfInit slot
  | .gfMul slot x y => Laws.OpcodeField.gfMul slot x y
  | .gfDiv slot x y => Laws.OpcodeField.gfDiv slot x y
  | .gfLog slot x => Laws.OpcodeField.gfLog slot x
  | .gfExp slot i => Laws.OpcodeField.gfExp slot i
  | .gfModnn slot v => Laws.OpcodeField.gfModnn slot v
  | .gfGenpoly slot i => Laws.OpcodeField.gfGenpoly slot i
  | .rsEncode slot => Laws.OpcodeField.rsEncode slot
  | .rsDecode slot => Laws.OpcodeField.rsDecode slot
  | .crcLoad v => Laws.OpcodeField.crcLoad v
  | .crcByte b => Laws.OpcodeField.crcByte b
  | .crcBuf off len => Laws.OpcodeField.crcBuf off len
  | .scrApply off len => Laws.OpcodeField.scrApply off len
  | .scrRead i => Laws.OpcodeField.scrRead i
  | .nghSelect n => Laws.OpcodeField.nghSelect n
  | .nghTagLookup t => Laws.OpcodeField.nghTagLookup t
  | .nghEncode len flags => Laws.OpcodeField.nghEncode len flags
  | .nghDecReset => Laws.OpcodeField.nghDecReset
  | .nghDecByte b => Laws.OpcodeField.nghDecByte b

/-- R90, R92: the reader of a command's format takes its word and gives back its operands. -/
theorem decode_of_encode {w : Word} {i : Instr} (hi : i.wellFormed = true) (hw : encode i = w) : decode w = .ok i := by
  have ho : opcField w = i.opcode := hw ▸ opcField_encode i
  rw [decode, ho]
  cases i with
  | nop | nghDecReset =>
    obtain ⟨-, hr⟩ := wordT_eq_iff.mp hw
    exact formatN_eq_ok_iff.mpr ⟨hr, rfl⟩
  | gfInit s | rsEncode s | rsDecode s =>
    obtain ⟨-, hr, rfl, hr'⟩ := wordW_eq_iff.mp hw
    exact formatS_eq_ok_iff.mpr ⟨⟨hr, hr'⟩, (wellFormed_of_slot rfl).mp hi, rfl⟩
  | gfMul s x y | gfDiv s x y =>
    obtain ⟨-, hr, rfl, rfl, rfl⟩ := wordG_eq_iff.mp hw
    exact formatG_eq_ok_iff.mpr ⟨hr, (wellFormed_of_slot rfl).mp hi, rfl⟩
  | gfLog s x | gfExp s x | gfGenpoly s x =>
    obtain ⟨-, hr, rfl, rfl, hr'⟩ := wordG_eq_iff.mp hw
    exact formatG1_eq_ok_iff.mpr ⟨⟨hr, hr'⟩, (wellFormed_of_slot rfl).mp hi, rfl⟩
  | gfModnn s v =>
    obtain ⟨-, hr, rfl, rfl⟩ := wordW_eq_iff.mp hw
    exact formatW_eq_ok_iff.mpr ⟨hr, (wellFormed_of_slot rfl).mp hi, rfl⟩
  | crcLoad v =>
    obtain ⟨-, hr, rfl⟩ := wordI16_eq_iff.mp hw
    exact formatI16_eq_ok_iff.mpr ⟨hr, rfl⟩
  | crcByte b | scrRead b | nghSelect b | nghDecByte b =>
    obtain ⟨-, hr, rfl⟩ := wordI8_eq_iff.mp hw
    exact formatI8_eq_ok_iff.mpr ⟨hr, rfl⟩
  | crcBuf off len | scrApply off len =>
    obtain ⟨-, rfl, hr, rfl⟩ := wordB_eq_iff.mp hw
    exact formatB_eq_ok_iff.mpr ⟨hr, rfl⟩
  | nghTagLookup t =>
    obtain ⟨-, rfl⟩ := wordT_eq_iff.mp hw
    exact formatT_eq_ok_iff.mpr rfl
  | nghEncode len flags =>
    obtain ⟨-, hr, rfl, rfl⟩ := wordE_eq_iff.mp hw
    exact formatE_eq_ok_iff.mpr ⟨hr, rfl⟩

/-- R90, R98: the fields a reader takes, with its reserved zeros, are the whole word. -/
theorem encode_of_decode {w : Word} {i : Instr} (h : decode w = .ok i) : i.wellFormed = true ∧ encode i = w := by
  unfold decode at h
  -- The arms of `decode` stand in the order of R95's rows; a case below takes the arms of one format.
  split at h
  case h_1 ho | h_19 ho =>
    obtain ⟨hr, rfl⟩ := formatN_eq_ok_iff.mp h
    exact ⟨rfl, wordT_eq_iff.mpr ⟨BitVec.eq_of_toNat_eq ho, hr⟩⟩
  case h_2 ho | h_9 ho | h_10 ho =>
    obtain ⟨⟨hr, hr'⟩, hs, rfl⟩ := formatS_eq_ok_iff.mp h
    exact ⟨(wellFormed_of_slot rfl).mpr hs, wordW_eq_iff.mpr ⟨BitVec.eq_of_toNat_eq ho, hr, rfl, hr'⟩⟩
  case h_3 ho | h_4 ho =>
    obtain ⟨hr, hs, rfl⟩ := formatG_eq_ok_iff.mp h
    exact ⟨(wellFormed_of_slot rfl).mpr hs, wordG_eq_iff.mpr ⟨BitVec.eq_of_toNat_eq ho, hr, rfl, rfl, rfl⟩⟩
  case h_5 ho | h_6 ho | h_8 ho =>
    obtain ⟨⟨hr, hr'⟩, hs, rfl⟩ := formatG1_eq_ok_iff.mp h
    exact ⟨(wellFormed_of_slot rfl).mpr hs, wordG_eq_iff.mpr ⟨BitVec.eq_of_toNat_eq ho, hr, rfl, rfl, hr'⟩⟩
  case h_7 ho =>
    obtain ⟨hr, hs, rfl⟩ := formatW_eq_ok_iff.mp h
    exact ⟨(wellFormed_of_slot rfl).mpr hs, wordW_eq_iff.mpr ⟨BitVec.eq_of_toNat_eq ho, hr, rfl, rfl⟩⟩
  case h_11 ho =>
    obtain ⟨hr, rfl⟩ := formatI16_eq_ok_iff.mp h
    exact ⟨rfl, wordI16_eq_iff.mpr ⟨BitVec.eq_of_toNat_eq ho, hr, rfl⟩⟩
  case h_12 ho | h_15 ho | h_16 ho | h_20 ho =>
    obtain ⟨hr, rfl⟩ := formatI8_eq_ok_iff.mp h
    exact ⟨rfl, wordI8_eq_iff.mpr ⟨BitVec.eq_of_toNat_eq ho, hr, rfl⟩⟩
  case h_13 ho | h_14 ho =>
    obtain ⟨hr, rfl⟩ := formatB_eq_ok_iff.mp h
    exact ⟨rfl, wordB_eq_iff.mpr ⟨BitVec.eq_of_toNat_eq ho, rfl, hr, rfl⟩⟩
  case h_17 ho =>
    obtain rfl := formatT_eq_ok_iff.mp h
    exact ⟨rfl, wordT_eq_iff.mpr ⟨BitVec.eq_of_toNat_eq ho, rfl⟩⟩
  case h_18 ho =>
    obtain ⟨hr, rfl⟩ := formatE_eq_ok_iff.mp h
    exact ⟨rfl, wordE_eq_iff.mpr ⟨BitVec.eq_of_toNat_eq ho, hr, rfl, rfl⟩⟩
  case h_21 => cases h

/-- Settles O1: the word's fields are the command's operands, its reserved bits 0 and its slot not 7. -/
theorem encodedCommandsDecode : Obligations.EncodedCommandsDecode :=
  fun _ hi => decode_of_encode hi rfl

/-- Settles O2: the command's operands are the word's fields, and every other bit of the word is 0. -/
theorem decodedWordsReencode : Obligations.DecodedWordsReencode :=
  fun _ _ h => encode_of_decode h

/-- Settles O4: each of the ten words is the word of a well-formed command. -/
theorem sampleWordsDecode : Obligations.SampleWordsDecode := by
  refine ⟨?_, ?_, ?_, ?_, ?_, ?_, ?_, ?_, ?_, ?_⟩ <;> exact decode_of_encode rfl rfl

/-! ## The opcode map (R95) -/

/-- A bit range the mask covers stays as it is. -/
theorem extract_and_ones {n p l : Nat} {w m : BitVec n} (hm : m.extractLsb' p l = BitVec.allOnes l) :
    (w &&& m).extractLsb' p l = w.extractLsb' p l := by
  rw [BitVec.extractLsb'_and, hm, BitVec.and_allOnes]

/-- A bit range the mask leaves out is cleared. -/
theorem extract_and_zeros {n p l : Nat} {w m : BitVec n} (hm : m.extractLsb' p l = 0) :
    (w &&& m).extractLsb' p l = 0 := by
  rw [BitVec.extractLsb'_and, hm]
  exact BitVec.and_zero

/-- The mask of a command's row: the opcode and the bits its format reserves. -/
def maskOf : Instr → Word
  | .nop | .nghDecReset => 0xFFFFFFFF
  | .gfInit _ | .rsEncode _ | .rsDecode _ => 0xFFF8FFFF
  | .gfMul _ _ _ | .gfDiv _ _ _ | .gfModnn _ _ => 0xFFF80000
  | .gfLog _ _ | .gfExp _ _ | .gfGenpoly _ _ => 0xFFF800FF
  | .crcLoad _ => 0xFFFF0000
  | .crcByte _ | .scrRead _ | .nghSelect _ | .nghDecByte _ => 0xFFFFFF00
  | .crcBuf _ _ | .scrApply _ _ => 0xFF00FE00
  | .nghTagLookup _ => 0xFF000000
  | .nghEncode _ _ => 0xFFFFF800

/-- The row of a command in the opcode map. -/
def rowOf (i : Instr) : OpcodeRow := ⟨i.mnemonic, i.opcode ++ (0 : BitVec 24), maskOf i, i.slot?.isSome⟩

/-- One command of each row, in the order of the map. -/
def rowCommands : List Instr :=
  [.nop, .gfInit 0, .gfMul 0 0 0, .gfDiv 0 0 0, .gfLog 0 0, .gfExp 0 0, .gfModnn 0 0, .gfGenpoly 0 0, .rsEncode 0,
    .rsDecode 0, .crcLoad 0, .crcByte 0, .crcBuf 0 0, .scrApply 0 0, .scrRead 0, .nghSelect 0, .nghTagLookup 0,
    .nghEncode 0 0, .nghDecReset, .nghDecByte 0]

theorem opcodeRows_eq_map : opcodeRows = rowCommands.map rowOf := by decide

theorem rowOf_mem (i : Instr) : rowOf i ∈ opcodeRows := by
  cases i <;> simp only [rowOf, Instr.mnemonic, Instr.opcode, maskOf, Instr.slot?, Option.isSome] <;> decide

/-- R95: "every mask covers bits[31:24]". -/
theorem mask_covers_opcode : ∀ r ∈ opcodeRows, r.mask.extractLsb' 24 8 = BitVec.allOnes 8 := by decide

theorem and_maskOf_eq_iff (i : Instr) (w : Word) :
    w &&& maskOf i = i.opcode ++ (0 : BitVec 24) ↔ opcField w = i.opcode ∧ (w &&& maskOf i).extractLsb' 0 24 = 0 := by
  have hm : (maskOf i).extractLsb' 24 8 = BitVec.allOnes 8 := mask_covers_opcode (rowOf i) (rowOf_mem i)
  rw [eq_comm, append_eq_iff, extract_and_ones hm]
  rfl

/-! The masks of R95 below the opcode: the reserved zeros of R92. -/

section Masks

variable {w : Word}

theorem maskN_iff : (w &&& 0xFFFFFFFF).extractLsb' 0 24 = 0 ↔ tagField w = 0 := by
  rw [extract_and_ones rfl, tagField]

theorem maskS_iff : (w &&& 0xFFF8FFFF).extractLsb' 0 24 = 0 ↔ w.extractLsb' 19 5 = 0 ∧ lowHalfField w = 0 := by
  rw [extract_eq_zero_iff (a := 5) (b := 19), extract_eq_zero_iff (a := 3) (b := 16), extract_and_ones rfl,
    extract_and_zeros rfl, extract_and_ones rfl, eq_self, true_and, lowHalfField]

theorem maskG_iff : (w &&& 0xFFF80000).extractLsb' 0 24 = 0 ↔ w.extractLsb' 19 5 = 0 := by
  rw [extract_eq_zero_iff (a := 5) (b := 19), extract_and_ones rfl, extract_and_zeros rfl, eq_self, and_true]

theorem maskG1_iff : (w &&& 0xFFF800FF).extractLsb' 0 24 = 0 ↔ w.extractLsb' 19 5 = 0 ∧ lowByteField w = 0 := by
  rw [extract_eq_zero_iff (a := 5) (b := 19), extract_eq_zero_iff (a := 11) (b := 8), extract_and_ones rfl,
    extract_and_zeros rfl, extract_and_ones rfl, eq_self, true_and, lowByteField]

theorem maskI16_iff : (w &&& 0xFFFF0000).extractLsb' 0 24 = 0 ↔ w.extractLsb' 16 8 = 0 := by
  rw [extract_eq_zero_iff (a := 8) (b := 16), extract_and_ones rfl, extract_and_zeros rfl, eq_self, and_true]

theorem maskI8_iff : (w &&& 0xFFFFFF00).extractLsb' 0 24 = 0 ↔ w.extractLsb' 8 16 = 0 := by
  rw [extract_eq_zero_iff (a := 16) (b := 8), extract_and_ones rfl, extract_and_zeros rfl, eq_self, and_true]

theorem maskB_iff : (w &&& 0xFF00FE00).extractLsb' 0 24 = 0 ↔ w.extractLsb' 9 7 = 0 := by
  rw [extract_eq_zero_iff (a := 8) (b := 16), extract_eq_zero_iff (a := 7) (b := 9), extract_and_zeros rfl,
    extract_and_ones rfl, extract_and_zeros rfl, eq_self, eq_self, true_and, and_true]

theorem maskT_iff : (w &&& 0xFF000000).extractLsb' 0 24 = 0 ↔ True := iff_true_intro (extract_and_zeros rfl)

theorem maskE_iff : (w &&& 0xFFFFF800).extractLsb' 0 24 = 0 ↔ w.extractLsb' 11 13 = 0 := by
  rw [extract_eq_zero_iff (a := 13) (b := 11), extract_and_ones rfl, extract_and_zeros rfl, eq_self, and_true]

end Masks

section Rows

variable {x : Except Reject Instr} {j : Instr} {name : String} {A B M : Prop}

/-- From what a reader with a SLOT operand takes to what spells a row of its format (R92, R95). -/
theorem exists_ok_iff_of_slot (hx : ∀ i, x = .ok i ↔ A ∧ B ∧ j = i) (hm : M ↔ A) (hj : j.mnemonic = name) :
    (∃ i, x = .ok i ∧ i.mnemonic = name) ↔ M ∧ (true = true → B) := by
  simp [hx, hm, hj, and_assoc]

/-- The same for a format without SLOT. -/
theorem exists_ok_iff_of_no_slot (hx : ∀ i, x = .ok i ↔ A ∧ j = i) (hm : M ↔ A) (hj : j.mnemonic = name) :
    (∃ i, x = .ok i ∧ i.mnemonic = name) ↔ M ∧ (false = true → B) := by
  simp [hx, hm, hj]

end Rows

/-- R95, R96: among the words with a command's opcode, the decoder takes those that spell its row, and gives a command
of that row. -/
theorem decode_isOk_iff {w : Word} {i : Instr} (ho : opcField w = i.opcode) :
    (∃ j, decode w = .ok j ∧ j.mnemonic = i.mnemonic) ↔
      (w &&& maskOf i).extractLsb' 0 24 = 0 ∧ (i.slot?.isSome = true → slotField w ≠ 7) := by
  rw [decode, ho]
  cases i with
  | nop | nghDecReset => exact exists_ok_iff_of_no_slot (fun _ => formatN_eq_ok_iff) maskN_iff rfl
  | gfInit s | rsEncode s | rsDecode s => exact exists_ok_iff_of_slot (fun _ => formatS_eq_ok_iff) maskS_iff rfl
  | gfMul s x y | gfDiv s x y => exact exists_ok_iff_of_slot (fun _ => formatG_eq_ok_iff) maskG_iff rfl
  | gfLog s x | gfExp s x | gfGenpoly s x => exact exists_ok_iff_of_slot (fun _ => formatG1_eq_ok_iff) maskG1_iff rfl
  | gfModnn s v => exact exists_ok_iff_of_slot (fun _ => formatW_eq_ok_iff) maskG_iff rfl
  | crcLoad v => exact exists_ok_iff_of_no_slot (fun _ => formatI16_eq_ok_iff) maskI16_iff rfl
  | crcByte b | scrRead b | nghSelect b | nghDecByte b =>
    exact exists_ok_iff_of_no_slot (fun _ => formatI8_eq_ok_iff) maskI8_iff rfl
  | crcBuf off len | scrApply off len => exact exists_ok_iff_of_no_slot (fun _ => formatB_eq_ok_iff) maskB_iff rfl
  | nghTagLookup t =>
    exact exists_ok_iff_of_no_slot (fun _ => formatT_eq_ok_iff.trans (iff_of_eq (true_and _).symm)) maskT_iff rfl
  | nghEncode len flags => exact exists_ok_iff_of_no_slot (fun _ => formatE_eq_ok_iff) maskE_iff rfl

theorem spelledBy_rowOf_iff {w : Word} {i : Instr} :
    (rowOf i).spelledBy w ↔ opcField w = i.opcode ∧ ∃ j, decode w = .ok j ∧ j.mnemonic = i.mnemonic := by
  rw [OpcodeRow.spelledBy, rowOf, and_maskOf_eq_iff, and_assoc]
  exact and_congr_right fun ho => (decode_isOk_iff ho).symm

theorem opcField_eq_of_matches {w : Word} {r : OpcodeRow} (hr : r ∈ opcodeRows) (h : w &&& r.mask = r.pattern) :
    opcField w = opcField r.pattern := by
  rw [← h, opcField, opcField, extract_and_ones (mask_covers_opcode r hr)]

/-- R95: "the rows differ in OPC". -/
theorem opcodeRows_opcodes_nodup : (opcodeRows.map fun r => opcField r.pattern).Nodup := by decide

/-- Settles O3: every row is some command's, so `spelledBy_rowOf_iff` says when the decoder takes a word; the rows
differ in their opcodes. -/
theorem wordsSpellOpcodeRows : Obligations.WordsSpellOpcodeRows := by
  intro w
  refine ⟨fun r hr h => ?_, fun h => ?_, fun r hr r' hr' h h' => ?_⟩
  · obtain ⟨i, -, rfl⟩ := List.mem_map.mp (opcodeRows_eq_map ▸ hr)
    exact (spelledBy_rowOf_iff.mp h).2
  · cases hd : decode w with
    | error e => exact ⟨e, rfl⟩
    | ok i =>
      have ho : opcField w = i.opcode := (encode_of_decode hd).2 ▸ opcField_encode i
      exact absurd (spelledBy_rowOf_iff.mpr ⟨ho, i, hd, rfl⟩) (h _ (rowOf_mem i))
  · exact List.inj_on_of_nodup_map opcodeRows_opcodes_nodup hr hr'
      ((opcField_eq_of_matches hr h).symm.trans (opcField_eq_of_matches hr' h'))

/-! ## The assembler's words (R99)

An operand is the number `n` of the field that holds it, or the line is an assembly error. -/

section Operands

variable {β : Type} {g : Instr → β} {n l : Nat} {r : β} {t : Option β}

theorem map_bind_fits {f : BitVec l → Option Instr} (h : ∀ x, x.toNat = n → (f x).map g = t) :
    ((fits n l).bind f).map g = if n < 2 ^ l then t else none := by
  unfold fits
  split
  · next hn => exact h _ ((BitVec.toNat_ofNat n l).trans (Nat.mod_eq_of_lt hn))
  · rfl

theorem map_map_fits {f : BitVec l → Instr} (h : ∀ x, x.toNat = n → g (f x) = r) :
    ((fits n l).map f).map g = if n < 2 ^ l then some r else none := by
  rw [Option.map_eq_bind (f := f)]
  exact map_bind_fits fun x hx => congrArg some (h x hx)

theorem map_bind_slotOperand {f : BitVec 3 → Option Instr} (h : ∀ x, x.toNat = n → (f x).map g = t) :
    ((slotOperand n).bind f).map g = if n < 7 then t else none := by
  unfold slotOperand
  split
  · next hn => exact h _ ((BitVec.toNat_ofNat n 3).trans (Nat.mod_eq_of_lt (by omega)))
  · rfl

theorem map_map_slotOperand {f : BitVec 3 → Instr} (h : ∀ x, x.toNat = n → g (f x) = r) :
    ((slotOperand n).map f).map g = if n < 7 then some r else none := by
  rw [Option.map_eq_bind (f := f)]
  exact map_bind_slotOperand fun x hx => congrArg some (h x hx)

end Operands

/-! The number of a word is its fields at their places (R92). -/

section Numbers

variable (o : BitVec 8) {s flags : BitVec 3} {x y : Byte} {v : Half} {len : BitVec 9} {a b c : Nat}

theorem wordG_toNat (hs : s.toNat = a) (hx : x.toNat = b) (hy : y.toNat = c) :
    (o ++ (0 : BitVec 5) ++ s ++ x ++ y).toNat = o.toNat <<< 24 ||| a <<< 16 ||| b <<< 8 ||| c := by
  rw [BitVec.toNat_append, BitVec.toNat_append, BitVec.toNat_append, BitVec.toNat_append, hs, hx, hy]
  simp [Nat.shiftLeft_or_distrib, ← Nat.shiftLeft_add]

theorem wordG1_toNat (hs : s.toNat = a) (hx : x.toNat = b) :
    (o ++ (0 : BitVec 5) ++ s ++ x ++ (0 : Byte)).toNat = o.toNat <<< 24 ||| a <<< 16 ||| b <<< 8 :=
  (wordG_toNat o hs hx rfl).trans (Nat.or_zero _)

theorem wordW_toNat (hs : s.toNat = a) (hv : v.toNat = b) :
    (o ++ (0 : BitVec 5) ++ s ++ v).toNat = o.toNat <<< 24 ||| a <<< 16 ||| b := by
  rw [BitVec.toNat_append, BitVec.toNat_append, BitVec.toNat_append, hs, hv]
  simp [Nat.shiftLeft_or_distrib, ← Nat.shiftLeft_add]

theorem wordS_toNat (hs : s.toNat = a) :
    (o ++ (0 : BitVec 5) ++ s ++ (0 : Half)).toNat = o.toNat <<< 24 ||| a <<< 16 :=
  (wordW_toNat o hs rfl).trans (Nat.or_zero _)

theorem wordI16_toNat (hv : v.toNat = a) : (o ++ (0 : BitVec 8) ++ v).toNat = o.toNat <<< 24 ||| a := by
  rw [BitVec.toNat_append, BitVec.toNat_append, hv]
  simp [← Nat.shiftLeft_add]

theorem wordI8_toNat (hx : x.toNat = a) : (o ++ (0 : BitVec 16) ++ x).toNat = o.toNat <<< 24 ||| a := by
  rw [BitVec.toNat_append, BitVec.toNat_append, hx]
  simp [← Nat.shiftLeft_add]

theorem wordB_toNat (hx : x.toNat = a) (hl : len.toNat = b) :
    (o ++ x ++ (0 : BitVec 7) ++ len).toNat = o.toNat <<< 24 ||| a <<< 16 ||| b := by
  rw [BitVec.toNat_append, BitVec.toNat_append, BitVec.toNat_append, hx, hl]
  simp [Nat.shiftLeft_or_distrib, ← Nat.shiftLeft_add]

theorem wordT_toNat {t : Tag} (ht : t.toNat = a) : (o ++ t).toNat = o.toNat <<< 24 ||| a := by
  rw [BitVec.toNat_append, ht]

theorem wordE_toNat (hx : x.toNat = a) (hf : flags.toNat = b) :
    (o ++ (0 : BitVec 13) ++ flags ++ x).toNat = o.toNat <<< 24 ||| b <<< 8 ||| a := by
  rw [BitVec.toNat_append, BitVec.toNat_append, BitVec.toNat_append, hx, hf]
  simp [Nat.shiftLeft_or_distrib, ← Nat.shiftLeft_add]

end Numbers

/-- Settles O5: each line by its operands, one after the other, and then by the number of its format's word. -/
theorem assemblerWords : Obligations.AssemblerWords := by
  unfold Obligations.AssemblerWords
  simp only [ite_and, parseLine, String.reduceEq, if_false, if_true]
  exact ⟨rfl, rfl,
    fun _ => map_map_slotOperand fun _ hs => wordS_toNat 0x01 hs,
    fun _ => map_map_slotOperand fun _ hs => wordS_toNat 0x10 hs,
    fun _ => map_map_slotOperand fun _ hs => wordS_toNat 0x11 hs,
    fun _ _ _ => map_bind_slotOperand fun _ hs => map_bind_fits fun _ hx => map_map_fits fun _ hy =>
      wordG_toNat 0x02 hs hx hy,
    fun _ _ _ => map_bind_slotOperand fun _ hs => map_bind_fits fun _ hx => map_map_fits fun _ hy =>
      wordG_toNat 0x03 hs hx hy,
    fun _ _ => map_bind_slotOperand fun _ hs => map_map_fits fun _ hx => wordG1_toNat 0x04 hs hx,
    fun _ _ => map_bind_slotOperand fun _ hs => map_map_fits fun _ hx => wordG1_toNat 0x05 hs hx,
    fun _ _ => map_bind_slotOperand fun _ hs => map_map_fits fun _ hv => wordW_toNat 0x06 hs hv,
    fun _ _ => map_bind_slotOperand fun _ hs => map_map_fits fun _ hx => wordG1_toNat 0x07 hs hx,
    fun _ => map_map_fits fun _ hv => wordI16_toNat 0x20 hv,
    fun _ => map_map_fits fun _ hx => wordI8_toNat 0x21 hx,
    fun _ _ => map_bind_fits fun _ hx => map_map_fits fun _ hl => wordB_toNat 0x22 hx hl,
    fun _ _ => map_bind_fits fun _ hx => map_map_fits fun _ hl => wordB_toNat 0x28 hx hl,
    fun _ => map_map_fits fun _ hx => wordI8_toNat 0x29 hx,
    fun _ => map_map_fits fun _ hx => wordI8_toNat 0x30 hx,
    fun _ => map_map_fits fun _ ht => wordT_toNat 0x31 ht,
    fun _ _ => map_bind_fits fun _ hx => map_map_fits fun _ hf => wordE_toNat 0x32 hx hf,
    fun _ => map_map_fits fun _ hx => wordI8_toNat 0x34 hx⟩

/-! ## The step (R96, R281) -/

/-- A pending word whose turn has come is completed (R281). -/
theorem step_of_engineReady {s : State} {w : Word} (hw : s.pending = some w) (hr : s.engineReady = true) :
    step s = complete w s := by
  simp only [step, hw, hr, if_true]

/-- Settles O6: the step is `complete`, and what `decode` gives there follows from O3 and O2. -/
theorem stepRunsDecodedCommand : Obligations.StepRunsDecodedCommand := by
  intro s w hw hr
  have hrun {i : Instr} (hd : decode w = .ok i) : step s = exec i s.retire := by
    rw [step_of_engineReady hw hr, complete, hd]
  obtain ⟨hrow, hnone, -⟩ := wordsSpellOpcodeRows w
  refine ⟨fun i hd => hrun hd, fun r hmem h => ?_, fun h => ?_, rfl⟩
  · obtain ⟨i, hd, hn⟩ := hrow r hmem h
    exact ⟨i, hn, (encode_of_decode hd).2, hrun hd⟩
  · obtain ⟨e, hd⟩ := hnone h
    rw [step_of_engineReady hw hr, complete, hd]
    rfl

end Sys2Proof.Machine
end

section
/-! PROOFS. The statements of 40_gf.md: the folding loop, GF_INIT and what it builds, the single field operations, and
the product as a product of polynomials. -/

namespace Sys2Proof.Machine

/-! ## The folding loop (R121) -/

/-- R121: a turn of the loop moves whole multiples of 2^mm - 1, so it changes no residue modulo 2^mm - 1. -/
theorem shift_add_mask_modEq (mm y : Nat) : (y >>> mm) + (y &&& (2 ^ mm - 1)) ≡ y [MOD 2 ^ mm - 1] := by
  have hpow : 2 ^ mm - 1 + 1 = 2 ^ mm := Nat.sub_add_cancel Nat.one_le_two_pow
  have hsplit : y = (y / 2 ^ mm + y % 2 ^ mm) + (2 ^ mm - 1) * (y / 2 ^ mm) := by
    calc y = 2 ^ mm * (y / 2 ^ mm) + y % 2 ^ mm := (Nat.div_add_mod y (2 ^ mm)).symm
      _ = (2 ^ mm - 1 + 1) * (y / 2 ^ mm) + y % 2 ^ mm := by rw [hpow]
      _ = (y / 2 ^ mm + y % 2 ^ mm) + (2 ^ mm - 1) * (y / 2 ^ mm) := by ring
  rw [Nat.shiftRight_eq_div_pow, Nat.and_two_pow_sub_one_eq_mod]
  conv_rhs => rw [hsplit]
  simp [Nat.ModEq]

/-- R121: a turn makes no number larger. -/
theorem shift_add_mask_le (mm y : Nat) : (y >>> mm) + (y &&& (2 ^ mm - 1)) ≤ y := by
  rw [Nat.shiftRight_eq_div_pow, Nat.and_two_pow_sub_one_eq_mod]
  calc y / 2 ^ mm + y % 2 ^ mm ≤ 2 ^ mm * (y / 2 ^ mm) + y % 2 ^ mm := by
        gcongr
        exact Nat.le_mul_of_pos_left _ (by positivity)
    _ = y := Nat.div_add_mod y (2 ^ mm)

/-- R121: with enough turns left the loop ends at the residue. -/
theorem modFieldFold_eq_mod {mm : Nat} (hm : 1 ≤ mm) {fuel x : Nat} (hx : x ≤ fuel) :
    modFieldFold mm (2 ^ mm - 1) fuel x = x % (2 ^ mm - 1) := by
  have hpos : 0 < 2 ^ mm - 1 := Nat.sub_pos_of_lt (Nat.one_lt_two_pow (by omega))
  induction fuel generalizing x with
  | zero =>
    obtain rfl : x = 0 := by omega
    simp [modFieldFold]
  | succ fuel ih =>
    rw [modFieldFold]
    split
    · rename_i hge
      have hle := shift_add_mask_le mm (x - (2 ^ mm - 1))
      rw [ih (by omega), shift_add_mask_modEq mm (x - (2 ^ mm - 1)), ← Nat.mod_eq_sub_mod hge]
    · exact (Nat.mod_eq_of_lt (by omega)).symm

/-- Settles O27: each turn keeps the residue and makes the number smaller. -/
theorem modFieldIsModulo : Obligations.ModFieldIsModulo :=
  fun _ hm _ _ => modFieldFold_eq_mod (by omega) le_rfl

/-! ## The inverse of PRIM (R128) -/

/-- Settles O25: `primInverse_spec`, and the search run for the NGHam parameters. -/
theorem primInverseInverts : Obligations.PrimInverseInverts :=
  ⟨fun _ _ hp hlt hg => primInverse_spec hp (by omega) hg, by decide⟩

/-! ## The register and the tables (R126) -/

/-- R126: entry `n` of a run is the register after `n` steps. -/
theorem registerRun_getElem? (mm gfpoly fuel sr n : Nat) :
    (registerRun mm gfpoly fuel sr)[n]? = if n < fuel then some (registerAfter mm gfpoly n sr) else none := by
  induction fuel generalizing sr n with
  | zero => rfl
  | succ fuel ih =>
    cases n with
    | zero => rfl
    | succ n => simp [registerRun, registerAfter, ih]

@[simp] theorem registerRun_length (mm gfpoly fuel sr : Nat) : (registerRun mm gfpoly fuel sr).length = fuel := by
  induction fuel generalizing sr with
  | zero => rfl
  | succ fuel ih => simp [registerRun, ih]

@[simp] theorem generated_length (mm gfpoly : Nat) : (generated mm gfpoly).length = 2 ^ mm - 1 :=
  registerRun_length mm gfpoly _ 1

theorem generated_getElem (mm gfpoly : Nat) {n : Nat} (h : n < (generated mm gfpoly).length) :
    (generated mm gfpoly)[n] = registerAfter mm gfpoly n 1 := by
  apply Option.some_injective
  rw [← List.getElem?_eq_getElem, generated, registerRun_getElem?, if_pos (by simpa using h)]

/-- R126: ALPHA'[n] is the register at step n for n < nn, and 0 from the sentinel's entry on. -/
theorem alphaTable_getElem (mm gfpoly : Nat) {n : Nat} (h : n < 256) :
    (alphaTable mm gfpoly)[n] = if n < 2 ^ mm - 1 then BitVec.ofNat 8 (registerAfter mm gfpoly n 1) else 0 := by
  simp only [alphaTable, Vector.getElem_mk, List.getElem_toArray, List.getElem_take, List.getElem_append,
    List.length_map, generated_length, List.getElem_map, generated_getElem, List.getElem_replicate]
  split <;> rfl

/-- R126: INDEX'[x] is the last step at which the register was x. -/
theorem indexTable_getElem (mm gfpoly : Nat) {x : Nat} (h : x < 256) :
    (indexTable mm gfpoly)[x] =
      ⟨BitVec.ofNat 8 (lastIndex x (if x = 0 then 2 ^ mm - 1 else 0) 0 (generated mm gfpoly))⟩ := by
  simp [indexTable]

/-! ### The build loop -/

theorem buildLoop_sr (mm gfpoly fuel i : Nat) (t : TableBuild) :
    (buildLoop mm gfpoly fuel i t).sr = registerAfter mm gfpoly fuel t.sr := by
  induction fuel generalizing i t with
  | zero => rfl
  | succ fuel ih => rw [buildLoop, ih, registerAfter]

/-- R126: the turns from `i` on write the entries from `i` on, one a turn. -/
theorem buildLoop_alpha (mm gfpoly fuel i : Nat) (t : TableBuild) {n : Nat} (h : n < 256) :
    (buildLoop mm gfpoly fuel i t).alpha[n] =
      if i ≤ n ∧ n < i + fuel then BitVec.ofNat 8 (registerAfter mm gfpoly (n - i) t.sr) else t.alpha[n] := by
  induction fuel generalizing i t with
  | zero => rw [if_neg (by omega), buildLoop]
  | succ fuel ih =>
    rw [buildLoop, ih]
    simp only [Vector.getElem_setIfInBounds]
    obtain hlt | rfl | hgt := Nat.lt_trichotomy n i
    · rw [if_neg (by omega), if_neg (by omega), if_neg (by omega)]
    · rw [if_neg (by omega), if_pos rfl, if_pos (by omega), Nat.sub_self, registerAfter]
    · have hsub : n - i = n - (i + 1) + 1 := by omega
      rw [if_neg (show ¬ i = n by omega), hsub, registerAfter]
      exact if_congr (by omega) rfl rfl

/-- R126: the turns from `i` on leave at each value the last step at which the register had it. -/
theorem buildLoop_index (mm gfpoly fuel i : Nat) (t : TableBuild) {x acc : Nat} (h : x < 256)
    (hacc : t.index[x] = ⟨BitVec.ofNat 8 acc⟩) :
    (buildLoop mm gfpoly fuel i t).index[x] =
      ⟨BitVec.ofNat 8 (lastIndex x acc i (registerRun mm gfpoly fuel t.sr))⟩ := by
  induction fuel generalizing i t acc with
  | zero => exact hacc
  | succ fuel ih =>
    rw [buildLoop, registerRun, lastIndex]
    apply ih
    simp only [Vector.getElem_setIfInBounds, hacc]
    split <;> rfl

theorem buildTables_sr (mm gfpoly : Nat) : (buildTables mm gfpoly).sr = finalSr mm gfpoly :=
  buildLoop_sr ..

theorem buildTables_alpha (mm gfpoly : Nat) : (buildTables mm gfpoly).alpha = alphaTable mm gfpoly := by
  ext n hn : 1
  rw [buildTables, buildLoop_alpha _ _ _ _ _ hn, alphaTable_getElem _ _ hn]
  simp

theorem buildTables_index (mm gfpoly : Nat) : (buildTables mm gfpoly).index = indexTable mm gfpoly := by
  ext x hx : 1
  rw [indexTable_getElem _ _ hx]
  refine buildLoop_index _ _ _ _ _ hx ?_
  simp only [Vector.getElem_setIfInBounds, Vector.getElem_replicate, eq_comm (a := (0 : Nat))]
  split <;> rfl

/-- Settles O26: entry by entry, a turn of the loop is a step of the register. -/
theorem tablesMatchBuildLoop : Obligations.TablesMatchBuildLoop :=
  fun mm gfpoly _ => ⟨buildTables_alpha mm gfpoly, buildTables_index mm gfpoly, buildTables_sr mm gfpoly⟩

/-! ## GF_INIT (R124, R125, R129) -/

/-- R125: the checks grouped by the error they give. -/
theorem checkParams_eq (mm fcr prim nroots pad : Nat) :
    checkParams mm fcr prim nroots pad =
      if 8 < mm ∨ 2 ^ mm - 1 ≤ fcr ∨ prim = 0 ∨ 2 ^ mm - 1 ≤ prim ∨ Nat.gcd prim (2 ^ mm - 1) ≠ 1 ∨
          2 ^ mm - 1 ≤ nroots ∨ nroots = 0 ∨ 64 < nroots then some .param
      else if 2 ^ mm - 1 - nroots ≤ pad then some .padding
      else none := by
  simp only [checkParams, ite_or]
  rfl

theorem initBlock_of_check {mm gfpoly fcr prim nroots pad : Nat} {e : StatusCode}
    (h : checkParams mm fcr prim nroots pad = some e) : initBlock mm gfpoly fcr prim nroots pad = .error e := by
  rw [initBlock, h]

/-- R127: a register that does not end at 1 is ERR_FIELD. -/
theorem initBlock_of_finalSr_ne {mm gfpoly fcr prim nroots pad : Nat}
    (h : checkParams mm fcr prim nroots pad = none) (hsr : finalSr mm gfpoly ≠ 1) :
    initBlock mm gfpoly fcr prim nroots pad = .error .field := by
  rw [initBlock, h]
  exact if_pos hsr

theorem exists_initBlock {mm gfpoly fcr prim nroots pad : Nat}
    (h : checkParams mm fcr prim nroots pad = none) (hsr : finalSr mm gfpoly = 1) :
    ∃ cb, initBlock mm gfpoly fcr prim nroots pad = .ok cb := by
  rw [initBlock, h]
  exact ⟨_, if_neg (not_not_intro hsr)⟩

theorem execGfInit_of_error {s : State} {e : StatusCode} (c : SlotId) (h : s.initParams = .error e) :
    exec (.gfInit (slotBits c)) s = .next { s with cb := s.cb.set c zeroBlock, code := e, result := 0 } := by
  rw [exec, execGfInit, withSlot_slotBits, h]
  rfl

theorem execGfInit_of_ok {s : State} {cb : ControlBlock} (c : SlotId) (h : s.initParams = .ok cb) :
    exec (.gfInit (slotBits c)) s = .next { s with cb := s.cb.set c cb, code := .ok, result := 0 } := by
  rw [exec, execGfInit, withSlot_slotBits, h]
  rfl

/-- Settles O23: `initBlock` fails with the code of the first check that applies, and GF_INIT then zeroes the slot. -/
theorem gfInitFailures : Obligations.GfInitFailures := by
  intro c s nn badParam badPadding badField fails
  have hcheck := checkParams_eq s.pSymbits.toNat s.pFcr.toNat s.pPrim.toNat s.pNroots.toNat s.pPad.toNat
  refine ⟨fun hp => ?_, fun hp hd => ?_, fun hp hd hf => ?_⟩
  · exact execGfInit_of_error c (initBlock_of_check (hcheck.trans (if_pos hp)))
  · exact execGfInit_of_error c (initBlock_of_check ((hcheck.trans (if_neg hp)).trans (if_pos hd)))
  · have hsr : finalSr s.pSymbits.toNat s.pGfpoly.toNat ≠ 1 := buildTables_sr _ _ ▸ hf
    exact execGfInit_of_error c (initBlock_of_finalSr_ne ((hcheck.trans (if_neg hp)).trans (if_neg hd)) hsr)

/-- R129: of the slot the generator loop reads the tables and NN only. -/
theorem genLoop_congr {cb cb' : ControlBlock} (hn : cb.nn = cb'.nn) (ha : cb.alpha = cb'.alpha)
    (hi : cb.index = cb'.index) (prim fuel i root : Nat) (g : List Elem) :
    genLoop cb prim fuel i root g = genLoop cb' prim fuel i root g := by
  have hstep : genStep cb = genStep cb' := by
    funext root i g
    simp only [genStep, ControlBlock.power, ControlBlock.antilog, ControlBlock.modnn, ControlBlock.log,
      ControlBlock.fieldSize, hn, ha, hi]
  induction fuel generalizing i root g with
  | zero => rfl
  | succ fuel ih => rw [genLoop, genLoop, hstep, ih]

/-- R129: GENPOLY'[n] is the logarithm of the loop's coefficient n, and 0 beyond the generator's degree. -/
theorem buildGenpoly_getElem (cb : ControlBlock) (fcr prim nroots : Nat) {n : Nat} (h : n < 65) :
    (buildGenpoly cb fcr prim nroots)[n] =
      if n ≤ nroots then
        cb.log ((genLoop cb prim nroots 0 (fcr * prim) (1 :: List.replicate nroots 0)).getD n 0)
      else ⟨0⟩ := by
  simp [buildGenpoly]

theorem buildGenpoly_congr {cb cb' : ControlBlock} (hn : cb.nn = cb'.nn) (ha : cb.alpha = cb'.alpha)
    (hi : cb.index = cb'.index) (fcr prim nroots : Nat) :
    buildGenpoly cb fcr prim nroots = buildGenpoly cb' fcr prim nroots := by
  have hlog : cb.log = cb'.log := by
    funext x
    simp only [ControlBlock.log, hi]
  ext n h : 1
  rw [buildGenpoly_getElem _ _ _ _ h, buildGenpoly_getElem _ _ _ _ h, genLoop_congr hn ha hi, hlog]

/-- R126, R129: the tables and the generator of the slot GF_INIT gives. -/
theorem initBlock_tables {mm gfpoly fcr prim nroots pad : Nat} {cb : ControlBlock}
    (h : initBlock mm gfpoly fcr prim nroots pad = .ok cb) :
    cb.alpha = alphaTable mm gfpoly ∧ cb.index = indexTable mm gfpoly ∧
      cb.genpoly = buildGenpoly cb fcr prim nroots := by
  obtain ⟨-, -, base, ha, hi, rfl, -⟩ := initBlock_ok h
  exact ⟨ha, hi, buildGenpoly_congr (by rfl) (by rfl) (by rfl) ..⟩

/-- Settles O24: `initBlock` gives a slot, whose fields, tables and generator are said by the laws of `initBlock`. -/
theorem gfInitInstallsSlot : Obligations.GfInitInstallsSlot := by
  intro c s
  dsimp only
  intro hmm hfcr hp1 hp2 hg hr1 hr2 hr3 hpad hsr
  have hcheck : checkParams s.pSymbits.toNat s.pFcr.toNat s.pPrim.toNat s.pNroots.toNat s.pPad.toNat = none := by
    rw [checkParams_eq, if_neg (by omega), if_neg (by omega)]
  obtain ⟨cb, h⟩ := exists_initBlock (gfpoly := s.pGfpoly.toNat) hcheck ((buildTables_sr _ _).symm.trans hsr)
  obtain ⟨fmm, fnn, fgf, ffcr, fprim, fnroots, fpad, fvalid⟩ := initBlock_fields h s.pGfpoly.isLt
  obtain ⟨ta, ti, tg⟩ := initBlock_tables h
  have hiprim : cb.iprim.toNat = primInverse s.pPrim.toNat (2 ^ s.pSymbits.toNat - 1) := by
    have hlt := (primInverse_spec hp1 (by omega) hg).2.2
    have h256 := two_pow_le hmm
    rw [builtSlot_iprim (builtSlot_of_initBlock h s.pGfpoly.isLt), fprim, fnn]
    exact Nat.mod_eq_of_lt (by omega)
  exact ⟨cb, execGfInit_of_ok c h, fvalid, fmm, fnn, BitVec.eq_of_toNat_eq fgf, ffcr, fprim, hiprim, fnroots, fpad,
    ta.trans (buildTables_alpha _ _).symm, ti.trans (buildTables_index _ _).symm, tg⟩

/-! ## Reading a slot's tables (R15, R43) -/

theorem ControlBlock.alphaAt_eq_getElem (cb : ControlBlock) {n : Nat} (h : n < 256) : cb.alphaAt n = cb.alpha[n] := by
  simp [ControlBlock.alphaAt, h]

theorem ControlBlock.indexAt_eq_getElem (cb : ControlBlock) {n : Nat} (h : n < 256) :
    cb.indexAt n = (cb.index[n]).toNat := by
  simp [ControlBlock.indexAt, h]

theorem ControlBlock.antilog_eq_alphaAt (cb : ControlBlock) (l : LogSym) : cb.antilog l = cb.alphaAt l.toNat :=
  (cb.alphaAt_eq_getElem l.val.isLt).symm

theorem ControlBlock.toNat_log (cb : ControlBlock) (x : Elem) : (cb.log x).toNat = cb.indexAt x.toNat :=
  (cb.indexAt_eq_getElem x.isLt).symm

theorem ControlBlock.toNat_modnn {cb : ControlBlock} (h : 0 < cb.nn.toNat) (x : Nat) :
    (cb.modnn x).toNat = x % cb.nn.toNat := by
  have h256 := cb.nn.isLt
  have hlt := Nat.mod_lt x h
  rw [ControlBlock.modnn, LogSym.toNat, BitVec.toNat_ofNat, ControlBlock.fieldSize]
  exact Nat.mod_eq_of_lt (by omega)

theorem ControlBlock.power_eq_alphaAt {cb : ControlBlock} (h : 0 < cb.nn.toNat) (x : Nat) :
    cb.power x = cb.alphaAt (x % cb.nn.toNat) := by
  rw [ControlBlock.power, cb.antilog_eq_alphaAt, ControlBlock.toNat_modnn h]

theorem ControlBlock.powerInt_eq_alphaAt {cb : ControlBlock} (h : 0 < cb.nn.toNat) (x : Int) :
    cb.powerInt x = cb.alphaAt (x % cb.nn.toNat).toNat := by
  have hlt := Int.emod_lt_of_pos x (Int.natCast_pos.mpr h)
  rw [ControlBlock.powerInt, ControlBlock.power_eq_alphaAt h, ControlBlock.fieldSize, Nat.mod_eq_of_lt (by omega)]

theorem ControlBlock.gen_eq_getD (cb : ControlBlock) (n : Nat) : cb.gen n = cb.genpoly.toList.getD n ⟨0⟩ := by
  unfold ControlBlock.gen
  split
  · simp [*]
  · rw [List.getD_eq_default _ _ (by simpa using ‹¬ n < 65›)]

/-- R44: NN of a valid slot is positive. -/
theorem slotOk_nn_pos {cb : ControlBlock} (h : slotOk cb) (hv : cb.valid = true) : 0 < cb.nn.toNat := by
  have := h hv
  omega

/-! ### The tables of a slot GF_INIT built (R126, R129) -/

theorem builtSlot_alphaAt {cb : ControlBlock} (h : builtSlot cb) {n : Nat} (hn : n < 256) :
    cb.alphaAt n =
      if n < cb.nn.toNat then BitVec.ofNat 8 (registerAfter cb.mm.toNat cb.gfpoly.toNat n 1) else 0 := by
  have hnn := (initBlock_fields h cb.gfpoly.isLt).2.1
  have ha := (initBlock_tables h).1
  rw [cb.alphaAt_eq_getElem hn, hnn, ← alphaTable_getElem _ _ hn]
  exact congrArg (fun t => t[n]) ha

theorem builtSlot_indexAt {cb : ControlBlock} (h : builtSlot cb) {x : Nat} (hx : x < 256) :
    cb.indexAt x =
      lastIndex x (if x = 0 then cb.nn.toNat else 0) 0 (generated cb.mm.toNat cb.gfpoly.toNat) % 256 := by
  have hnn := (initBlock_fields h cb.gfpoly.isLt).2.1
  have hi := (initBlock_tables h).2.1
  rw [cb.indexAt_eq_getElem hx, hi, indexTable_getElem _ _ hx, hnn]
  exact BitVec.toNat_ofNat ..

/-- NN of a built slot is 2^MM - 1 with MM at least 2. -/
theorem builtSlot_nn {cb : ControlBlock} (h : builtSlot cb) :
    cb.nn.toNat = 2 ^ cb.mm.toNat - 1 ∧ 1 < cb.nn.toNat ∧ 1 < cb.mm.toNat := by
  have hnn := (initBlock_fields h cb.gfpoly.isLt).2.1
  obtain ⟨-, -, hp1, hp2, -⟩ := checkParams_none (initBlock_ok h).1
  refine ⟨hnn, by omega, ?_⟩
  by_contra hmm
  have := Nat.pow_le_pow_right (n := 2) (by decide) (show cb.mm.toNat ≤ 1 by omega)
  omega

/-! ### The register's values (R126) -/

theorem registerAfter_add (mm gfpoly a b sr : Nat) :
    registerAfter mm gfpoly (a + b) sr = registerAfter mm gfpoly b (registerAfter mm gfpoly a sr) := by
  induction a generalizing sr with
  | zero => rw [Nat.zero_add]; rfl
  | succ a ih => rw [Nat.succ_add, registerAfter, ih, registerAfter]

theorem registerAfter_succ (mm gfpoly n sr : Nat) :
    registerAfter mm gfpoly (n + 1) sr = nextSr mm gfpoly (registerAfter mm gfpoly n sr) :=
  registerAfter_add mm gfpoly n 1 sr

theorem registerAfter_zero_right (mm gfpoly n : Nat) : registerAfter mm gfpoly n 0 = 0 := by
  have h : nextSr mm gfpoly 0 = 0 := by simp [nextSr]
  induction n with
  | zero => rfl
  | succ n ih => rw [registerAfter, h, ih]

theorem nextSr_lt (mm gfpoly sr : Nat) : nextSr mm gfpoly sr < 2 ^ mm :=
  Nat.and_lt_two_pow _ (Nat.sub_lt (by positivity) Nat.one_pos)

theorem registerAfter_lt {mm : Nat} (gfpoly : Nat) {sr : Nat} (h : sr < 2 ^ mm) (n : Nat) :
    registerAfter mm gfpoly n sr < 2 ^ mm := by
  induction n generalizing sr with
  | zero => exact h
  | succ n ih => exact ih (nextSr_lt mm gfpoly sr)

/-- R127: a register that ends at 1 was never 0, since 0 steps to 0. -/
theorem registerAfter_ne_zero {mm gfpoly n : Nat} (hsr : finalSr mm gfpoly = 1) (hn : n < 2 ^ mm - 1) :
    registerAfter mm gfpoly n 1 ≠ 0 := by
  intro h0
  have hend : finalSr mm gfpoly = 0 := by
    rw [finalSr, ← Nat.add_sub_of_le hn.le, registerAfter_add, h0, registerAfter_zero_right]
  omega

theorem mem_generated_iff {mm gfpoly x : Nat} :
    x ∈ generated mm gfpoly ↔ ∃ n < 2 ^ mm - 1, registerAfter mm gfpoly n 1 = x := by
  simp [List.mem_iff_getElem, generated_getElem]

/-- R126: over a primitive polynomial the register takes every nonzero value. -/
theorem mem_generated_of_primitive {mm gfpoly x : Nat} (h : primitiveGfpoly mm gfpoly) (hx : x ≠ 0)
    (hlt : x ≤ 2 ^ mm - 1) : x ∈ generated mm gfpoly := by
  obtain ⟨-, -, hsr, hnodup⟩ := h
  have hsub : (generated mm gfpoly).toFinset ⊆ Finset.Icc 1 (2 ^ mm - 1) := by
    intro y hy
    obtain ⟨n, hn, rfl⟩ := mem_generated_iff.mp (List.mem_toFinset.mp hy)
    have hne := registerAfter_ne_zero hsr hn
    have hlt := registerAfter_lt gfpoly (show 1 < 2 ^ mm by omega) n
    exact Finset.mem_Icc.mpr ⟨by omega, by omega⟩
  have hall := Finset.eq_of_subset_of_card_le hsub (by simp [List.toFinset_card_of_nodup hnodup])
  rw [← List.mem_toFinset, hall]
  exact Finset.mem_Icc.mpr ⟨by omega, hlt⟩

/-! ### Logarithms (R126, R136) -/

theorem lastIndex_of_notMem {x : Nat} {l : List Nat} (h : x ∉ l) (acc i : Nat) : lastIndex x acc i l = acc := by
  induction l generalizing acc i with
  | nil => rfl
  | cons y ys ih =>
    obtain ⟨hne, hys⟩ := not_or.mp (List.mem_cons.not.mp h)
    rw [lastIndex, if_neg (Ne.symm hne), ih hys]

theorem lastIndex_getElem_of_nodup {l : List Nat} (h : l.Nodup) {n : Nat} (hn : n < l.length) (acc i : Nat) :
    lastIndex l[n] acc i l = i + n := by
  induction l generalizing acc i n with
  | nil => simp at hn
  | cons y ys ih =>
    obtain ⟨hy, hys⟩ := List.nodup_cons.mp h
    cases n with
    | zero => simp [lastIndex, lastIndex_of_notMem hy]
    | succ n =>
      have := ih hys (by simpa using hn) (if y = ys[n]'(by simpa using hn) then i else acc) (i + 1)
      simpa [lastIndex, Nat.add_assoc, Nat.add_comm 1 n] using this

/-- R136: the logarithm of 0 is NN. -/
theorem builtSlot_indexAt_zero {cb : ControlBlock} (h : builtSlot cb) : cb.indexAt 0 = cb.nn.toNat := by
  have hsr := (initBlock_ok h).2.1
  have hmem : 0 ∉ generated cb.mm.toNat cb.gfpoly.toNat := fun h0 => by
    obtain ⟨n, hn, hz⟩ := mem_generated_iff.mp h0
    exact registerAfter_ne_zero hsr hn hz
  rw [builtSlot_indexAt h (by decide), lastIndex_of_notMem hmem, if_pos rfl]
  exact Nat.mod_eq_of_lt cb.nn.isLt

/-- Over a primitive polynomial INDEX inverts the register. -/
theorem primitiveSlot_indexAt {cb : ControlBlock} (h : primitiveSlot cb) {n : Nat} (hn : n < cb.nn.toNat) :
    cb.indexAt (registerAfter cb.mm.toNat cb.gfpoly.toNat n 1) = n := by
  obtain ⟨hb, -, -, -, hnodup⟩ := h
  obtain ⟨hnn, hpos, -⟩ := builtSlot_nn hb
  have h256 := cb.nn.isLt
  have hlt := registerAfter_lt cb.gfpoly.toNat (show 1 < 2 ^ cb.mm.toNat by omega) n
  have hlen : n < (generated cb.mm.toNat cb.gfpoly.toNat).length := by
    rw [generated_length]
    omega
  rw [builtSlot_indexAt hb (by omega), ← generated_getElem _ _ hlen, lastIndex_getElem_of_nodup hnodup, Nat.zero_add]
  exact Nat.mod_eq_of_lt (by omega)

/-- R136: over a primitive polynomial the logarithm of 1 is 0. -/
theorem primitiveSlot_indexAt_one {cb : ControlBlock} (h : primitiveSlot cb) : cb.indexAt 1 = 0 :=
  primitiveSlot_indexAt h (n := 0) (by have := builtSlot_nn h.1; omega)

/-! ### The generator polynomial (R129) -/

theorem genLoop_length (cb : ControlBlock) (prim fuel i root : Nat) (g : List Elem) :
    (genLoop cb prim fuel i root g).length = g.length := by
  induction fuel generalizing i root g with
  | zero => rfl
  | succ fuel ih => rw [genLoop, ih, genStep, mapIndexed_length]

/-- R129: the turn for root `i` makes the coefficient `i + 1` one. -/
theorem genStep_getD_succ (cb : ControlBlock) (root i : Nat) (g : List Elem) (h : i + 1 < g.length) :
    (genStep cb root i g).getD (i + 1) 0 = 1 := by
  rw [genStep, List.getD_eq_getElem?_getD, mapIndexed_getElem?, List.getElem?_eq_getElem h]
  simp

/-- R129: after its last turn the generator is monic. -/
theorem genLoop_getD_top (cb : ControlBlock) (prim fuel i root : Nat) (g : List Elem) (h : i + fuel + 1 < g.length) :
    (genLoop cb prim (fuel + 1) i root g).getD (i + fuel + 1) 0 = 1 := by
  induction fuel generalizing i root g with
  | zero => exact genStep_getD_succ cb root i g h
  | succ fuel ih =>
    have := ih (i + 1) (root + prim) (genStep cb root i g) (by rw [genStep, mapIndexed_length]; omega)
    rw [genLoop, ← this]
    congr 1
    omega

/-- R129: with a primitive gfpoly the generator's top coefficient is 1, whose logarithm is 0. -/
theorem primitiveSlot_gen_top {cb : ControlBlock} (h : primitiveSlot cb) : cb.gen cb.nroots.toNat = ⟨0⟩ := by
  obtain ⟨-, -, -, -, -, hr1, hr2, -, -⟩ := checkParams_none (initBlock_ok h.1).1
  have hlt : cb.nroots.toNat < 65 := by omega
  have htop : (genLoop cb cb.prim.toNat cb.nroots.toNat 0 (cb.fcr.toNat * cb.prim.toNat)
      (1 :: List.replicate cb.nroots.toNat 0)).getD cb.nroots.toNat 0 = 1 := by
    obtain ⟨k, hk⟩ := Nat.exists_eq_add_of_le' hr1
    rw [hk]
    simpa using genLoop_getD_top cb cb.prim.toNat k 0 (cb.fcr.toNat * cb.prim.toNat)
      (1 :: List.replicate (k + 1) 0) (by simp)
  have hlog : (cb.log 1).toNat = 0 := (cb.toNat_log 1).trans (primitiveSlot_indexAt_one h)
  have hgen := (initBlock_tables h.1).2.2
  rw [ControlBlock.gen, dif_pos hlt, hgen, buildGenpoly_getElem _ _ _ _ hlt, if_pos le_rfl, htop]
  exact congrArg LogSym.mk (BitVec.eq_of_toNat_eq hlog)

/-! ## Single field operations (R131 to R142) -/

theorem withValidSlot_of_invalid {s : State} {c : SlotId} (k : ControlBlock → Result) (h : s.cb[c].valid = false) :
    withValidSlot (slotBits c) s k = .next { s with code := .notInit, result := 0 } := by
  rw [withValidSlot_slotBits, h]
  rfl

theorem withValidSlot_of_valid {s : State} {c : SlotId} (k : ControlBlock → Result) (h : s.cb[c].valid = true) :
    withValidSlot (slotBits c) s k = k s.cb[c] := by
  rw [withValidSlot_slotBits, if_pos h]

theorem inField_of_le {cb : ControlBlock} {x : Byte} (h : x.toNat ≤ cb.nn.toNat) : inField cb x = true :=
  decide_eq_true h

theorem not_inField_of_gt {cb : ControlBlock} {x : Byte} (h : cb.nn.toNat < x.toNat) : ¬ inField cb x = true :=
  fun hin => Nat.not_le.mpr h (of_decide_eq_true hin)

/-- The range check of two operands fails when one of them is outside the field. -/
theorem inField_and_of_gt {cb : ControlBlock} {x y : Byte} (h : cb.nn.toNat < x.toNat ∨ cb.nn.toNat < y.toNat) :
    ¬ (inField cb x && inField cb y) = true := by
  obtain h | h := h <;> simp [not_inField_of_gt h]

theorem inField_and_of_le {cb : ControlBlock} {x y : Byte} (hx : x.toNat ≤ cb.nn.toNat)
    (hy : y.toNat ≤ cb.nn.toNat) : (inField cb x && inField cb y) = true := by
  rw [inField_of_le hx, inField_of_le hy]
  rfl

theorem fieldMul_eq {cb : ControlBlock} (h : 0 < cb.nn.toNat) (x y : Elem) :
    fieldMul cb x y =
      if x = 0 ∨ y = 0 then 0 else cb.alphaAt ((cb.indexAt x.toNat + cb.indexAt y.toNat) % cb.nn.toNat) := by
  rw [fieldMul, ControlBlock.power_eq_alphaAt h, cb.toNat_log, cb.toNat_log]

theorem fieldDiv_eq {cb : ControlBlock} (h : 0 < cb.nn.toNat) (x y : Elem) :
    fieldDiv cb x y =
      if x = 0 then 0
      else cb.alphaAt (((cb.indexAt x.toNat : Int) - cb.indexAt y.toNat + cb.nn.toNat) % cb.nn.toNat).toNat := by
  rw [fieldDiv, ControlBlock.powerInt_eq_alphaAt h, cb.toNat_log, cb.toNat_log]

/-- R132: GF_MUL of two field elements. -/
theorem execGfMul_of_inField {s : State} {c : SlotId} {x y : Byte} (hv : s.cb[c].valid = true)
    (hx : x.toNat ≤ s.cb[c].nn.toNat) (hy : y.toNat ≤ s.cb[c].nn.toNat) :
    exec (.gfMul (slotBits c) x y) s =
      .next { s with code := .ok, result := (fieldMul s.cb[c] x y).setWidth 32 } := by
  rw [exec, execGfMul, withValidSlot_of_valid _ hv, if_pos (inField_and_of_le hx hy)]
  rfl

/-- Settles O28: the checks of R131, then the product by logarithms. -/
theorem gfMulResult : Obligations.GfMulResult := by
  intro c x y s cb
  refine ⟨fun hv => ?_, fun hv hr => ?_, fun hs hv hx hy => ?_⟩
  · rw [exec, execGfMul, withValidSlot_of_invalid _ hv]
  · rw [exec, execGfMul, withValidSlot_of_valid _ hv, if_neg (inField_and_of_gt hr)]
    rfl
  · rw [execGfMul_of_inField hv hx hy, fieldMul_eq (slotOk_nn_pos hs hv), apply_ite (BitVec.setWidth 32)]
    rfl

/-- Settles O29: the checks of R131 and the test for a zero divisor, then the quotient by logarithms. -/
theorem gfDivResult : Obligations.GfDivResult := by
  intro c x y s cb
  refine ⟨fun hv => ?_, fun hv hr => ?_, fun hv hx hy => ?_, fun hs hv hx hy hne => ?_⟩
  · rw [exec, execGfDiv, withValidSlot_of_invalid _ hv]
  · rw [exec, execGfDiv, withValidSlot_of_valid _ hv, if_neg (inField_and_of_gt hr)]
    rfl
  · have hy0 : y.toNat ≤ cb.nn.toNat := by simp [hy]
    rw [exec, execGfDiv, withValidSlot_of_valid _ hv, if_pos (inField_and_of_le hx hy0), if_pos hy]
    rfl
  · rw [exec, execGfDiv, withValidSlot_of_valid _ hv, if_pos (inField_and_of_le hx hy), if_neg hne,
      fieldDiv_eq (slotOk_nn_pos hs hv), apply_ite (BitVec.setWidth 32)]
    rfl

/-- Settles O30: the checks of R131, then INDEX[x]; the two logarithms follow from the table build. -/
theorem gfLogResult : Obligations.GfLogResult := by
  intro c x s cb
  refine ⟨fun hv => ?_, fun hv hx => ?_, fun hv hx => ?_, builtSlot_indexAt_zero, primitiveSlot_indexAt_one⟩
  · rw [exec, execGfLog, withValidSlot_of_invalid _ hv]
  · rw [exec, execGfLog, withValidSlot_of_valid _ hv, if_neg (not_inField_of_gt hx)]
    rfl
  · rw [exec, execGfLog, withValidSlot_of_valid _ hv, if_pos (inField_of_le hx), ← cb.toNat_log, LogSym.toNat,
      BitVec.ofNat_toNat]
    rfl

/-- Settles O31: the checks of R131, then ALPHA[n]; the two antilogarithms follow from the table build. -/
theorem gfExpResult : Obligations.GfExpResult := by
  intro c n s cb
  refine ⟨fun hv => ?_, fun hv hn => ?_, fun hv hn => ?_, fun hb => ⟨?_, ?_⟩⟩
  · rw [exec, execGfExp, withValidSlot_of_invalid _ hv]
  · rw [exec, execGfExp, withValidSlot_of_valid _ hv, if_neg (not_inField_of_gt hn)]
    rfl
  · rw [exec, execGfExp, withValidSlot_of_valid _ hv, if_pos (inField_of_le hn), cb.antilog_eq_alphaAt]
    rfl
  · rw [builtSlot_alphaAt hb cb.nn.isLt, if_neg (lt_irrefl _)]
  · obtain ⟨-, hpos, -⟩ := builtSlot_nn hb
    rw [builtSlot_alphaAt hb (by decide), if_pos (by omega)]
    rfl

/-- Settles O32: the check of R131, then the residue, which fits a logarithm. -/
theorem gfModnnResult : Obligations.GfModnnResult := by
  intro c v s cb
  refine ⟨fun hv => ?_, fun hs hv => ?_⟩
  · rw [exec, execGfModnn, withValidSlot_of_invalid _ hv]
  · rw [exec, execGfModnn, withValidSlot_of_valid _ hv, ← ControlBlock.toNat_modnn (slotOk_nn_pos hs hv),
      LogSym.toNat, BitVec.ofNat_toNat]
    rfl

/-- Settles O33: the checks of R131, then GENPOLY[n]; the generator is monic by its last turn. -/
theorem gfGenpolyResult : Obligations.GfGenpolyResult := by
  intro c n s cb
  refine ⟨fun hv => ?_, fun hv hn => ?_, fun _ hv hn => ?_, primitiveSlot_gen_top⟩
  · rw [exec, execGfGenpoly, withValidSlot_of_invalid _ hv]
  · rw [exec, execGfGenpoly, withValidSlot_of_valid _ hv, if_neg (Nat.not_le.mpr hn)]
    rfl
  · rw [exec, execGfGenpoly, withValidSlot_of_valid _ hv, if_pos hn, ControlBlock.gen_eq_getD]
    rfl

/-! ## The product of polynomials (R133)

One step of the register multiplies by x modulo gfpoly, so the register after n steps is the residue of x^n. -/

section

variable {mm gfpoly : Nat}

/-! ### The register is linear -/

/-- R126: a step shifts, and subtracts gfpoly where the shift reaches degree mm. -/
theorem testBit_nextSr (v i : Nat) : (nextSr mm gfpoly v).testBit i =
    (decide (i < mm) && ((v <<< 1).testBit i ^^ ((v <<< 1).testBit mm && gfpoly.testBit i))) := by
  rw [nextSr, Nat.testBit_and, Nat.testBit_two_pow_sub_one, Bool.and_comm]
  cases (v <<< 1).testBit mm <;> simp

theorem nextSr_xor (a b : Nat) : nextSr mm gfpoly (a ^^^ b) = nextSr mm gfpoly a ^^^ nextSr mm gfpoly b := by
  apply Nat.eq_of_testBit_eq
  intro i
  simp only [testBit_nextSr, Nat.testBit_xor, Nat.shiftLeft_xor_distrib, Bool.and_xor_distrib_left,
    Bool.and_xor_distrib_right, Bool.xor_assoc, Bool.xor_left_comm]

theorem registerAfter_xor (n a b : Nat) : registerAfter mm gfpoly n (a ^^^ b) =
    registerAfter mm gfpoly n a ^^^ registerAfter mm gfpoly n b := by
  induction n generalizing a b with
  | zero => rfl
  | succ n ih => rw [registerAfter, nextSr_xor, ih, registerAfter, registerAfter]

/-- The step of a power of two. -/
theorem testBit_nextSr_two_pow (n i : Nat) : (nextSr mm gfpoly (2 ^ n)).testBit i =
    (decide (i < mm) && (decide (n + 1 = i) ^^ (decide (n + 1 = mm) && gfpoly.testBit i))) := by
  have hshift : 2 ^ n <<< 1 = 2 ^ (n + 1) := (Nat.shiftLeft_eq _ 1).trans (pow_succ 2 n).symm
  rw [testBit_nextSr, hshift, Nat.testBit_two_pow, Nat.testBit_two_pow]

/-- Below degree mm a step only shifts. -/
theorem registerAfter_eq_two_pow {n : Nat} (h : n < mm) : registerAfter mm gfpoly n 1 = 2 ^ n := by
  induction n with
  | zero => rfl
  | succ n ih =>
    rw [registerAfter_succ, ih (by omega)]
    apply Nat.eq_of_testBit_eq
    intro i
    rw [testBit_nextSr_two_pow, Nat.testBit_two_pow]
    grind

/-! ### The residue of a polynomial -/

/-- The residue modulo gfpoly of the polynomial whose coefficients are the low `n` bits of `v`: bit i stands for x^i,
whose residue is the register after i steps. -/
def residue (mm gfpoly v : Nat) : Nat → Nat
  | 0 => 0
  | n + 1 => residue mm gfpoly v n ^^^ (if v.testBit n then registerAfter mm gfpoly n 1 else 0)

theorem residue_succ_of_testBit {v n : Nat} (h : v.testBit n = true) :
    residue mm gfpoly v (n + 1) = residue mm gfpoly v n ^^^ registerAfter mm gfpoly n 1 := by
  rw [residue, if_pos h]

theorem residue_succ_of_not_testBit {v n : Nat} (h : v.testBit n = false) :
    residue mm gfpoly v (n + 1) = residue mm gfpoly v n := by
  rw [residue, h]
  exact Nat.xor_zero _

theorem residue_zero (n : Nat) : residue mm gfpoly 0 n = 0 := by
  induction n with
  | zero => rfl
  | succ n ih => rw [residue_succ_of_not_testBit (Nat.zero_testBit n), ih]

theorem residue_xor (a b n : Nat) :
    residue mm gfpoly (a ^^^ b) n = residue mm gfpoly a n ^^^ residue mm gfpoly b n := by
  induction n with
  | zero => exact (Nat.xor_self 0).symm
  | succ n ih =>
    have hterm (p q : Bool) (t : Nat) : (if p ^^ q then t else 0) = (if p then t else 0) ^^^ (if q then t else 0) := by
      cases p <;> cases q <;> simp
    rw [residue, residue, residue, ih, Nat.testBit_xor, hterm]
    ac_rfl

/-- Coefficients above the polynomial's degree add nothing. -/
theorem residue_add_of_lt {v n : Nat} (h : v < 2 ^ n) (k : Nat) :
    residue mm gfpoly v (n + k) = residue mm gfpoly v n := by
  induction k with
  | zero => rfl
  | succ k ih =>
    have hlt : v < 2 ^ (n + k) := h.trans_le (Nat.pow_le_pow_right (by decide) (Nat.le_add_right n k))
    rw [← Nat.add_assoc, residue_succ_of_not_testBit (Nat.testBit_lt_two_pow hlt), ih]

/-- A polynomial of degree below mm is its own residue. -/
theorem residue_eq_mod (v : Nat) {n : Nat} (h : n ≤ mm) : residue mm gfpoly v n = v % 2 ^ n := by
  induction n with
  | zero => rw [pow_zero, Nat.mod_one]; rfl
  | succ n ih =>
    apply Nat.eq_of_testBit_eq
    intro i
    rw [residue, ih (by omega), registerAfter_eq_two_pow h, Nat.testBit_xor, Nat.testBit_mod_two_pow,
      Nat.testBit_mod_two_pow]
    obtain rfl | hne := eq_or_ne i n
    · cases v.testBit i <;> simp
    · have hlt : i < n + 1 ↔ i < n := by omega
      cases v.testBit n <;> simp [hlt, Ne.symm hne]

/-- Multiplying a polynomial by x steps its residue. -/
theorem residue_shiftLeft_one (v n : Nat) :
    residue mm gfpoly (v <<< 1) (n + 1) = nextSr mm gfpoly (residue mm gfpoly v n) := by
  induction n with
  | zero => simp [residue, nextSr]
  | succ n ih =>
    have hbit : (v <<< 1).testBit (n + 1) = v.testBit n := by simp
    cases h : v.testBit n with
    | true =>
      rw [residue_succ_of_testBit (hbit.trans h), residue_succ_of_testBit h, ih, nextSr_xor, registerAfter_succ]
    | false => rw [residue_succ_of_not_testBit (hbit.trans h), residue_succ_of_not_testBit h, ih]

theorem residue_shiftLeft (v n k : Nat) :
    residue mm gfpoly (v <<< k) (n + k) = registerAfter mm gfpoly k (residue mm gfpoly v n) := by
  induction k with
  | zero => rfl
  | succ k ih => rw [Nat.shiftLeft_add, ← Nat.add_assoc, residue_shiftLeft_one, ih, registerAfter_succ]

/-- A polynomial of degree mm has residue 0 modulo itself. -/
theorem residue_gfpoly (hm : 0 < mm) (htop : gfpoly.testBit mm = true) :
    residue mm gfpoly gfpoly (mm + 1) = 0 := by
  obtain ⟨k, rfl⟩ := Nat.exists_eq_add_of_le' hm
  have hstep : registerAfter (k + 1) gfpoly (k + 1) 1 = gfpoly % 2 ^ (k + 1) := by
    rw [registerAfter_succ, registerAfter_eq_two_pow (Nat.lt_succ_self k)]
    apply Nat.eq_of_testBit_eq
    intro i
    rw [testBit_nextSr_two_pow, Nat.testBit_mod_two_pow]
    grind
  rw [residue_succ_of_testBit htop, residue_eq_mod _ le_rfl, hstep, Nat.xor_self]

/-! ### Reduction and product -/

/-- R133: clearing the bits from degree mm on keeps the residue. -/
theorem residue_polyReduce (hm : 0 < mm) (htop : gfpoly.testBit mm = true) (n v : Nat) :
    residue mm gfpoly (polyReduce gfpoly mm n v) mm = residue mm gfpoly v (mm + n) := by
  induction n generalizing v with
  | zero => rfl
  | succ n ih =>
    rw [polyReduce, ih]
    split
    · rename_i hbit
      have hmultiple : residue mm gfpoly (gfpoly <<< n) (mm + n + 1) = 0 := by
        rw [Nat.add_right_comm, residue_shiftLeft, residue_gfpoly hm htop, registerAfter_zero_right]
      have hclear : (v ^^^ gfpoly <<< n).testBit (mm + n) = false := by simp [hbit, htop]
      rw [← residue_succ_of_not_testBit hclear, residue_xor, hmultiple, Nat.xor_zero, Nat.add_assoc]
    · rename_i hbit
      rw [← Nat.add_assoc, residue_succ_of_not_testBit (by simpa using hbit)]

/-- A number whose top bit is clear is below that bit's power of two. -/
theorem lt_two_pow_of_testBit_eq_false {v n : Nat} (h : v < 2 ^ (n + 1)) (hbit : v.testBit n = false) : v < 2 ^ n := by
  apply Nat.lt_pow_two_of_testBit
  intro i hi
  obtain rfl | hgt := Nat.eq_or_lt_of_le hi
  · exact hbit
  · exact Nat.testBit_lt_two_pow (h.trans_le (Nat.pow_le_pow_right (by decide) hgt))

theorem shiftLeft_lt_two_pow {v k : Nat} (h : v < 2 ^ k) (n : Nat) : v <<< n < 2 ^ (k + n) := by
  rw [Nat.shiftLeft_eq, pow_add]
  exact Nat.mul_lt_mul_of_pos_right h (by positivity)

/-- R133: what reduction leaves has degree below mm. -/
theorem polyReduce_lt (hlt : gfpoly < 2 ^ (mm + 1)) (htop : gfpoly.testBit mm = true) {n v : Nat}
    (h : v < 2 ^ (mm + n)) : polyReduce gfpoly mm n v < 2 ^ mm := by
  induction n generalizing v with
  | zero => exact h
  | succ n ih =>
    apply ih
    split
    · rename_i hbit
      have hshift := shiftLeft_lt_two_pow hlt n
      rw [Nat.add_right_comm] at hshift
      exact lt_two_pow_of_testBit_eq_false (Nat.xor_lt_two_pow h hshift) (by simp [hbit, htop])
    · exact lt_two_pow_of_testBit_eq_false h (by simpa using ‹¬ v.testBit (mm + n) = true›)

theorem polyProduct_lt {x : Nat} (hx : x < 2 ^ mm) (y n : Nat) : polyProduct x y n < 2 ^ (mm + n) := by
  induction n with
  | zero => exact Nat.two_pow_pos _
  | succ n ih =>
    have hmono : 2 ^ (mm + n) ≤ 2 ^ (mm + (n + 1)) := Nat.pow_le_pow_right (by decide) (by omega)
    rw [polyProduct]
    refine Nat.xor_lt_two_pow (ih.trans_le hmono) ?_
    split
    · exact (shiftLeft_lt_two_pow hx n).trans_le hmono
    · exact Nat.two_pow_pos _

/-- The residue of x^i · x^n is the register after i + n steps. -/
theorem residue_registerAfter_shiftLeft (hm : 0 < mm) (i : Nat) {n : Nat} (hn : n ≤ mm) :
    residue mm gfpoly (registerAfter mm gfpoly i 1 <<< n) (mm + mm) =
      registerAfter mm gfpoly i (registerAfter mm gfpoly n 1) := by
  have hlt := registerAfter_lt gfpoly (Nat.one_lt_two_pow hm.ne') i
  have hsplit : mm + mm = mm + (mm - n) + n := by omega
  rw [hsplit, residue_shiftLeft, residue_add_of_lt hlt, residue_eq_mod _ le_rfl, Nat.mod_eq_of_lt hlt,
    ← registerAfter_add, ← registerAfter_add, Nat.add_comm]

/-- R133: the product of x^i with a polynomial has that polynomial's residue, `i` steps on. -/
theorem residue_polyProduct (hm : 0 < mm) (i y : Nat) {n : Nat} (hn : n ≤ mm) :
    residue mm gfpoly (polyProduct (registerAfter mm gfpoly i 1) y n) (mm + mm) =
      registerAfter mm gfpoly i (residue mm gfpoly y n) := by
  induction n with
  | zero => rw [polyProduct, residue_zero, residue, registerAfter_zero_right]
  | succ n ih =>
    rw [polyProduct, residue_xor, ih (by omega), residue, registerAfter_xor]
    split
    · rw [residue_registerAfter_shiftLeft hm i (by omega)]
    · rw [residue_zero, registerAfter_zero_right]

/-- R133: x^i times x^j is x^(i+j), modulo gfpoly. -/
theorem polyMul_registerAfter (hm : 0 < mm) (hlt : gfpoly < 2 ^ (mm + 1)) (htop : gfpoly.testBit mm = true)
    (i j : Nat) :
    polyMul gfpoly mm (registerAfter mm gfpoly i 1) (registerAfter mm gfpoly j 1) =
      registerAfter mm gfpoly (i + j) 1 := by
  have hone := Nat.one_lt_two_pow hm.ne'
  have hi := registerAfter_lt gfpoly hone i
  have hj := registerAfter_lt gfpoly hone j
  have hred : polyMul gfpoly mm (registerAfter mm gfpoly i 1) (registerAfter mm gfpoly j 1) < 2 ^ mm :=
    polyReduce_lt hlt htop (polyProduct_lt hi _ mm)
  calc polyMul gfpoly mm (registerAfter mm gfpoly i 1) (registerAfter mm gfpoly j 1)
      = residue mm gfpoly (polyMul gfpoly mm (registerAfter mm gfpoly i 1) (registerAfter mm gfpoly j 1)) mm := by
        rw [residue_eq_mod _ le_rfl, Nat.mod_eq_of_lt hred]
    _ = residue mm gfpoly (polyProduct (registerAfter mm gfpoly i 1) (registerAfter mm gfpoly j 1) mm) (mm + mm) :=
        residue_polyReduce hm htop mm _
    _ = registerAfter mm gfpoly i (residue mm gfpoly (registerAfter mm gfpoly j 1) mm) :=
        residue_polyProduct hm i _ le_rfl
    _ = registerAfter mm gfpoly (i + j) 1 := by
        rw [residue_eq_mod _ le_rfl, Nat.mod_eq_of_lt hj, ← registerAfter_add, Nat.add_comm]

/-- R126: a register that ends at 1 repeats from there on. -/
theorem registerAfter_mod (hsr : finalSr mm gfpoly = 1) (n : Nat) :
    registerAfter mm gfpoly (n % (2 ^ mm - 1)) 1 = registerAfter mm gfpoly n 1 := by
  have hperiod (k : Nat) : registerAfter mm gfpoly ((2 ^ mm - 1) * k) 1 = 1 := by
    induction k with
    | zero => rfl
    | succ k ih => rw [Nat.mul_succ, registerAfter_add, ih, ← finalSr, hsr]
  conv_rhs => rw [← Nat.div_add_mod n (2 ^ mm - 1), registerAfter_add, hperiod]

end

/-- Every nonzero element of a primitive slot's field is a power of x (R126). -/
theorem primitiveSlot_exists_power {cb : ControlBlock} (h : primitiveSlot cb) {x : Elem} (hx : x ≠ 0)
    (hlt : x.toNat ≤ cb.nn.toNat) :
    ∃ n < cb.nn.toNat, registerAfter cb.mm.toNat cb.gfpoly.toNat n 1 = x.toNat := by
  have hnn := (builtSlot_nn h.1).1
  rw [hnn] at hlt ⊢
  exact mem_generated_iff.mp (mem_generated_of_primitive h.2 (fun h0 => hx (BitVec.eq_of_toNat_eq h0)) hlt)

/-- R133: on a primitive slot the product by logarithms is the product of polynomials. -/
theorem primitiveSlot_fieldMul {cb : ControlBlock} (h : primitiveSlot cb) {x y : Elem} (hx : x ≠ 0) (hy : y ≠ 0)
    (hxn : x.toNat ≤ cb.nn.toNat) (hyn : y.toNat ≤ cb.nn.toNat) :
    (fieldMul cb x y).toNat = polyMul cb.gfpoly.toNat cb.mm.toNat x.toNat y.toNat := by
  obtain ⟨i, hi, hxi⟩ := primitiveSlot_exists_power h hx hxn
  obtain ⟨j, hj, hyj⟩ := primitiveSlot_exists_power h hy hyn
  obtain ⟨hnn, hnn1, hmm⟩ := builtSlot_nn h.1
  have hlogx : cb.indexAt x.toNat = i := hxi ▸ primitiveSlot_indexAt h hi
  have hlogy : cb.indexAt y.toNat = j := hyj ▸ primitiveSlot_indexAt h hj
  obtain ⟨hb, hlt, htop, hsr, -⟩ := h
  have hmod := Nat.mod_lt (i + j) (show 0 < cb.nn.toNat by omega)
  have h256 := cb.nn.isLt
  have hreg := registerAfter_lt cb.gfpoly.toNat (Nat.one_lt_two_pow (show cb.mm.toNat ≠ 0 by omega)) (i + j)
  rw [fieldMul_eq (by omega), if_neg (not_or.mpr ⟨hx, hy⟩), hlogx, hlogy, builtSlot_alphaAt hb (by omega),
    if_pos hmod, hnn, registerAfter_mod hsr, ← hxi, ← hyj, polyMul_registerAfter (by omega) hlt htop,
    BitVec.toNat_ofNat]
  exact Nat.mod_eq_of_lt (by omega)

/-- Settles O34: both factors are powers of x, and their product is the power at the sum of the logarithms. -/
theorem gfMulIsPolynomialProduct : Obligations.GfMulIsPolynomialProduct := by
  intro c x y s cb h hx hy hxn hyn
  have hvalid : cb.valid = true := by
    obtain ⟨-, -, -, -, -, -, -, hv⟩ := initBlock_fields h.1 cb.gfpoly.isLt
    exact hv
  rw [execGfMul_of_inField hvalid hxn hyn, ← primitiveSlot_fieldMul h hx hy hxn hyn, BitVec.ofNat_toNat]

end Sys2Proof.Machine
end

section
/-! PROOFS. What kind of state each command writes (R26, R35, R77, R130): the statement about every command. -/

namespace Sys2Proof.Machine

/-! ## The parts of the state -/

/-- The host's registers, parameters and moves, the pending command, and the number of the unspecified contents. -/
def State.hostPart (s : State) :=
  (s.pending, s.level4, s.neras, s.pSymbits, s.pGfpoly, s.pFcr, s.pPrim, s.pNroots, s.pPad, s.params, s.host,
    s.responses, s.latency, s.powerOn)

/-- The decoder session (R31 to R35). -/
def State.sessionPart (s : State) :=
  (s.decState, s.decTag, s.decClass, s.decPos, s.rxLen, s.rxFlags, s.rxErrs)

/-- The commands that write CRC_ACC (R26). -/
def writesCrc : Instr → Bool
  | .crcLoad _ => true
  | .crcByte _ => true
  | .crcBuf _ _ => true
  | _ => false

/-- The commands that write the decoder session (R35). -/
def writesSession : Instr → Bool
  | .nghDecReset => true
  | .nghDecByte _ => true
  | _ => false

/-- On the way from `s` to `t` the command wrote nothing of the host's part, and CRC_ACC and the session only where they
are its own. -/
structure PartsKept (i : Instr) (s t : State) : Prop where
  host : t.hostPart = s.hostPart
  crc : writesCrc i = false → t.crcAcc = s.crcAcc
  session : writesSession i = false → t.sessionPart = s.sessionPart

namespace PartsKept

variable {i : Instr} {s t u : State}

theorem refl (i : Instr) (s : State) : PartsKept i s s := ⟨rfl, fun _ => rfl, fun _ => rfl⟩

/-- An update of no part. -/
theorem other (h : PartsKept i s t) (hhost : u.hostPart = t.hostPart) (hcrc : u.crcAcc = t.crcAcc)
    (hsession : u.sessionPart = t.sessionPart) : PartsKept i s u where
  host := hhost.trans h.host
  crc hi := hcrc.trans (h.crc hi)
  session hi := hsession.trans (h.session hi)

/-- An update of the session, by a command whose own it is. -/
theorem own (h : PartsKept i s t) (hi : writesSession i = true) (hhost : u.hostPart = t.hostPart)
    (hcrc : u.crcAcc = t.crcAcc) : PartsKept i s u where
  host := hhost.trans h.host
  crc hc := hcrc.trans (h.crc hc)
  session hs := absurd hi (by simp [hs])

theorem tagStep (h : PartsKept i s t) (hi : writesSession i = true) (tag : Tag) (d : DecState) :
    PartsKept i s (t.tagStep tag d) :=
  h.own hi rfl rfl

theorem lockOn (h : PartsKept i s t) (hi : writesSession i = true) (c : SlotId) : PartsKept i s (t.lockOn c) :=
  h.own hi rfl rfl

theorem leaveFrame (h : PartsKept i s t) (hi : writesSession i = true) : PartsKept i s t.leaveFrame :=
  h.own hi rfl rfl

theorem resetSession (h : PartsKept i s t) (hi : writesSession i = true) : PartsKept i s t.resetSession :=
  h.own hi rfl rfl

theorem finish (h : PartsKept i s t) (c : StatusCode) (v : Word) : PartsKept i s (t.finish c v) :=
  h.other rfl rfl rfl

theorem setSlot (h : PartsKept i s t) (c : SlotId) (cb : ControlBlock) : PartsKept i s (t.setSlot c cb) :=
  h.other rfl rfl rfl

theorem setCrc (h : PartsKept i s t) (hi : writesCrc i = true) (v : Half) : PartsKept i s (t.setCrc v) where
  host := h.host
  crc hc := absurd hi (by simp [hc])
  session := h.session

theorem spendDraw (h : PartsKept i s t) : PartsKept i s t.spendDraw := by
  unfold State.spendDraw
  split
  · exact h
  · exact h.other rfl rfl rfl

theorem storeRange (h : PartsKept i s t) (b : Buf) (off : Nat) (vs : List Byte) :
    PartsKept i s (t.storeRange b off vs) := by
  rw [State.storeRange_eq]
  exact h.other rfl rfl rfl

theorem storeWrites (h : PartsKept i s t) (b : Buf) (ws : List (Nat × Byte)) : PartsKept i s (t.storeWrites b ws) := by
  rw [State.storeWrites_eq]
  exact h.other rfl rfl rfl

theorem takeByte (h : PartsKept i s t) (hi : writesSession i = true) (b : Byte) : PartsKept i s (t.takeByte b) :=
  (h.storeRange .rxcw t.decPos.toNat [_]).own hi rfl rfl

theorem acceptFrame (h : PartsKept i s t) (hi : writesSession i = true) (payload : List Byte) (flags : BitVec 3)
    (n : Nat) : PartsKept i s (t.acceptFrame payload flags n) :=
  (h.storeRange .rxout 0 payload).own hi rfl rfl

theorem reportDecode (h : PartsKept i s t) (o : RsOutcome) : PartsKept i s (t.reportDecode o) := by
  cases o with
  | clean => exact h.finish _ _
  | uncorrectable => exact h.finish _ _
  | corrected ws ps => exact ((h.storeWrites .dbuf ws).storeRange .epos 0 _).finish _ _

end PartsKept

/-- Where the result is a next state, the command `i` kept the parts of `s` that are not its own. -/
def KeepsParts (i : Instr) (s : State) (r : Result) : Prop := ∀ t, r = .next t → PartsKept i s t

namespace KeepsParts

variable {i : Instr} {s : State}

theorem next {t : State} (h : PartsKept i s t) : KeepsParts i s (.next t) := by
  rintro _ ⟨⟩
  exact h

/-- A command that only ends. -/
theorem finish (c : StatusCode) (v : Word) : KeepsParts i s (.next (s.finish c v)) :=
  next ((PartsKept.refl i s).finish c v)

theorem raise (c : StatusCode) : KeepsParts i s (.next (s.raiseError c)) := finish c 0

theorem ite {p : Prop} [Decidable p] {r r' : Result} (h : KeepsParts i s r) (h' : KeepsParts i s r') :
    KeepsParts i s (if p then r else r') := by
  split
  · exact h
  · exact h'

theorem andThen {α : Type} {x : Except Fault α} {k : α → Result} (h : ∀ a, KeepsParts i s (k a)) :
    KeepsParts i s (andThen x k) := by
  intro t ht
  obtain ⟨a, -, ha⟩ := andThen_next ht
  exact h a t ha

theorem withSlot {slot : BitVec 3} {k : SlotId → ControlBlock → Result} (h : ∀ c cb, KeepsParts i s (k c cb)) :
    KeepsParts i s (withSlot slot s k) := by
  unfold Machine.withSlot
  split
  · exact raise _
  · exact h _ _

theorem withValidSlot {slot : BitVec 3} {k : ControlBlock → Result} (h : ∀ cb, KeepsParts i s (k cb)) :
    KeepsParts i s (withValidSlot slot s k) :=
  withSlot fun _ cb => ite (h cb) (raise _)

end KeepsParts

/-! ## The commands -/

theorem execGfInit_keepsParts (i : Instr) (slot : BitVec 3) (s : State) : KeepsParts i s (execGfInit slot s) := by
  intro t h
  obtain rfl | ⟨c, cb, code, v, rfl, -⟩ := execGfInit_cases h
  · exact (PartsKept.refl i s).finish _ _
  · exact ((PartsKept.refl i s).setSlot c cb).finish code v

theorem execNghSelect_keepsParts (i : Instr) (n : Byte) (s : State) : KeepsParts i s (execNghSelect n s) := by
  unfold execNghSelect
  split
  · exact .raise _
  · exact .finish _ _

theorem execNghEncode_keepsParts (i : Instr) (len : Byte) (flags : BitVec 3) (s : State) :
    KeepsParts i s (execNghEncode len flags s) := by
  unfold execNghEncode
  split
  · exact .raise _
  · exact .ite (.andThen fun _ => .next (((PartsKept.refl i s).storeRange ..).finish _ _)) (.raise _)

theorem execRsEncode_keepsParts (i : Instr) (slot : BitVec 3) (s : State) : KeepsParts i s (execRsEncode slot s) :=
  .withValidSlot fun _ => .andThen fun _ =>
    .ite (.raise _) (.next ((((PartsKept.refl i s).storeRange ..).storeRange ..).finish _ _))

theorem execRsDecode_keepsParts (i : Instr) (slot : BitVec 3) (s : State) : KeepsParts i s (execRsDecode slot s) :=
  .withValidSlot fun _ => .ite (.raise _) <| .andThen fun _ => .ite (.raise _) <| .andThen fun _ =>
    .ite (.raise _) (.next ((PartsKept.refl i s).spendDraw.reportDecode _))

/-- Judging a frame writes the session and RXOUT (R261, R264). -/
theorem State.judge_partsKept {i : Instr} {s t : State} (h : PartsKept i s t) (hi : writesSession i = true)
    (c : SlotId) (cw : List Byte) (n : Nat) : PartsKept i s (t.judge c cw n) := by
  unfold State.judge
  split
  · exact h.finish _ _
  · exact h.finish _ _
  · exact (h.acceptFrame hi ..).finish _ _

theorem State.frameDecoded_partsKept {i : Instr} {s t : State} (h : PartsKept i s t) (hi : writesSession i = true)
    (c : SlotId) (d : List Byte) (o : RsOutcome) : PartsKept i s (t.frameDecoded c d o) := by
  cases o with
  | clean => exact State.judge_partsKept h hi c d 0
  | uncorrectable => exact h.finish _ _
  | corrected ws ps => exact State.judge_partsKept (h.storeWrites .rxcw ws) hi c _ _

theorem execNghDecByte_keepsParts (b : Byte) (s : State) : KeepsParts (.nghDecByte b) s (execNghDecByte b s) := by
  have htag (tag : Tag) (d : DecState) := (PartsKept.refl (.nghDecByte b) s).tagStep rfl tag d
  have hbyte := (PartsKept.refl (.nghDecByte b) s).takeByte rfl b
  have hend := hbyte.leaveFrame rfl
  unfold execNghDecByte
  split
  · exact .next ((htag _ _).finish _ _)
  · exact .next ((htag _ _).finish _ _)
  · simp only
    split
    · exact .next (((htag _ _).lockOn rfl _).finish _ _)
    · exact .next ((htag _ _).finish _ _)
  · refine .ite (.next (hbyte.finish _ _)) (.ite (.andThen fun _ => .next ?_) (.next (hend.finish _ _)))
    exact State.frameDecoded_partsKept hend.spendDraw rfl _ _ _

/-- Every command keeps the parts of the state that are not its own. -/
theorem exec_keepsParts (i : Instr) (s : State) : KeepsParts i s (exec i s) := by
  cases i with
  | nop => exact .finish _ _
  | gfInit slot => exact execGfInit_keepsParts _ slot s
  | gfMul slot x y =>
    unfold exec execGfMul
    exact .withValidSlot fun _ => .ite (.finish _ _) (.raise _)
  | gfDiv slot x y =>
    unfold exec execGfDiv
    exact .withValidSlot fun _ => .ite (.ite (.raise _) (.finish _ _)) (.raise _)
  | gfLog slot x =>
    unfold exec execGfLog
    exact .withValidSlot fun _ => .ite (.finish _ _) (.raise _)
  | gfExp slot n =>
    unfold exec execGfExp
    exact .withValidSlot fun _ => .ite (.finish _ _) (.raise _)
  | gfModnn slot v =>
    unfold exec execGfModnn
    exact .withValidSlot fun _ => .finish _ _
  | gfGenpoly slot n =>
    unfold exec execGfGenpoly
    exact .withValidSlot fun _ => .ite (.finish _ _) (.raise _)
  | rsEncode slot => exact execRsEncode_keepsParts _ slot s
  | rsDecode slot => exact execRsDecode_keepsParts _ slot s
  | crcLoad v => exact .next (((PartsKept.refl _ s).setCrc rfl v).finish _ _)
  | crcByte b => exact .next (((PartsKept.refl _ s).setCrc rfl _).finish _ _)
  | crcBuf off len =>
    exact .ite (.andThen fun _ => .next (((PartsKept.refl _ s).setCrc rfl _).finish _ _)) (.raise _)
  | scrApply off len =>
    exact .ite (.andThen fun _ => .next (((PartsKept.refl _ s).storeRange ..).finish _ _)) (.raise _)
  | scrRead n => exact .ite (.finish _ _) (.raise _)
  | nghSelect n => exact execNghSelect_keepsParts _ n s
  | nghTagLookup t => exact .finish _ _
  | nghEncode len flags => exact execNghEncode_keepsParts _ len flags s
  | nghDecReset => exact .next (((PartsKept.refl _ s).resetSession rfl).finish _ _)
  | nghDecByte b => exact execNghDecByte_keepsParts b s

/-- Slots are written by GF_INIT alone (R130). -/
theorem exec_cb {i : Instr} {s t : State} (h : exec i s = .next t) (hi : ∀ slot, i ≠ .gfInit slot) :
    t.cb = s.cb := by
  obtain hk | ⟨slot, rfl⟩ | rfl | ⟨b, rfl⟩ := exec_kept_or h
  · exact hk.cb
  · exact absurd rfl (hi slot)
  · cases h
    rfl
  · exact (execNghDecByte_cases h).1

/-! ## The buffers -/

/-- Writes of bytes of other buffers leave a buffer's bytes as they were. -/
theorem Stored.readCell_addr {bufs : List Buf} {m m' : Memory} (h : Stored bufs m m') {b : Buf} (hb : b ∉ bufs)
    {n : Nat} (hn : n < b.size) : readCell m' (b.addr n) = readCell m (b.addr n) := by
  induction h with
  | refl => rfl
  | write _ hc hi v ih =>
    rw [readCell_writeCell_other _ v fun he => hb ((Buf.addr_inj hn hi he).1 ▸ hc), ih]

/-- A buffer that is not the command's own is as it was. -/
theorem exec_sameByte {i : Instr} {s t : State} (h : exec i s = .next t) {b : Buf} (hb : b ∉ storedBuffers i)
    (hp : t.params = s.params) (ho : t.powerOn = s.powerOn) (n : Nat) : sameByte s t b n := by
  have hw : t.written? b n = s.written? b n := by
    unfold State.written?
    split
    · exact (exec_stores i s t h).readCell_addr hb ‹_›
    · rfl
  exact ⟨hw, State.loadByte_congr hw hp ho⟩

/-- Which commands write a buffer (R77). -/
theorem mem_storedBuffers_cases {i : Instr} {b : Buf} (h : b ∈ storedBuffers i) :
    (b = .dbuf ∧ ((∃ c, i = .rsEncode c) ∨ (∃ c, i = .rsDecode c) ∨ ∃ o n, i = .scrApply o n)) ∨
    (b = .pbuf ∧ ∃ c, i = .rsEncode c) ∨ (b = .epos ∧ ∃ c, i = .rsDecode c) ∨
    (b = .fbuf ∧ ∃ n f, i = .nghEncode n f) ∨ ((b = .rxcw ∨ b = .rxout) ∧ ∃ x, i = .nghDecByte x) := by
  cases i <;> simp_all [storedBuffers]

/-- Settles O56: each command keeps the parts of the state and the buffers that are not its own. -/
theorem commandsWriteOnlyTheirState : Obligations.CommandsWriteOnlyTheirState := by
  intro i s t h
  obtain ⟨hhost, hcrc, hsession⟩ := exec_keepsParts i s t h
  simp only [State.hostPart, Prod.mk.injEq] at hhost
  simp only [State.sessionPart, Prod.mk.injEq] at hsession
  have hbuf {b : Buf} (hb : b ∉ storedBuffers i) (n : Nat) : sameByte s t b n := by
    obtain ⟨-, -, -, -, -, -, -, -, -, hparams, -, -, -, hpowerOn⟩ := hhost
    exact exec_sameByte h hb hparams hpowerOn n
  refine ⟨hhost, exec_cb h, fun hl hb hf => hcrc ?_, fun hr hd => hsession ?_, fun he hd hs => hbuf fun hm => ?_,
    fun he => hbuf fun hm => ?_, fun hd => hbuf fun hm => ?_, fun he => hbuf fun hm => ?_,
    fun hd n => ⟨hbuf (fun hm => ?_) n, hbuf (fun hm => ?_) n⟩⟩
  · cases i <;> simp_all [writesCrc]
  · cases i <;> simp_all [writesSession]
  · simpa [he, hd, hs] using mem_storedBuffers_cases hm
  · simpa [he] using mem_storedBuffers_cases hm
  · simpa [hd] using mem_storedBuffers_cases hm
  · simpa [he] using mem_storedBuffers_cases hm
  · simpa [hd] using mem_storedBuffers_cases hm
  · simpa [hd] using mem_storedBuffers_cases hm

end Sys2Proof.Machine
end

section
/-! PROOFS. The statements of 41_rs.md about the commands RS_ENCODE and RS_DECODE: their checks in order, and what they
write (R161, R166, R175). -/

namespace Sys2Proof.Machine

/-! ## The range check (R161, R166) -/

theorem anyOutside_of_exists {cb : ControlBlock} {d : List Elem} (h : ∃ x ∈ d, cb.nn.toNat < x.toNat) :
    cb.anyOutside d = true := by
  obtain ⟨x, hx, hlt⟩ := h
  have hfield : cb.fieldSize < 255 := by have := x.isLt; simp only [ControlBlock.fieldSize]; omega
  rw [ControlBlock.anyOutside, decide_eq_true hfield, Bool.true_and]
  exact List.any_eq_true.mpr ⟨x, hx, decide_eq_true hlt⟩

theorem anyOutside_of_forall {cb : ControlBlock} {d : List Elem} (h : ∀ x ∈ d, x.toNat ≤ cb.nn.toNat) :
    cb.anyOutside d = false := by
  have hany : d.any (fun x => decide (cb.fieldSize < x.toNat)) = false :=
    List.any_eq_false.mpr fun x hx => by simpa using h x hx
  rw [ControlBlock.anyOutside, hany, Bool.and_false]

/-! ## Bytes left alone -/

theorem sameByte_of_written {s t : State} {b : Buf} {i : Nat} (hw : t.written? b i = s.written? b i)
    (hp : t.params = s.params) (ho : t.powerOn = s.powerOn) : sameByte s t b i :=
  ⟨hw, State.loadByte_congr hw hp ho⟩

/-- A store of a list of bytes gives each of them back, by default value. -/
theorem State.written?_storeRange_getD (s : State) (b : Buf) {off j : Nat} (vs : List Byte) (hj : j < vs.length)
    (hs : off + j < b.size) : (s.storeRange b off vs).written? b (off + j) = some (vs.getD j 0) := by
  rw [State.written?_storeRange_same s b vs hj hs, List.getD_eq_getElem]

/-! ## RS_ENCODE (R161) -/

/-- R161: the state with a parity written to PBUF and, from index `k` on, to DBUF. -/
def State.storeParity (s : State) (k : Nat) (p : List Elem) : State :=
  (s.storeRange .pbuf 0 p).storeRange .dbuf k p

section

variable (s : State) {k : Nat} {p : List Elem}

theorem State.storeParity_eq : s.storeParity k p = { s with mem := (s.storeParity k p).mem } := by
  rw [State.storeParity, State.storeRange_eq, State.storeRange_eq]

theorem State.written?_storeParity_pbuf {j : Nat} (hj : j < p.length) (hp : p.length ≤ 64) :
    (s.storeParity k p).written? .pbuf j = some (p.getD j 0) := by
  rw [State.storeParity, State.written?_storeRange_other _ _ (by simp), ← Nat.zero_add j,
    State.written?_storeRange_getD s .pbuf p hj (by simp only [Buf.size]; omega), Nat.zero_add]

theorem State.written?_storeParity_dbuf {j : Nat} (hj : j < p.length) (hk : k + p.length ≤ 256) :
    (s.storeParity k p).written? .dbuf (k + j) = some (p.getD j 0) :=
  State.written?_storeRange_getD _ .dbuf p hj (by simp only [Buf.size]; omega)

theorem State.written?_storeParity_other {b : Buf} {i : Nat} (hpb : ¬ (b = .pbuf ∧ i < p.length))
    (hdb : ¬ (b = .dbuf ∧ k ≤ i ∧ i < k + p.length)) : (s.storeParity k p).written? b i = s.written? b i := by
  rw [State.storeParity, State.written?_storeRange_other _ _ hdb,
    State.written?_storeRange_other _ _ fun ⟨hb, _, hi⟩ => hpb ⟨hb, by omega⟩]

end

section

variable {c : SlotId} {s : State} {msg : List Elem} (hv : s.cb[c].valid = true)
  (hload : s.loadRange .dbuf 0 s.cb[c].msgLen = .ok msg)

include hv hload

theorem execRsEncode_of_outside (hx : ∃ x ∈ msg, s.cb[c].nn.toNat < x.toNat) :
    exec (.rsEncode (slotBits c)) s = .next { s with code := .range, result := 0 } := by
  rw [exec, execRsEncode, withValidSlot_of_valid _ hv, andThen_ok _ hload, if_pos (anyOutside_of_exists hx)]
  rfl

/-- R161: RS_ENCODE of a message of field elements. -/
theorem execRsEncode_of_inField (hx : ∀ x ∈ msg, x.toNat ≤ s.cb[c].nn.toNat) :
    exec (.rsEncode (slotBits c)) s =
      .next ((s.storeParity s.cb[c].msgLen (rsParity s.cb[c] msg)).finish .ok 0) := by
  rw [exec, execRsEncode, withValidSlot_of_valid _ hv, andThen_ok _ hload, anyOutside_of_forall hx]
  rfl

end

/-- R44: the parity fits PBUF, and with the message DBUF. -/
theorem slotOk_parity_fits {cb : ControlBlock} (h : slotOk cb) (hv : cb.valid = true) :
    cb.nroots.toNat ≤ 64 ∧ cb.msgLen + cb.nroots.toNat ≤ 256 := by
  have hb := h hv
  have hn := cb.nn.isLt
  simp only [maxRoots, ControlBlock.msgLen, ControlBlock.fieldSize, ControlBlock.roots] at *
  omega

/-- Settles O35: the checks in order, then the two stores of the parity. -/
theorem rsEncodeEffect : Obligations.RsEncodeEffect := by
  intro c s cb k hs
  refine ⟨fun hv => ?_, fun hv msg hload => ⟨execRsEncode_of_outside hv hload, fun hx => ?_⟩⟩
  · rw [exec, execRsEncode, withValidSlot_of_invalid _ hv]
  · have hlen : (rsParity cb msg).length = cb.nroots.toNat := rsParity_length cb msg
    obtain ⟨hp, hk⟩ := slotOk_parity_fits hs hv
    refine ⟨hlen, _, execRsEncode_of_inField hv hload hx, ?_, fun j hj => ⟨?_, ?_⟩, fun b i hpb hdb => ?_⟩
    · rw [State.storeParity_eq]
      rfl
    · exact State.written?_storeParity_pbuf s (hlen.symm ▸ hj) (hlen.symm ▸ hp)
    · exact State.written?_storeParity_dbuf s (hlen.symm ▸ hj) (hlen.symm ▸ hk)
    · rw [← hlen] at hpb hdb
      have hw := State.written?_storeParity_other s hpb hdb
      refine sameByte_of_written hw ?_ ?_ <;> rw [State.storeParity_eq] <;> rfl

/-! ## RS_DECODE (R166, R175) -/

section

variable {c : SlotId} {s : State} (hv : s.cb[c].valid = true)

include hv

theorem execRsDecode_of_many_erasures (hr : s.cb[c].nroots.toNat < s.neras.toNat) :
    exec (.rsDecode (slotBits c)) s = .next { s with code := .param, result := 0 } := by
  rw [exec, execRsDecode, withValidSlot_of_valid _ hv, if_pos hr]
  rfl

variable {q : List Byte} (hr : s.neras.toNat ≤ s.cb[c].nroots.toNat)
  (hq : s.loadRange .epos 0 s.neras.toNat = .ok q)

include hr hq

theorem execRsDecode_of_bad_erasure (hbad : ∃ p ∈ q, s.cb[c].nn.toNat - 1 < p.toNat) :
    exec (.rsDecode (slotBits c)) s = .next { s with code := .param, result := 0 } := by
  have hany : badErasure s.cb[c] q = true := by simpa [badErasure] using hbad
  rw [exec, execRsDecode, withValidSlot_of_valid _ hv, if_neg (Nat.not_lt.mpr hr), andThen_ok _ hq, if_pos hany]
  rfl

variable {d : List Byte} (hgood : ∀ p ∈ q, p.toNat ≤ s.cb[c].nn.toNat - 1)
  (hd : s.loadRange .dbuf 0 s.cb[c].blockLen = .ok d)

include hgood hd

/-- R166: past the checks of the erasures the word is checked, then decoded. -/
theorem execRsDecode_of_loaded : exec (.rsDecode (slotBits c)) s =
    if s.cb[c].anyOutside d then .next (s.raiseError .range)
    else .next (s.spendDraw.reportDecode (rsOutcome s.params s.fresh s.cb[c] d (q.map BitVec.toNat))) := by
  have hany : ¬ badErasure s.cb[c] q = true := by simpa [badErasure] using hgood
  rw [exec, execRsDecode, withValidSlot_of_valid _ hv, if_neg (Nat.not_lt.mpr hr), andThen_ok _ hq, if_neg hany,
    andThen_ok _ hd]

theorem execRsDecode_of_outside (hx : ∃ x ∈ d, s.cb[c].nn.toNat < x.toNat) :
    exec (.rsDecode (slotBits c)) s = .next { s with code := .range, result := 0 } := by
  rw [execRsDecode_of_loaded hv hr hq hgood hd, if_pos (anyOutside_of_exists hx)]
  rfl

theorem execRsDecode_of_inField (hx : ∀ x ∈ d, x.toNat ≤ s.cb[c].nn.toNat) :
    exec (.rsDecode (slotBits c)) s =
      .next (s.spendDraw.reportDecode (rsOutcome s.params s.fresh s.cb[c] d (q.map BitVec.toNat))) := by
  rw [execRsDecode_of_loaded hv hr hq hgood hd, anyOutside_of_forall hx]
  rfl

end

theorem State.exists_spendDraw_eq (s : State) : ∃ f, s.spendDraw = { s with fresh := f } := by
  unfold State.spendDraw
  split
  · exact ⟨s.fresh, rfl⟩
  · exact ⟨s.fresh + 1, rfl⟩

theorem State.spendDraw_of_exact {s : State} (h : s.params.beyondBound = .exact) : s.spendDraw = s := by
  rw [State.spendDraw, h]

theorem rsOutcome_of_exact {p : Params} (h : p.beyondBound = .exact) (draw : Nat) (cb : ControlBlock) (d : List Elem)
    (q : List Nat) : rsOutcome p draw cb d q = rsDecode cb d q := by
  rw [rsOutcome, h]

/-- R175: whatever the outcome, the report writes the buffers and ends the command. -/
theorem State.spendDraw_reportDecode_eq (s : State) (o : RsOutcome) : s.spendDraw.reportDecode o =
    { s with
      mem := (s.spendDraw.reportDecode o).mem, code := (s.spendDraw.reportDecode o).code,
      result := (s.spendDraw.reportDecode o).result, fresh := (s.spendDraw.reportDecode o).fresh } := by
  obtain ⟨f, hf⟩ := s.exists_spendDraw_eq
  rw [hf]
  obtain ⟨-, h⟩ | ⟨-, h⟩ | ⟨ws, ps, -, h⟩ := State.reportDecode_cases { s with fresh := f } o <;> rw [h]

theorem State.reportDecode_fresh (s : State) (o : RsOutcome) : (s.reportDecode o).fresh = s.fresh := by
  obtain ⟨-, h⟩ | ⟨-, h⟩ | ⟨ws, ps, -, h⟩ := s.reportDecode_cases o <;> rw [h]

/-- R175: the state after a correction, before the command's end. -/
def State.storeCorrection (s : State) (ws : List (Nat × Elem)) (ps : List Nat) : State :=
  (s.storeWrites .dbuf ws).storeRange .epos 0 (ps.map (BitVec.ofNat 8))

section

variable (s : State) {ws : List (Nat × Elem)} {ps : List Nat}

theorem State.written?_storeCorrection_epos {i : Nat} (hi : i < ps.length) (hp : ps.length ≤ 64) :
    (s.storeCorrection ws ps).written? .epos i = some (BitVec.ofNat 8 (ps.getD i 0)) := by
  have hstore := State.written?_storeRange_getD (s.storeWrites .dbuf ws) .epos (off := 0) (j := i)
    (ps.map (BitVec.ofNat 8)) (by simpa using hi) (by simp only [Buf.size]; omega)
  rw [Nat.zero_add, List.getD_eq_getElem _ _ (by simpa using hi), List.getElem_map] at hstore
  rw [List.getD_eq_getElem _ _ hi]
  exact hstore

theorem State.loadByte_storeCorrection_dbuf {d : List Byte}
    (hd : ∀ j (hj : j < d.length), s.loadByte .dbuf j = .ok d[j]) (hlen : d.length ≤ 256)
    (hw : ∀ w ∈ ws, w.1 < d.length) {j : Nat} (hj : j < d.length) :
    (s.storeCorrection ws ps).loadByte .dbuf j = .ok ((applyWrites d ws).getD j 0) := by
  have hepos : (s.storeCorrection ws ps).written? .dbuf j = (s.storeWrites .dbuf ws).written? .dbuf j :=
    State.written?_storeRange_other _ _ (by simp)
  rw [State.loadByte_congr hepos (by simp [State.storeCorrection]) (by simp [State.storeCorrection]),
    State.loadByte_storeWrites s .dbuf d ws hd hlen hw j hj, List.getD_eq_getElem]

theorem State.written?_storeCorrection_other {n : Nat} (hw : ∀ w ∈ ws, w.1 < n) {b : Buf} {i : Nat}
    (hdb : ¬ (b = .dbuf ∧ i < n)) (hep : ¬ (b = .epos ∧ i < ps.length)) :
    (s.storeCorrection ws ps).written? b i = s.written? b i := by
  rw [State.storeCorrection,
    State.written?_storeRange_other _ _ fun ⟨hb, _, hi⟩ => hep ⟨hb, by simpa using hi⟩,
    State.written?_storeWrites_other _ _ fun w hm ⟨hb, hi⟩ => hdb ⟨hb, hi ▸ hw w hm⟩]

end

/-- Settles O37: the checks in order, then the report of the outcome. -/
theorem rsDecodeEffect : Obligations.RsDecodeEffect := by
  intro c s cb run n
  refine ⟨fun hv => ?_, execRsDecode_of_many_erasures, fun hv hr q hq => ⟨execRsDecode_of_bad_erasure hv hr hq,
    fun hgood d hd => ⟨execRsDecode_of_outside hv hr hq hgood hd, fun hs hi hx => ?_⟩⟩⟩
  · exact (withValidSlot_of_invalid _ hv : execRsDecode (slotBits c) s = _)
  obtain ⟨hn, hi', hr', hmax, hblock⟩ := slotOk_bounds hs hi hv
  obtain ⟨hlen : d.length = cb.blockLen, hbytes⟩ := State.loadRange_ok hd
  have hrun := execRsDecode_of_inField hv hr hq hgood hd hx
  generalize ho : rsOutcome s.params s.fresh cb d (q.map BitVec.toNat) = o at hrun
  intro o'
  refine ⟨fun he => ho.symm.trans (rsOutcome_of_exact he ..), fun hcw => ho.symm.trans (rsOutcome_clean _ _ _ _ _ hcw),
    _, hrun, s.spendDraw_reportDecode_eq o, fun he => ?_, ?_⟩
  · rw [State.reportDecode_fresh, State.spendDraw_of_exact he]
  cases o with
  | clean => exact ⟨rfl, rfl, s.spendDraw_mem⟩
  | uncorrectable => exact ⟨rfl, rfl, s.spendDraw_mem⟩
  | corrected ws ps =>
    obtain ⟨hcount, hw, hnone⟩ := rsOutcome_corrected ho hn hi' hr' hlen
    have hp64 : ps.length ≤ 64 := hcount.trans hmax
    rw [← hlen] at hw
    refine ⟨rfl, ?_, hcount, hnone, fun j hj => ?_, fun i hi => ?_, fun b i hdb hep => ?_⟩
    · exact (BitVec.toNat_ofNat ..).trans (Nat.mod_eq_of_lt (by omega))
    · refine State.loadByte_storeCorrection_dbuf s.spendDraw (ps := ps) (fun i hi => ?_) ?_ hw (hj.trans_eq hlen.symm)
      · exact (State.loadByte_congr (State.written?_congr s.spendDraw_mem ..) (by simp) (by simp)).trans
          (by simpa using hbytes i hi)
      · omega
    · exact State.written?_storeCorrection_epos _ hi hp64
    · have hwritten := State.written?_storeCorrection_other s.spendDraw hw
        (fun h => hdb ⟨h.1, h.2.trans_eq hlen⟩) hep
      refine sameByte_of_written (hwritten.trans (State.written?_congr s.spendDraw_mem ..)) ?_ ?_ <;>
        rw [State.spendDraw_reportDecode_eq]

end Sys2Proof.Machine
end

section
/-! PROOFS. The field of a primitive slot (R120, R126, R133): its symbols as elements of a field of characteristic 2 in
which ALPHA gives the powers of one element, and the sums of 41_rs.md as sums and polynomials over that field. -/

namespace Sys2Proof.Machine

open Polynomial

/-! ## The register in a ring (R126)

In a ring of characteristic 2 with a root `a` of gfpoly, the number whose bits are the coefficients of a polynomial
stands for that polynomial's value at `a`, and a step of the register multiplies by `a`. -/

section

variable {R : Type} [CommRing R]

/-- The value at `a` of the polynomial whose coefficients are the low `n` bits of `v`. -/
def bitValue (a : R) (n v : Nat) : R := ∑ i ∈ Finset.range n, if v.testBit i then a ^ i else 0

theorem map_bitValue {S : Type} [CommRing S] (f : R →+* S) (a : R) (n v : Nat) :
    f (bitValue a n v) = bitValue (f a) n v := by
  rw [bitValue, bitValue, map_sum]
  refine Finset.sum_congr rfl fun i _ => ?_
  rw [apply_ite f, map_pow, map_zero]

theorem bitValue_xor [CharP R 2] (a : R) (n v w : Nat) : bitValue a n (v ^^^ w) = bitValue a n v + bitValue a n w := by
  rw [bitValue, bitValue, bitValue, ← Finset.sum_add_distrib]
  refine Finset.sum_congr rfl fun i _ => ?_
  rw [Nat.testBit_xor]
  cases v.testBit i <;> cases w.testBit i <;> simp [CharTwo.add_self_eq_zero]

theorem bitValue_zero (a : R) (n : Nat) : bitValue a n 0 = 0 := by simp [bitValue]

theorem bitValue_one (a : R) {n : Nat} (hn : 0 < n) : bitValue a n 1 = 1 := by
  obtain ⟨k, rfl⟩ := Nat.exists_eq_add_of_le' hn
  simp [bitValue, Finset.sum_range_succ', Nat.testBit_succ]

/-- R126: a step of the register multiplies by the root of gfpoly. -/
theorem bitValue_nextSr [CharP R 2] {a : R} {mm gfpoly : Nat} (hm : 0 < mm) (htop : gfpoly.testBit mm = true)
    (hroot : bitValue a (mm + 1) gfpoly = 0) (v : Nat) :
    bitValue a mm (nextSr mm gfpoly v) = a * bitValue a mm v := by
  obtain ⟨k, rfl⟩ := Nat.exists_eq_add_of_le' hm
  have hlow : bitValue a (k + 1) gfpoly = a ^ (k + 1) := by
    rw [bitValue, Finset.sum_range_succ, htop, if_pos rfl, ← bitValue] at hroot
    exact CharTwo.add_eq_zero.mp hroot
  have hshift : ∑ i ∈ Finset.range (k + 1), (if (v <<< 1).testBit i then a ^ i else 0) = a * bitValue a k v := by
    rw [Finset.sum_range_succ', bitValue, Finset.mul_sum]
    simp [pow_succ', mul_ite]
  have hbit : (v <<< 1).testBit (k + 1) = v.testBit k := by simp
  calc bitValue a (k + 1) (nextSr (k + 1) gfpoly v)
      = ∑ i ∈ Finset.range (k + 1), ((if (v <<< 1).testBit i then a ^ i else 0) +
          (if v.testBit k then if gfpoly.testBit i then a ^ i else 0 else 0)) := by
        refine Finset.sum_congr rfl fun i hi => ?_
        rw [testBit_nextSr, hbit, decide_eq_true (Finset.mem_range.mp hi)]
        cases (v <<< 1).testBit i <;> cases v.testBit k <;> cases gfpoly.testBit i <;>
          simp [CharTwo.add_self_eq_zero]
    _ = a * bitValue a k v + if v.testBit k then a ^ (k + 1) else 0 := by
        rw [Finset.sum_add_distrib, hshift, ← hlow]
        cases v.testBit k <;> simp [bitValue]
    _ = a * bitValue a (k + 1) v := by
        rw [bitValue, bitValue, Finset.sum_range_succ, mul_add, mul_ite, mul_zero, pow_succ']

/-- R126: the register after `n` steps stands for the power `n` of the root. -/
theorem bitValue_registerAfter [CharP R 2] {a : R} {mm gfpoly : Nat} (hm : 0 < mm) (htop : gfpoly.testBit mm = true)
    (hroot : bitValue a (mm + 1) gfpoly = 0) (n : Nat) : bitValue a mm (registerAfter mm gfpoly n 1) = a ^ n := by
  induction n with
  | zero => exact (bitValue_one a hm).trans (pow_zero a).symm
  | succ n ih => rw [registerAfter_succ, bitValue_nextSr hm htop hroot, ih, pow_succ']

end

/-! ## The field with a root of a primitive gfpoly -/

section

variable {mm gfpoly : Nat}

/-- The polynomial over GF(2) whose coefficients are the low `n` bits of `v`. -/
noncomputable abbrev bitPoly (n v : Nat) : (ZMod 2)[X] := bitValue X n v

theorem bitPoly_coeff (n v i : Nat) : (bitPoly n v).coeff i = if i < n ∧ v.testBit i then 1 else 0 := by
  have hterm (j : Nat) : (if v.testBit j then (X : (ZMod 2)[X]) ^ j else 0).coeff i =
      if i = j then (if v.testBit j then 1 else 0) else 0 := by
    split <;> simp [coeff_X_pow]
  rw [bitPoly, bitValue, finsetSum_coeff, Finset.sum_congr rfl fun j _ => hterm j, Finset.sum_ite_eq, ite_and]
  simp

theorem bitPoly_degree_lt (n v : Nat) : (bitPoly n v).degree < n := by
  rw [degree_lt_iff_coeff_zero]
  intro i hi
  rw [bitPoly_coeff, if_neg (by omega)]

theorem eq_zero_of_bitPoly_eq_zero {n v : Nat} (hv : v < 2 ^ n) (h : bitPoly n v = 0) : v = 0 := by
  apply Nat.eq_of_testBit_eq
  intro i
  rw [Nat.zero_testBit, Bool.eq_false_iff]
  intro hbit
  have hcoeff := bitPoly_coeff n v i
  have hi : i < n := by
    by_contra hge
    rw [Nat.testBit_lt_two_pow (hv.trans_le (Nat.pow_le_pow_right two_pos (Nat.not_lt.mp hge)))] at hbit
    cases hbit
  rw [h, coeff_zero, if_pos ⟨hi, hbit⟩] at hcoeff
  exact zero_ne_one hcoeff

theorem bitPoly_degree (htop : gfpoly.testBit mm = true) : (bitPoly (mm + 1) gfpoly).degree = mm := by
  refine degree_eq_of_le_of_coeff_ne_zero ((degree_le_iff_coeff_zero _ _).mpr fun i hi => ?_) ?_
  · have hlt : mm < i := by exact_mod_cast hi
    rw [bitPoly_coeff, if_neg (by omega)]
  · rw [bitPoly_coeff, if_pos ⟨Nat.lt_succ_self mm, htop⟩]
    exact one_ne_zero

/-- GF(2)[x] modulo gfpoly (R133). -/
noncomputable abbrev gfRing (mm gfpoly : Nat) : Type := AdjoinRoot (bitPoly (mm + 1) gfpoly)

/-- The class of x, a root of gfpoly (R126). -/
noncomputable abbrev gfRoot (mm gfpoly : Nat) : gfRing mm gfpoly := AdjoinRoot.root _

theorem bitValue_gfRoot (n v : Nat) : bitValue (gfRoot mm gfpoly) n v = AdjoinRoot.mk _ (bitPoly n v) := by
  rw [map_bitValue, AdjoinRoot.mk_X]

theorem gfRing_charP (htop : gfpoly.testBit mm = true) (hm : 0 < mm) : CharP (gfRing mm gfpoly) 2 := by
  have hne : (bitPoly (mm + 1) gfpoly).degree ≠ 0 := by
    rw [bitPoly_degree htop]
    exact_mod_cast hm.ne'
  exact charP_of_injective_algebraMap (AdjoinRoot.of.injective_of_degree_ne_zero hne) 2

theorem gfRoot_root : bitValue (gfRoot mm gfpoly) (mm + 1) gfpoly = 0 := by
  rw [bitValue_gfRoot, AdjoinRoot.mk_self]

/-- A polynomial of degree below mm is 0 modulo gfpoly only when it is 0. -/
theorem eq_zero_of_bitValue_gfRoot_eq_zero (htop : gfpoly.testBit mm = true) {v : Nat} (hv : v < 2 ^ mm)
    (h : bitValue (gfRoot mm gfpoly) mm v = 0) : v = 0 := by
  rw [bitValue_gfRoot, AdjoinRoot.mk_eq_zero] at h
  refine eq_zero_of_bitPoly_eq_zero hv (eq_zero_of_dvd_of_degree_lt h ?_)
  rw [bitPoly_degree htop]
  exact bitPoly_degree_lt mm v

variable (hm : 0 < mm) (hp : primitiveGfpoly mm gfpoly)

include hm hp

/-- Every class has a polynomial of degree below mm. -/
theorem exists_bitValue_gfRoot (r : gfRing mm gfpoly) : ∃ v < 2 ^ mm, bitValue (gfRoot mm gfpoly) mm v = r := by
  obtain ⟨-, htop, -, -⟩ := hp
  have := gfRing_charP htop hm
  induction r using AdjoinRoot.induction_on with
  | ih f =>
    induction f using Polynomial.induction_on' with
    | add f g hf hg =>
      obtain ⟨v, hv, hvf⟩ := hf
      obtain ⟨w, hw, hwg⟩ := hg
      exact ⟨v ^^^ w, Nat.xor_lt_two_pow hv hw, by rw [bitValue_xor, hvf, hwg, map_add]⟩
    | monomial n c =>
      obtain rfl | rfl : c = 0 ∨ c = 1 := by revert c; decide
      · exact ⟨0, Nat.two_pow_pos mm, by rw [bitValue_zero, monomial_zero_right, map_zero]⟩
      · refine ⟨registerAfter mm gfpoly n 1, registerAfter_lt gfpoly (Nat.one_lt_two_pow hm.ne') n, ?_⟩
        rw [bitValue_registerAfter hm htop gfRoot_root, monomial_one_right_eq_X_pow, map_pow, AdjoinRoot.mk_X]

theorem gfRoot_pow_eq_one : gfRoot mm gfpoly ^ (2 ^ mm - 1) = 1 := by
  obtain ⟨-, htop, hsr, -⟩ := hp
  have := gfRing_charP htop hm
  rw [← bitValue_registerAfter hm htop gfRoot_root, ← finalSr, hsr, bitValue_one _ hm]

theorem exists_gfRoot_pow {r : gfRing mm gfpoly} (hr : r ≠ 0) : ∃ n < 2 ^ mm - 1, r = gfRoot mm gfpoly ^ n := by
  obtain ⟨v, hv, rfl⟩ := exists_bitValue_gfRoot hm hp r
  have hv0 : v ≠ 0 := fun h => hr (by rw [h, bitValue_zero])
  obtain ⟨n, hn, rfl⟩ := mem_generated_iff.mp (mem_generated_of_primitive hp hv0 (by omega))
  obtain ⟨-, htop, -, -⟩ := hp
  have := gfRing_charP htop hm
  exact ⟨n, hn, bitValue_registerAfter hm htop gfRoot_root n⟩

/-- R126, R133: modulo a primitive gfpoly every class but 0 is a power of the root, whose powers repeat. -/
theorem gfRing_isField : IsField (gfRing mm gfpoly) where
  exists_pair_ne := by
    refine ⟨0, 1, fun h => ?_⟩
    rw [← bitValue_one _ hm] at h
    exact one_ne_zero (eq_zero_of_bitValue_gfRoot_eq_zero hp.2.1 (Nat.one_lt_two_pow hm.ne') h.symm)
  mul_comm := mul_comm
  mul_inv_cancel := by
    intro r hr
    obtain ⟨n, hn, rfl⟩ := exists_gfRoot_pow hm hp hr
    refine ⟨gfRoot mm gfpoly ^ (2 ^ mm - 1 - n), ?_⟩
    rw [← pow_add, Nat.add_sub_cancel' hn.le, gfRoot_pow_eq_one hm hp]

end

/-! ## The symbols of a slot as field elements (R120) -/

/-- R120: the byte is a symbol of the slot's field. -/
abbrev ControlBlock.Symbol (cb : ControlBlock) (x : Elem) : Prop := x.toNat ≤ cb.nn.toNat

/-- A field of characteristic 2 in which the symbols of a primitive slot are distinct elements, exclusive-or is addition
(R120), and ALPHA and INDEX are the powers and the logarithms of one element (R126). -/
structure SlotField (cb : ControlBlock) (F : Type) [Field F] where
  /-- The element a byte stands for. -/
  val : Elem → F
  /-- The element whose powers ALPHA lists. -/
  gen : F
  primitive : primitiveSlot cb
  val_xor : ∀ x y, val (x ^^^ y) = val x + val y
  val_power : ∀ n, val (cb.power n) = gen ^ n
  gen_pow_log : ∀ x, cb.Symbol x → x ≠ 0 → gen ^ (cb.log x).toNat = val x
  eq_zero_of_val : ∀ x, cb.Symbol x → val x = 0 → x = 0
  orderOf_gen : orderOf gen = cb.nn.toNat


/-! ### The powers and the logarithms of a primitive slot (R126) -/

section

variable {cb : ControlBlock} (h : primitiveSlot cb)

include h

theorem primitiveSlot_power (n : Nat) :
    (cb.power n).toNat = registerAfter cb.mm.toNat cb.gfpoly.toNat n 1 := by
  obtain ⟨hnn, hnn1, hmm⟩ := builtSlot_nn h.1
  obtain ⟨hb, -, -, hsr, -⟩ := h
  have hlt := Nat.mod_lt n (show 0 < cb.nn.toNat by omega)
  have h256 := cb.nn.isLt
  have hreg := registerAfter_lt cb.gfpoly.toNat (Nat.one_lt_two_pow (show cb.mm.toNat ≠ 0 by omega)) n
  rw [ControlBlock.power_eq_alphaAt (by omega), builtSlot_alphaAt hb (by omega), if_pos hlt, hnn,
    registerAfter_mod hsr, BitVec.toNat_ofNat]
  exact Nat.mod_eq_of_lt (by omega)

theorem primitiveSlot_symbol_power (n : Nat) : cb.Symbol (cb.power n) := by
  obtain ⟨hnn, hnn1, hmm⟩ := builtSlot_nn h.1
  have hreg := registerAfter_lt cb.gfpoly.toNat (Nat.one_lt_two_pow (show cb.mm.toNat ≠ 0 by omega)) n
  rw [ControlBlock.Symbol, primitiveSlot_power h]
  omega

theorem primitiveSlot_symbol_xor {x y : Elem} (hx : cb.Symbol x) (hy : cb.Symbol y) : cb.Symbol (x ^^^ y) := by
  obtain ⟨hnn, hnn1, hmm⟩ := builtSlot_nn h.1
  have hxor : x.toNat ^^^ y.toNat < 2 ^ cb.mm.toNat := Nat.xor_lt_two_pow (by omega) (by omega)
  rw [ControlBlock.Symbol, BitVec.toNat_xor]
  omega

/-- A nonzero symbol is a power, and its logarithm is that power's exponent. -/
theorem primitiveSlot_exists_log {x : Elem} (hx : cb.Symbol x) (hx0 : x ≠ 0) :
    (cb.log x).toNat < cb.nn.toNat ∧ registerAfter cb.mm.toNat cb.gfpoly.toNat (cb.log x).toNat 1 = x.toNat := by
  obtain ⟨n, hn, hnx⟩ := primitiveSlot_exists_power h hx0 hx
  rw [cb.toNat_log, ← hnx, primitiveSlot_indexAt h hn]
  exact ⟨hn, rfl⟩

theorem primitiveSlot_log_eq_a0_iff {x : Elem} (hx : cb.Symbol x) : cb.log x = cb.a0 ↔ x = 0 := by
  constructor
  · intro hlog
    by_contra hx0
    have hlt := (primitiveSlot_exists_log h hx hx0).1
    rw [hlog] at hlt
    exact lt_irrefl _ hlt
  · rintro rfl
    have hzero : (cb.log 0).toNat = cb.nn.toNat := (cb.toNat_log 0).trans (builtSlot_indexAt_zero h.1)
    exact congrArg LogSym.mk (BitVec.eq_of_toNat_eq hzero)

end

theorem ControlBlock.symbol_zero (cb : ControlBlock) : cb.Symbol 0 := Nat.zero_le _

/-- R120, R126, R133: the field of a primitive slot, GF(2)[x] modulo gfpoly. -/
theorem exists_slotField {cb : ControlBlock} (h : primitiveSlot cb) :
    ∃ (F : Type) (_ : Field F) (_ : CharP F 2), Nonempty (SlotField cb F) := by
  obtain ⟨hnn, hnn1, hmm⟩ := builtSlot_nn h.1
  have hm : 0 < cb.mm.toNat := by omega
  have htop := h.2.2.1
  have hchar := gfRing_charP htop hm
  let field := (gfRing_isField hm h.2).toField
  have hreg (n : Nat) := bitValue_registerAfter hm htop gfRoot_root n
  have hzero {x : Elem} (hx : cb.Symbol x) (h0 : bitValue (gfRoot _ cb.gfpoly.toNat) cb.mm.toNat x.toNat = 0) :
      x = 0 :=
    BitVec.eq_of_toNat_eq (eq_zero_of_bitValue_gfRoot_eq_zero htop (by omega) h0)
  refine ⟨gfRing cb.mm.toNat cb.gfpoly.toNat, field, hchar, ⟨{
    val := fun x => bitValue (gfRoot _ _) cb.mm.toNat x.toNat
    gen := gfRoot _ _
    primitive := h
    val_xor := fun x y => by rw [BitVec.toNat_xor]; exact bitValue_xor ..
    val_power := fun n => by rw [primitiveSlot_power h]; exact hreg n
    gen_pow_log := fun x hx hx0 => ?_
    eq_zero_of_val := fun x hx h0 => hzero hx h0
    orderOf_gen := (orderOf_eq_iff (by omega)).mpr ⟨hnn ▸ gfRoot_pow_eq_one hm h.2, fun n hn hn0 h1 => ?_⟩ }⟩⟩
  · rw [← (primitiveSlot_exists_log h hx hx0).2]
    exact (hreg _).symm
  · have hone : cb.Symbol 1 := hnn1.le
    have hpower : cb.power n = 1 := by
      refine BitVec.xor_eq_zero_iff.mp (hzero (primitiveSlot_symbol_xor h (primitiveSlot_symbol_power h n) hone) ?_)
      rw [BitVec.toNat_xor, bitValue_xor, primitiveSlot_power h, hreg]
      exact CharTwo.add_eq_zero.mpr (h1.trans (bitValue_one _ hm).symm)
    have hindex := primitiveSlot_indexAt h hn
    rw [← primitiveSlot_power h, hpower] at hindex
    exact hn0.ne ((primitiveSlot_indexAt_one h).symm.trans hindex)

end Sys2Proof.Machine
end

section
/-! PROOFS. The algebra of 41_rs.md over a field of characteristic 2, apart from the machine: the locator and the
evaluator of an error pattern, the key equation, the invariant of Berlekamp-Massey, and Forney's formula (R168 to
R178). -/

namespace Sys2Proof.Machine

open Polynomial

section

variable {K : Type} [Field K]

/-! ## Locators and evaluators -/

/-- The polynomial with roots at the inverses of the locators `X p` (R168, R169). -/
noncomputable def locatorPoly (loc : Nat → K) (E : Finset Nat) : K[X] := ∏ p ∈ E, (1 + C (loc p) * X)

/-- The error evaluator of the magnitudes `mag` (R172). -/
noncomputable def evaluatorPoly (loc mag : Nat → K) (E : Finset Nat) : K[X] :=
  ∑ p ∈ E, C (mag p) * locatorPoly loc (E.erase p)

variable {loc mag : Nat → K} {E : Finset Nat}

theorem locatorPoly_natDegree_le (loc : Nat → K) (E : Finset Nat) : (locatorPoly loc E).natDegree ≤ E.card := by
  refine (natDegree_prod_le _ _).trans ?_
  refine (Finset.sum_le_card_nsmul E _ 1 fun p _ => ?_).trans (by simp)
  compute_degree

theorem locatorPoly_coeff_zero (loc : Nat → K) (E : Finset Nat) : (locatorPoly loc E).coeff 0 = 1 := by
  simp [locatorPoly, coeff_zero_prod]

theorem locatorPoly_coeff_card (loc : Nat → K) (E : Finset Nat) :
    (locatorPoly loc E).coeff E.card = ∏ p ∈ E, loc p := by
  have hdeg (p : Nat) (_ : p ∈ E) : (1 + C (loc p) * X).natDegree ≤ 1 := by compute_degree
  have hcoeff := coeff_prod_of_natDegree_le (s := E) (fun p => 1 + C (loc p) * X) 1 hdeg
  rw [mul_one] at hcoeff
  exact hcoeff.trans (Finset.prod_congr rfl fun p _ => by simp [coeff_one])

theorem locatorPoly_eq_mul_erase {p : Nat} (hp : p ∈ E) :
    locatorPoly loc E = (1 + C (loc p) * X) * locatorPoly loc (E.erase p) :=
  (Finset.mul_prod_erase E (fun p => 1 + C (loc p) * X) hp).symm

theorem locatorPoly_union {F : Finset Nat} (h : Disjoint E F) :
    locatorPoly loc (E ∪ F) = locatorPoly loc E * locatorPoly loc F :=
  Finset.prod_union h

theorem evaluatorPoly_degree_lt (loc mag : Nat → K) (E : Finset Nat) :
    (evaluatorPoly loc mag E).degree < E.card := by
  refine (degree_sum_le _ _).trans_lt ?_
  rw [Finset.sup_lt_iff (by simp)]
  intro p hp
  refine degree_le_natDegree.trans_lt ?_
  have hle := (natDegree_C_mul_le (mag p) _).trans (locatorPoly_natDegree_le loc (E.erase p))
  exact_mod_cast hle.trans_lt (Finset.card_erase_lt_of_mem hp)

theorem coeff_geom (x : K) (N i : Nat) (hi : i < N) :
    (∑ j ∈ Finset.range N, (C x * X) ^ j : K[X]).coeff i = x ^ i := by
  simp_rw [finsetSum_coeff, mul_pow, ← C_pow, coeff_C_mul, coeff_X_pow, mul_ite, mul_one, mul_zero]
  rw [Finset.sum_ite_eq, if_pos (Finset.mem_range.mpr hi)]

theorem eq_of_X_pow_dvd_sub {N : Nat} {P Q : K[X]} (h : X ^ N ∣ P - Q) (hP : P.degree < N) (hQ : Q.degree < N) :
    P = Q :=
  sub_eq_zero.mp (eq_zero_of_dvd_of_degree_lt h
    (by rw [degree_X_pow]; exact (degree_sub_le P Q).trans_lt (max_lt hP hQ)))

theorem degree_mul_lt {P Q : K[X]} {a b : Nat} (hP : P.degree < a) (hQ : Q.natDegree ≤ b) :
    (P * Q).degree < (a + b : Nat) := by
  obtain rfl | hQ0 := eq_or_ne Q 0
  · rw [mul_zero, degree_zero]
    exact WithBot.bot_lt_coe _
  · have hQ' : Q.degree ≤ b := natDegree_le_iff_degree_le.mp hQ
    rw [degree_mul, Nat.cast_add]
    exact WithBot.add_lt_add_of_lt_of_le (degree_eq_bot.not.mpr hQ0) hP hQ'

variable [CharP K 2]

theorem locatorPoly_eval_eq_zero_iff {x : K} :
    (locatorPoly loc E).eval x = 0 ↔ ∃ p ∈ E, loc p * x = 1 := by
  simp only [locatorPoly, eval_prod, Finset.prod_eq_zero_iff, eval_add, eval_one, eval_mul, eval_C, eval_X,
    CharTwo.add_eq_zero, eq_comm (a := (1 : K))]

/-- Distinct locators: at the inverse of one, only its own factor vanishes. -/
theorem locatorPoly_erase_eval_ne_zero (hinj : Set.InjOn loc E) {p : Nat} (hp : p ∈ E) (h0 : loc p ≠ 0) :
    (locatorPoly loc (E.erase p)).eval (loc p)⁻¹ ≠ 0 := by
  rw [Ne, locatorPoly_eval_eq_zero_iff]
  rintro ⟨l, hl, hone⟩
  rw [mul_inv_eq_one₀ h0] at hone
  exact (Finset.mem_erase.mp hl).1 (hinj (Finset.mem_of_mem_erase hl) hp hone)

theorem evaluatorPoly_eval {p : Nat} (hp : p ∈ E) (h0 : loc p ≠ 0) :
    (evaluatorPoly loc mag E).eval (loc p)⁻¹ = mag p * (locatorPoly loc (E.erase p)).eval (loc p)⁻¹ := by
  rw [evaluatorPoly, eval_finsetSum, Finset.sum_eq_single p]
  · rw [eval_mul, eval_C]
  · intro l hl hlp
    rw [eval_mul, locatorPoly_eval_eq_zero_iff.mpr, mul_zero]
    exact ⟨p, Finset.mem_erase.mpr ⟨hlp.symm, hp⟩, mul_inv_cancel₀ h0⟩
  · exact fun h => absurd hp h

/-- R178: the formal derivative at the inverse of a locator. -/
theorem derivative_locatorPoly_eval {p : Nat} (hp : p ∈ E) (h0 : loc p ≠ 0) :
    (derivative (locatorPoly loc E)).eval (loc p)⁻¹ = loc p * (locatorPoly loc (E.erase p)).eval (loc p)⁻¹ := by
  rw [locatorPoly_eq_mul_erase hp]
  simp [h0, CharTwo.add_self_eq_zero]

/-! ## The key equation (R169, R172) -/

/-- The syndromes of the error pattern: `S` begins with the power sums of the locators, weighted by the magnitudes. -/
def IsSyndrome (loc mag : Nat → K) (E : Finset Nat) (N : Nat) (S : K[X]) : Prop :=
  ∀ i < N, S.coeff i = ∑ p ∈ E, mag p * loc p ^ i

/-- One error's part of the syndromes. -/
theorem geom_mul_locator (x : K) (N : Nat) :
    (∑ i ∈ Finset.range N, (C x * X) ^ i) * (1 + C x * X) = 1 + C (x ^ N) * X ^ N := by
  rw [mul_comm, ← CharTwo.sub_eq_add, mul_neg_geom_sum, CharTwo.sub_eq_add, mul_pow, C_pow]

/-- The key equation: syndromes times locator is the evaluator, modulo x^N. -/
theorem key_equation {N : Nat} {S : K[X]} (hS : IsSyndrome loc mag E N S) :
    X ^ N ∣ S * locatorPoly loc E - evaluatorPoly loc mag E := by
  have hsplit : X ^ N ∣ S - ∑ p ∈ E, C (mag p) * ∑ j ∈ Finset.range N, (C (loc p) * X) ^ j := by
    rw [X_pow_dvd_iff]
    intro i hi
    simp only [coeff_sub, hS i hi, finsetSum_coeff, coeff_C_mul]
    rw [sub_eq_zero]
    refine Finset.sum_congr rfl fun p _ => ?_
    rw [← coeff_geom _ N i hi, finsetSum_coeff]
  have hterm (p : Nat) (hp : p ∈ E) : X ^ N ∣ C (mag p) * (∑ j ∈ Finset.range N, (C (loc p) * X) ^ j) *
      locatorPoly loc E - C (mag p) * locatorPoly loc (E.erase p) := by
    refine ⟨C (mag p) * C (loc p ^ N) * locatorPoly loc (E.erase p), ?_⟩
    rw [locatorPoly_eq_mul_erase hp]
    linear_combination (C (mag p) * locatorPoly loc (E.erase p)) * geom_mul_locator (loc p) N
  have hsum := Finset.dvd_sum hterm
  have := dvd_add (hsplit.mul_right (locatorPoly loc E)) hsum
  convert this using 1
  rw [evaluatorPoly, Finset.sum_sub_distrib, ← Finset.sum_mul]
  ring

/-- R176: no more errors than syndromes leave some syndrome nonzero. -/
theorem magnitudes_eq_zero {N : Nat} (hinj : Set.InjOn loc E) (h0 : ∀ p ∈ E, loc p ≠ 0) (hcard : E.card ≤ N)
    (hS : ∀ i < N, ∑ p ∈ E, mag p * loc p ^ i = 0) : ∀ p ∈ E, mag p = 0 := by
  have hkey := key_equation (S := 0) fun i hi => (hS i hi).symm ▸ coeff_zero i
  have heval : evaluatorPoly loc mag E = 0 := by
    rw [zero_mul] at hkey
    have hdeg : (evaluatorPoly loc mag E).degree < N :=
      (evaluatorPoly_degree_lt loc mag E).trans_le (by exact_mod_cast hcard)
    exact (eq_of_X_pow_dvd_sub hkey (by simp [bot_lt_iff_ne_bot]) hdeg).symm
  intro p hp
  have hp0 := evaluatorPoly_eval (mag := mag) hp (h0 p hp)
  rw [heval, eval_zero] at hp0
  exact (mul_eq_zero.mp hp0.symm).resolve_right (locatorPoly_erase_eval_ne_zero hinj hp (h0 p hp))

end

/-! ## Berlekamp-Massey (R169)

`L` and `B` are multiples of the erasure locator `G` of degree `e`. After `r` steps `el` bounds the degree of `L`, and
the recurrence `L` states holds of the syndromes from `el` up to `r`. `B` is the locator before the last growth of `el`,
scaled and shifted so that its recurrence fails by 1 at the step just made. -/

section

variable {K : Type} [Field K]

/-- The invariant of the Berlekamp-Massey loop. -/
structure BmInv (S G : K[X]) (e r el : Nat) (L B : K[X]) : Prop where
  e_le : e ≤ el
  el_le : el ≤ r
  locator : ∃ l, L = G * l ∧ l.natDegree ≤ el - e
  locator_zero : L.coeff 0 = 1
  previous : ∃ b, B = G * b ∧ b.natDegree ≤ r - el
  recurrence : ∀ k, el ≤ k → k < r → (S * L).coeff k = 0
  previous_recurrence : ∀ k, r + e ≤ el + k → k + 1 < r → (S * B).coeff k = 0
  previous_fails : e < el → (S * B).coeff (r - 1) = 1

theorem coeff_mul_X_mul (S B : K[X]) (k : Nat) : (S * (X * B)).coeff (k + 1) = (S * B).coeff k := by
  rw [mul_left_comm, coeff_X_mul]

namespace BmInv

variable {S G L B : K[X]} {e r el : Nat}

/-- Before the first step, both are the erasure locator. -/
theorem init (hG : G.coeff 0 = 1) : BmInv S G e e e G G where
  e_le := le_rfl
  el_le := le_rfl
  locator := ⟨1, (mul_one G).symm, by simp⟩
  locator_zero := hG
  previous := ⟨1, (mul_one G).symm, by simp⟩
  recurrence k h1 h2 := absurd h2 (by omega)
  previous_recurrence k h1 h2 := absurd h2 (by omega)
  previous_fails h := absurd h (lt_irrefl e)

variable (h : BmInv S G e r el L B)

include h

/-- The invariant's part about `B`, after a step that only shifts it. -/
theorem shift_previous : (∃ b, X * B = G * b ∧ b.natDegree ≤ r + 1 - el) ∧
    (∀ k, r + 1 + e ≤ el + k → k + 1 < r + 1 → (S * (X * B)).coeff k = 0) ∧
    (e < el → (S * (X * B)).coeff r = 1) := by
  obtain ⟨b, hb, hdeg⟩ := h.previous
  have hel := h.el_le
  refine ⟨⟨X * b, by rw [hb, mul_left_comm], ?_⟩, fun k h1 h2 => ?_, fun hlt => ?_⟩
  · have hX : (X * b).natDegree ≤ 1 + b.natDegree := natDegree_mul_le.trans (by rw [natDegree_X])
    omega
  · obtain ⟨k, rfl⟩ := Nat.exists_eq_add_of_le' (show 1 ≤ k by omega)
    rw [coeff_mul_X_mul]
    exact h.previous_recurrence k (by omega) (by omega)
  · obtain ⟨j, rfl⟩ := Nat.exists_eq_add_of_le' (show 1 ≤ r by omega)
    exact (coeff_mul_X_mul S B j).trans (h.previous_fails hlt)

/-- A step whose discrepancy is 0. -/
theorem step_zero (hd : (S * L).coeff r = 0) : BmInv S G e (r + 1) el L (X * B) := by
  obtain ⟨hb, hrec, hfail⟩ := h.shift_previous
  refine ⟨h.e_le, Nat.le_succ_of_le h.el_le, h.locator, h.locator_zero, hb, fun k h1 h2 => ?_, hrec, hfail⟩
  rcases Nat.lt_succ_iff_lt_or_eq.mp h2 with hk | rfl
  · exact h.recurrence k h1 hk
  · exact hd

theorem updated_locator_zero (d : K) : (L + C d * (X * B)).coeff 0 = 1 := by
  rw [coeff_add, h.locator_zero, coeff_C_mul, coeff_X_mul_zero, mul_zero, add_zero]

variable {el' : Nat} (hel : el ≤ el') (hel' : r + 1 + e ≤ el + el')

include hel hel'

/-- The corrected locator is again a multiple of the erasure locator. -/
theorem updated_locator (d : K) : ∃ l, L + C d * (X * B) = G * l ∧ l.natDegree ≤ el' - e := by
  obtain ⟨l, hl, hldeg⟩ := h.locator
  obtain ⟨⟨b, hb, hbdeg⟩, -, -⟩ := h.shift_previous
  have he := h.e_le
  refine ⟨l + C d * b, by rw [hl, hb]; ring, (natDegree_add_le _ _).trans (max_le (by omega) ?_)⟩
  exact (natDegree_C_mul_le d b).trans (by omega)

/-- The corrected locator's recurrence holds of one more syndrome. -/
theorem updated_recurrence [CharP K 2] {k : Nat} (h1 : el' ≤ k) (h2 : k < r + 1) :
    (S * (L + C ((S * L).coeff r) * (X * B))).coeff k = 0 := by
  obtain ⟨-, hrec, hfail⟩ := h.shift_previous
  rw [mul_add, mul_left_comm S, coeff_add, coeff_C_mul]
  rcases Nat.lt_succ_iff_lt_or_eq.mp h2 with hk | rfl
  · rw [h.recurrence k (by omega) hk, hrec k (by omega) (by omega), mul_zero, add_zero]
  · rw [hfail (by omega), mul_one, CharTwo.add_self_eq_zero]

omit hel hel'

/-- A step that corrects the locator without growth. -/
theorem step_keep [CharP K 2] (hlen : r + 1 + e ≤ 2 * el) :
    BmInv S G e (r + 1) el (L + C ((S * L).coeff r) * (X * B)) (X * B) := by
  obtain ⟨hb, hrec, hfail⟩ := h.shift_previous
  exact ⟨h.e_le, Nat.le_succ_of_le h.el_le, h.updated_locator le_rfl (by omega) _,
    h.updated_locator_zero _, hb, fun k h1 h2 => h.updated_recurrence le_rfl (by omega) h1 h2, hrec,
    hfail⟩

/-- A step that corrects the locator and lets it grow. -/
theorem step_grow [CharP K 2] (hd : (S * L).coeff r ≠ 0) (hlen : 2 * el < r + 1 + e) :
    BmInv S G e (r + 1) (r + 1 + e - el) (L + C ((S * L).coeff r) * (X * B)) (C ((S * L).coeff r)⁻¹ * L) := by
  have he := h.e_le
  have hr := h.el_le
  refine ⟨by omega, by omega, h.updated_locator (by omega) (by omega) _,
    h.updated_locator_zero _, ?_,
    fun k h1 h2 => h.updated_recurrence (by omega) (by omega) h1 h2, fun k h1 h2 => ?_, fun _ => ?_⟩
  · obtain ⟨l, hl, hldeg⟩ := h.locator
    refine ⟨C ((S * L).coeff r)⁻¹ * l, by rw [hl]; ring, (natDegree_C_mul_le _ _).trans (by omega)⟩
  · rw [mul_left_comm, coeff_C_mul, h.recurrence k (by omega) (by omega), mul_zero]
  · rw [mul_left_comm, coeff_C_mul, Nat.add_sub_cancel, inv_mul_cancel₀ hd]

/-- Massey's bound: where a locator `G * w` of the syndromes exists, a nonzero discrepancy means that `el` and the
degree of `w` together exceed the step. -/
theorem lt_of_discrepancy {w O : K[X]} {n N : Nat} (hw : w.natDegree ≤ n) (hw0 : w.coeff 0 = 1)
    (hkey : X ^ N ∣ S * (G * w) - O) (hO : O.degree < (e + n : Nat)) (hr : r < N) (hd : (S * L).coeff r ≠ 0) :
    r < n + el := by
  by_contra hle
  obtain ⟨l, hl, hldeg⟩ := h.locator
  have he := h.e_le
  have hright : (S * L * w).coeff r = (S * L).coeff r := by
    rw [coeff_mul, Finset.sum_eq_single (r, 0)]
    · rw [hw0, mul_one]
    · rintro ⟨i, j⟩ hij hne
      have hsum : i + j = r := Finset.HasAntidiagonal.mem_antidiagonal.mp hij
      by_cases hj : j ≤ n
      · have hj0 : j ≠ 0 := fun h0 => hne (by rw [Prod.mk.injEq]; omega)
        rw [h.recurrence i (by omega) (by omega), zero_mul]
      · rw [coeff_eq_zero_of_natDegree_lt (p := w) (by omega), mul_zero]
    · exact fun hn => absurd (Finset.HasAntidiagonal.mem_antidiagonal.mpr (Nat.add_zero r)) hn
  have hleft : (S * L * w).coeff r = (O * l).coeff r := by
    have hdvd : X ^ N ∣ S * L * w - O * l := by
      have := hkey.mul_right l
      convert this using 1
      rw [hl]
      ring
    have := X_pow_dvd_iff.mp hdvd r hr
    rwa [coeff_sub, sub_eq_zero] at this
  refine hd (hright.symm.trans (hleft.trans (coeff_eq_zero_of_degree_lt ?_)))
  exact (degree_mul_lt hO hldeg).trans_le (by exact_mod_cast (by omega : e + n + (el - e) ≤ r))

end BmInv

/-- Modulo x^N, a product whose coefficients vanish from `el` to `N` is a polynomial of degree below `el`. -/
theorem exists_degree_lt_of_coeff_eq_zero {P : K[X]} {el N : Nat} (h : ∀ k, el ≤ k → k < N → P.coeff k = 0) :
    ∃ O : K[X], O.degree < el ∧ X ^ N ∣ P - O := by
  have hmonic : (X ^ el : K[X]).Monic := monic_X_pow el
  have hdeg : (P %ₘ X ^ el).degree < el := (degree_modByMonic_lt P hmonic).trans_eq (degree_X_pow el)
  refine ⟨P %ₘ X ^ el, hdeg, X_pow_dvd_iff.mpr fun k hk => ?_⟩
  rcases Nat.lt_or_ge k el with hlt | hge
  · have hdvd : X ^ el ∣ P - P %ₘ X ^ el :=
      ⟨P /ₘ X ^ el, sub_eq_of_eq_add' (modByMonic_add_div P (X ^ el)).symm⟩
    exact X_pow_dvd_iff.mp hdvd k hlt
  · have hO : (P %ₘ X ^ el).coeff k = 0 :=
      coeff_eq_zero_of_degree_lt (hdeg.trans_le (by exact_mod_cast hge))
    rw [coeff_sub, h k hge hk, hO, sub_zero]

/-- A polynomial of degree at most the number of errors that vanishes where the locator does, and is 1 at 0, is the
locator. -/
theorem eq_locatorPoly_of_roots [CharP K 2] {loc : Nat → K} {W : Finset Nat} (hinj : Set.InjOn loc W)
    (h0 : ∀ p ∈ W, loc p ≠ 0) {l : K[X]} (hdeg : l.natDegree ≤ W.card) (hone : l.coeff 0 = 1)
    (hroot : ∀ p ∈ W, l.eval (loc p)⁻¹ = 0) : l = locatorPoly loc W := by
  classical
  have hinj' : Set.InjOn (fun p => (loc p)⁻¹) W := fun p hp q hq h => hinj hp hq (inv_injective h)
  have hnot : (0 : K) ∉ W.image fun p => (loc p)⁻¹ := by
    simp only [Finset.mem_image, inv_eq_zero, not_exists, not_and]
    exact h0
  refine eq_of_degree_sub_lt_of_eval_finset_eq (insert 0 (W.image fun p => (loc p)⁻¹)) ?_ fun x hx => ?_
  · rw [Finset.card_insert_of_notMem hnot, Finset.card_image_of_injOn hinj']
    have hle := (natDegree_sub_le l (locatorPoly loc W)).trans (max_le hdeg (locatorPoly_natDegree_le loc W))
    exact degree_le_natDegree.trans_lt (by exact_mod_cast Nat.lt_succ_of_le hle)
  · rcases Finset.mem_insert.mp hx with rfl | hx
    · rw [← coeff_zero_eq_eval_zero, ← coeff_zero_eq_eval_zero, hone, locatorPoly_coeff_zero]
    · obtain ⟨p, hp, rfl⟩ := Finset.mem_image.mp hx
      rw [hroot p hp, locatorPoly_eval_eq_zero_iff.mpr ⟨p, hp, mul_inv_cancel₀ (h0 p hp)⟩]

/-- R176: after the last step the locator is that of the error pattern: the erasures `Q` and the errors `W`. -/
theorem BmInv.eq_locatorPoly [CharP K 2] {loc mag : Nat → K} {Q W : Finset Nat} {S L B : K[X]} {e N el : Nat}
    (h : BmInv S (locatorPoly loc Q) e N el L B) (he : Q.card = e) (hQW : Disjoint Q W) (hinj : Set.InjOn loc ↑(Q ∪ W))
    (h0 : ∀ p ∈ Q ∪ W, loc p ≠ 0) (hmag : ∀ p ∈ W, mag p ≠ 0) (hS : IsSyndrome loc mag (Q ∪ W) N S)
    (hel : el ≤ e + W.card) (hbound : 2 * W.card + e ≤ N) : L = locatorPoly loc (Q ∪ W) := by
  subst he
  obtain ⟨l, hl, hldeg⟩ := h.locator
  obtain ⟨O, hO, hLO⟩ := exists_degree_lt_of_coeff_eq_zero h.recurrence
  have hW (p : Nat) (hp : p ∈ W) : p ∈ Q ∪ W := Finset.mem_union_right Q hp
  have hcard : (Q ∪ W).card = Q.card + W.card := Finset.card_union_of_disjoint hQW
  have hkey := key_equation hS
  have hsame : evaluatorPoly loc mag (Q ∪ W) * l = O * locatorPoly loc W := by
    have hdvd : X ^ N ∣ evaluatorPoly loc mag (Q ∪ W) * l - O * locatorPoly loc W := by
      have := dvd_sub (hLO.mul_right (locatorPoly loc W)) (hkey.mul_right l)
      convert this using 1
      rw [hl, locatorPoly_union hQW]
      ring
    refine eq_of_X_pow_dvd_sub hdvd ?_ ?_
    · refine (degree_mul_lt (evaluatorPoly_degree_lt loc mag _) hldeg).trans_le ?_
      exact_mod_cast (by omega : (Q ∪ W).card + (el - Q.card) ≤ N)
    · refine (degree_mul_lt hO (locatorPoly_natDegree_le loc W)).trans_le ?_
      exact_mod_cast (by omega : el + W.card ≤ N)
  have hroot (p : Nat) (hp : p ∈ W) : l.eval (loc p)⁻¹ = 0 := by
    have hp0 := h0 p (hW p hp)
    have heval := congrArg (eval (loc p)⁻¹) hsame
    rw [eval_mul, eval_mul, evaluatorPoly_eval (hW p hp) hp0,
      locatorPoly_eval_eq_zero_iff.mpr ⟨p, hp, mul_inv_cancel₀ hp0⟩, mul_zero] at heval
    exact (mul_eq_zero.mp heval).resolve_left
      (mul_ne_zero (hmag p hp) (locatorPoly_erase_eval_ne_zero hinj (hW p hp) hp0))
  have hl0 : l.coeff 0 = 1 := by
    have := h.locator_zero
    rwa [hl, mul_coeff_zero, locatorPoly_coeff_zero, one_mul] at this
  rw [hl, locatorPoly_union hQW, eq_locatorPoly_of_roots (hinj.mono (Finset.coe_subset.mpr Finset.subset_union_right))
    (fun p hp => h0 p (hW p hp)) (by omega) hl0 hroot]

/-! ## Forney's formula (R173, R178) -/

/-- In characteristic 2 the derivative keeps the coefficients of odd index. -/
theorem derivative_eval_eq_sum [CharP K 2] {P : K[X]} {H : Nat} (hH : 0 < H) (hdeg : P.natDegree ≤ 2 * H) (x : K) :
    (derivative P).eval x = ∑ h ∈ Finset.range H, P.coeff (2 * h + 1) * x ^ (2 * h) := by
  have hlt : (derivative P).natDegree < 2 * H := (natDegree_derivative_le P).trans_lt (by omega)
  have hpairs (n : Nat) : ∑ i ∈ Finset.range (2 * n), (derivative P).coeff i * x ^ i =
      ∑ h ∈ Finset.range n, P.coeff (2 * h + 1) * x ^ (2 * h) := by
    induction n with
    | zero => rfl
    | succ n ih =>
      have hodd : ((2 * n + 1 : Nat) : K) + 1 = 0 := by
        push_cast
        linear_combination ((n : K) + 1) * CharTwo.two_eq_zero (R := K)
      have heven : ((2 * n : Nat) : K) = 0 := by
        push_cast
        linear_combination (n : K) * CharTwo.two_eq_zero (R := K)
      rw [Nat.mul_succ, Finset.sum_range_succ, Finset.sum_range_succ, ih, Finset.sum_range_succ, coeff_derivative,
        coeff_derivative, hodd, heven]
      ring
  rw [eval_eq_sum_range' hlt, hpairs]

end

end Sys2Proof.Machine
end

section
/-! PROOFS. The sums and lists of 41_rs.md read in the field of a primitive slot: logarithms as elements, exclusive-or
sums as sums, lists of coefficients as polynomials, and Horner's rule (R15, R160, R167). -/

namespace Sys2Proof.Machine

open Polynomial

/-! ## Lists by index -/

theorem mapIndexed_eq_map_range {α β : Type} (l : List α) (f : Nat → α → β) (a : α) :
    mapIndexed l f = (List.range l.length).map fun i => f i (l.getD i a) := by
  apply List.ext_getElem?
  intro n
  rw [mapIndexed_getElem?, List.getElem?_map]
  by_cases hn : n < l.length <;> simp [hn]

theorem mapIndexed_getD {α β : Type} (l : List α) (f : Nat → α → β) {n : Nat} (h : n < l.length) (a : α) (b : β) :
    (mapIndexed l f).getD n b = f n (l.getD n a) := by
  rw [List.getD_eq_getElem?_getD, mapIndexed_getElem?, List.getElem?_eq_getElem h, List.getD_eq_getElem _ _ h]
  rfl

theorem map_range_getD {β : Type} (n : Nat) (f : Nat → β) {i : Nat} (h : i < n) (b : β) :
    ((List.range n).map f).getD i b = f i := by
  simp [List.getD_eq_getElem?_getD, h]

/-- A property of a list's elements and of the default holds at every index. -/
theorem getD_of_forall {α : Type} {p : α → Prop} {l : List α} (h : ∀ x ∈ l, p x) {a : α} (ha : p a) (i : Nat) :
    p (l.getD i a) := by
  by_cases hi : i < l.length
  · rw [List.getD_eq_getElem _ _ hi]
    exact h _ (List.getElem_mem hi)
  · rwa [List.getD_eq_default _ _ (by omega)]

/-- A property of a list's elements, index by index. -/
theorem forall_mem_of_getD {α : Type} {p : α → Prop} {l : List α} {a : α} (h : ∀ j < l.length, p (l.getD j a)) :
    ∀ x ∈ l, p x := by
  intro x hx
  obtain ⟨j, hj, rfl⟩ := List.mem_iff_getElem.mp hx
  exact List.getD_eq_getElem l a hj ▸ h j hj

/-! ## Lists of coefficients -/

section

variable {K : Type} [Field K]

theorem sum_map_range (n : Nat) (f : Nat → K) : ((List.range n).map f).sum = ∑ i ∈ Finset.range n, f i := by
  induction n with
  | zero => rfl
  | succ n ih => rw [List.range_succ, List.map_append, List.sum_append, ih, Finset.sum_range_succ]; simp

theorem sum_map_eq_sum_range {α : Type} (l : List α) (f : α → K) (a : α) :
    (l.map f).sum = ∑ i ∈ Finset.range l.length, f (l.getD i a) := by
  induction l with
  | nil => rfl
  | cons x l ih => rw [List.map_cons, List.sum_cons, ih, List.length_cons, Finset.sum_range_succ', add_comm]; rfl

/-- The polynomial with a list of coefficients, the constant one first. -/
noncomputable def listPoly : List K → K[X]
  | [] => 0
  | a :: l => C a + X * listPoly l

theorem listPoly_coeff (l : List K) (k : Nat) : (listPoly l).coeff k = l.getD k 0 := by
  induction l generalizing k with
  | nil => simp [listPoly]
  | cons a l ih =>
    cases k with
    | zero => simp [listPoly]
    | succ k => simp [listPoly, coeff_X_mul, ih]

theorem listPoly_natDegree_lt {l : List K} (h : l ≠ []) : (listPoly l).natDegree < l.length := by
  have hpos := List.length_pos_iff.mpr h
  refine Nat.lt_of_le_pred hpos (natDegree_le_iff_coeff_eq_zero.mpr fun k hk => ?_)
  rw [listPoly_coeff, List.getD_eq_default _ _ (by simp only [Nat.pred_eq_sub_one] at hk; omega)]

theorem listPoly_eval (l : List K) (x : K) {n : Nat} (h : l.length ≤ n) :
    (listPoly l).eval x = ∑ i ∈ Finset.range n, l.getD i 0 * x ^ i := by
  obtain rfl | hl := eq_or_ne l []
  · simp [listPoly]
  · rw [eval_eq_sum_range' ((listPoly_natDegree_lt hl).trans_le h)]
    exact Finset.sum_congr rfl fun i _ => by rw [listPoly_coeff]

/-- Horner's rule (R167): the first element has the highest degree. -/
def horner (x : K) (l : List K) : K := l.foldl (fun s a => s * x + a) 0

theorem horner_concat (x : K) (l : List K) (a : K) : horner x (l ++ [a]) = horner x l * x + a := by
  simp [horner]

theorem horner_append (x : K) (l l' : List K) : horner x (l ++ l') = horner x l * x ^ l'.length + horner x l' := by
  induction l' using List.reverseRecOn with
  | nil => simp [horner]
  | append_singleton l' a ih =>
    rw [← List.append_assoc, horner_concat, horner_concat, ih, List.length_append, List.length_singleton, pow_succ]
    ring

theorem horner_cons (x a : K) (l : List K) : horner x (a :: l) = a * x ^ l.length + horner x l := by
  rw [← List.singleton_append, horner_append]
  simp [horner]

/-- R160: Horner's rule evaluates the polynomial whose first coefficient has the highest degree. -/
theorem horner_eq_sum (x : K) (l : List K) :
    horner x l = ∑ j ∈ Finset.range l.length, l.getD j 0 * x ^ (l.length - 1 - j) := by
  induction l with
  | nil => rfl
  | cons a l ih =>
    rw [horner_cons, ih, List.length_cons, Finset.sum_range_succ', add_comm]
    refine congrArg₂ (· + ·) (Finset.sum_congr rfl fun j hj => ?_) ?_
    · have := Finset.mem_range.mp hj
      rw [List.getD_cons_succ, show l.length + 1 - 1 - (j + 1) = l.length - 1 - j by omega]
    · simp

end

/-! ## Symbols (R120) -/

namespace SlotField

variable {cb : ControlBlock} {F : Type} [Field F] (m : SlotField cb F)

section

include m

theorem nn_pos : 0 < cb.nn.toNat := by
  have := builtSlot_nn m.primitive.1
  omega

theorem symbol_power (n : Nat) : cb.Symbol (cb.power n) := primitiveSlot_symbol_power m.primitive n

theorem symbol_xor {x y : Elem} (hx : cb.Symbol x) (hy : cb.Symbol y) : cb.Symbol (x ^^^ y) :=
  primitiveSlot_symbol_xor m.primitive hx hy

theorem symbol_term (a : LogSym) (e : Nat) : cb.Symbol (cb.term a e) := by
  unfold ControlBlock.term
  split
  · exact m.symbol_power _
  · exact cb.symbol_zero

theorem symbol_one : cb.Symbol 1 := m.nn_pos

theorem symbol_xorSum {l : List Elem} (h : ∀ x ∈ l, cb.Symbol x) : cb.Symbol (xorSum l) := by
  unfold xorSum
  induction l using List.reverseRecOn with
  | nil => exact cb.symbol_zero
  | append_singleton l x ih =>
    rw [List.foldl_append]
    exact m.symbol_xor (ih fun y hy => h y (List.mem_append_left _ hy)) (h x (by simp))

theorem symbol_xorSum_range {n : Nat} {f : Nat → Elem} (h : ∀ i, cb.Symbol (f i)) :
    cb.Symbol (xorSum ((List.range n).map f)) := by
  refine m.symbol_xorSum fun x hx => ?_
  obtain ⟨i, -, rfl⟩ := List.mem_map.mp hx
  exact h i

theorem log_eq_a0_iff {x : Elem} (hx : cb.Symbol x) : cb.log x = cb.a0 ↔ x = 0 :=
  primitiveSlot_log_eq_a0_iff m.primitive hx

end

/-! ## Values (R15, R16) -/

/-- The element an index-form value stands for: A0 stands for 0. -/
def logVal (l : LogSym) : F := if l = cb.a0 then 0 else m.gen ^ l.toNat

theorem gen_pow_nn : m.gen ^ cb.nn.toNat = 1 := m.orderOf_gen ▸ pow_orderOf_eq_one m.gen

theorem gen_ne_zero : m.gen ≠ 0 := by
  intro h
  have hpow := m.gen_pow_nn
  rw [h, zero_pow m.nn_pos.ne'] at hpow
  exact zero_ne_one hpow

theorem gen_pow_eq_iff {i j : Nat} : m.gen ^ i = m.gen ^ j ↔ i % cb.nn.toNat = j % cb.nn.toNat := by
  have hunit : m.gen = (Units.mk0 m.gen m.gen_ne_zero : Fˣ) := rfl
  rw [hunit, ← Units.val_pow_eq_pow_val, ← Units.val_pow_eq_pow_val, Units.val_inj, pow_eq_pow_iff_modEq,
    ← orderOf_units, ← hunit, m.orderOf_gen, Nat.ModEq]

theorem val_one : m.val 1 = 1 := by
  have hlog : (cb.log 1).toNat = 0 := (cb.toNat_log 1).trans (primitiveSlot_indexAt_one m.primitive)
  rw [← m.gen_pow_log 1 m.symbol_one (by decide), hlog, pow_zero]

theorem logVal_a0 : m.logVal cb.a0 = 0 := if_pos rfl

theorem logVal_of_ne {a : LogSym} (h : a ≠ cb.a0) : m.logVal a = m.gen ^ a.toNat := if_neg h

theorem logVal_eq_zero_iff {a : LogSym} : m.logVal a = 0 ↔ a = cb.a0 :=
  ⟨fun h => by_contra fun hne => pow_ne_zero _ m.gen_ne_zero (m.logVal_of_ne hne ▸ h), fun h => if_pos h⟩

/-- The polynomial of a list of coefficients in poly form. -/
noncomputable def poly (l : List Elem) : F[X] := listPoly (l.map m.val)

/-- The polynomial of a list of coefficients in index form. -/
noncomputable def logPoly (l : List LogSym) : F[X] := listPoly (l.map m.logVal)

theorem map_logVal_getD (l : List LogSym) (k : Nat) : (l.map m.logVal).getD k 0 = m.logVal (l.getD k cb.a0) := by
  rw [← m.logVal_a0, List.getD_map]

theorem logPoly_coeff (l : List LogSym) (k : Nat) : (m.logPoly l).coeff k = m.logVal (l.getD k cb.a0) := by
  rw [logPoly, listPoly_coeff, m.map_logVal_getD]

variable [CharP F 2]

theorem val_zero : m.val 0 = 0 := by
  have h := m.val_xor 0 0
  rwa [BitVec.xor_self, CharTwo.add_self_eq_zero] at h

theorem val_eq_zero_iff {x : Elem} (hx : cb.Symbol x) : m.val x = 0 ↔ x = 0 :=
  ⟨m.eq_zero_of_val x hx, fun h => h ▸ m.val_zero⟩

theorem val_inj {x y : Elem} (hx : cb.Symbol x) (hy : cb.Symbol y) (h : m.val x = m.val y) : x = y := by
  have hsum : m.val (x ^^^ y) = 0 := by rw [m.val_xor, h, CharTwo.add_self_eq_zero]
  exact BitVec.xor_eq_zero_iff.mp (m.eq_zero_of_val _ (m.symbol_xor hx hy) hsum)

theorem logVal_log {x : Elem} (hx : cb.Symbol x) : m.logVal (cb.log x) = m.val x := by
  rw [logVal]
  split
  · rename_i h
    rw [(primitiveSlot_log_eq_a0_iff m.primitive hx).mp h, m.val_zero]
  · rename_i h
    exact m.gen_pow_log x hx fun h0 => h ((primitiveSlot_log_eq_a0_iff m.primitive hx).mpr h0)

theorem val_term (a : LogSym) (e : Nat) : m.val (cb.term a e) = m.logVal a * m.gen ^ e := by
  unfold ControlBlock.term
  split
  · rename_i h
    rw [m.logVal_of_ne h, m.val_power, pow_add]
  · rename_i h
    rw [not_not.mp h, m.logVal_a0, m.val_zero, zero_mul]

theorem val_xorSum (l : List Elem) : m.val (xorSum l) = (l.map m.val).sum := by
  unfold xorSum
  induction l using List.reverseRecOn with
  | nil => exact m.val_zero
  | append_singleton l x ih =>
    rw [List.foldl_append, List.map_append, List.sum_append, ← ih]
    simp [m.val_xor]

theorem val_xorSum_range (n : Nat) (f : Nat → Elem) :
    m.val (xorSum ((List.range n).map f)) = ∑ i ∈ Finset.range n, m.val (f i) := by
  rw [m.val_xorSum, List.map_map, sum_map_range]
  rfl

theorem map_val_getD (l : List Elem) (k : Nat) : (l.map m.val).getD k 0 = m.val (l.getD k 0) := by
  rw [← m.val_zero, List.getD_map]

theorem poly_coeff (l : List Elem) (k : Nat) : (m.poly l).coeff k = m.val (l.getD k 0) := by
  rw [poly, listPoly_coeff, m.map_val_getD]

theorem logPoly_toLogs {l : List Elem} (h : ∀ x ∈ l, cb.Symbol x) : m.logPoly (cb.toLogs l) = m.poly l := by
  rw [logPoly, poly, ControlBlock.toLogs, List.map_map]
  exact congrArg listPoly (List.map_congr_left fun x hx => m.logVal_log (h x hx))

end SlotField

end Sys2Proof.Machine
end

section
/-! PROOFS. The code of 41_rs.md: syndromes as values at the generator's roots (R160, R167), the generator polynomial
(R129), and the encoder as division by it (R161, R162). -/

namespace Sys2Proof.Machine

open Polynomial

/-! ## The shape of the generator's coefficients (R129) -/

/-- After `i` roots the generator is monic of degree `i`, with a nonzero constant coefficient. -/
structure GenInv (cb : ControlBlock) (i : Nat) (g : List Elem) : Prop where
  symbols : ∀ x ∈ g, cb.Symbol x
  constant : g.getD 0 0 ≠ 0
  monic : g.getD i 0 = 1
  above : ∀ j, i < j → g.getD j 0 = 0

theorem GenInv.symbol_getD {cb : ControlBlock} {i : Nat} {g : List Elem} (h : GenInv cb i g) (j : Nat) :
    cb.Symbol (g.getD j 0) :=
  getD_of_forall h.symbols cb.symbol_zero j

theorem genStep_getD_zero (cb : ControlBlock) {root i : Nat} {g : List Elem} (hg : 0 < g.length) :
    (genStep cb root i g).getD 0 0 = cb.power ((cb.log (g.getD 0 0)).toNat + root) := by
  rw [genStep, mapIndexed_getD _ _ hg 0]
  rfl

namespace SlotField

variable {cb : ControlBlock} {F : Type} [Field F] (m : SlotField cb F)

/-! ## The roots (R129, R160) -/

/-- The root `i` of the generator, α^((FCR + i)·PRIM). -/
def root (i : Nat) : F := m.gen ^ ((cb.fcr.toNat + i) * cb.prim.toNat)

/-- The element α^PRIM, whose powers are the locators of the positions. -/
def step : F := m.gen ^ cb.prim.toNat

theorem step_ne_zero : m.step ≠ 0 := pow_ne_zero _ m.gen_ne_zero

theorem root_eq (i : Nat) : m.root i = m.step ^ (cb.fcr.toNat + i) := by
  rw [root, step, ← pow_mul, mul_comm]

/-- PRIM has no factor in common with NN, so the powers of α^PRIM are distinct up to NN. -/
theorem step_pow_inj {p q : Nat} (hp : p < cb.nn.toNat) (hq : q < cb.nn.toNat) (h : m.step ^ p = m.step ^ q) :
    p = q := by
  have hgcd : Nat.gcd cb.nn.toNat cb.prim.toNat = 1 := by
    obtain ⟨-, -, -, -, hg, -⟩ := checkParams_none (initBlock_ok m.primitive.1).1
    rw [← (builtSlot_nn m.primitive.1).1] at hg
    rwa [Nat.gcd_comm]
  rw [step, ← pow_mul, ← pow_mul, m.gen_pow_eq_iff] at h
  have hmod := Nat.ModEq.cancel_left_of_coprime hgcd h
  rwa [Nat.ModEq, Nat.mod_eq_of_lt hp, Nat.mod_eq_of_lt hq] at hmod

include m in
theorem nroots_lt : cb.nroots.toNat < cb.nn.toNat := by
  obtain ⟨-, -, -, -, -, -, -, hlt, -⟩ := checkParams_none (initBlock_ok m.primitive.1).1
  rwa [← (builtSlot_nn m.primitive.1).1] at hlt

/-- R129: a product with the element of logarithm `root`. -/
theorem val_scaled {x : Elem} (hx : cb.Symbol x) (hx0 : x ≠ 0) (root : Nat) :
    m.val (cb.power ((cb.log x).toNat + root)) = m.val x * m.gen ^ root := by
  rw [m.val_power, pow_add, m.gen_pow_log x hx hx0]

include m in
theorem genInv_one (n : Nat) : GenInv cb 0 (1 :: List.replicate n 0) where
  symbols x hx := by
    rcases List.mem_cons.mp hx with rfl | hx
    · exact m.symbol_one
    · exact List.eq_of_mem_replicate hx ▸ cb.symbol_zero
  constant := by simp
  monic := rfl
  above j hj := by
    obtain ⟨j, rfl⟩ := Nat.exists_eq_add_of_le' hj
    exact getD_of_forall (p := (· = 0)) (fun x hx => List.eq_of_mem_replicate hx) rfl j

variable [CharP F 2]

/-! ## Syndromes (R167) -/

/-- R167: the Horner loop of a syndrome, from a symbol `s` on. -/
theorem syndromeLoop_spec (e : Nat) {d : List Elem} (hd : ∀ x ∈ d, cb.Symbol x) {s : Elem} (hs : cb.Symbol s) :
    let r := d.foldl (fun s x => if s = 0 then x else x ^^^ cb.power ((cb.log s).toNat + e)) s
    cb.Symbol r ∧ m.val r = horner (m.gen ^ e) (m.val s :: d.map m.val) := by
  induction d generalizing s with
  | nil => exact ⟨hs, by simp [horner]⟩
  | cons x d ih =>
    have hx := hd x List.mem_cons_self
    have hturn : cb.Symbol (if s = 0 then x else x ^^^ cb.power ((cb.log s).toNat + e)) ∧
        m.val (if s = 0 then x else x ^^^ cb.power ((cb.log s).toNat + e)) = m.val s * m.gen ^ e + m.val x := by
      split
      · rename_i h0
        exact ⟨hx, by rw [h0, m.val_zero, zero_mul, zero_add]⟩
      · rename_i h0
        refine ⟨m.symbol_xor hx (m.symbol_power _), ?_⟩
        rw [m.val_xor, m.val_power, pow_add, m.gen_pow_log s hs h0, add_comm]
    obtain ⟨hsym, hval⟩ := ih (fun y hy => hd y (List.mem_cons_of_mem x hy)) hturn.1
    refine ⟨hsym, hval.trans ?_⟩
    rw [hturn.2]
    simp [horner]

/-- R167: a syndrome is the word's value at a root of the generator. -/
theorem syndromeAt_spec {d : List Elem} (hd : ∀ x ∈ d, cb.Symbol x) (i : Nat) :
    cb.Symbol (syndromeAt cb d i) ∧ m.val (syndromeAt cb d i) = horner (m.root i) (d.map m.val) := by
  cases d with
  | nil => exact ⟨cb.symbol_zero, m.val_zero⟩
  | cons x d => exact m.syndromeLoop_spec _ (fun y hy => hd y (List.mem_cons_of_mem x hy)) (hd x List.mem_cons_self)

/-- R160: a word is a codeword exactly when it vanishes at the roots of the generator. -/
theorem isCodeword_iff {d : List Elem} (hd : ∀ x ∈ d, cb.Symbol x) :
    isCodeword cb d = true ↔ ∀ i < cb.nroots.toNat, horner (m.root i) (d.map m.val) = 0 := by
  simp only [isCodeword, syndromes, List.all_map, List.all_eq_true, List.mem_range, Function.comp_apply,
    decide_eq_true_eq]
  refine forall₂_congr fun i _ => ?_
  obtain ⟨hsym, hval⟩ := m.syndromeAt_spec hd i
  rw [← hval, m.val_eq_zero_iff hsym]

/-! ## The generator polynomial (R129) -/

/-- R129: the turn's descending update, coefficient by coefficient. -/
theorem genStep_val_succ {root i : Nat} {g : List Elem} (h : GenInv cb i g) (hi : i + 1 < g.length) (j : Nat) :
    cb.Symbol ((genStep cb root i g).getD (j + 1) 0) ∧ m.val ((genStep cb root i g).getD (j + 1) 0) =
      m.val (g.getD j 0) + m.val (g.getD (j + 1) 0) * m.gen ^ root := by
  have hprev := h.symbol_getD j
  have hnext := h.symbol_getD (j + 1)
  rcases Nat.lt_trichotomy j i with hlt | rfl | hgt
  · rw [genStep, mapIndexed_getD _ _ (by omega) 0]
    simp only [Nat.add_one_ne_zero, if_false, if_pos (show j + 1 ≤ i by omega), Nat.add_sub_cancel]
    split
    · rename_i h0
      exact ⟨m.symbol_xor hprev (m.symbol_power _), by rw [m.val_xor, m.val_scaled hnext h0]⟩
    · rename_i h0
      exact ⟨hprev, by rw [not_not.mp h0, m.val_zero, zero_mul, add_zero]⟩
  · rw [genStep_getD_succ cb root j g hi, h.monic, h.above _ (Nat.lt_succ_self j), m.val_zero, m.val_one, zero_mul,
      add_zero]
    exact ⟨m.symbol_one, rfl⟩
  · have hzero : (genStep cb root i g).getD (j + 1) 0 = 0 := by
      by_cases hj : j + 1 < g.length
      · rw [genStep, mapIndexed_getD _ _ hj 0]
        simp only [Nat.add_one_ne_zero, if_false, if_neg (show ¬ j + 1 ≤ i by omega),
          if_neg (show ¬ j + 1 = i + 1 by omega)]
        exact h.above _ (by omega)
      · exact List.getD_eq_default _ _ (by simpa [genStep] using hj)
    rw [hzero, h.above _ hgt, h.above _ (by omega), m.val_zero, zero_mul, add_zero]
    exact ⟨cb.symbol_zero, rfl⟩

theorem genStep_spec {root i : Nat} {g : List Elem} (h : GenInv cb i g) (hi : i + 1 < g.length) :
    GenInv cb (i + 1) (genStep cb root i g) ∧
      m.poly (genStep cb root i g) = (X + C (m.gen ^ root)) * m.poly g := by
  have hlen : (genStep cb root i g).length = g.length := by simp [genStep]
  have hhead := genStep_getD_zero cb (root := root) (i := i) (show 0 < g.length by omega)
  have hconst : m.val ((genStep cb root i g).getD 0 0) = m.val (g.getD 0 0) * m.gen ^ root := by
    rw [hhead, m.val_scaled (h.symbol_getD 0) h.constant]
  refine ⟨⟨forall_mem_of_getD (a := 0) fun j _ => ?_, fun h0 => ?_, genStep_getD_succ cb root i g hi, fun j hj => ?_⟩,
    Polynomial.ext fun j => ?_⟩
  · cases j with
    | zero => exact hhead ▸ m.symbol_power _
    | succ j => exact (m.genStep_val_succ h hi j).1
  · rw [h0, m.val_zero] at hconst
    exact h.constant (m.eq_zero_of_val _ (h.symbol_getD 0)
      ((mul_eq_zero.mp hconst.symm).resolve_right (pow_ne_zero _ m.gen_ne_zero)))
  · obtain ⟨j, rfl⟩ := Nat.exists_eq_add_of_le' (show 1 ≤ j by omega)
    obtain ⟨hsym, hval⟩ := m.genStep_val_succ (root := root) h hi j
    refine m.eq_zero_of_val _ hsym ?_
    rw [hval, h.above _ (by omega), h.above _ (by omega), m.val_zero, zero_mul, add_zero]
  · rw [m.poly_coeff, add_mul, coeff_add, coeff_C_mul, m.poly_coeff]
    cases j with
    | zero => rw [hconst, coeff_X_mul_zero, zero_add, mul_comm]
    | succ j => rw [(m.genStep_val_succ h hi j).2, coeff_X_mul, m.poly_coeff, mul_comm (m.gen ^ root)]

/-- R129: the loop multiplies by a linear factor for each root. -/
theorem genLoop_spec {fuel i root : Nat} (prim : Nat) {g : List Elem} (h : GenInv cb i g) (hi : i + fuel < g.length) :
    GenInv cb (i + fuel) (genLoop cb prim fuel i root g) ∧
      m.poly (genLoop cb prim fuel i root g) =
        (∏ t ∈ Finset.range fuel, (X + C (m.gen ^ (root + t * prim)))) * m.poly g := by
  induction fuel generalizing i root g with
  | zero => exact ⟨h, by simp [genLoop]⟩
  | succ fuel ih =>
    obtain ⟨h', hpoly⟩ := m.genStep_spec (root := root) h (by omega)
    have hlen : (genStep cb root i g).length = g.length := by simp [genStep]
    obtain ⟨hinv, hprod⟩ := ih (root := root + prim) h' (by omega)
    rw [genLoop]
    refine ⟨by rwa [Nat.add_right_comm] at hinv, ?_⟩
    rw [hprod, hpoly, Finset.prod_range_succ', Nat.zero_mul, Nat.add_zero, mul_assoc]
    simp only [Nat.succ_mul, Nat.add_assoc, Nat.add_comm prim]

end SlotField

/-- R129: the coefficients of the generator in poly form. -/
def ControlBlock.genCoeffs (cb : ControlBlock) : List Elem :=
  genLoop cb cb.prim.toNat cb.nroots.toNat 0 (cb.fcr.toNat * cb.prim.toNat) (1 :: List.replicate cb.nroots.toNat 0)

/-- R129: GENPOLY holds the logarithms of the generator's coefficients. -/
theorem builtSlot_gen {cb : ControlBlock} (h : builtSlot cb) {j : Nat} (hj : j ≤ cb.nroots.toNat) :
    cb.gen j = cb.log (cb.genCoeffs.getD j 0) := by
  obtain ⟨-, -, -, -, -, -, hr, -, -⟩ := checkParams_none (initBlock_ok h).1
  have hlt : j < 65 := by omega
  have hgen := (initBlock_tables h).2.2
  rw [ControlBlock.gen, dif_pos hlt, hgen, buildGenpoly_getElem _ _ _ _ hlt, if_pos hj, ControlBlock.genCoeffs]

namespace SlotField

variable {cb : ControlBlock} {F : Type} [Field F] [CharP F 2] (m : SlotField cb F)

theorem poly_one (n : Nat) : m.poly (1 :: List.replicate n 0) = 1 := by
  refine Polynomial.ext fun k => ?_
  rw [m.poly_coeff, coeff_one]
  split
  · rename_i hk
    exact hk ▸ m.val_one
  · rename_i hk
    rw [(m.genInv_one n).above k (by omega), m.val_zero]

/-- R129: the generator is the product of the linear factors of its roots. -/
theorem genCoeffs_spec : GenInv cb cb.nroots.toNat cb.genCoeffs ∧
    m.poly cb.genCoeffs = ∏ t ∈ Finset.range cb.nroots.toNat, (X + C (m.root t)) := by
  obtain ⟨hinv, hprod⟩ := m.genLoop_spec (root := cb.fcr.toNat * cb.prim.toNat) cb.prim.toNat
    (m.genInv_one cb.nroots.toNat) (fuel := cb.nroots.toNat) (by simp)
  refine ⟨by rwa [Nat.zero_add] at hinv, ?_⟩
  rw [ControlBlock.genCoeffs, hprod, m.poly_one, mul_one]
  simp only [root, ← Nat.add_mul]

theorem genCoeffs_eval {i : Nat} (hi : i < cb.nroots.toNat) : (m.poly cb.genCoeffs).eval (m.root i) = 0 := by
  rw [m.genCoeffs_spec.2, eval_prod]
  exact Finset.prod_eq_zero (Finset.mem_range.mpr hi) (by simp [CharTwo.add_self_eq_zero])

theorem genCoeffs_length : cb.genCoeffs.length = cb.nroots.toNat + 1 := by
  rw [ControlBlock.genCoeffs, genLoop_length]
  simp

theorem logVal_gen {j : Nat} (hj : j ≤ cb.nroots.toNat) : m.logVal (cb.gen j) = (m.poly cb.genCoeffs).coeff j := by
  rw [builtSlot_gen m.primitive.1 hj, m.logVal_log (m.genCoeffs_spec.1.symbol_getD j), m.poly_coeff]

/-- R129: the generator's value at a root, as a sum over its coefficients in index form. -/
theorem sum_logVal_gen {i : Nat} (hi : i < cb.nroots.toNat) :
    ∑ j ∈ Finset.range (cb.nroots.toNat + 1), m.logVal (cb.gen j) * m.root i ^ j = 0 := by
  have heval := m.genCoeffs_eval hi
  rw [poly, listPoly_eval _ _ (n := cb.nroots.toNat + 1) (by simp [genCoeffs_length])] at heval
  rw [← heval]
  refine Finset.sum_congr rfl fun j hj => ?_
  rw [m.logVal_gen (Nat.lt_succ_iff.mp (Finset.mem_range.mp hj)), poly, listPoly_coeff]

theorem logVal_gen_top : m.logVal (cb.gen cb.nroots.toNat) = 1 := by
  rw [m.logVal_gen le_rfl, m.poly_coeff, m.genCoeffs_spec.1.monic, m.val_one]

section

include m

/-- No coefficient of the generator is 0: a polynomial with fewer terms than that cannot vanish at NROOTS roots. -/
theorem gen_ne_a0 {j : Nat} (hj : j ≤ cb.nroots.toNat) : cb.gen j ≠ cb.a0 := by
  intro hzero
  have hj0 : m.logVal (cb.gen j) = 0 := m.logVal_eq_zero_iff.mpr hzero
  have htop := m.logVal_gen_top
  have hne : j ≠ cb.nroots.toNat := fun h => zero_ne_one (hj0.symm.trans (h ▸ htop))
  let E := (Finset.range (cb.nroots.toNat + 1)).erase j
  have hlt (l : Nat) (hl : l ∈ E) : l < cb.nn.toNat := by
    have h1 := Finset.mem_range.mp (Finset.mem_of_mem_erase hl)
    have h2 := m.nroots_lt
    omega
  have hall := magnitudes_eq_zero (loc := fun l => m.step ^ l)
    (mag := fun l => m.logVal (cb.gen l) * (m.step ^ l) ^ cb.fcr.toNat) (E := E) (N := cb.nroots.toNat)
    (fun p hp q hq h => m.step_pow_inj (hlt p hp) (hlt q hq) h) (fun p _ => pow_ne_zero _ m.step_ne_zero)
    (by simp [E, Finset.card_erase_of_mem, hj]) fun i hi => ?_
  · have hmem : cb.nroots.toNat ∈ E := Finset.mem_erase.mpr ⟨hne.symm, Finset.self_mem_range_succ _⟩
    have := hall _ hmem
    rw [htop, one_mul] at this
    exact pow_ne_zero _ (pow_ne_zero _ m.step_ne_zero) this
  · rw [← m.sum_logVal_gen hi, ← Finset.add_sum_erase _ _ (Finset.mem_range.mpr (Nat.lt_succ_of_le hj)), hj0,
      zero_mul, zero_add]
    refine Finset.sum_congr rfl fun l _ => ?_
    rw [m.root_eq]
    ring

end

/-! ## The encoder (R161, R162) -/

/-- R161: one symbol of the shifted register, where the symbol beyond the register's end counts as 0. -/
theorem parityStep_val {p : List Elem} (hp : p.length = cb.nroots.toNat) (hsym : ∀ x ∈ p, cb.Symbol x) {a : Elem}
    (ha : cb.Symbol a) {j : Nat} (hj : j < cb.nroots.toNat) :
    cb.Symbol ((parityStep cb p a).getD j 0) ∧ m.val ((parityStep cb p a).getD j 0) = m.val (p.getD (j + 1) 0) +
      (m.val a + m.val (p.getD 0 0)) * m.logVal (cb.gen (cb.nroots.toNat - 1 - j)) := by
  have hfb : m.logVal (cb.log (a ^^^ p.headD 0)) = m.val a + m.val (p.getD 0 0) := by
    have hhead : p.headD 0 = p.getD 0 0 := by cases p <;> rfl
    rw [hhead, m.logVal_log (m.symbol_xor ha (getD_of_forall hsym cb.symbol_zero 0)), m.val_xor]
  have hterm (k : Nat) (hk : k ≤ cb.nroots.toNat) : m.val (cb.term (cb.log (a ^^^ p.headD 0)) (cb.gen k).toNat) =
      (m.val a + m.val (p.getD 0 0)) * m.logVal (cb.gen k) := by
    rw [m.val_term, hfb, m.logVal_of_ne (m.gen_ne_a0 hk)]
  have hentry : (parityStep cb p a).getD j 0 = if j + 1 < cb.nroots.toNat then
      p.getD (j + 1) 0 ^^^ cb.term (cb.log (a ^^^ p.headD 0)) (cb.gen (cb.nroots.toNat - (j + 1))).toNat
      else cb.term (cb.log (a ^^^ p.headD 0)) (cb.gen 0).toNat := map_range_getD _ _ hj 0
  rw [hentry]
  split
  · refine ⟨m.symbol_xor (getD_of_forall hsym cb.symbol_zero _) (m.symbol_term _ _), ?_⟩
    rw [m.val_xor, hterm _ (Nat.sub_le _ _), show cb.nroots.toNat - (j + 1) = cb.nroots.toNat - 1 - j by omega]
  · refine ⟨m.symbol_term _ _, ?_⟩
    have hend : p.getD (j + 1) 0 = 0 := List.getD_eq_default _ _ (by omega)
    rw [hterm 0 (Nat.zero_le _), hend, m.val_zero, zero_add, show cb.nroots.toNat - 1 - j = 0 by omega]

/-- Shifting a register of `n` symbols multiplies its value by the point and drops the first symbol. -/
theorem sum_shift {K : Type} [Field K] (f : Nat → K) (x : K) (n : Nat) (hn : f n = 0) :
    (∑ j ∈ Finset.range n, f j * x ^ (n - 1 - j)) * x =
      f 0 * x ^ n + ∑ j ∈ Finset.range n, f (j + 1) * x ^ (n - 1 - j) := by
  have hlong : ∑ j ∈ Finset.range (n + 1), f j * x ^ (n - j) =
      (∑ j ∈ Finset.range n, f j * x ^ (n - 1 - j)) * x := by
    rw [Finset.sum_range_succ, hn, zero_mul, add_zero, Finset.sum_mul]
    refine Finset.sum_congr rfl fun j hj => ?_
    have := Finset.mem_range.mp hj
    rw [mul_assoc, ← pow_succ, show n - 1 - j + 1 = n - j by omega]
  rw [← hlong, Finset.sum_range_succ', add_comm]
  refine congrArg₂ (· + ·) (by simp) (Finset.sum_congr rfl fun j _ => ?_)
  rw [show n - (j + 1) = n - 1 - j by omega]

/-- R129: at a root the generator's lower coefficients add up to the power NROOTS. -/
theorem sum_logVal_gen_lower {i : Nat} (hi : i < cb.nroots.toNat) :
    ∑ j ∈ Finset.range cb.nroots.toNat, m.logVal (cb.gen (cb.nroots.toNat - 1 - j)) *
      m.root i ^ (cb.nroots.toNat - 1 - j) = m.root i ^ cb.nroots.toNat := by
  have hall := m.sum_logVal_gen hi
  rw [Finset.sum_range_succ, m.logVal_gen_top, one_mul, CharTwo.add_eq_zero] at hall
  rw [← hall, Finset.sum_range_reflect (fun j => m.logVal (cb.gen j) * m.root i ^ j)]

/-- R162: a turn of the encoder takes in one more symbol of the message, modulo the generator. -/
theorem parityStep_spec {p : List Elem} (hp : p.length = cb.nroots.toNat) (hsym : ∀ x ∈ p, cb.Symbol x) {a : Elem}
    (ha : cb.Symbol a) : (∀ x ∈ parityStep cb p a, cb.Symbol x) ∧
      ∀ i < cb.nroots.toNat, horner (m.root i) ((parityStep cb p a).map m.val) =
        horner (m.root i) (p.map m.val) * m.root i + m.val a * m.root i ^ cb.nroots.toNat := by
  have hlen : (parityStep cb p a).length = cb.nroots.toNat := parityStep_length cb p a
  refine ⟨forall_mem_of_getD (a := 0) fun j hj => (m.parityStep_val hp hsym ha (hlen ▸ hj)).1, fun i hi => ?_⟩
  have hend : m.val (p.getD cb.nroots.toNat 0) = 0 := by rw [List.getD_eq_default _ _ hp.le, m.val_zero]
  have hshift := sum_shift (fun j => m.val (p.getD j 0)) (m.root i) cb.nroots.toNat hend
  have hturn : ∑ j ∈ Finset.range cb.nroots.toNat,
      m.val ((parityStep cb p a).getD j 0) * m.root i ^ (cb.nroots.toNat - 1 - j) =
      ∑ j ∈ Finset.range cb.nroots.toNat, m.val (p.getD (j + 1) 0) * m.root i ^ (cb.nroots.toNat - 1 - j) +
        (m.val a + m.val (p.getD 0 0)) * m.root i ^ cb.nroots.toNat := by
    rw [← m.sum_logVal_gen_lower hi, Finset.mul_sum, ← Finset.sum_add_distrib]
    refine Finset.sum_congr rfl fun j hj => ?_
    rw [(m.parityStep_val hp hsym ha (Finset.mem_range.mp hj)).2]
    ring
  simp only [horner_eq_sum, List.length_map, hlen, hp, m.map_val_getD]
  rw [hturn, hshift]
  ring

theorem rsParity_spec {msg : List Elem} (hmsg : ∀ x ∈ msg, cb.Symbol x) :
    (∀ x ∈ rsParity cb msg, cb.Symbol x) ∧ ∀ i < cb.nroots.toNat, horner (m.root i) ((rsParity cb msg).map m.val) =
      horner (m.root i) (msg.map m.val) * m.root i ^ cb.nroots.toNat := by
  induction msg using List.reverseRecOn with
  | nil =>
    have hzero (x : Elem) (hx : x ∈ rsParity cb []) : x = 0 := List.eq_of_mem_replicate hx
    refine ⟨fun x hx => hzero x hx ▸ cb.symbol_zero, fun i hi => ?_⟩
    rw [horner_eq_sum, Finset.sum_eq_zero fun j _ => ?_]
    · simp [horner]
    · rw [getD_of_forall (p := (· = 0)) (l := (rsParity cb []).map m.val) ?_ rfl j, zero_mul]
      intro y hy
      obtain ⟨x, hx, rfl⟩ := List.mem_map.mp hy
      rw [hzero x hx, m.val_zero]
  | append_singleton msg a ih =>
    obtain ⟨hsym, hval⟩ := ih fun x hx => hmsg x (List.mem_append_left _ hx)
    obtain ⟨hsym', hval'⟩ := m.parityStep_spec (rsParity_length cb msg) hsym (hmsg a (by simp))
    have hfold : rsParity cb (msg ++ [a]) = parityStep cb (rsParity cb msg) a := by simp [rsParity]
    rw [hfold]
    refine ⟨hsym', fun i hi => ?_⟩
    rw [hval' i hi, hval i hi, List.map_append, List.map_singleton, horner_concat]
    ring

end SlotField

/-! ## The statements -/

/-- R162: a message followed by its parity is a codeword. -/
theorem isCodeword_append_rsParity {cb : ControlBlock} (h : primitiveSlot cb) {msg : List Elem}
    (hmsg : ∀ x ∈ msg, cb.Symbol x) :
    (∀ x ∈ rsParity cb msg, cb.Symbol x) ∧ isCodeword cb (msg ++ rsParity cb msg) = true := by
  obtain ⟨F, _, _, ⟨m⟩⟩ := exists_slotField h
  obtain ⟨hsym, hval⟩ := m.rsParity_spec hmsg
  refine ⟨hsym, (m.isCodeword_iff fun x hx => (List.mem_append.mp hx).elim (hmsg x) (hsym x)).mpr fun i hi => ?_⟩
  rw [List.map_append, horner_append, List.length_map, rsParity_length, hval i hi]
  exact CharTwo.add_self_eq_zero _

/-- R129: the generator vanishes at its roots. -/
theorem generator_vanishes {cb : ControlBlock} (h : primitiveSlot cb) {i : Nat} (hi : i < cb.nroots.toNat) :
    xorSum ((List.range (cb.nroots.toNat + 1)).map fun j =>
      cb.term (cb.gen j) (j * ((cb.fcr.toNat + i) * cb.prim.toNat))) = 0 := by
  obtain ⟨F, _, _, ⟨m⟩⟩ := exists_slotField h
  refine m.eq_zero_of_val _ (m.symbol_xorSum_range fun j => m.symbol_term _ _) ?_
  rw [m.val_xorSum_range, ← m.sum_logVal_gen hi]
  refine Finset.sum_congr rfl fun j _ => ?_
  rw [m.val_term, SlotField.root, ← pow_mul, mul_comm j]

theorem State.loadRange_congr {s t : State} {b : Buf} (h : ∀ i, t.loadByte b i = s.loadByte b i) (off len : Nat) :
    t.loadRange b off len = s.loadRange b off len := by
  induction len generalizing off with
  | zero => rfl
  | succ len ih => rw [State.loadRange, State.loadRange, h, ih]

/-- R162: after RS_ENCODE the buffer holds the message and its parity. -/
theorem loadRange_storeParity {s : State} {k : Nat} {msg p : List Elem} (hload : s.loadRange .dbuf 0 k = .ok msg)
    (hk : k + p.length ≤ 256) :
    (s.storeParity k p).loadRange .dbuf 0 (k + p.length) = .ok (msg ++ p) := by
  obtain ⟨rfl, hbytes⟩ := State.loadRange_ok hload
  rw [← List.length_append]
  refine State.loadRange_of_loadByte _ fun j hj => ?_
  rw [Nat.zero_add]
  rcases Nat.lt_or_ge j msg.length with hmsg | hparity
  · have hw := State.written?_storeParity_other s (k := msg.length) (p := p) (b := .dbuf) (i := j) (by simp) (by omega)
    rw [State.loadByte_congr hw (by simp [State.storeParity]) (by simp [State.storeParity]),
      List.getElem_append_left hmsg, ← hbytes j hmsg, Nat.zero_add]
  · obtain ⟨i, rfl⟩ := Nat.exists_eq_add_of_le hparity
    have hi : i < p.length := by
      rw [List.length_append] at hj
      omega
    rw [State.loadByte_of_written (State.written?_storeParity_dbuf s hi hk), List.getD_eq_getElem _ _ hi]
    simp

/-- R44: message and parity make the codeword. -/
theorem builtSlot_blockLen {cb : ControlBlock} (h : builtSlot cb) : cb.msgLen + cb.nroots.toNat = cb.blockLen := by
  obtain ⟨-, -, -, -, -, -, -, -, hpad⟩ := checkParams_none (initBlock_ok h).1
  rw [← (builtSlot_nn h).1] at hpad
  simp only [ControlBlock.msgLen, ControlBlock.blockLen, ControlBlock.fieldSize, ControlBlock.roots]
  omega

/-- Settles O36: the generator at its roots, division by it, and a decode of the codeword so made. -/
theorem encodedWordsAreCodewords : Obligations.EncodedWordsAreCodewords := by
  refine ⟨fun cb h i hi => generator_vanishes h hi, fun cb msg h _ hmsg => (isCodeword_append_rsParity h hmsg).2,
    fun c s msg h hneras hload hmsg => ?_⟩
  obtain ⟨-, -, -, -, -, -, -, hvalid⟩ := initBlock_fields h.1 s.cb[c].gfpoly.isLt
  obtain ⟨hsym, hcode⟩ := isCodeword_append_rsParity h hmsg
  obtain ⟨-, hfit⟩ := slotOk_parity_fits (builtSlot_ok h.1).1 hvalid
  have hlen : (rsParity s.cb[c] msg).length = s.cb[c].nroots.toNat := rsParity_length _ _
  let t := (s.storeParity s.cb[c].msgLen (rsParity s.cb[c] msg)).finish .ok 0
  have hcb : t.cb = s.cb := by simp [t, State.storeParity]
  have hcbc : t.cb[c] = s.cb[c] := by rw [hcb]
  have ht0 : t.neras.toNat = 0 := by simp [t, State.storeParity, hneras]
  have hq : t.loadRange .epos 0 t.neras.toNat = .ok [] := by rw [ht0]; rfl
  have hd : t.loadRange .dbuf 0 t.cb[c].blockLen = .ok (msg ++ rsParity s.cb[c] msg) := by
    rw [hcbc, ← builtSlot_blockLen h.1, ← hlen]
    have hfinish := State.loadRange_congr (s := s.storeParity s.cb[c].msgLen (rsParity s.cb[c] msg)) (t := t)
      (b := .dbuf) fun _ => rfl
    rw [hfinish]
    exact loadRange_storeParity hload (hlen.symm ▸ hfit)
  refine ⟨t, t.spendDraw.fresh, execRsEncode_of_inField hvalid hload hmsg, ?_⟩
  rw [execRsDecode_of_inField (hcbc ▸ hvalid) (by omega) hq (by simp) hd fun x hx => ?_, hcbc,
    rsOutcome_clean _ _ _ _ _ hcode]
  · obtain ⟨f, hf⟩ := t.exists_spendDraw_eq
    rw [hf]
    rfl
  · rw [hcbc]
    exact (List.mem_append.mp hx).elim (hmsg x) (hsym x)

end Sys2Proof.Machine
end

section
/-! PROOFS. The locator of 41_rs.md: the erasure seed (R168) and the Berlekamp-Massey loop (R169) as polynomials over
the field of a primitive slot. -/

namespace Sys2Proof.Machine

open Polynomial

namespace SlotField

variable {cb : ControlBlock} {F : Type} [Field F] (m : SlotField cb F)

/-! ## Locators of positions (R168, R170) -/

theorem gen_pow_mod (k : Nat) : m.gen ^ (k % cb.nn.toNat) = m.gen ^ k :=
  m.gen_pow_eq_iff.mpr (Nat.mod_mod k _)

/-- R121: an exponent reduced modulo NN is never the sentinel. -/
theorem logVal_modnn (k : Nat) : m.logVal (cb.modnn k) = m.gen ^ k := by
  have htoNat := ControlBlock.toNat_modnn m.nn_pos k
  have hlt := Nat.mod_lt k m.nn_pos
  rw [m.logVal_of_ne fun h => ?_, htoNat, m.gen_pow_mod]
  rw [h, ControlBlock.a0] at htoNat
  exact absurd htoNat.symm hlt.ne

/-- R11: an exponent written with a difference, reduced modulo NN. -/
theorem gen_pow_emod (z : Int) : m.gen ^ (z % (cb.nn.toNat : Int)).toNat = m.gen ^ z := by
  have hnn : (cb.nn.toNat : Int) ≠ 0 := by exact_mod_cast m.nn_pos.ne'
  rw [← zpow_natCast, Int.toNat_of_nonneg (Int.emod_nonneg z hnn), Int.emod_def, zpow_sub₀ m.gen_ne_zero, zpow_mul,
    zpow_natCast, m.gen_pow_nn, one_zpow, div_one]

/-- The locator of the full-length position `p`, α^(PRIM·(NN − 1 − p)). -/
def locator (p : Nat) : F := m.step ^ (cb.nn.toNat - 1 - p)

theorem locator_ne_zero (p : Nat) : m.locator p ≠ 0 := pow_ne_zero _ m.step_ne_zero

theorem locator_inj {p q : Nat} (hp : p < cb.nn.toNat) (hq : q < cb.nn.toNat) (h : m.locator p = m.locator q) :
    p = q := by
  have := m.step_pow_inj (by omega) (by omega) h
  omega

theorem gen_pow_erasureExponent (p : Nat) : m.gen ^ erasureExponent cb p = m.locator p := by
  rw [erasureExponent, ControlBlock.toNat_modnn m.nn_pos, m.gen_pow_mod, locator, step, pow_mul]

/-- R169: B <- x·B, where the coefficient dropped is 0. -/
theorem logPoly_shiftB {b : List LogSym} (hlast : b.getD (b.length - 1) cb.a0 = cb.a0) :
    m.logPoly (shiftB cb b) = X * m.logPoly b := by
  refine Polynomial.ext fun j => ?_
  rw [m.logPoly_coeff, shiftB]
  cases j with
  | zero => rw [coeff_X_mul_zero, List.getD_cons_zero, m.logVal_a0]
  | succ j =>
    rw [coeff_X_mul, m.logPoly_coeff, List.getD_cons_succ]
    by_cases hj : j < b.length - 1
    · rw [List.getD_eq_getElem _ _ (by simpa using hj), List.getElem_dropLast, List.getD_eq_getElem]
    · rw [List.getD_eq_default _ _ (by simpa using hj)]
      by_cases hjb : j < b.length
      · rw [show j = b.length - 1 by omega, hlast]
      · rw [List.getD_eq_default _ _ (by omega)]

variable [CharP F 2]

/-! ## The erasure seed (R168) -/

theorem eraseStep_spec {u top : Nat} {lam : List Elem} (hsym : ∀ x ∈ lam, cb.Symbol x)
    (hdeg : ∀ j, top ≤ j → lam.getD j 0 = 0) (hlen : top < lam.length) :
    (∀ x ∈ eraseStep cb u top lam, cb.Symbol x) ∧
      m.poly (eraseStep cb u top lam) = (1 + C (m.gen ^ u) * X) * m.poly lam := by
  have hget (j : Nat) := getD_of_forall hsym cb.symbol_zero j
  have hentry (j : Nat) (hj : j < lam.length) : (eraseStep cb u top lam).getD j 0 =
      if 1 ≤ j ∧ j ≤ top then lam.getD j 0 ^^^ cb.term (cb.log (lam.getD (j - 1) 0)) u else lam.getD j 0 :=
    mapIndexed_getD _ _ hj 0 0
  have hentry_len : (eraseStep cb u top lam).length = lam.length := mapIndexed_length _ _
  refine ⟨forall_mem_of_getD (a := 0) fun j hj => ?_, Polynomial.ext fun j => ?_⟩
  · rw [hentry j (hentry_len ▸ hj)]
    split
    · exact m.symbol_xor (hget j) (m.symbol_term _ _)
    · exact hget j
  · rw [m.poly_coeff, add_mul, one_mul, mul_assoc, coeff_add, coeff_C_mul, m.poly_coeff]
    by_cases hj : j < lam.length
    · rw [hentry j hj]
      cases j with
      | zero => simp
      | succ j =>
        rw [coeff_X_mul, m.poly_coeff, Nat.add_sub_cancel]
        split
        · rw [m.val_xor, m.val_term, m.logVal_log (hget j), mul_comm]
        · rename_i hnot
          rw [hdeg j (by omega), m.val_zero, mul_zero, add_zero]
    · obtain ⟨j, rfl⟩ := Nat.exists_eq_add_of_le' (show 1 ≤ j by omega)
      rw [coeff_X_mul, m.poly_coeff, hdeg j (by omega), hdeg (j + 1) (by omega),
        List.getD_eq_default _ _ (by omega), m.val_zero, mul_zero, add_zero]

/-- The factor of the locator for one position. -/
noncomputable def factor (p : Nat) : F[X] := 1 + C (m.locator p) * X

theorem eraseRest_spec {i : Nat} {q : List Nat} {lam : List Elem} (hsym : ∀ x ∈ lam, cb.Symbol x)
    (hdeg : ∀ j, i < j → lam.getD j 0 = 0) (hlen : i + q.length < lam.length) :
    (∀ x ∈ eraseRest cb i q lam, cb.Symbol x) ∧
      m.poly (eraseRest cb i q lam) = (q.map m.factor).prod * m.poly lam := by
  induction q generalizing i lam with
  | nil => exact ⟨hsym, (one_mul _).symm⟩
  | cons p q ih =>
    rw [List.length_cons] at hlen
    obtain ⟨hsym', hpoly⟩ := m.eraseStep_spec (u := erasureExponent cb p) hsym (fun j hj => hdeg j hj)
      (show i + 1 < lam.length by omega)
    have hdeg' (j : Nat) (hj : i + 1 < j) : (eraseStep cb (erasureExponent cb p) (i + 1) lam).getD j 0 = 0 := by
      by_cases hjl : j < lam.length
      · rw [eraseStep, mapIndexed_getD _ _ hjl 0, if_neg (by omega)]
        exact hdeg j (by omega)
      · exact List.getD_eq_default _ _ (by simpa [eraseStep] using hjl)
    obtain ⟨hsym'', hprod⟩ := ih hsym' hdeg' (by simp [eraseStep]; omega)
    refine ⟨hsym'', ?_⟩
    rw [eraseRest, hprod, hpoly, m.gen_pow_erasureExponent, List.map_cons, List.prod_cons, factor]
    ring

include m in
/-- R168: the first erasure, written into the locator 1, is multiplied into it like the others. -/
theorem erasureSeed_eq (q : List Nat) (hlen : q.length ≤ cb.nroots.toNat) :
    erasureSeed cb q = eraseRest cb 0 q (1 :: List.replicate cb.nroots.toNat 0) := by
  cases q with
  | nil => rfl
  | cons p q =>
    rw [List.length_cons] at hlen
    have hterm : cb.term (cb.log 1) (erasureExponent cb p) = cb.power (erasureExponent cb p) := by
      refine m.val_inj (m.symbol_term _ _) (m.symbol_power _) ?_
      rw [m.val_term, m.logVal_log m.symbol_one, m.val_one, one_mul, m.val_power]
    refine congrArg (eraseRest cb 1 q) (List.ext_getElem? fun j => ?_)
    rw [eraseStep, mapIndexed_getElem?, List.getElem?_set]
    match j with
    | 0 => rfl
    | 1 =>
      have h1 : (1 :: List.replicate cb.nroots.toNat 0 : List Elem)[1]? = some 0 := by
        rw [List.getElem?_cons_succ, List.getElem?_replicate, if_pos (by omega)]
      have hlen1 : 1 < (1 :: List.replicate cb.nroots.toNat 0 : List Elem).length := by simp; omega
      rw [h1, if_pos rfl, if_pos hlen1]
      simpa using hterm.symm
    | j + 2 => simp

/-- R168: the seed is the locator of the erasures. -/
theorem erasureSeed_spec {q : List Nat} (hq : q.Nodup) (hlen : q.length ≤ cb.nroots.toNat) :
    (∀ x ∈ erasureSeed cb q, cb.Symbol x) ∧ m.poly (erasureSeed cb q) = locatorPoly m.locator q.toFinset := by
  have hone := m.genInv_one cb.nroots.toNat
  obtain ⟨hsym, hpoly⟩ := m.eraseRest_spec (i := 0) (q := q) hone.symbols hone.above (by simp; omega)
  rw [m.erasureSeed_eq q hlen]
  refine ⟨hsym, hpoly.trans ?_⟩
  rw [m.poly_one, mul_one]
  exact (List.prod_toFinset m.factor hq).symm

/-! ## Berlekamp-Massey (R169) -/

/-- R169: the discrepancy is a coefficient of syndromes times locator. -/
theorem discrepancy_spec (s : List LogSym) {lam : List Elem} (hsym : ∀ x ∈ lam, cb.Symbol x) (r : Nat) :
    cb.Symbol (discrepancy cb s lam (r + 1)) ∧
      m.val (discrepancy cb s lam (r + 1)) = (m.logPoly s * m.poly lam).coeff r := by
  have hterm (i : Nat) : m.val (if lam.getD i 0 ≠ 0 ∧ s.getD (r + 1 - i - 1) cb.a0 ≠ cb.a0 then
      cb.power ((cb.log (lam.getD i 0)).toNat + (s.getD (r + 1 - i - 1) cb.a0).toNat) else 0) =
      m.val (lam.getD i 0) * m.logVal (s.getD (r - i) cb.a0) := by
    rw [show r + 1 - i - 1 = r - i by omega]
    split
    · rename_i h
      rw [m.val_power, pow_add, m.gen_pow_log _ (getD_of_forall hsym cb.symbol_zero i) h.1, m.logVal_of_ne h.2]
    · rename_i h
      rcases not_and_or.mp h with h | h
      · rw [not_not.mp h, m.val_zero, zero_mul]
      · rw [not_not.mp h, m.logVal_a0, mul_zero, m.val_zero]
  refine ⟨m.symbol_xorSum_range fun i => ?_, ?_⟩
  · dsimp only
    split
    · exact m.symbol_power _
    · exact cb.symbol_zero
  · rw [discrepancy, m.val_xorSum_range, Finset.sum_congr rfl fun i _ => hterm i, mul_comm, coeff_mul,
      Finset.Nat.sum_antidiagonal_eq_sum_range_succ_mk]
    exact Finset.sum_congr rfl fun i _ => by rw [m.poly_coeff, m.logPoly_coeff]

/-- R169: T is the locator corrected by the discrepancy times x·B. -/
theorem poly_update {d : LogSym} (hd : d ≠ cb.a0) {b : List LogSym} {lam : List Elem} (hsym : ∀ x ∈ lam, cb.Symbol x)
    (hb : ∀ j, lam.length ≤ j + 1 → b.getD j cb.a0 = cb.a0) :
    (∀ x ∈ mapIndexed lam fun i x => if i = 0 then x else x ^^^ cb.term (b.getD (i - 1) cb.a0) d.toNat, cb.Symbol x) ∧
      m.poly (mapIndexed lam fun i x => if i = 0 then x else x ^^^ cb.term (b.getD (i - 1) cb.a0) d.toNat) =
        m.poly lam + C (m.logVal d) * (X * m.logPoly b) := by
  let t := mapIndexed lam fun i x => if i = 0 then x else x ^^^ cb.term (b.getD (i - 1) cb.a0) d.toNat
  have hlen : t.length = lam.length := mapIndexed_length _ _
  have hget (j : Nat) := getD_of_forall hsym cb.symbol_zero j
  have hentry (j : Nat) (hj : j < lam.length) : t.getD j 0 =
      if j = 0 then lam.getD j 0 else lam.getD j 0 ^^^ cb.term (b.getD (j - 1) cb.a0) d.toNat :=
    mapIndexed_getD _ _ hj 0 0
  change (∀ x ∈ t, cb.Symbol x) ∧ m.poly t = _
  refine ⟨forall_mem_of_getD (a := 0) fun j hj => ?_, Polynomial.ext fun j => ?_⟩
  · rw [hentry j (hlen ▸ hj)]
    split
    · exact hget j
    · exact m.symbol_xor (hget j) (m.symbol_term _ _)
  · rw [m.poly_coeff, coeff_add, coeff_C_mul, m.poly_coeff]
    cases j with
    | zero =>
      rw [coeff_X_mul_zero, mul_zero, add_zero]
      by_cases h0 : 0 < lam.length
      · rw [hentry 0 h0, if_pos rfl]
      · rw [List.getD_eq_default _ _ (by omega), List.getD_eq_default _ _ (by omega)]
    | succ j =>
      rw [coeff_X_mul, m.logPoly_coeff]
      by_cases hj : j + 1 < lam.length
      · rw [hentry _ hj, if_neg (Nat.succ_ne_zero j), Nat.add_sub_cancel, m.val_xor, m.val_term,
          ← m.logVal_of_ne hd, mul_comm]
      · rw [List.getD_eq_default t _ (by omega), List.getD_eq_default lam _ (by omega), hb j (by omega),
          m.logVal_a0, mul_zero, add_zero]

/-- R169: the new B is the old locator divided by the discrepancy. -/
theorem logPoly_divided {d : LogSym} (hd : d ≠ cb.a0) {lam : List Elem} (hsym : ∀ x ∈ lam, cb.Symbol x) :
    m.logPoly (lam.map fun x => if x = 0 then cb.a0
      else cb.modnn ((((cb.log x).toNat : Int) - d.toNat + cb.fieldSize) % (cb.fieldSize : Int)).toNat) =
        C (m.logVal d)⁻¹ * m.poly lam := by
  have hquot (x : Elem) (hx : cb.Symbol x) : m.logVal (if x = 0 then cb.a0 else
      cb.modnn ((((cb.log x).toNat : Int) - d.toNat + cb.fieldSize) % (cb.fieldSize : Int)).toNat) =
      (m.logVal d)⁻¹ * m.val x := by
    split
    · rename_i h0
      rw [h0, m.val_zero, mul_zero, m.logVal_a0]
    · rename_i h0
      rw [m.logVal_modnn, m.gen_pow_emod, zpow_add₀ m.gen_ne_zero, zpow_sub₀ m.gen_ne_zero, zpow_natCast, zpow_natCast,
        zpow_natCast, m.gen_pow_nn, mul_one, m.gen_pow_log x hx h0, m.logVal_of_ne hd, div_eq_inv_mul]
  refine Polynomial.ext fun j => ?_
  rw [coeff_C_mul, m.logPoly_coeff, m.poly_coeff]
  by_cases hj : j < lam.length
  · rw [List.getD_eq_getElem _ _ (by simpa using hj), List.getElem_map, hquot _ (hsym _ (List.getElem_mem hj)),
      List.getD_eq_getElem]
  · rw [List.getD_eq_default _ _ (by simpa using hj), List.getD_eq_default _ _ (by omega), m.logVal_a0, m.val_zero,
      mul_zero]

/-- What the loop needs to know of the error pattern: the locator of the errors `w` completes the erasure locator `G` to
one that the syndromes satisfy. -/
structure Completes (S G : F[X]) (e n N : Nat) (w O : F[X]) : Prop where
  degree : w.natDegree ≤ n
  constant : w.coeff 0 = 1
  key : X ^ N ∣ S * (G * w) - O
  evaluator : O.degree < (e + n : Nat)

/-- R169: the loop keeps the invariant, and the bound on the locator's degree never exceeds the number of errors and
erasures. -/
theorem bmLoop_spec {S G : F[X]} {e n : Nat} {w O : F[X]} (hGdeg : G.natDegree ≤ e)
    (hw : Completes S G e n cb.nroots.toNat w O) {s : List LogSym} (hS : m.logPoly s = S) {fuel r el : Nat}
    {b : List LogSym} {lam : List Elem} (hfuel : r + fuel = cb.nroots.toNat) (hsym : ∀ x ∈ lam, cb.Symbol x)
    (hlam : lam.length = cb.nroots.toNat + 1) (hb : b.length = cb.nroots.toNat + 1) (hel : el ≤ e + n)
    (hinv : BmInv S G e r el (m.poly lam) (m.logPoly b)) :
    (∀ x ∈ bmLoop cb s e fuel r el b lam, cb.Symbol x) ∧ ∃ el' B, el' ≤ e + n ∧
      BmInv S G e cb.nroots.toNat el' (m.poly (bmLoop cb s e fuel r el b lam)) B := by
  induction fuel generalizing r el b lam with
  | zero =>
    obtain rfl : r = cb.nroots.toNat := by omega
    exact ⟨hsym, el, _, hel, hinv⟩
  | succ fuel ih =>
    obtain ⟨hdsym, hdval⟩ := m.discrepancy_spec s hsym r
    rw [hS] at hdval
    have hbtop (j : Nat) (hj : cb.nroots.toNat ≤ j) : b.getD j cb.a0 = cb.a0 := by
      obtain ⟨b', hb', hb'deg⟩ := hinv.previous
      have he := hinv.e_le
      have hr := hinv.el_le
      have hdeg : (m.logPoly b).natDegree ≤ e + (r - el) := hb' ▸ natDegree_mul_le.trans (Nat.add_le_add hGdeg hb'deg)
      rw [← m.logVal_eq_zero_iff, ← m.logPoly_coeff]
      exact coeff_eq_zero_of_natDegree_lt (by omega)
    have hshift : m.logPoly (shiftB cb b) = X * m.logPoly b := m.logPoly_shiftB (hbtop _ (by omega))
    have hshift_len : (shiftB cb b).length = cb.nroots.toNat + 1 := by simp [shiftB, hb]
    have hd : cb.log (discrepancy cb s lam (r + 1)) = cb.a0 ↔ (S * m.poly lam).coeff r = 0 := by
      rw [m.log_eq_a0_iff hdsym, ← m.val_eq_zero_iff hdsym, hdval]
    have hdlog : m.logVal (cb.log (discrepancy cb s lam (r + 1))) = (S * m.poly lam).coeff r := by
      rw [m.logVal_log hdsym, hdval]
    rw [bmLoop]
    dsimp only
    split
    · rename_i h0
      refine ih (by omega) hsym hlam hshift_len hel ?_
      rw [hshift]
      exact hinv.step_zero (hd.mp h0)
    · rename_i h0
      have hne := hd.not.mp h0
      obtain ⟨hTsym, hT⟩ := m.poly_update h0 (b := b) hsym fun j hj => hbtop j (by omega)
      rw [hdlog] at hT
      split
      · rename_i hlen
        have hmassey := hinv.lt_of_discrepancy hw.degree hw.constant hw.key hw.evaluator (by omega) hne
        refine ih (by omega) hTsym (by simpa using hlam) (by simpa using hlam) (by omega) ?_
        rw [hT, m.logPoly_divided h0 hsym, hdlog]
        exact hinv.step_grow hne (by omega)
      · rename_i hlen
        refine ih (by omega) hTsym (by simpa using hlam) hshift_len hel ?_
        rw [hT, hshift]
        exact hinv.step_keep (by omega)

/-- R169, R176: on the syndromes of a pattern of erasures `q` and errors `W` within the bound, the loop ends with its
locator. -/
theorem berlekampMassey_spec {q : List Nat} {W : Finset Nat} {mag : Nat → F} {s : List LogSym} (hq : q.Nodup)
    (hpos : ∀ p ∈ q.toFinset ∪ W, p < cb.nn.toNat) (hW : Disjoint q.toFinset W) (hmag : ∀ p ∈ W, mag p ≠ 0)
    (hS : IsSyndrome m.locator mag (q.toFinset ∪ W) cb.nroots.toNat (m.logPoly s))
    (hbound : 2 * W.card + q.length ≤ cb.nroots.toNat) :
    (∀ x ∈ berlekampMassey cb s (erasureSeed cb q) q.length, cb.Symbol x) ∧
      m.poly (berlekampMassey cb s (erasureSeed cb q) q.length) = locatorPoly m.locator (q.toFinset ∪ W) := by
  have hcard : q.toFinset.card = q.length := List.toFinset_card_of_nodup hq
  have hunion : (q.toFinset ∪ W).card = q.length + W.card := hcard ▸ Finset.card_union_of_disjoint hW
  obtain ⟨hsym, hseed⟩ := m.erasureSeed_spec hq (by omega)
  have hw : Completes (m.logPoly s) (locatorPoly m.locator q.toFinset) q.length W.card cb.nroots.toNat
      (locatorPoly m.locator W) (evaluatorPoly m.locator mag (q.toFinset ∪ W)) :=
    ⟨locatorPoly_natDegree_le _ _, locatorPoly_coeff_zero m.locator W,
      locatorPoly_union (loc := m.locator) hW ▸ key_equation hS,
      hunion ▸ evaluatorPoly_degree_lt m.locator mag _⟩
  obtain ⟨hsym', el, B, hel, hinv⟩ := m.bmLoop_spec
    ((locatorPoly_natDegree_le m.locator q.toFinset).trans_eq hcard) hw rfl
    (fuel := cb.roots - q.length) (r := q.length) (el := q.length) (b := cb.toLogs (erasureSeed cb q))
    (lam := erasureSeed cb q)
    (Nat.add_sub_of_le (show q.length ≤ cb.nroots.toNat by omega)) hsym (by simp) (by simp) (Nat.le_add_right _ _) (by
      rw [m.logPoly_toLogs hsym, hseed]
      exact BmInv.init (locatorPoly_coeff_zero _ _))
  refine ⟨hsym', ?_⟩
  exact hinv.eq_locatorPoly hcard hW (fun p hp p' hp' h => m.locator_inj (hpos p hp) (hpos p' hp') h)
    (fun p _ => m.locator_ne_zero p) hmag hS hel hbound

end SlotField

end Sys2Proof.Machine
end

section
/-! PROOFS. The search and the correction of 41_rs.md: the degree of a locator and its roots (R170), and the
magnitudes by Forney's formula (R172, R173). -/

namespace Sys2Proof.Machine

open Polynomial

/-! ## The degree (R170) -/

/-- R170: the largest index whose coefficient is not A0. -/
theorem degree_eq {cb : ControlBlock} {lx : List LogSym} {k : Nat} (hk : lx.getD k cb.a0 ≠ cb.a0)
    (habove : ∀ i, k < i → lx.getD i cb.a0 = cb.a0) : degree cb lx = k := by
  have hlen : k < lx.length := by
    by_contra hge
    exact hk (List.getD_eq_default _ _ (Nat.not_lt.mp hge))
  have key (n : Nat) : (List.range (k + 1 + n)).foldl
      (fun acc i => if lx.getD i cb.a0 ≠ cb.a0 then i else acc) 0 = k := by
    induction n with
    | zero =>
      rw [Nat.add_zero, List.range_succ, List.foldl_append]
      exact if_pos hk
    | succ n ih =>
      rw [← Nat.add_assoc, List.range_succ, List.foldl_append, ih]
      exact if_neg (not_not.mpr (habove _ (by omega)))
  rw [degree, ← key (lx.length - (k + 1)), Nat.add_sub_cancel' hlen]

/-! ## Positions and exponents (R170) -/

/-- R170: the full-length position of the root with exponent `i`, M(i·IPRIM − 1). -/
def ControlBlock.position (cb : ControlBlock) (i : Nat) : Nat := (i * cb.iprim.toNat + (cb.nn.toNat - 1)) % cb.nn.toNat

/-! ## The search's value and its result (R170) -/

/-- R170: the value of the registers, "q". -/
def chienValue (cb : ControlBlock) (r : List LogSym) : Elem :=
  (1 : Elem) ^^^ xorSum (r.map fun x => if x ≠ cb.a0 then cb.antilog x else 0)

/-- R170: the located errors with exponents from `i` on, `fuel` of them tried, where the errors are the positions `E`.
-/
def located (cb : ControlBlock) (E : Finset Nat) (i fuel : Nat) : List Located :=
  ((List.range' i fuel).filter fun j => cb.position j ∈ E).map fun j => ⟨j, cb.position j⟩

theorem located_succ (cb : ControlBlock) (E : Finset Nat) (i fuel : Nat) : located cb E i (fuel + 1) =
    if cb.position i ∈ E then ⟨i, cb.position i⟩ :: located cb E (i + 1) fuel else located cb E (i + 1) fuel := by
  rw [located, List.range'_succ, List.filter_cons]
  by_cases h : cb.position i ∈ E <;> simp [h, located]

/-- R170: a located error carries its exponent's position. -/
theorem mem_located {cb : ControlBlock} {E : Finset Nat} {f : Located} :
    f ∈ located cb E 1 cb.nn.toNat ↔ (1 ≤ f.root ∧ f.root ≤ cb.nn.toNat) ∧ f.loc ∈ E ∧ f.loc = cb.position f.root := by
  simp only [located, List.mem_map, List.mem_filter, List.mem_range'_1, decide_eq_true_eq]
  constructor
  · rintro ⟨i, ⟨hi, hE⟩, rfl⟩
    exact ⟨⟨hi.1, Nat.lt_one_add_iff.mp hi.2⟩, hE, rfl⟩
  · rintro ⟨hi, hE, hloc⟩
    refine ⟨f.root, ⟨by omega, hloc ▸ hE⟩, ?_⟩
    rw [← hloc]

namespace SlotField

variable {cb : ControlBlock} {F : Type} [Field F] (m : SlotField cb F)

section

include m

theorem position_lt (i : Nat) : cb.position i < cb.nn.toNat := Nat.mod_lt _ m.nn_pos

theorem iprim_bounds : 0 < cb.iprim.toNat ∧ cb.iprim.toNat < cb.nn.toNat ∧
    cb.iprim.toNat * cb.prim.toNat % cb.nn.toNat = 1 := by
  obtain ⟨-, hnn1, -⟩ := builtSlot_nn m.primitive.1
  obtain ⟨-, -, -, -, -, -, -, hvalid⟩ := initBlock_fields m.primitive.1 cb.gfpoly.isLt
  obtain ⟨hslot, hiprim⟩ := builtSlot_ok m.primitive.1
  obtain ⟨-, -, -, -, -, -, -, -, -, -, hinv⟩ := hslot hvalid
  obtain ⟨hpos, hlt⟩ := hiprim hvalid
  exact ⟨hpos, hlt, by rw [hinv, Nat.mod_eq_of_lt hnn1]⟩

theorem position_one : cb.position 1 = cb.iprim.toNat - 1 := by
  obtain ⟨hpos, hlt, -⟩ := m.iprim_bounds
  have hsum : 1 * cb.iprim.toNat + (cb.nn.toNat - 1) = cb.iprim.toNat - 1 + cb.nn.toNat := by omega
  rw [ControlBlock.position, hsum, Nat.add_mod_right, Nat.mod_eq_of_lt (by omega)]

theorem position_succ (i : Nat) : (cb.modnn (cb.position i + cb.iprim.toNat)).toNat = cb.position (i + 1) := by
  rw [ControlBlock.toNat_modnn m.nn_pos, ControlBlock.position, ControlBlock.position, Nat.mod_add_mod]
  congr 1
  ring

end

/-- R170: the exponent is the logarithm of the inverse of the position's locator. -/
theorem locator_position_mul (i : Nat) : m.locator (cb.position i) * m.gen ^ i = 1 := by
  have hlt := m.position_lt i
  have hnn := m.nn_pos
  obtain ⟨-, -, hinv⟩ := m.iprim_bounds
  have hpow : m.step ^ (cb.position i + 1) = m.gen ^ i := by
    have hmod : cb.prim.toNat * (cb.position i + 1) ≡ i [MOD cb.nn.toNat] := by
      have hpos : cb.position i + 1 ≡ i * cb.iprim.toNat [MOD cb.nn.toNat] := by
        have h1 : cb.position i + 1 ≡ i * cb.iprim.toNat + (cb.nn.toNat - 1) + 1 [MOD cb.nn.toNat] :=
          (Nat.mod_modEq _ _).add_right 1
        have h2 : i * cb.iprim.toNat + (cb.nn.toNat - 1) + 1 = i * cb.iprim.toNat + cb.nn.toNat := by omega
        exact h1.trans (h2 ▸ Nat.add_modEq_right)
      calc cb.prim.toNat * (cb.position i + 1) ≡ cb.prim.toNat * (i * cb.iprim.toNat) [MOD cb.nn.toNat] :=
            hpos.mul_left _
        _ = i * (cb.iprim.toNat * cb.prim.toNat) := by ring
        _ ≡ i * 1 [MOD cb.nn.toNat] := by
            refine Nat.ModEq.mul_left i ?_
            rw [Nat.ModEq, hinv, Nat.mod_eq_of_lt (builtSlot_nn m.primitive.1).2.1]
        _ = i := Nat.mul_one i
    rw [step, ← pow_mul]
    exact m.gen_pow_eq_iff.mpr hmod
  rw [locator, ← hpow, ← pow_add, show cb.nn.toNat - 1 - cb.position i + (cb.position i + 1) = cb.nn.toNat by omega,
    step, ← pow_mul, mul_comm, pow_mul, m.gen_pow_nn, one_pow]

theorem gen_pow_eq_inv (i : Nat) : m.gen ^ i = (m.locator (cb.position i))⁻¹ :=
  eq_inv_of_mul_eq_one_right (m.locator_position_mul i)

include m in
/-- The exponents 1..NN have distinct positions. -/
theorem position_injOn : Set.InjOn cb.position (Finset.Icc 1 cb.nn.toNat) := by
  intro i hi j hj hij
  rw [Finset.mem_coe, Finset.mem_Icc] at hi hj
  have hpow : m.gen ^ i = m.gen ^ j := by rw [m.gen_pow_eq_inv, m.gen_pow_eq_inv, hij]
  have hmod : (i - 1) % cb.nn.toNat = (j - 1) % cb.nn.toNat := by
    refine Nat.ModEq.add_right_cancel' 1 ?_
    rw [Nat.sub_add_cancel hi.1, Nat.sub_add_cancel hj.1]
    exact m.gen_pow_eq_iff.mp hpow
  rw [Nat.mod_eq_of_lt (by omega), Nat.mod_eq_of_lt (by omega)] at hmod
  omega

include m in
/-- Every position is that of one exponent in 1..NN. -/
theorem image_position : (Finset.Icc 1 cb.nn.toNat).image cb.position = Finset.range cb.nn.toNat := by
  refine Finset.eq_of_subset_of_card_le (fun p hp => ?_) ?_
  · obtain ⟨i, -, rfl⟩ := Finset.mem_image.mp hp
    exact Finset.mem_range.mpr (m.position_lt i)
  · rw [Finset.card_image_of_injOn m.position_injOn]
    simp

/-! ## The Chien search (R170) -/

/-- R170: after step `i` register j holds the locator's term j at α^i. -/
def Registers (m : SlotField cb F) (P : F[X]) (deg i : Nat) (r : List LogSym) : Prop :=
  r.length = deg ∧ ∀ j < deg, m.logVal (r.getD j cb.a0) = P.coeff (j + 1) * (m.gen ^ i) ^ (j + 1)

theorem registers_advance {P : F[X]} {deg i : Nat} {r : List LogSym} (h : m.Registers P deg i r) :
    m.Registers P deg (i + 1) (chienAdvance cb r) := by
  obtain ⟨hlen, hval⟩ := h
  refine ⟨(mapIndexed_length _ _).trans hlen, fun j hj => ?_⟩
  rw [chienAdvance, mapIndexed_getD _ _ (hlen ▸ hj) cb.a0]
  have hj := hval j hj
  split
  · rename_i hne
    rw [m.logVal_modnn, pow_add, ← m.logVal_of_ne hne, hj, pow_succ m.gen i, mul_pow, mul_assoc]
  · rename_i ha0
    rw [not_not.mp ha0, m.logVal_a0] at hj
    rw [not_not.mp ha0, m.logVal_a0, pow_succ m.gen i, mul_pow, ← mul_assoc, ← hj, zero_mul]

include m in
/-- R170: the located positions are those of `E`, each once. -/
theorem located_loc {E : Finset Nat} (hE : ∀ p ∈ E, p < cb.nn.toNat) :
    ((located cb E 1 cb.nn.toNat).map Located.loc).Nodup ∧
      ((located cb E 1 cb.nn.toNat).map Located.loc).toFinset = E := by
  constructor
  · rw [located, List.map_map]
    refine List.Nodup.map_on (fun i hi j hj hij => ?_) ((List.nodup_range' (s := 1) (n := cb.nn.toNat)).filter _)
    rw [List.mem_filter, List.mem_range'_1] at hi hj
    exact m.position_injOn (by simp; omega) (by simp; omega) hij
  · ext p
    simp only [List.mem_toFinset, List.mem_map, mem_located]
    constructor
    · rintro ⟨f, ⟨-, hf, -⟩, rfl⟩
      exact hf
    · intro hp
      have hmem : p ∈ (Finset.Icc 1 cb.nn.toNat).image cb.position :=
        m.image_position ▸ Finset.mem_range.mpr (hE p hp)
      obtain ⟨i, hi, rfl⟩ := Finset.mem_image.mp hmem
      exact ⟨⟨i, cb.position i⟩, ⟨Finset.mem_Icc.mp hi, hp, rfl⟩, rfl⟩

include m in
theorem located_length {E : Finset Nat} (hE : ∀ p ∈ E, p < cb.nn.toNat) :
    (located cb E 1 cb.nn.toNat).length = E.card := by
  obtain ⟨hnodup, hset⟩ := m.located_loc hE
  rw [← List.length_map Located.loc, ← List.toFinset_card_of_nodup hnodup, hset]

variable [CharP F 2]

/-- R170: the locator of the positions `E` vanishes at α^i exactly when the position of `i` is one of them. -/
theorem locatorPoly_eval_gen_pow {E : Finset Nat} (hE : ∀ p ∈ E, p < cb.nn.toNat) (i : Nat) :
    (locatorPoly m.locator E).eval (m.gen ^ i) = 0 ↔ cb.position i ∈ E := by
  rw [locatorPoly_eval_eq_zero_iff]
  constructor
  · rintro ⟨p, hp, hone⟩
    have heq : m.locator p = m.locator (cb.position i) :=
      mul_right_cancel₀ (pow_ne_zero i m.gen_ne_zero) (hone.trans (m.locator_position_mul i).symm)
    exact m.locator_inj (hE p hp) (m.position_lt i) heq ▸ hp
  · exact fun h => ⟨_, h, m.locator_position_mul i⟩

/-! ### The search -/

/-- A register after a step is A0 or a reduced exponent, so its antilogarithm is the element it stands for. -/
theorem antilog_of_mem_chienAdvance {r : List LogSym} {x : LogSym} (hx : x ∈ chienAdvance cb r) :
    cb.Symbol (if x ≠ cb.a0 then cb.antilog x else 0) ∧
      m.val (if x ≠ cb.a0 then cb.antilog x else 0) = m.logVal x := by
  rw [chienAdvance, mapIndexed_eq_map_range r _ cb.a0] at hx
  obtain ⟨j, -, rfl⟩ := List.mem_map.mp hx
  by_cases h : r.getD j cb.a0 ≠ cb.a0
  · rw [if_pos h]
    split
    · exact ⟨m.symbol_power _, (m.val_power _).trans (m.logVal_modnn _).symm⟩
    · rename_i ha0
      exact ⟨cb.symbol_zero, by rw [not_not.mp ha0, m.logVal_a0, m.val_zero]⟩
  · rw [if_neg h, if_neg h, not_not.mp h, m.logVal_a0, m.val_zero]
    exact ⟨cb.symbol_zero, rfl⟩

theorem chienValue_spec {P : F[X]} {deg i : Nat} {r : List LogSym} (hP0 : P.coeff 0 = 1) (hdeg : P.natDegree ≤ deg)
    (h : m.Registers P deg i r) : chienValue cb (chienAdvance cb r) = 0 ↔ P.eval (m.gen ^ (i + 1)) = 0 := by
  obtain ⟨hlen, hval⟩ := m.registers_advance h
  have hsum : m.val (chienValue cb (chienAdvance cb r)) = P.eval (m.gen ^ (i + 1)) := by
    have hvals : ((chienAdvance cb r).map fun x => m.val (if x ≠ cb.a0 then cb.antilog x else 0)) =
        (chienAdvance cb r).map m.logVal :=
      List.map_congr_left fun x hx => (m.antilog_of_mem_chienAdvance hx).2
    rw [chienValue, m.val_xor, m.val_one, m.val_xorSum, List.map_map, Function.comp_def, hvals,
      sum_map_eq_sum_range _ _ cb.a0, hlen, eval_eq_sum_range' (Nat.lt_succ_of_le hdeg), Finset.sum_range_succ', hP0,
      pow_zero, mul_one, add_comm]
    exact congrArg (· + 1) (Finset.sum_congr rfl fun j hj => hval j (Finset.mem_range.mp hj))
  rw [← hsum, m.val_eq_zero_iff]
  refine m.symbol_xor m.symbol_one (m.symbol_xorSum fun y hy => ?_)
  obtain ⟨x, hx, rfl⟩ := List.mem_map.mp hy
  exact (m.antilog_of_mem_chienAdvance hx).1

theorem chienLoop_spec {E : Finset Nat} (hE : ∀ p ∈ E, p < cb.nn.toNat) {P : F[X]} (hP : P = locatorPoly m.locator E)
    {deg fuel i : Nat} (hdeg : P.natDegree ≤ deg) {r : List LogSym} (hr : m.Registers P deg i r) {found : List Located}
    (hcount : found.length + (located cb E (i + 1) fuel).length = deg) :
    chienLoop cb deg fuel (i + 1) (cb.position (i + 1)) r found = (located cb E (i + 1) fuel).reverse ++ found := by
  induction fuel generalizing i r found with
  | zero => rfl
  | succ fuel ih =>
    have hroot : chienValue cb (chienAdvance cb r) = 0 ↔ cb.position (i + 1) ∈ E := by
      rw [m.chienValue_spec (hP ▸ locatorPoly_coeff_zero _ _) hdeg hr, hP, m.locatorPoly_eval_gen_pow hE]
    have hr' := m.registers_advance hr
    rw [chienLoop, m.position_succ]
    change (if chienValue cb (chienAdvance cb r) = 0 then _ else _) = _
    rw [located_succ] at hcount ⊢
    split
    · rename_i hq
      rw [if_pos (hroot.mp hq)] at hcount ⊢
      rw [List.length_cons] at hcount
      dsimp only
      split
      · rename_i hdone
        have hnil : located cb E (i + 1 + 1) fuel = [] := by
          rw [← List.length_eq_zero_iff]
          simp only [List.length_cons] at hdone
          omega
        rw [hnil]
        rfl
      · rw [ih hr' (by simp only [List.length_cons]; omega), List.reverse_cons, List.append_assoc]
        rfl
    · rename_i hq
      rw [if_neg (hroot.not.mp hq)] at hcount ⊢
      exact ih hr' hcount

/-- R170: the degree of a locator is the number of its positions, and the Chien search finds each of them once. -/
theorem chien_spec {E : Finset Nat} (hE : ∀ p ∈ E, p < cb.nn.toNat) {lx : List LogSym}
    (hlx : m.logPoly lx = locatorPoly m.locator E) :
    degree cb lx = E.card ∧ chien cb lx = located cb E 1 cb.nn.toNat := by
  have hcoeff (j : Nat) : m.logVal (lx.getD j cb.a0) = (locatorPoly m.locator E).coeff j :=
    hlx ▸ (m.logPoly_coeff lx j).symm
  have htop : lx.getD E.card cb.a0 ≠ cb.a0 := by
    rw [Ne, ← m.logVal_eq_zero_iff, hcoeff, locatorPoly_coeff_card]
    exact Finset.prod_ne_zero_iff.mpr fun p _ => m.locator_ne_zero p
  have hdeg : degree cb lx = E.card := by
    refine degree_eq htop fun i hi => ?_
    rw [← m.logVal_eq_zero_iff, hcoeff]
    exact coeff_eq_zero_of_natDegree_lt ((locatorPoly_natDegree_le _ _).trans_lt hi)
  have hlen : E.card < lx.length := by
    by_contra hge
    exact htop (List.getD_eq_default _ _ (Nat.not_lt.mp hge))
  refine ⟨hdeg, ?_⟩
  have hreg : m.Registers (locatorPoly m.locator E) E.card 0 ((lx.drop 1).take E.card) := by
    refine ⟨by simp; omega, fun j hj => ?_⟩
    rw [pow_zero, one_pow, mul_one, ← hcoeff]
    congr 1
    simp [List.getD_eq_getElem?_getD, hj]
  rw [chien, hdeg, ← m.position_one, ControlBlock.fieldSize]
  rw [m.chienLoop_spec hE rfl (locatorPoly_natDegree_le _ _) hreg (by simp [m.located_length hE]), List.append_nil,
    List.reverse_reverse]

end SlotField

end Sys2Proof.Machine
end

section
/-! PROOFS. The correction bound of 41_rs.md (R176): the syndromes of a word near a codeword, Forney's magnitudes (R172,
R173), and the word they restore. -/

namespace Sys2Proof.Machine

open Polynomial

namespace SlotField

variable {cb : ControlBlock} {F : Type} [Field F] (m : SlotField cb F)

theorem val_powerInt (z : Int) : m.val (cb.powerInt z) = m.gen ^ z := by
  rw [ControlBlock.powerInt, m.val_power, m.gen_pow_emod]

theorem gen_zpow_add_nn (z : Int) : m.gen ^ (z + cb.nn.toNat) = m.gen ^ z := by
  rw [zpow_add₀ m.gen_ne_zero, zpow_natCast, m.gen_pow_nn, mul_one]

variable [CharP F 2]

/-! ## Forney's formula (R172, R173) -/

/-- R172: the evaluator's coefficients are those of syndromes times locator. -/
theorem errorEvaluator_spec (s lx : List LogSym) {deg : Nat} {O : F[X]} (hO : O.degree < deg)
    (hcoeff : ∀ i < deg, (m.logPoly s * m.logPoly lx).coeff i = O.coeff i) :
    m.logPoly (errorEvaluator cb s lx deg) = O := by
  have hterm (i j : Nat) : cb.Symbol (if s.getD (i - j) cb.a0 ≠ cb.a0 ∧ lx.getD j cb.a0 ≠ cb.a0 then
        cb.power ((s.getD (i - j) cb.a0).toNat + (lx.getD j cb.a0).toNat) else 0) ∧
      m.val (if s.getD (i - j) cb.a0 ≠ cb.a0 ∧ lx.getD j cb.a0 ≠ cb.a0 then
        cb.power ((s.getD (i - j) cb.a0).toNat + (lx.getD j cb.a0).toNat) else 0) =
      m.logVal (lx.getD j cb.a0) * m.logVal (s.getD (i - j) cb.a0) := by
    split
    · rename_i h
      rw [m.val_power, pow_add, m.logVal_of_ne h.1, m.logVal_of_ne h.2, mul_comm]
      exact ⟨m.symbol_power _, rfl⟩
    · rename_i h
      refine ⟨cb.symbol_zero, ?_⟩
      rcases not_and_or.mp h with h | h
      · rw [not_not.mp h, m.logVal_a0, mul_zero, m.val_zero]
      · rw [not_not.mp h, m.logVal_a0, zero_mul, m.val_zero]
  refine Polynomial.ext fun i => ?_
  rw [m.logPoly_coeff]
  by_cases hi : i < deg
  · rw [errorEvaluator, map_range_getD _ _ hi, m.logVal_log, m.val_xorSum_range, ← hcoeff i hi, mul_comm, coeff_mul,
      Finset.Nat.sum_antidiagonal_eq_sum_range_succ_mk]
    · refine Finset.sum_congr rfl fun j _ => ?_
      rw [m.logPoly_coeff, m.logPoly_coeff]
      exact (hterm i j).2
    · exact m.symbol_xorSum_range fun j => (hterm i j).1
  · rw [List.getD_eq_default _ _ (by simpa [errorEvaluator] using hi), m.logVal_a0, coeff_eq_zero_of_degree_lt]
    exact hO.trans_le (by exact_mod_cast Nat.not_lt.mp hi)

/-- R173: num1 is the evaluator's value. -/
theorem forneyNum1_spec (omega : List LogSym) (root : Nat) : cb.Symbol (forneyNum1 cb omega root) ∧
    m.val (forneyNum1 cb omega root) = (m.logPoly omega).eval (m.gen ^ root) := by
  rw [forneyNum1, mapIndexed_eq_map_range omega _ cb.a0]
  refine ⟨m.symbol_xorSum_range fun i => m.symbol_term _ _, ?_⟩
  rw [m.val_xorSum_range, logPoly, listPoly_eval _ _ (List.length_map _).le]
  refine Finset.sum_congr rfl fun i _ => ?_
  rw [m.val_term, m.map_logVal_getD, ← pow_mul, mul_comm i]

/-- R173, R178: den is the value of the locator's derivative. -/
theorem forneyDen_spec {lx : List LogSym} {P : F[X]} (hlx : m.logPoly lx = P) {deg : Nat} (hdeg : P.natDegree ≤ deg)
    (hle : deg ≤ cb.nroots.toNat) (root : Nat) : cb.Symbol (forneyDen cb lx deg root) ∧
    m.val (forneyDen cb lx deg root) = (derivative P).eval (m.gen ^ root) := by
  refine ⟨m.symbol_xorSum_range fun h => m.symbol_term _ _, ?_⟩
  rw [forneyDen, m.val_xorSum_range, derivative_eval_eq_sum (H := min deg (cb.roots - 1) / 2 + 1) (by omega)
    (by simp only [ControlBlock.roots]; omega)]
  refine Finset.sum_congr rfl fun h _ => ?_
  rw [m.val_term, ← m.logPoly_coeff, hlx, ← pow_mul, mul_comm root]

/-- R173: what the correction is, given what its parts are. -/
theorem forneyAt_spec {omega lx : List LogSym} {deg : Nat} {f : Located} {x y M : F} (hx : x ≠ 0)
    (hroot : m.gen ^ f.root = x⁻¹) (hpad : cb.pad.toNat ≤ f.loc) (hM : M ≠ 0)
    (hnum : (m.logPoly omega).eval x⁻¹ = y * M)
    (hden : cb.Symbol (forneyDen cb lx deg f.root) ∧ m.val (forneyDen cb lx deg f.root) = x * M) :
    (y = 0 → forneyAt cb omega lx deg f = none) ∧
    (y ≠ 0 → ∃ v, forneyAt cb omega lx deg f = some (f.loc - cb.pad.toNat, v) ∧ cb.Symbol v ∧
      m.val v = y * (x ^ cb.fcr.toNat)⁻¹) := by
  obtain ⟨hnumsym, hnumval⟩ := m.forneyNum1_spec omega f.root
  rw [hroot, hnum] at hnumval
  have hnum0 : forneyNum1 cb omega f.root ≠ 0 ↔ y ≠ 0 := by
    rw [Ne, ← m.val_eq_zero_iff hnumsym, hnumval, mul_eq_zero, or_iff_left hM]
  rw [forneyAt]
  refine ⟨fun hy => if_neg fun h => hnum0.mp h.1 hy, fun hy => ?_⟩
  obtain ⟨hdensym, hdenval⟩ := hden
  have hden0 : forneyDen cb lx deg f.root ≠ 0 := fun h => mul_ne_zero hx hM (hdenval ▸ h ▸ m.val_zero)
  have hnum2 : m.val (forneyNum2 cb f.root) = (x⁻¹) ^ cb.fcr.toNat * x := by
    rw [forneyNum2, m.val_powerInt, m.gen_zpow_add_nn, zpow_mul, zpow_natCast, hroot,
      zpow_sub₀ (inv_ne_zero hx), zpow_natCast, zpow_one, div_inv_eq_mul]
  have hnum2sym : cb.Symbol (forneyNum2 cb f.root) := m.symbol_power _
  have hnum20 : forneyNum2 cb f.root ≠ 0 := fun h =>
    mul_ne_zero (pow_ne_zero _ (inv_ne_zero hx)) hx (hnum2 ▸ h ▸ m.val_zero)
  refine ⟨_, if_pos ⟨hnum0.mpr hy, hpad⟩, m.symbol_power _, ?_⟩
  rw [m.val_powerInt, zpow_sub₀ m.gen_ne_zero, m.gen_zpow_add_nn, zpow_add₀ m.gen_ne_zero, zpow_natCast, zpow_natCast,
    zpow_natCast, m.gen_pow_log _ hnumsym (hnum0.mpr hy), m.gen_pow_log _ hnum2sym hnum20,
    m.gen_pow_log _ hdensym hden0, hnumval, hnum2, hdenval, inv_pow]
  field_simp

/-! ## The error pattern (R176) -/

/-- The magnitude at position `p` of the error that makes the word `d` of the codeword `c`. -/
def magnitude (d c : List Elem) (p : Nat) : F :=
  (m.val (d.getD (p - cb.pad.toNat) 0) + m.val (c.getD (p - cb.pad.toNat) 0)) * m.locator p ^ cb.fcr.toNat

section

variable {d c : List Elem} (hd : ∀ x ∈ d, cb.Symbol x) (hc : ∀ x ∈ c, cb.Symbol x)

include hd hc

theorem magnitude_eq_zero_iff (p : Nat) :
    m.magnitude d c p = 0 ↔ d.getD (p - cb.pad.toNat) 0 = c.getD (p - cb.pad.toNat) 0 := by
  rw [magnitude, mul_eq_zero, or_iff_left (pow_ne_zero _ (m.locator_ne_zero p)), CharTwo.add_eq_zero]
  exact ⟨m.val_inj (getD_of_forall hd cb.symbol_zero _) (getD_of_forall hc cb.symbol_zero _), fun h => h ▸ rfl⟩

/-- R160, R167: a syndrome of the word is the sum of the errors' magnitudes, weighted by their locators. -/
theorem syndrome_eq_sum (hdlen : d.length = cb.blockLen) (hclen : c.length = cb.blockLen)
    (hcode : isCodeword cb c = true) {i : Nat} (hi : i < cb.nroots.toNat) :
    m.val (syndromeAt cb d i) =
      ∑ p ∈ Finset.Ico cb.pad.toNat cb.nn.toNat, m.magnitude d c p * m.locator p ^ i := by
  have hzero := (m.isCodeword_iff hc).mp hcode i hi
  rw [(m.syndromeAt_spec hd i).2, ← add_zero (horner _ _), ← hzero, horner_eq_sum, horner_eq_sum,
    Finset.sum_Ico_eq_sum_range]
  simp only [List.length_map, hdlen, hclen, m.map_val_getD]
  rw [← Finset.sum_add_distrib]
  refine Finset.sum_congr rfl fun j hj => ?_
  rw [magnitude, Nat.add_sub_cancel_left, locator, m.root_eq,
    show cb.nn.toNat - 1 - (cb.pad.toNat + j) = cb.blockLen - 1 - j by
      simp only [ControlBlock.blockLen, ControlBlock.fieldSize]; omega]
  ring

omit hc in
theorem coeff_syndromes {i : Nat} (hi : i < cb.nroots.toNat) :
    (m.logPoly (cb.toLogs (syndromes cb d))).coeff i = m.val (syndromeAt cb d i) := by
  have hsym : ∀ x ∈ syndromes cb d, cb.Symbol x := fun x hx => by
    obtain ⟨j, -, rfl⟩ := List.mem_map.mp hx
    exact (m.syndromeAt_spec hd j).1
  rw [m.logPoly_toLogs hsym, m.poly_coeff, syndromes, map_range_getD _ _ hi]

/-- The syndromes of the word are those of its error pattern. -/
theorem isSyndrome (hdlen : d.length = cb.blockLen) (hclen : c.length = cb.blockLen) (hcode : isCodeword cb c = true)
    {E : Finset Nat} (hE : E ⊆ Finset.Ico cb.pad.toNat cb.nn.toNat)
    (hout : ∀ p ∈ Finset.Ico cb.pad.toNat cb.nn.toNat, p ∉ E → m.magnitude d c p = 0) :
    IsSyndrome m.locator (m.magnitude d c) E cb.nroots.toNat (m.logPoly (cb.toLogs (syndromes cb d))) := by
  intro i hi
  rw [m.coeff_syndromes hd hi, m.syndrome_eq_sum hd hc hdlen hclen hcode hi]
  exact (Finset.sum_subset hE fun p hp hpE => by rw [hout p hp hpE, zero_mul]).symm

end

end SlotField

/-! ## Writes (R173) -/

theorem eq_of_getD_eq {d c : List Elem} (hlen : d.length = c.length)
    (h : ∀ j < d.length, d.getD j 0 = c.getD j 0) : d = c := by
  refine List.ext_getElem hlen fun j hj hj' => ?_
  have := h j hj
  rwa [List.getD_eq_getElem _ _ hj, List.getD_eq_getElem _ _ hj'] at this

/-- R173: corrections that turn each wrong symbol into the right one, each once, restore the word. -/
theorem applyCorrections_eq {d c : List Elem} (hlen : d.length = c.length) {cs : List (Nat × Elem)}
    (hnodup : (cs.map Prod.fst).Nodup) (hval : ∀ w ∈ cs, w.2 = d.getD w.1 0 ^^^ c.getD w.1 0)
    (hall : ∀ j < d.length, d.getD j 0 ≠ c.getD j 0 → j ∈ cs.map Prod.fst) : applyCorrections d cs = c := by
  induction cs generalizing d with
  | nil => exact eq_of_getD_eq hlen fun j hj => by_contra fun hne => List.not_mem_nil (hall j hj hne)
  | cons w cs ih =>
    obtain ⟨hw, hnodup'⟩ := List.nodup_cons.mp hnodup
    have hother (j : Nat) (hj : j ≠ w.1) : (d.modify w.1 (· ^^^ w.2)).getD j 0 = d.getD j 0 := by
      rw [List.getD_eq_getElem?_getD, List.getElem?_modify, List.getD_eq_getElem?_getD]
      simp [Ne.symm hj]
    have hhere (hj : w.1 < d.length) : (d.modify w.1 (· ^^^ w.2)).getD w.1 0 = c.getD w.1 0 := by
      rw [List.getD_eq_getElem?_getD, List.getElem?_modify, List.getElem?_eq_getElem hj, hval w List.mem_cons_self,
        List.getD_eq_getElem _ _ hj]
      simp [← BitVec.xor_assoc]
    refine ih (d := d.modify w.1 (· ^^^ w.2)) (by simpa using hlen) hnodup' (fun v hv => ?_) fun j hj hne => ?_
    · rw [hother v.1 fun h => hw (h ▸ List.mem_map_of_mem hv)]
      exact hval v (List.mem_cons_of_mem w hv)
    · rw [List.length_modify] at hj
      have hjw : j ≠ w.1 := fun h => hne (h ▸ hhere (h ▸ hj))
      rw [hother j hjw] at hne
      exact (List.mem_cons.mp (hall j hj hne)).resolve_left hjw

/-- Writes of the right symbols at every wrong index restore the word. -/
theorem applyWrites_eq {d c : List Elem} (hlen : d.length = c.length) {js : List Nat}
    (hall : ∀ j < d.length, d.getD j 0 ≠ c.getD j 0 → j ∈ js) :
    applyWrites d (js.map fun j => (j, c.getD j 0)) = c := by
  induction js generalizing d with
  | nil => exact eq_of_getD_eq hlen fun j hj => by_contra fun hne => List.not_mem_nil (hall j hj hne)
  | cons i js ih =>
    refine ih (d := d.set i (c.getD i 0)) (by simpa using hlen) fun j hj hne => ?_
    rw [List.length_set] at hj
    have hji : j ≠ i := by
      rintro rfl
      exact hne (by simp [List.getD_eq_getElem?_getD, hj])
    have hset : (d.set i (c.getD i 0)).getD j 0 = d.getD j 0 := by
      simp [List.getD_eq_getElem?_getD, Ne.symm hji]
    exact (List.mem_cons.mp (hall j hj (hset ▸ hne))).resolve_left hji

theorem filterMap_eq_map_filter {α β : Type} {g : α → Option β} {p : α → Bool} {k : α → β} {l : List α}
    (h : ∀ a ∈ l, g a = if p a then some (k a) else none) : l.filterMap g = (l.filter p).map k := by
  induction l with
  | nil => rfl
  | cons a l ih =>
    rw [List.filterMap_cons, h a List.mem_cons_self, ih fun b hb => h b (List.mem_cons_of_mem a hb), List.filter_cons]
    cases p a <;> rfl

/-! ## Words within the bound (R176) -/

/-- The indices outside the erasures at which two words differ. -/
def wrongAt (cb : ControlBlock) (d c : List Elem) (q : List Nat) : List Nat :=
  (differAt d c).filter fun j => ¬ (j + cb.pad.toNat) ∈ q

/-- R176: the word `d` is within the bound of the codeword `c`, with the erasures `q`. -/
structure NearCodeword (cb : ControlBlock) (d c : List Elem) (q : List Nat) : Prop where
  word_length : d.length = cb.blockLen
  code_length : c.length = cb.blockLen
  word_symbols : ∀ x ∈ d, cb.Symbol x
  code_symbols : ∀ x ∈ c, cb.Symbol x
  code : isCodeword cb c = true
  nodup : q.Nodup
  erasures : ∀ p ∈ q, cb.pad.toNat ≤ p ∧ p < cb.nn.toNat
  bound : 2 * (wrongAt cb d c q).length + q.length ≤ cb.nroots.toNat

/-- The full-length positions of the errors that are not erased. -/
def errorPositions (cb : ControlBlock) (d c : List Elem) (q : List Nat) : Finset Nat :=
  ((wrongAt cb d c q).map (· + cb.pad.toNat)).toFinset

/-- The full-length positions of the erasures and the errors. -/
def patternPositions (cb : ControlBlock) (d c : List Elem) (q : List Nat) : Finset Nat :=
  q.toFinset ∪ errorPositions cb d c q

theorem errorPositions_card (cb : ControlBlock) (d c : List Elem) (q : List Nat) :
    (errorPositions cb d c q).card = (wrongAt cb d c q).length := by
  have hnodup : (wrongAt cb d c q).Nodup := (List.nodup_range.filter _).filter _
  rw [errorPositions, List.toFinset_card_of_nodup (hnodup.map (add_left_injective _)), List.length_map]

theorem disjoint_errorPositions (cb : ControlBlock) (d c : List Elem) (q : List Nat) :
    Disjoint q.toFinset (errorPositions cb d c q) := by
  rw [Finset.disjoint_right]
  intro p hp
  simp only [errorPositions, List.mem_toFinset, List.mem_map, wrongAt, List.mem_filter, decide_eq_true_eq] at hp
  obtain ⟨j, ⟨-, hj⟩, rfl⟩ := hp
  simpa using hj

namespace NearCodeword

variable {cb : ControlBlock} {d c : List Elem} {q : List Nat} (h : NearCodeword cb d c q)

include h

theorem mem_errorPositions {p : Nat} : p ∈ errorPositions cb d c q ↔
    p ∈ Finset.Ico cb.pad.toNat cb.nn.toNat ∧ p ∉ q ∧ d.getD (p - cb.pad.toNat) 0 ≠ c.getD (p - cb.pad.toNat) 0 := by
  have hlen := h.word_length
  rw [ControlBlock.blockLen, ControlBlock.fieldSize] at hlen
  simp only [errorPositions, wrongAt, differAt, List.mem_toFinset, List.mem_map, List.mem_filter, List.mem_range,
    decide_eq_true_eq, Finset.mem_Ico]
  constructor
  · rintro ⟨j, ⟨⟨hj, hne⟩, hq⟩, rfl⟩
    exact ⟨by omega, hq, by rwa [Nat.add_sub_cancel]⟩
  · rintro ⟨hp, hq, hne⟩
    refine ⟨p - cb.pad.toNat, ⟨⟨by omega, hne⟩, ?_⟩, by omega⟩
    rwa [Nat.sub_add_cancel hp.1]

theorem patternPositions_card : (patternPositions cb d c q).card = q.length + (wrongAt cb d c q).length := by
  rw [patternPositions, Finset.card_union_of_disjoint (disjoint_errorPositions cb d c q),
    List.toFinset_card_of_nodup h.nodup, errorPositions_card]

theorem patternPositions_subset : patternPositions cb d c q ⊆ Finset.Ico cb.pad.toNat cb.nn.toNat := by
  intro p hp
  rcases Finset.mem_union.mp hp with hp | hp
  · exact Finset.mem_Ico.mpr (h.erasures p (List.mem_toFinset.mp hp))
  · exact (h.mem_errorPositions.mp hp).1

/-- Outside the pattern the words agree. -/
theorem mem_patternPositions_of_ne {p : Nat} (hp : p ∈ Finset.Ico cb.pad.toNat cb.nn.toNat)
    (hne : d.getD (p - cb.pad.toNat) 0 ≠ c.getD (p - cb.pad.toNat) 0) : p ∈ patternPositions cb d c q := by
  by_cases hq : p ∈ q
  · exact Finset.mem_union_left _ (List.mem_toFinset.mpr hq)
  · exact Finset.mem_union_right _ (h.mem_errorPositions.mpr ⟨hp, hq, hne⟩)

variable {F : Type} [Field F] [CharP F 2] (m : SlotField cb F)

theorem isSyndrome : IsSyndrome m.locator (m.magnitude d c) (patternPositions cb d c q) cb.nroots.toNat
    (m.logPoly (cb.toLogs (syndromes cb d))) := by
  refine m.isSyndrome h.word_symbols h.code_symbols h.word_length h.code_length h.code h.patternPositions_subset ?_
  intro p hp hout
  rw [m.magnitude_eq_zero_iff h.word_symbols h.code_symbols]
  exact by_contra fun hne => hout (h.mem_patternPositions_of_ne hp hne)

theorem position_lt {p : Nat} (hp : p ∈ patternPositions cb d c q) : p < cb.nn.toNat :=
  (Finset.mem_Ico.mp (h.patternPositions_subset hp)).2

theorem patternPositions_card_le : (patternPositions cb d c q).card ≤ cb.nroots.toNat := by
  have hcard := h.patternPositions_card
  have hbound := h.bound
  omega

include m in
/-- R176: no other word within the bound is a codeword. -/
theorem eq_of_isCodeword (hd : isCodeword cb d = true) : d = c := by
  have hlen := h.word_length
  rw [ControlBlock.blockLen, ControlBlock.fieldSize] at hlen
  have hzero := magnitudes_eq_zero (loc := m.locator) (mag := m.magnitude d c)
    (fun p hp p' hp' he => m.locator_inj (h.position_lt hp) (h.position_lt hp') he) (fun p _ => m.locator_ne_zero p)
    h.patternPositions_card_le fun i hi => by
      rw [← h.isSyndrome m i hi, m.coeff_syndromes h.word_symbols hi, (m.syndromeAt_spec h.word_symbols i).2]
      exact (m.isCodeword_iff h.word_symbols).mp hd i hi
  refine eq_of_getD_eq (h.word_length.trans h.code_length.symm) fun j hj => by_contra fun hne => ?_
  have hmem : j + cb.pad.toNat ∈ patternPositions cb d c q :=
    h.mem_patternPositions_of_ne (Finset.mem_Ico.mpr (by omega)) (by rwa [Nat.add_sub_cancel])
  have hj := (m.magnitude_eq_zero_iff h.word_symbols h.code_symbols _).mp (hzero _ hmem)
  rw [Nat.add_sub_cancel] at hj
  exact hne hj

/-! ### The decode -/

/-- R168, R169: the locator of the word's errors and erasures, in index form. -/
theorem logPoly_locator :
    m.logPoly (cb.toLogs (berlekampMassey cb (cb.toLogs (syndromes cb d)) (erasureSeed cb q) q.length)) =
      locatorPoly m.locator (patternPositions cb d c q) := by
  obtain ⟨hsym, hpoly⟩ := m.berlekampMassey_spec (W := errorPositions cb d c q) (mag := m.magnitude d c) h.nodup
    (fun p hp => h.position_lt hp) (disjoint_errorPositions cb d c q)
    (fun p hp => (m.magnitude_eq_zero_iff h.word_symbols h.code_symbols p).not.mpr (h.mem_errorPositions.mp hp).2.2)
    (h.isSyndrome m) ((errorPositions_card cb d c q).symm ▸ h.bound)
  rw [m.logPoly_toLogs hsym, hpoly]
  rfl

/-- R173: the correction of a located error is the difference of the two words there. -/
theorem forneyAt_eq {lx : List LogSym} (hlx : m.logPoly lx = locatorPoly m.locator (patternPositions cb d c q))
    {f : Located} (hf : f ∈ located cb (patternPositions cb d c q) 1 cb.nn.toNat) :
    forneyAt cb (errorEvaluator cb (cb.toLogs (syndromes cb d)) lx (patternPositions cb d c q).card) lx
        (patternPositions cb d c q).card f =
      if d.getD (f.loc - cb.pad.toNat) 0 ≠ c.getD (f.loc - cb.pad.toNat) 0 then
        some (f.loc - cb.pad.toNat, d.getD (f.loc - cb.pad.toNat) 0 ^^^ c.getD (f.loc - cb.pad.toNat) 0)
      else none := by
  obtain ⟨-, hmem, hloc⟩ := mem_located.mp hf
  have hne := m.locator_ne_zero f.loc
  have hdeg := evaluatorPoly_degree_lt m.locator (m.magnitude d c) (patternPositions cb d c q)
  have hkey := X_pow_dvd_iff.mp (key_equation (h.isSyndrome m))
  have homega := m.errorEvaluator_spec (cb.toLogs (syndromes cb d)) lx hdeg fun i hi => by
    have := hkey i (hi.trans_le h.patternPositions_card_le)
    rwa [coeff_sub, sub_eq_zero, ← hlx] at this
  have hroot : m.gen ^ f.root = (m.locator f.loc)⁻¹ := hloc ▸ m.gen_pow_eq_inv f.root
  have hden := m.forneyDen_spec hlx (locatorPoly_natDegree_le _ _) h.patternPositions_card_le f.root
  rw [hroot, derivative_locatorPoly_eval hmem hne] at hden
  have hinj : Set.InjOn m.locator ↑(patternPositions cb d c q) :=
    fun p hp p' hp' he => m.locator_inj (h.position_lt hp) (h.position_lt hp') he
  obtain ⟨hnone, hsome⟩ := m.forneyAt_spec hne hroot (Finset.mem_Ico.mp (h.patternPositions_subset hmem)).1
    (locatorPoly_erase_eval_ne_zero hinj hmem hne) (homega ▸ evaluatorPoly_eval hmem hne) hden
  have hzero := m.magnitude_eq_zero_iff h.word_symbols h.code_symbols f.loc
  split
  · rename_i hdc
    obtain ⟨v, hv, hvsym, hval⟩ := hsome (hzero.not.mpr hdc)
    rw [hv, m.val_inj hvsym (m.symbol_xor (getD_of_forall h.word_symbols cb.symbol_zero _)
      (getD_of_forall h.code_symbols cb.symbol_zero _))]
    rw [hval, m.val_xor, SlotField.magnitude, mul_assoc, mul_inv_cancel₀ (pow_ne_zero _ hne), mul_one]
  · rename_i hdc
    exact hnone (hzero.mpr (not_not.mp hdc))

/-- R173: the corrections are the indices at which the words differ, each once, with the difference there. -/
theorem corrections_spec {lx : List LogSym} (hlx : m.logPoly lx = locatorPoly m.locator (patternPositions cb d c q)) :
    let cs := corrections cb (cb.toLogs (syndromes cb d)) lx
      (located cb (patternPositions cb d c q) 1 cb.nn.toNat)
    (cs.map Prod.fst).Nodup ∧ (∀ w ∈ cs, w.2 = d.getD w.1 0 ^^^ c.getD w.1 0) ∧
      ∀ j < d.length, d.getD j 0 ≠ c.getD j 0 → j ∈ cs.map Prod.fst := by
  intro cs
  let found := located cb (patternPositions cb d c q) 1 cb.nn.toNat
  obtain ⟨hnodup, hset⟩ := m.located_loc (E := patternPositions cb d c q) fun p hp => h.position_lt hp
  have hcs : cs = (found.reverse.filter fun f =>
      decide (d.getD (f.loc - cb.pad.toNat) 0 ≠ c.getD (f.loc - cb.pad.toNat) 0)).map fun f =>
        (f.loc - cb.pad.toNat, d.getD (f.loc - cb.pad.toNat) 0 ^^^ c.getD (f.loc - cb.pad.toNat) 0) := by
    refine filterMap_eq_map_filter fun f hf => ?_
    rw [(m.chien_spec (fun p hp => h.position_lt hp) hlx).1, h.forneyAt_eq m hlx (List.mem_reverse.mp hf)]
    simp only [decide_eq_true_eq]
  have hpad (f : Located) (hf : f ∈ found) : cb.pad.toNat ≤ f.loc :=
    (Finset.mem_Ico.mp (h.patternPositions_subset (mem_located.mp hf).2.1)).1
  rw [hcs]
  refine ⟨?_, fun w hw => ?_, fun j hj hne => ?_⟩
  · rw [List.map_map]
    refine List.Nodup.map_on (fun f hf f' hf' he => ?_) ((List.nodup_reverse.mpr hnodup.of_map).filter _)
    have hf := List.mem_reverse.mp (List.mem_of_mem_filter hf)
    have hf' := List.mem_reverse.mp (List.mem_of_mem_filter hf')
    refine List.inj_on_of_nodup_map hnodup hf hf' ?_
    have h1 := hpad f hf
    have h2 := hpad f' hf'
    simp only [Function.comp_apply] at he
    omega
  · obtain ⟨f, -, rfl⟩ := List.mem_map.mp hw
    rfl
  · have hlen := h.word_length
    rw [ControlBlock.blockLen, ControlBlock.fieldSize] at hlen
    have hmem : j + cb.pad.toNat ∈ (found.map Located.loc).toFinset := by
      rw [hset]
      exact h.mem_patternPositions_of_ne (Finset.mem_Ico.mpr (by omega)) (by rwa [Nat.add_sub_cancel])
    obtain ⟨f, hf, hloc⟩ := List.mem_map.mp (List.mem_toFinset.mp hmem)
    have hfj : f.loc - cb.pad.toNat = j := by omega
    rw [List.map_map]
    refine List.mem_map.mpr ⟨f, List.mem_filter.mpr ⟨List.mem_reverse.mpr hf, ?_⟩, hfj⟩
    rw [hfj]
    exact decide_eq_true hne

include m in
/-- R176: a word within the bound that is not the codeword is corrected to it, with a count of all erasures and
errors. -/
theorem rsDecode_eq (hne : d ≠ c) : ∃ ws ps, rsDecode cb d q = .corrected ws ps ∧ applyWrites d ws = c ∧
    ps.length = q.length + (wrongAt cb d c q).length := by
  have hlx := h.logPoly_locator m
  obtain ⟨hdeg, hchien⟩ := m.chien_spec (fun p hp => h.position_lt hp) hlx
  have hfound := m.located_length (E := patternPositions cb d c q) fun p hp => h.position_lt hp
  obtain ⟨hnodup, hval, hall⟩ := h.corrections_spec m hlx
  have hlen := h.word_length.trans h.code_length.symm
  have hcode : ¬ isCodeword cb d = true := fun hd => hne (h.eq_of_isCodeword m hd)
  rw [rsDecode, if_neg hcode]
  dsimp only
  rw [hchien, hdeg, if_neg (not_not.mpr hfound), applyCorrections_eq hlen hnodup hval hall]
  refine ⟨_, _, rfl, ?_, ?_⟩
  · have hwrites := applyWrites_eq hlen hall
    rwa [List.map_map] at hwrites
  · rw [List.length_map, hfound, h.patternPositions_card]

end NearCodeword

/-- Settles O38: the locator found is that of the erasures and the errors, and Forney's formula gives the differences.
-/
theorem errorsWithinBoundAreCorrected : Obligations.ErrorsWithinBoundAreCorrected := by
  intro cb codeword d q hslot hclen hdlen hcsym hdsym hcode hnodup herasures wrong hbound
  have h : NearCodeword cb d codeword q := ⟨hdlen, hclen, hdsym, hcsym, hcode, hnodup, herasures, hbound⟩
  split
  · rename_i heq
    rw [rsDecode, heq, if_pos hcode]
  · rename_i hne
    obtain ⟨F, _, _, ⟨m⟩⟩ := exists_slotField hslot
    exact h.rsDecode_eq m hne

end Sys2Proof.Machine
end

section
/-! PROOFS. The statements of 42_crc_scrambler.md: the CRC's shifts and fold, the scrambler's mask, and what the five
commands do with them. -/

namespace Sys2Proof.Machine

/-! ## Ranges of a buffer -/

/-- A loaded range is two loaded ranges in sequence. -/
theorem State.loadRange_add {s : State} {b : Buf} {off m n : Nat} {d : List Byte}
    (h : s.loadRange b off (m + n) = .ok d) :
    s.loadRange b off m = .ok (d.take m) ∧ s.loadRange b (off + m) n = .ok (d.drop m) := by
  obtain ⟨hlen, hload⟩ := State.loadRange_ok h
  have htake : (d.take m).length = m := by rw [List.length_take]; omega
  have hdrop : (d.drop m).length = n := by rw [List.length_drop]; omega
  constructor
  · have hfirst := State.loadRange_of_loadByte (s := s) (b := b) (off := off) (d.take m) fun j hj => by
      rw [List.getElem_take, hload j (by omega)]
    rwa [htake] at hfirst
  · have hsecond := State.loadRange_of_loadByte (s := s) (b := b) (off := off + m) (d.drop m) fun j hj => by
      rw [List.getElem_drop, Nat.add_assoc, hload (m + j) (by omega)]
    rwa [hdrop] at hsecond

@[simp] theorem State.loadRange_finish (s : State) (code : StatusCode) (result : Word) (b : Buf) (off len : Nat) :
    (s.finish code result).loadRange b off len = s.loadRange b off len :=
  State.loadRange_congr (s := s) (t := s.finish code result) (fun _ => rfl) off len

@[simp] theorem State.loadRange_setCrc (s : State) (crc : Half) (b : Buf) (off len : Nat) :
    (s.setCrc crc).loadRange b off len = s.loadRange b off len :=
  State.loadRange_congr (s := s) (t := s.setCrc crc) (fun _ => rfl) off len

/-- A stored list of bytes loads again. -/
theorem State.loadRange_storeRange_same (s : State) {b : Buf} {off : Nat} {vs : List Byte}
    (hfit : off + vs.length ≤ b.size) : (s.storeRange b off vs).loadRange b off vs.length = .ok vs :=
  State.loadRange_of_loadByte vs fun _ hj =>
    State.loadByte_of_written (State.written?_storeRange_same s b vs hj (by omega))

/-- A store of a list of bytes leaves every byte outside its range as it was. -/
theorem State.storeRange_sameByte (s : State) {b c : Buf} {off i : Nat} (vs : List Byte)
    (h : ¬ (c = b ∧ off ≤ i ∧ i < off + vs.length)) : sameByte s (s.storeRange b off vs) c i :=
  sameByte_of_written (State.written?_storeRange_other s vs h) (s.storeRange_params b off vs)
    (s.storeRange_powerOn b off vs)

/-- A range loaded from `s` and stored in a state that differs from `s` only there gives every load of `s` back. -/
theorem State.loadByte_storeRange_restore {s t : State} {b : Buf} {off : Nat} {d : List Byte}
    (hload : s.loadRange b off d.length = .ok d) (hfit : off + d.length ≤ b.size)
    (hframe : ∀ c i, ¬ (c = b ∧ off ≤ i ∧ i < off + d.length) → sameByte s t c i) (c : Buf) (i : Nat) :
    (t.storeRange b off d).loadByte c i = s.loadByte c i := by
  by_cases hin : c = b ∧ off ≤ i ∧ i < off + d.length
  · obtain ⟨rfl, hle, hlt⟩ := hin
    obtain ⟨j, rfl⟩ := Nat.exists_eq_add_of_le hle
    have hj : j < d.length := by omega
    rw [State.loadByte_of_written (State.written?_storeRange_same t c d hj (by omega)),
      (State.loadRange_ok hload).2 j hj]
  · exact (t.storeRange_sameByte d hin).2.trans (hframe c i hin).2

/-! ## The CRC (R200, R201) -/

/-- R200: shifts that push out only zeros are a left shift. -/
theorem crcShifts_of_lt (n : Nat) {crc : Half} (h : crc.toNat * 2 ^ n < 2 ^ 16) : crcShifts n crc = crc <<< n := by
  induction n generalizing crc with
  | zero => simp [crcShifts]
  | succ n ih =>
    rw [Nat.pow_succ', ← Nat.mul_assoc] at h
    have hdouble : crc.toNat * 2 < 2 ^ 16 := lt_of_le_of_lt (Nat.le_mul_of_pos_right _ (Nat.two_pow_pos n)) h
    have htop : crc.getLsbD 15 = false := Nat.testBit_lt_two_pow (by omega)
    have hshift : (crc <<< 1).toNat = crc.toNat * 2 := by
      rw [BitVec.toNat_shiftLeft, Nat.shiftLeft_eq, pow_one, Nat.mod_eq_of_lt hdouble]
    rw [crcShifts, crcShift, htop, if_neg Bool.false_ne_true, ih (hshift ▸ h), ← BitVec.shiftLeft_add,
      Nat.add_comm]

/-- The low byte moved up is the word moved up. -/
theorem shiftLeft_low_byte (crc : Half) : (crc.setWidth 8).setWidth 16 <<< 8 = crc <<< 8 := by
  bv_omega

/-- The high byte taken out leaves the low byte. -/
theorem xor_high_byte (crc : Half) :
    crc ^^^ ((crc.extractLsb' 8 8).setWidth 16 <<< 8) = (crc.setWidth 8).setWidth 16 := by
  refine BitVec.eq_of_getLsbD_eq fun i hi => ?_
  by_cases h8 : i < 8
  · simp [hi, h8]
  · have hsub : i - 8 < 8 := by omega
    simp [hi, h8, hsub, Nat.add_sub_cancel' (Nat.not_lt.mp h8)]

/-- R200: folding the high byte of the accumulator leaves its low byte, moved up. -/
theorem crcByte_high (crc : Half) : crcByte (crc.extractLsb' 8 8) crc = crc <<< 8 := by
  have hsmall : ((crc.setWidth 8).setWidth 16).toNat * 2 ^ 8 < 2 ^ 16 := by
    simp only [BitVec.toNat_setWidth]
    omega
  rw [crcByte, xor_high_byte, crcShifts_of_lt 8 hsmall, shiftLeft_low_byte]

/-- R200: folding an accumulator's own low byte, once it is moved up, leaves 0. -/
theorem crcByte_low (crc : Half) : crcByte (crc.extractLsb' 0 8) (crc <<< 8) = 0 := by
  rw [crcByte, ← BitVec.setWidth_eq_extractLsb' (by decide), shiftLeft_low_byte, BitVec.xor_self]
  rfl

theorem crcFold_append (init : Half) (d e : List Byte) : crcFold init (d ++ e) = crcFold (crcFold init d) e :=
  List.foldl_append

/-- R201: a CRC folded into itself, high byte first, gives 0. -/
theorem crcFold_self (crc : Half) : crcFold crc [crc.extractLsb' 8 8, crc.extractLsb' 0 8] = 0 := by
  rw [crcFold, List.foldl_cons, List.foldl_cons, List.foldl_nil, crcByte_high, crcByte_low]

/-! ## The CRC commands (R202 to R204) -/

/-- Settles O39: both commands are `setCrc` and `finish`, and the step's four values are computed. -/
theorem crcLoadAndByte : Obligations.CrcLoadAndByte := by
  refine ⟨fun v s => ?_, fun b s => ?_, by decide, by decide, by decide, by decide⟩ <;>
  · simp only [BitVec.ofNat_toNat]
    rfl

section

variable {off : Byte} {len : BitVec 9} {s : State}

theorem execCrcBuf_of_bad_range (h : 256 < off.toNat + len.toNat) :
    exec (.crcBuf off len) s = .next { s with code := .range, result := 0 } :=
  if_neg (by simpa [rangeFits] using h)

/-- R204: CRC_BUF of a range that fits and loads. -/
theorem execCrcBuf_of_load {d : List Byte} (hfit : off.toNat + len.toNat ≤ 256)
    (hload : s.loadRange .dbuf off.toNat len.toNat = .ok d) :
    exec (.crcBuf off len) s =
      .next ((s.setCrc (crcFold s.crcAcc d)).finish .ok ((crcFold s.crcAcc d).setWidth 32)) := by
  have hcheck : rangeFits off.toNat len.toNat = true := decide_eq_true hfit
  rw [exec, execCrcBuf, if_pos hcheck, andThen_ok _ hload]

end

/-- R204: two ranges in sequence fold as one. -/
theorem execCrcBuf_sequence {off : Byte} {len len' : BitVec 9} {s : State} {d : List Byte}
    (hfit : off.toNat + len.toNat + len'.toNat ≤ 256) (hnext : off.toNat + len.toNat < 256)
    (hload : s.loadRange .dbuf off.toNat (len.toNat + len'.toNat) = .ok d) :
    ∃ t u, exec (.crcBuf off len) s = .next t ∧
      exec (.crcBuf (BitVec.ofNat 8 (off.toNat + len.toNat)) len') t = .next u ∧ u.crcAcc = crcFold s.crcAcc d := by
  obtain ⟨hfirst, hsecond⟩ := State.loadRange_add hload
  have hoff : (BitVec.ofNat 8 (off.toNat + len.toNat)).toNat = off.toNat + len.toNat :=
    Nat.mod_eq_of_lt hnext
  refine ⟨_, _, execCrcBuf_of_load (by omega) hfirst, execCrcBuf_of_load (d := d.drop len.toNat) (by omega) ?_, ?_⟩
  · rw [hoff, State.loadRange_finish, State.loadRange_setCrc]
    exact hsecond
  · simp only [State.finish_crcAcc, State.setCrc_crcAcc]
    rw [← crcFold_append, List.take_append_drop]

/-- Settles O40: the range check, then the fold, whose residue after its own CRC is 0. -/
theorem crcBufFoldsRange : Obligations.CrcBufFoldsRange := by
  refine ⟨fun off len s => ⟨execCrcBuf_of_bad_range, fun hfit d hload => ?_⟩, fun init d => ?_,
    fun off len len' s d => execCrcBuf_sequence⟩
  · simp only [BitVec.ofNat_toNat]
    exact execCrcBuf_of_load hfit hload
  · rw [crcFold_append, crcFold_self]

/-! ## The scrambler's mask (R210, R211) -/

theorem scramblerByte_eq_getD (p : Params) (i : Nat) : scramblerByte p i = p.ccsdsTable.toList.getD i 0 := by
  rw [scramblerByte]
  split
  · rw [List.getD_eq_getElem _ _ (by simpa), Vector.getElem_toList]
  · rw [List.getD_eq_default _ _ (by simp; omega)]

@[simp] theorem scramble_length (p : Params) (d : List Byte) : (scramble p d).length = d.length :=
  mapIndexed_length _ _

theorem scramble_getD (p : Params) {d : List Byte} {i : Nat} (h : i < d.length) :
    (scramble p d).getD i 0 = d.getD i 0 ^^^ p.ccsdsTable.toList.getD i 0 := by
  rw [scramble, mapIndexed_getD _ _ h 0 0, scramblerByte_eq_getD]

/-- R211: the mask is its own inverse. -/
theorem scramble_scramble (p : Params) (d : List Byte) : scramble p (scramble p d) = d := by
  refine List.ext_getElem? fun i => ?_
  rw [scramble, scramble, mapIndexed_getElem?, mapIndexed_getElem?, Option.map_map]
  have hid : ((fun b => b ^^^ scramblerByte p i) ∘ fun b => b ^^^ scramblerByte p i) = id := by
    funext b
    simp
  rw [hid, Option.map_id_fun, id]

/-! ## The scrambler commands (R213, R214) -/

section

variable {off : Byte} {len : BitVec 9} {s : State}

theorem execScrApply_of_bad_range (h : 255 < len.toNat ∨ 256 < off.toNat + len.toNat) :
    exec (.scrApply off len) s = .next { s with code := .range, result := 0 } :=
  if_neg (by simp only [rangeFits, Bool.and_eq_true, decide_eq_true_eq]; omega)

/-- R213: SCR_APPLY of a range that fits and loads. -/
theorem execScrApply_of_load {d : List Byte} (hlen : len.toNat ≤ 255) (hfit : off.toNat + len.toNat ≤ 256)
    (hload : s.loadRange .dbuf off.toNat len.toNat = .ok d) :
    exec (.scrApply off len) s = .next ((s.storeRange .dbuf off.toNat (scramble s.params d)).finish .ok 0) := by
  have hcheck : (decide (len.toNat ≤ 255) && rangeFits off.toNat len.toNat) = true := by
    simp only [rangeFits, hlen, hfit, decide_true, Bool.and_self]
  rw [exec, execScrApply, if_pos hcheck, andThen_ok _ hload]

end

/-- Settles O41: one store of the scrambled range, which a second application scrambles back. -/
theorem scrApplyMasksRange : Obligations.ScrApplyMasksRange := by
  intro off len s
  refine ⟨execScrApply_of_bad_range, fun hlen hfit d hload => ?_⟩
  have hd : d.length = len.toNat := (State.loadRange_ok hload).1
  have hm : (scramble s.params d).length = len.toNat := by rw [scramble_length, hd]
  let t := (s.storeRange .dbuf off.toNat (scramble s.params d)).finish .ok 0
  have hparams : t.params = s.params := s.storeRange_params ..
  have hframe (b : Buf) (i : Nat) (h : ¬ (b = .dbuf ∧ off.toNat ≤ i ∧ i < off.toNat + len.toNat)) :
      sameByte s t b i := s.storeRange_sameByte (scramble s.params d) (hm.symm ▸ h)
  have hmasked : t.loadRange .dbuf off.toNat len.toNat = .ok (scramble s.params d) := by
    rw [State.loadRange_finish, ← hm]
    exact s.loadRange_storeRange_same (b := .dbuf) (hm.symm ▸ hfit)
  refine ⟨t, _, execScrApply_of_load hlen hfit hload, ?_, fun i hi => ?_, hframe,
    execScrApply_of_load hlen hfit hmasked, fun b i => ?_⟩
  · simp only [t]
    rw [State.storeRange_eq]
    rfl
  · rw [← scramble_getD s.params (hd.symm ▸ hi)]
    exact State.written?_storeRange_getD s .dbuf _ (hm.symm ▸ hi) (by simp only [Buf.size]; omega)
  · rw [hparams, scramble_scramble]
    exact State.loadByte_storeRange_restore (hd.symm ▸ hload) (hd.symm ▸ hfit) (hd.symm ▸ hframe) b i

/-- Settles O42: the range check, then the entry; the default table is the generator's sequence by evaluation. -/
theorem scrReadResult : Obligations.ScrReadResult := by
  refine ⟨fun n s => ⟨fun hn => ?_, fun hn => ?_⟩, by decide +kernel, by decide +kernel, by decide +kernel⟩
  · subst hn
    rfl
  · rw [exec, execScrRead, if_pos hn, BitVec.ofNat_toNat, scramblerByte_eq_getD]
    rfl

end Sys2Proof.Machine
end

section
/-! PROOFS. The statements of 43_ngham.md: size classes and tags, the frame NGH_ENCODE builds, the streaming decoder,
and the round trip through both. -/

namespace Sys2Proof.Machine

/-! ## Size classes (R230, R235) -/

theorem classes_getElem (i : Nat) (h : i < classes.length) : classes[i] = ⟨i, h⟩ := by
  have hall : ∀ c : SlotId, classes[c.val]'c.isLt = c := by decide
  exact hall ⟨i, h⟩

/-- R233, R235: the search gives the least class that fits. -/
theorem find?_classes_eq_some_iff {q : SlotId → Bool} {c : SlotId} :
    classes.find? q = some c ↔ q c = true ∧ ∀ c' < c, q c' = false := by
  simp only [List.find?_eq_some_iff_getElem, classes_getElem, Bool.not_eq_true']
  refine and_congr_right fun _ => ⟨?_, fun hlt => ⟨c.val, c.isLt, rfl, fun j hj => hlt _ hj⟩⟩
  rintro ⟨i, hi, rfl, hlt⟩ c' hc'
  exact hlt c'.val hc'

theorem find?_classes_eq_none_iff {q : SlotId → Bool} : classes.find? q = none ↔ ∀ c, q c = false := by
  have hmem : ∀ c : SlotId, c ∈ classes := by decide
  simp only [List.find?_eq_none, Bool.not_eq_true]
  exact ⟨fun h c => h c (hmem c), fun h c _ => h c⟩

theorem selectClass_of_bad {n : Nat} (h : n = 0 ∨ 220 < n) : selectClass n = none := if_pos h

/-- R235: the class selected is the least whose payload size holds the length. -/
theorem selectClass_eq_some_iff {n : Nat} {c : SlotId} :
    selectClass n = some c ↔ 1 ≤ n ∧ n ≤ 220 ∧ n ≤ pl c ∧ ∀ c' < c, pl c' < n := by
  by_cases hbad : n = 0 ∨ 220 < n
  · rw [selectClass_of_bad hbad]
    simp only [reduceCtorEq, false_iff]
    omega
  · rw [selectClass, if_neg hbad, find?_classes_eq_some_iff]
    simp only [decide_eq_true_eq, decide_eq_false_iff_not, Nat.not_le]
    exact ⟨fun h => ⟨by omega, by omega, h⟩, fun h => h.2.2⟩

theorem exists_selectClass {n : Nat} (h1 : 1 ≤ n) (h2 : n ≤ 220) : ∃ c, selectClass n = some c := by
  have hgood : ¬ (n = 0 ∨ 220 < n) := by omega
  rw [selectClass, if_neg hgood, ← Option.isSome_iff_exists, ← Option.ne_none_iff_isSome, ne_eq,
    find?_classes_eq_none_iff]
  exact fun h => of_decide_eq_false (h 6) h2

/-- R235: what is left over fits the five-bit padding count. -/
theorem pl_sub_le_of_selectClass {n : Nat} {c : SlotId} (h : selectClass n = some c) : pl c - n ≤ 31 := by
  obtain ⟨hpos, -, -, hleast⟩ := selectClass_eq_some_iff.mp h
  have hgap : ∀ c : SlotId, pl c ≤ 32 ∨ ∃ c' < c, pl c = pl c' + 32 := by decide
  obtain h32 | ⟨c', hlt, hpl⟩ := hgap c
  · omega
  · have := hleast c' hlt
    omega

/-- R235: the selection is monotonic. -/
theorem selectClass_mono {n m : Nat} {a b : SlotId} (h : n ≤ m) (ha : selectClass n = some a)
    (hb : selectClass m = some b) : a ≤ b := by
  obtain ⟨-, -, -, hleast⟩ := selectClass_eq_some_iff.mp ha
  obtain ⟨-, -, hfits, -⟩ := selectClass_eq_some_iff.mp hb
  by_contra hlt
  have := hleast b (not_le.mp hlt)
  omega

theorem execNghSelect_of_some {n : Byte} {c : SlotId} (h : selectClass n.toNat = some c) (s : State) :
    exec (.nghSelect n) s = .next { s with code := .ok, result := BitVec.ofNat 32 c.val } := by
  rw [exec, execNghSelect, h]
  rfl

theorem execNghSelect_of_none {n : Byte} (h : selectClass n.toNat = none) (s : State) :
    exec (.nghSelect n) s = .next { s with code := .len, result := 0 } := by
  rw [exec, execNghSelect, h]
  rfl

/-- Settles O43: the class is the least that fits, found for every length from 1 to 220. -/
theorem nghSelectResult : Obligations.NghSelectResult := by
  refine ⟨fun n s => ⟨fun hbad => execNghSelect_of_none (selectClass_of_bad hbad) s, fun h1 h2 => ?_⟩,
    fun n m a b => selectClass_mono⟩
  obtain ⟨c, hc⟩ := exists_selectClass h1 h2
  obtain ⟨-, -, hfits, hleast⟩ := selectClass_eq_some_iff.mp hc
  exact ⟨c, hfits, fun c' hc' => not_lt.mp fun hlt => Nat.not_lt.mpr hc' (hleast c' hlt), pl_sub_le_of_selectClass hc,
    execNghSelect_of_some hc s⟩

/-! ## Size tags (R233, R234) -/

/-- R11: the number of 1 bits of an exclusive-or is at most that of both operands. -/
theorem popcountLow_xor_le (x y n : Nat) : popcountLow (x ^^^ y) n ≤ popcountLow x n + popcountLow y n := by
  induction n with
  | zero => exact Nat.le_refl 0
  | succ n ih =>
    have hbit : (x.testBit n ^^ y.testBit n).toNat ≤ (x.testBit n).toNat + (y.testBit n).toNat := by
      cases x.testBit n <;> cases y.testBit n <;> decide
    simp only [popcountLow, Nat.testBit_xor]
    omega

theorem popcount_self (t : Tag) : popcount (t ^^^ t) = 0 := by
  rw [BitVec.xor_self]
  decide

/-- R234: the triangle inequality of the Hamming distance. -/
theorem popcount_xor_le (t a b : Tag) : popcount (a ^^^ b) ≤ popcount (t ^^^ a) + popcount (t ^^^ b) := by
  have hab : a ^^^ b = (t ^^^ a) ^^^ (t ^^^ b) := by
    rw [BitVec.xor_comm t a, BitVec.xor_assoc, ← BitVec.xor_assoc t t b, BitVec.xor_self, BitVec.zero_xor]
  rw [hab, popcount, BitVec.toNat_xor]
  exact popcountLow_xor_le _ _ 24

/-- Settles O45: two classes within 6 bits of one tag are at most 12 bits apart. -/
theorem tagMatchesAreUnique : Obligations.TagMatchesAreUnique := by
  intro p hfar t a b ha hb
  by_contra hne
  have hab := hfar a b hne
  have := popcount_xor_le t p.sizeTag[a] p.sizeTag[b]
  omega

/-- R233: the class of a tag is the least within 6 bits of it. -/
theorem tagClass_eq_some {p : Params} {t : Tag} {c : SlotId} (hc : popcount (t ^^^ p.sizeTag[c]) ≤ 6)
    (hleast : ∀ c' < c, 6 < popcount (t ^^^ p.sizeTag[c'])) : tagClass p t = some c := by
  refine find?_classes_eq_some_iff.mpr ⟨decide_eq_true hc, fun c' hlt => decide_eq_false ?_⟩
  exact Nat.not_le.mpr (hleast c' hlt)

theorem tagClass_eq_none {p : Params} {t : Tag} (h : ∀ c : SlotId, 6 < popcount (t ^^^ p.sizeTag[c])) :
    tagClass p t = none :=
  find?_classes_eq_none_iff.mpr fun c => decide_eq_false (Nat.not_le.mpr (h c))

/-- R234: a class's own tag gives that class. -/
theorem tagClass_sizeTag {p : Params} (hfar : sizeTagsFarApart p) (c : SlotId) :
    tagClass p p.sizeTag[c] = some c :=
  tagClass_eq_some ((popcount_self _).trans_le (Nat.zero_le 6)) fun c' hlt => by
    have := hfar c c' (ne_of_gt hlt)
    omega

/-- Settles O44: RESULT is the class of the tag, or 7. -/
theorem nghTagLookupResult : Obligations.NghTagLookupResult := by
  refine fun t s => ⟨fun c hc hleast => ?_, fun hnone => ?_⟩
  · rw [exec, execNghTagLookup, tagClass_eq_some hc hleast]
    rfl
  · rw [exec, execNghTagLookup, tagClass_eq_none hnone]
    rfl

/-! ## The tag search (R258, R260) -/

/-- Settles O47: the command is `resetSession` and `finish`. -/
theorem nghDecResetEffect : Obligations.NghDecResetEffect := fun _ => rfl

/-- R260: a byte shifted into the tag from the low end. -/
theorem shiftTag_eq_append (t : Tag) (b : Byte) : shiftTag t b = t.extractLsb' 0 16 ++ b := by
  refine BitVec.eq_of_getElem_eq fun i hi => ?_
  rw [BitVec.getElem_append]
  split
  · simp [shiftTag, ‹i < 8›]
  · simp [shiftTag, ‹¬ i < 8›, BitVec.getLsbD_of_ge b i (by omega),
      BitVec.getLsbD_eq_getElem (show i - 8 < 24 by omega)]

section

variable {s : State}

theorem execNghDecByte_of_byte1 (hd : s.decState = .sizeTagByte1) (b : Byte) :
    exec (.nghDecByte b) s = .next { s with
      decTag := b.setWidth 24, decState := .sizeTagByte2, code := .ok, result := 0 } := by
  rw [exec, execNghDecByte, hd]
  rfl

theorem execNghDecByte_of_byte2 (hd : s.decState = .sizeTagByte2) (b : Byte) :
    exec (.nghDecByte b) s = .next { s with
      decTag := s.decTag.extractLsb' 0 16 ++ b, decState := .sizeTagByte3, code := .ok, result := 0 } := by
  rw [exec, execNghDecByte, hd, ← shiftTag_eq_append]
  rfl

/-- R260: the third byte of a tag that matches class `c` locks onto it. -/
theorem execNghDecByte_of_match (hd : s.decState = .sizeTagByte3) {b : Byte} {c : SlotId}
    (hc : tagClass s.params (s.decTag.extractLsb' 0 16 ++ b) = some c) :
    exec (.nghDecByte b) s = .next { s with
      decTag := s.decTag.extractLsb' 0 16 ++ b, decClass := c, decPos := 0, decState := .codewordAccumulating
      code := .ok, result := 0x2 } := by
  rw [← shiftTag_eq_append] at hc ⊢
  rw [exec, execNghDecByte, hd]
  simp only [hc]
  rfl

theorem execNghDecByte_of_noMatch (hd : s.decState = .sizeTagByte3) {b : Byte}
    (hc : tagClass s.params (s.decTag.extractLsb' 0 16 ++ b) = none) :
    exec (.nghDecByte b) s = .next { s with
      decTag := s.decTag.extractLsb' 0 16 ++ b, decState := .sizeTagByte1, code := .ok, result := 0x4 } := by
  rw [← shiftTag_eq_append] at hc ⊢
  rw [exec, execNghDecByte, hd]
  simp only [hc]
  rfl

end

/-- Settles O48: one lemma for each state of the search, the last by whether the tag has a class. -/
theorem tagSearchSteps : Obligations.TagSearchSteps := by
  intro b s tag
  exact ⟨fun hd => execNghDecByte_of_byte1 hd b, fun hd => execNghDecByte_of_byte2 hd b, fun hd =>
    ⟨fun c hc hleast => execNghDecByte_of_match hd (tagClass_eq_some hc hleast),
      fun hnone => execNghDecByte_of_noMatch hd (tagClass_eq_none hnone)⟩⟩

/-! ## The codeword (R250, R252) -/

theorem full_eq (c : SlotId) : full c = pl c + 3 := by revert c; decide

theorem full_add_par (c : SlotId) : full c + par c = swp c := by revert c; decide

/-- R250: byte 0 is the flags above the five-bit padding count. -/
theorem firstByte_eq_append (c : SlotId) (len : Nat) (flags : BitVec 3) :
    firstByte c len flags = flags ++ BitVec.ofNat 5 (pl c - len) := by
  have hlow : ∀ i : Fin 8, (0x1F : Byte)[i] = decide (i.val < 5) := by decide
  have hhigh : ∀ i : Fin 8, (0xE0 : Byte)[i] = !decide (i.val < 5) := by decide
  rw [firstByte, ← BitVec.setWidth_ofNat_of_le (show 5 ≤ 8 by decide)]
  generalize BitVec.ofNat 8 (pl c - len) = x
  refine BitVec.eq_of_getElem_eq fun i hi => ?_
  have hl : (0x1F#8)[i] = decide (i < 5) := hlow ⟨i, hi⟩
  have hh : (0xE0#8)[i] = !decide (i < 5) := hhigh ⟨i, hi⟩
  rw [BitVec.getElem_append]
  split
  · simp [hl, hh, ‹i < 5›, BitVec.getLsbD_eq_getElem hi]
  · simp [hl, hh, ‹¬ i < 5›, BitVec.getLsbD_eq_getElem (show i - 5 < 3 by omega)]

theorem firstByte_toNat {c : SlotId} {len : Nat} (h : pl c - len ≤ 31) (flags : BitVec 3) :
    (firstByte c len flags).toNat = (pl c - len) + 32 * flags.toNat := by
  have hmod : (pl c - len) % 2 ^ 5 = pl c - len := Nat.mod_eq_of_lt (by omega)
  rw [firstByte_eq_append, BitVec.toNat_append, BitVec.toNat_ofNat, hmod,
    ← Nat.shiftLeft_add_eq_or_of_lt (by omega), Nat.shiftLeft_eq]
  omega

section

variable (p : Params) (cb : ControlBlock) (c : SlotId) (flags : BitVec 3) (payload : List Byte)

/-- R250: byte 0 and the payload, which the CRC is folded over. -/
def crcHead : List Byte := firstByte c payload.length flags :: payload

/-- R250: the CRC of a codeword. -/
def crcOf : Half := crcFold p.crcInit (crcHead c flags payload)

theorem codewordOf_eq : codewordOf p cb c flags payload =
    crcHead c flags payload ++ ([crcHigh (crcOf p c flags payload), crcLow (crcOf p c flags payload)] ++
      (List.replicate (full c - (payload.length + 3)) 0 ++ rsParity cb (messageOf p c flags payload))) := by
  simp only [codewordOf, messageOf, crcOf, crcHead, List.append_assoc]

theorem crcHead_length : (crcHead c flags payload).length = payload.length + 1 := rfl

theorem codewordOf_take_crcHead :
    (codewordOf p cb c flags payload).take (payload.length + 1) = crcHead c flags payload := by
  rw [codewordOf_eq, List.take_left' (crcHead_length ..)]

theorem codewordOf_getD_zero : (codewordOf p cb c flags payload).getD 0 0 = firstByte c payload.length flags := rfl

theorem codewordOf_getD_crcHigh :
    (codewordOf p cb c flags payload).getD (payload.length + 1) 0 = crcHigh (crcOf p c flags payload) := by
  rw [codewordOf_eq, List.getD_append_right _ _ _ _ (crcHead_length ..).le, crcHead_length, Nat.sub_self]
  rfl

theorem codewordOf_getD_crcLow :
    (codewordOf p cb c flags payload).getD (payload.length + 2) 0 = crcLow (crcOf p c flags payload) := by
  rw [codewordOf_eq, List.getD_append_right _ _ _ _ (by rw [crcHead_length]; omega), crcHead_length,
    show payload.length + 2 - (payload.length + 1) = 1 by omega]
  rfl

variable {payload}

theorem codewordOf_getD_payload {i : Nat} (hi : i < payload.length) :
    (codewordOf p cb c flags payload).getD (i + 1) 0 = payload.getD i 0 := by
  rw [codewordOf_eq, List.getD_append _ _ _ _ (by rw [crcHead_length]; omega)]
  rfl

theorem codewordOf_getD_padding {i : Nat} (hlow : payload.length + 3 ≤ i) (hhigh : i < full c) :
    (codewordOf p cb c flags payload).getD i 0 = 0 := by
  rw [codewordOf_eq, List.getD_append_right _ _ _ _ (by rw [crcHead_length]; omega), crcHead_length,
    List.getD_append_right _ _ _ _ (by simp only [List.length_cons, List.length_nil]; omega),
    List.getD_append _ _ _ _ (by simp only [List.length_cons, List.length_nil, List.length_replicate]; omega)]
  exact List.getD_replicate _ (by simp only [List.length_cons, List.length_nil]; omega)

theorem messageOf_length (h : payload.length ≤ pl c) : (messageOf p c flags payload).length = full c := by
  have := full_eq c
  simp only [messageOf, List.length_append, List.length_cons, List.length_nil, List.length_replicate]
  omega

/-- R250: the first FULL[c] bytes are the message, the others its parity. -/
theorem codewordOf_take_full (h : payload.length ≤ pl c) :
    (codewordOf p cb c flags payload).take (full c) = messageOf p c flags payload :=
  List.take_left' (messageOf_length p c flags h)

theorem codewordOf_drop_full (h : payload.length ≤ pl c) :
    (codewordOf p cb c flags payload).drop (full c) = rsParity cb (messageOf p c flags payload) :=
  List.drop_left' (messageOf_length p c flags h)

end

/-- R232: what the slot check says. -/
theorem cfgOk_iff {cb : ControlBlock} {c : SlotId} :
    cfgOk cb c = true ↔ cb.valid = true ∧ cb.mm = 8 ∧ cb.nroots.toNat = par c ∧ cb.pad.toNat = pads c := by
  simp only [cfgOk, Bool.and_eq_true, decide_eq_true_eq, and_assoc]

theorem codewordOf_length (p : Params) {cb : ControlBlock} {c : SlotId} (hcfg : cfgOk cb c = true) (flags : BitVec 3)
    {payload : List Byte} (h : payload.length ≤ pl c) : (codewordOf p cb c flags payload).length = swp c := by
  obtain ⟨-, -, hroots, -⟩ := cfgOk_iff.mp hcfg
  rw [codewordOf, List.length_append, messageOf_length p c flags h, rsParity_length, ControlBlock.roots, hroots,
    full_add_par]

/-! ## NGH_ENCODE (R250, R251) -/

section

variable {s : State} {len : Byte} {c : SlotId} (flags : BitVec 3)

theorem execNghEncode_of_none (h : selectClass len.toNat = none) :
    exec (.nghEncode len flags) s = .next { s with code := .len, result := 0 } := by
  rw [exec, execNghEncode, h]
  rfl

variable (h : selectClass len.toNat = some c)

include h

theorem execNghEncode_of_badConfig (hcfg : cfgOk s.cb[c] c = false) :
    exec (.nghEncode len flags) s = .next { s with code := .config, result := 0 } := by
  rw [exec, execNghEncode, h]
  exact if_neg (Bool.not_eq_true _ ▸ hcfg)

/-- R250: NGH_ENCODE stores the frame and answers its length. -/
theorem execNghEncode_of_load (hcfg : cfgOk s.cb[c] c = true) {payload : List Byte}
    (hload : s.loadRange .dbuf 0 len.toNat = .ok payload) :
    exec (.nghEncode len flags) s =
      .next ((s.storeRange .fbuf 0 (frameOf s.params s.cb[c] s.level4 c flags payload)).finish .ok
        (BitVec.ofNat 32 (frameOf s.params s.cb[c] s.level4 c flags payload).length)) := by
  rw [exec, execNghEncode, h]
  simp only [if_pos hcfg, andThen_ok _ hload]

/-- R250: the loaded payload fits the class selected. -/
theorem payload_fits {payload : List Byte} (hload : s.loadRange .dbuf 0 len.toNat = .ok payload) :
    payload.length = len.toNat ∧ payload.length ≤ pl c ∧ pl c - payload.length ≤ 31 := by
  have hlen := (State.loadRange_ok hload).1
  rw [hlen]
  exact ⟨rfl, (selectClass_eq_some_iff.mp h).2.2.1, pl_sub_le_of_selectClass h⟩

end

/-- R8: preamble and sync word. -/
theorem frameHeader_length (level4 : BitVec 1) : (frameHeader level4).length = if level4 = 0 then 8 else 16 := by
  unfold frameHeader
  split <;> rfl

/-- Settles O46: the checks in order, then one store of the frame, whose codeword is laid out by `codewordOf_eq`. -/
theorem nghEncodeBuildsFrame : Obligations.NghEncodeBuildsFrame := by
  intro len flags s
  refine ⟨fun hbad => execNghEncode_of_none flags (selectClass_of_bad hbad), fun c hc =>
    ⟨execNghEncode_of_badConfig flags hc, fun hcfg payload hload => ?_⟩⟩
  obtain ⟨hlen, hfits, hpad⟩ := payload_fits hc hload
  let cw := codewordOf s.params s.cb[c] c flags payload
  have hcw : cw.length = swp c := codewordOf_length s.params hcfg flags hfits
  refine ⟨_, cw, execNghEncode_of_load flags hc hcfg hload, ?_⟩
  intro tag head crc
  have hframe : frameOf s.params s.cb[c] s.level4 c flags payload = head ++ scramble s.params cw := rfl
  have hhead : head.length ≤ 19 := by
    have hheader := frameHeader_length s.level4
    have : head.length = (frameHeader s.level4).length + 3 := List.length_append
    split at hheader <;> omega
  have hflen : (head ++ scramble s.params cw).length = head.length + swp c := by
    rw [List.length_append, scramble_length, hcw]
  have hswp := swp_le c
  have hcrc : crc = crcOf s.params c flags payload := by
    simp only [crc, ← hlen, cw, codewordOf_take_crcHead]
    rfl
  have hstored {i : Nat} (hi : i < head.length + swp c) := State.written?_storeRange_getD s .fbuf
    (head ++ scramble s.params cw) (off := 0) (hflen.symm ▸ hi) (by simp only [Buf.size]; omega)
  simp only [Nat.zero_add] at hstored
  rw [hframe, hflen, hcrc, ← hlen]
  refine ⟨hcw, firstByte_toNat hpad flags, fun i hi => codewordOf_getD_payload _ _ _ _ hi,
    codewordOf_getD_crcHigh .., codewordOf_getD_crcLow .., fun i => codewordOf_getD_padding _ _ _ _, ?_, ?_,
    fun i hi => ?_, fun i hi => ?_, fun b i hout => ?_⟩
  · rw [codewordOf_drop_full _ _ _ _ hfits, codewordOf_take_full _ _ _ _ hfits]
  · rw [State.storeRange_eq]
    rfl
  · rw [← List.getD_append head (scramble s.params cw) 0 i hi]
    exact hstored (by omega)
  · have hget := List.getD_append_right head (scramble s.params cw) 0 (head.length + i) (by omega)
    rw [Nat.add_sub_cancel_left, scramble_getD s.params (hcw.symm ▸ hi)] at hget
    rw [← hget]
    exact hstored (by omega)
  · refine s.storeRange_sameByte (head ++ scramble s.params cw) fun ⟨hb, _, hi⟩ => hout ⟨hb, ?_⟩
    omega

/-! ## Bytes of a codeword (R260) -/

section

variable (s : State) (b : Byte)

theorem State.takeByte_eq : s.takeByte b =
    { s with mem := (s.takeByte b).mem, decPos := s.decPos + 1 } := by
  simp only [State.takeByte, State.advancePos]
  rw [State.storeByte_eq]

/-- R260: the byte stored is the received one with the scrambler's mask. -/
theorem State.written?_takeByte_same : (s.takeByte b).written? .rxcw s.decPos.toNat =
    some (b ^^^ s.params.ccsdsTable.toList.getD s.decPos.toNat 0) := by
  rw [← scramblerByte_eq_getD]
  exact s.written?_storeByte_same .rxcw _ s.decPos.isLt

theorem State.written?_takeByte_other {x : Buf} {i : Nat} (h : ¬ (x = .rxcw ∧ i = s.decPos.toNat)) :
    (s.takeByte b).written? x i = s.written? x i :=
  s.written?_storeByte_other _ h

variable {s}

theorem execNghDecByte_of_inside (hd : s.decState = .codewordAccumulating) (hlt : s.decPos.toNat + 1 < swp s.decClass) :
    exec (.nghDecByte b) s = .next ((s.takeByte b).finishEvent .progress) := by
  rw [exec, execNghDecByte, hd]
  exact if_pos hlt

end

/-- Settles O49: the command is `takeByte`. -/
theorem codewordBytesAccumulate : Obligations.CodewordBytesAccumulate := by
  intro b s hd hlt
  refine ⟨_, execNghDecByte_of_inside b hd hlt, ?_, s.written?_takeByte_same b, fun x i h => ?_⟩
  · rw [State.takeByte_eq]
    rfl
  · exact sameByte_of_written (s.written?_takeByte_other b h) (by simp [State.takeByte, State.finishEvent])
      (by simp [State.takeByte, State.finishEvent])

/-! ## The end of a codeword (R261) -/

/-- R260: the state at the end of a codeword whose last byte is `b`. -/
def State.atFrameEnd (s : State) (b : Byte) : State := (s.takeByte b).leaveFrame

section

variable {s : State} (b : Byte)

theorem State.atFrameEnd_eq (s : State) (b : Byte) : s.atFrameEnd b =
    { s with mem := (s.atFrameEnd b).mem, decPos := s.decPos + 1, decState := .sizeTagByte1 } := by
  rw [State.atFrameEnd, State.takeByte_eq]
  rfl

@[simp] theorem State.atFrameEnd_cb (s : State) (b : Byte) : (s.atFrameEnd b).cb = s.cb := by
  rw [State.atFrameEnd_eq]

@[simp] theorem State.atFrameEnd_params (s : State) (b : Byte) : (s.atFrameEnd b).params = s.params := by
  rw [State.atFrameEnd_eq]

@[simp] theorem State.atFrameEnd_fresh (s : State) (b : Byte) : (s.atFrameEnd b).fresh = s.fresh := by
  rw [State.atFrameEnd_eq]

theorem execNghDecByte_of_last (hd : s.decState = .codewordAccumulating)
    (hpos : s.decPos.toNat + 1 = swp s.decClass) :
    exec (.nghDecByte b) s = frameEnd s.decClass (s.atFrameEnd b) := by
  rw [exec, execNghDecByte, hd]
  exact if_neg hpos.not_lt

theorem frameEnd_of_badConfig {c : SlotId} (hcfg : cfgOk s.cb[c] c = false) :
    frameEnd c s = .next (s.finishEvent .badConfig) :=
  if_neg (Bool.not_eq_true _ ▸ hcfg)

theorem frameEnd_of_load {c : SlotId} (hcfg : cfgOk s.cb[c] c = true) {d : List Byte}
    (hload : s.loadRange .rxcw 0 (swp c) = .ok d) :
    frameEnd c s = .next (s.spendDraw.frameDecoded c d (rsOutcome s.params s.fresh s.cb[c] d [])) := by
  rw [frameEnd, if_pos hcfg, andThen_ok _ hload]

end

/-- A written byte is the one that loads. -/
theorem State.written?_of_loadByte {s : State} {b : Buf} {i : Nat} {v : Byte} (hw : (s.written? b i).isSome = true)
    (hl : s.loadByte b i = .ok v) : s.written? b i = some v := by
  obtain ⟨x, hx⟩ := Option.isSome_iff_exists.mp hw
  rw [State.loadByte_of_written hx, Except.ok.injEq] at hl
  rw [hx, hl]

/-- A range of written bytes loads, and its bytes are those written. -/
theorem State.exists_loadRange_of_written {s : State} {b : Buf} {n : Nat}
    (h : ∀ i < n, (s.written? b i).isSome = true) :
    ∃ d, s.loadRange b 0 n = .ok d ∧ d.length = n ∧ ∀ i < n, s.written? b i = some (d.getD i 0) := by
  obtain ⟨d, hd⟩ := State.exists_loadRange_of_readable (s := s) (b := b) (off := 0) (len := n)
    fun i _ hi => .inl (h i (by omega))
  obtain ⟨hlen, hload⟩ := State.loadRange_ok hd
  refine ⟨d, hd, hlen, fun i hi => ?_⟩
  have hi' : i < d.length := hlen.symm ▸ hi
  have hbyte := hload i hi'
  rw [Nat.zero_add] at hbyte
  rw [List.getD_eq_getElem _ _ hi']
  exact State.written?_of_loadByte (h i hi) hbyte

/-- R34: at the end of a codeword every byte of it is in RXCW. -/
theorem State.isSome_written?_atFrameEnd {s : State} (hdec : decoderOk s) (hd : s.decState = .codewordAccumulating)
    (hpos : s.decPos.toNat + 1 = swp s.decClass) (b : Byte) :
    ∀ i < swp s.decClass, ((s.atFrameEnd b).written? .rxcw i).isSome = true := by
  intro i hi
  rcases Nat.lt_succ_iff_lt_or_eq.mp (hpos.symm ▸ hi) with hlt | rfl
  · exact State.isSome_written?_storeByte _ _ _ _ _ _ ((hdec hd).2 i hlt)
  · exact Option.isSome_of_eq_some (s.written?_takeByte_same b)

/-! ### Judging a frame (R261, R264) -/

/-- R261, R262: judging a frame, its conditions as numbers. -/
theorem State.judge_eq_ite (s : State) (c : SlotId) (cw : List Byte) (n : Nat) : s.judge c cw n =
    let padding := (cw.getD 0 0).toNat % 32
    let len := pl c - padding
    if pl c < padding then s.finishEvent .negativeLength
    else if (crcFold s.params.crcInit (cw.take (len + 1))).toNat ≠
      (cw.getD (len + 1) 0).toNat * 256 + (cw.getD (len + 2) 0).toNat then s.finishEvent .crcMismatch
    else (s.acceptFrame ((cw.drop 1).take len) ((cw.getD 0 0).extractLsb' 5 3) n).finishEvent .accepted := by
  have hpad : (cw.getD 0 0 &&& 0x1F).toNat = (cw.getD 0 0).toNat % 32 := by
    rw [BitVec.toNat_and]
    exact Nat.and_two_pow_sub_one_eq_mod _ 5
  have hword (crc : Half) (x y : Byte) : crc ≠ x ++ y ↔ crc.toNat ≠ x.toNat * 256 + y.toNat := by
    rw [ne_eq, ne_eq, ← BitVec.toNat_inj, BitVec.toNat_append, ← Nat.shiftLeft_add_eq_or_of_lt y.isLt,
      Nat.shiftLeft_eq]
  simp only [State.judge, judgeFrame, hpad, hword]
  split_ifs <;> rfl

section

variable (s : State) (c : SlotId)

/-- R261, R262: what judging a frame writes. -/
theorem State.judge_eq (cw : List Byte) (n : Nat) : s.judge c cw n =
    { s with
      code := .ok, result := (s.judge c cw n).result, mem := (s.judge c cw n).mem
      rxLen := (s.judge c cw n).rxLen, rxFlags := (s.judge c cw n).rxFlags, rxErrs := (s.judge c cw n).rxErrs } := by
  unfold State.judge
  split
  · rfl
  · rfl
  · rw [State.acceptFrame, State.storeRange_eq]
    rfl

theorem State.frameDecoded_eq (d : List Byte) (o : RsOutcome) : s.frameDecoded c d o =
    { s with
      code := .ok, result := (s.frameDecoded c d o).result, mem := (s.frameDecoded c d o).mem
      rxLen := (s.frameDecoded c d o).rxLen, rxFlags := (s.frameDecoded c d o).rxFlags
      rxErrs := (s.frameDecoded c d o).rxErrs } := by
  cases o with
  | clean => exact s.judge_eq c d 0
  | uncorrectable => rfl
  | corrected ws ps =>
    simp only [State.frameDecoded]
    rw [State.judge_eq, State.storeWrites_eq]

/-- Judging a frame leaves RXCW as it was. -/
theorem State.written?_judge_rxcw (cw : List Byte) (n i : Nat) :
    (s.judge c cw n).written? .rxcw i = s.written? .rxcw i := by
  unfold State.judge
  split
  · rfl
  · rfl
  · exact s.written?_storeRange_other _ (by simp)

/-- Beyond the codeword RXCW is left as it was. -/
theorem State.written?_frameDecoded_rxcw (d : List Byte) {o : RsOutcome} {n i : Nat}
    (hw : ∀ ws ps, o = .corrected ws ps → ∀ w ∈ ws, w.1 < n) (hi : n ≤ i) :
    (s.frameDecoded c d o).written? .rxcw i = s.written? .rxcw i := by
  cases o with
  | clean => exact s.written?_judge_rxcw c d 0 i
  | uncorrectable => rfl
  | corrected ws ps =>
    refine (State.written?_judge_rxcw _ c _ _ i).trans (s.written?_storeWrites_other ws fun w hm h => ?_)
    have := hw ws ps rfl w hm
    omega

end

/-- From `s` to `t` the last accepted frame stands as it stood (R266). -/
structure RxKept (s t : State) : Prop where
  rxLen : t.rxLen = s.rxLen
  rxFlags : t.rxFlags = s.rxFlags
  rxErrs : t.rxErrs = s.rxErrs
  params : t.params = s.params
  powerOn : t.powerOn = s.powerOn
  rxout : ∀ i, t.written? .rxout i = s.written? .rxout i

namespace RxKept

variable {s t : State} (h : RxKept s t)

include h

theorem sameByte_rxout (i : Nat) : sameByte s t .rxout i := sameByte_of_written (h.rxout i) h.params h.powerOn

theorem finishEvent (e : Event) : RxKept s (t.finishEvent e) :=
  ⟨h.rxLen, h.rxFlags, h.rxErrs, h.params, h.powerOn, h.rxout⟩

theorem spendDraw : RxKept s t.spendDraw := by
  obtain ⟨f, hf⟩ := t.exists_spendDraw_eq
  rw [hf]
  exact ⟨h.rxLen, h.rxFlags, h.rxErrs, h.params, h.powerOn, h.rxout⟩

theorem storeWrites_rxcw (ws : List (Nat × Byte)) : RxKept s (t.storeWrites .rxcw ws) where
  rxLen := (t.storeWrites_rxLen ..).trans h.rxLen
  rxFlags := (t.storeWrites_rxFlags ..).trans h.rxFlags
  rxErrs := (t.storeWrites_rxErrs ..).trans h.rxErrs
  params := (t.storeWrites_params ..).trans h.params
  powerOn := (t.storeWrites_powerOn ..).trans h.powerOn
  rxout i := (t.written?_storeWrites_other ws (by simp)).trans (h.rxout i)

omit h

theorem refl (s : State) : RxKept s s := ⟨rfl, rfl, rfl, rfl, rfl, fun _ => rfl⟩

theorem atFrameEnd (s : State) (b : Byte) : RxKept s (s.atFrameEnd b) where
  rxLen := s.storeByte_rxLen ..
  rxFlags := s.storeByte_rxFlags ..
  rxErrs := s.storeByte_rxErrs ..
  params := s.storeByte_params ..
  powerOn := s.storeByte_powerOn ..
  rxout _ := s.written?_takeByte_other b (by simp)

end RxKept

theorem pl_le (c : SlotId) : pl c ≤ 220 := by revert c; decide

/-- The payload of a codeword (R264). -/
theorem getD_take_drop_one {cw : List Byte} {len i : Nat} (hi : i < len) :
    ((cw.drop 1).take len).getD i 0 = cw.getD (i + 1) 0 := by
  simp [List.getD_eq_getElem?_getD, hi]

/-- R264: RXOUT after a frame with the payload `payload` is accepted. -/
theorem RxKept.rxout_acceptFrame {s u : State} (h : RxKept s u) {payload : List Byte} (hlen : payload.length ≤ 256)
    (flags : BitVec 3) (n : Nat) :
    let t := (u.acceptFrame payload flags n).finishEvent .accepted
    (∀ i < payload.length, t.written? .rxout i = some (payload.getD i 0)) ∧
      ∀ i, payload.length ≤ i → sameByte s t .rxout i := by
  intro t
  have hp : t.params = u.params := u.storeRange_params ..
  have ho : t.powerOn = u.powerOn := u.storeRange_powerOn ..
  refine ⟨fun i hi => ?_, fun i hi => sameByte_of_written ?_ (hp.trans h.params) (ho.trans h.powerOn)⟩
  · have hstored := u.written?_storeRange_getD .rxout (off := 0) payload hi (by simp only [Buf.size]; omega)
    rwa [Nat.zero_add] at hstored
  · exact (u.written?_storeRange_other payload (by omega)).trans (h.rxout i)

/-- R261, R264: with the codeword `cw` in RXCW, judging it does what R261 says. -/
theorem RxKept.judge {s u : State} (h : RxKept s u) {c : SlotId} {cw : List Byte} {n : Nat}
    (hlen : cw.length = swp c) (hcw : ∀ i < swp c, u.written? .rxcw i = some (cw.getD i 0)) (hn : n < 256) :
    frameJudged s (u.judge c cw n) c cw n := by
  have hrxcw (i : Nat) (hi : i < swp c) := (u.written?_judge_rxcw c cw n i).trans (hcw i hi)
  generalize ht : u.judge c cw n = t at hrxcw ⊢
  rw [State.judge_eq_ite, h.params] at ht
  unfold frameJudged
  intro padding len stored dropped
  refine ⟨hrxcw, ?_⟩
  split
  · rw [if_pos ‹pl c < padding›] at ht
    have hk : RxKept s t := ht ▸ h.finishEvent .negativeLength
    exact ⟨ht ▸ rfl, hk.rxLen, hk.rxFlags, hk.rxErrs, hk.sameByte_rxout⟩
  rw [if_neg ‹¬ pl c < padding›] at ht
  split
  · rw [if_pos ‹_›] at ht
    have hk : RxKept s t := ht ▸ h.finishEvent .crcMismatch
    exact ⟨ht ▸ rfl, hk.rxLen, hk.rxFlags, hk.rxErrs, hk.sameByte_rxout⟩
  · rw [if_neg ‹_›] at ht
    subst ht
    have hpl := pl_le c
    have hfull := full_eq c
    have hswp := full_add_par c
    have hlen' : ((cw.drop 1).take len).length = len := by
      rw [List.length_take, List.length_drop]
      omega
    obtain ⟨hstored, hbeyond⟩ := h.rxout_acceptFrame (payload := (cw.drop 1).take len) (by omega)
      ((cw.getD 0 0).extractLsb' 5 3) n
    rw [hlen'] at hstored hbeyond
    refine ⟨rfl, ?_, ?_, Nat.mod_eq_of_lt hn, fun i hi => (hstored i hi).trans ?_, hbeyond⟩
    · exact (congrArg (· % 256) hlen').trans (Nat.mod_eq_of_lt (by omega))
    · have := (cw.getD 0 0).isLt
      refine (BitVec.extractLsb'_toNat ..).trans ?_
      rw [Nat.shiftRight_eq_div_pow]
      omega
    · rw [getD_take_drop_one hi]

/-! ### The slot's bounds -/

/-- R44, R232: the sizes of a class's slot. R128's bound on IPRIM holds there, since no byte exceeds NN. -/
theorem cfgOk_bounds {cb : ControlBlock} {c : SlotId} (hs : slotOk cb) (hcfg : cfgOk cb c = true) :
    cb.fieldSize = 255 ∧ cb.roots = par c ∧ cb.blockLen = swp c ∧ cb.iprim.toNat - 1 < cb.fieldSize := by
  obtain ⟨hv, hmm, hroots, hpad⟩ := cfgOk_iff.mp hcfg
  obtain ⟨-, -, hnn, -⟩ := hs hv
  have hn : cb.fieldSize = 255 := by
    rw [ControlBlock.fieldSize, hnn, hmm]
    rfl
  have hsize : ∀ c : SlotId, 255 - pads c = swp c := by decide
  have hi := cb.iprim.isLt
  refine ⟨hn, hroots, ?_, by omega⟩
  rw [ControlBlock.blockLen, hn, hpad, hsize]

/-- R175, R261: a correction of a class's codeword lies inside it, and its count fits RX_ERRS. -/
theorem rsOutcome_corrected_of_cfgOk {p : Params} {draw : Nat} {cb : ControlBlock} {c : SlotId} {d : List Byte}
    {ws : List (Nat × Elem)} {ps : List Nat} (hs : slotOk cb) (hcfg : cfgOk cb c = true) (hd : d.length = swp c)
    (h : rsOutcome p draw cb d [] = .corrected ws ps) : ps.length < 256 ∧ ∀ w ∈ ws, w.1 < swp c := by
  obtain ⟨hn, hroots, hblock, hi⟩ := cfgOk_bounds hs hcfg
  have hpar : ∀ c : SlotId, 0 < par c ∧ par c < 256 := by decide
  obtain ⟨hpos, hlt⟩ := hpar c
  obtain ⟨hcount, hw, -⟩ := rsOutcome_corrected h (by omega) hi (by omega) (hd.trans hblock.symm)
  exact ⟨by omega, hblock ▸ hw⟩

/-- After a correction RXCW holds the corrected codeword. -/
theorem State.written?_storeWrites_applyWrites {u : State} {d : List Byte} {ws : List (Nat × Elem)} {n : Nat}
    (hlen : d.length = n) (hn : n ≤ 256) (hd : ∀ i < n, u.written? .rxcw i = some (d.getD i 0))
    (hw : ∀ w ∈ ws, w.1 < n) :
    ∀ i < n, (u.storeWrites .rxcw ws).written? .rxcw i = some ((applyWrites d ws).getD i 0) := by
  subst hlen
  intro i hi
  have hload (j : Nat) (hj : j < d.length) : u.loadByte .rxcw j = .ok d[j] := by
    rw [State.loadByte_of_written (hd j hj), List.getD_eq_getElem]
  have hstored := u.loadByte_storeWrites .rxcw d ws hload hn hw i hi
  rw [List.getD_eq_getElem _ _ (by simpa using hi)]
  exact State.written?_of_loadByte
    (((EngineKept.refl u).storeWrites .rxcw ws).written _ _ (Option.isSome_of_eq_some (hd i hi))) hstored

/-- R262, R266: the frame with the received codeword `d` is dropped. -/
abbrev frameDropped (s t : State) (c : SlotId) (d : List Byte) : Prop :=
  t.rxLen = s.rxLen ∧ t.rxFlags = s.rxFlags ∧ t.rxErrs = s.rxErrs ∧
    (∀ i, sameByte s t .rxout i) ∧ ∀ i < swp c, t.written? .rxcw i = some (d.getD i 0)

/-- R261, R262: how the frame with the received codeword `d` ends, by the outcome of the RS decode. -/
abbrev frameDecodedAs (s t : State) (c : SlotId) (d : List Byte) (o : RsOutcome) : Prop :=
  match o with
  | .uncorrectable => t.result = 0x6 ∧ frameDropped s t c d
  | .clean => frameJudged s t c d 0
  | .corrected ws ps => frameJudged s t c (applyWrites d ws) ps.length

theorem RxKept.dropped {s t : State} (h : RxKept s t) {c : SlotId} {d : List Byte}
    (hd : ∀ i < swp c, t.written? .rxcw i = some (d.getD i 0)) : frameDropped s t c d :=
  ⟨h.rxLen, h.rxFlags, h.rxErrs, h.sameByte_rxout, hd⟩

/-- R261: how the frame with the received codeword `d` ends, by the outcome of the RS decode. -/
theorem RxKept.frameDecoded {s u : State} (h : RxKept s u) {c : SlotId} {d : List Byte} (hlen : d.length = swp c)
    (hd : ∀ i < swp c, u.written? .rxcw i = some (d.getD i 0)) {o : RsOutcome}
    (ho : ∀ ws ps, o = .corrected ws ps → ps.length < 256 ∧ ∀ w ∈ ws, w.1 < swp c) :
    frameDecodedAs s (u.frameDecoded c d o) c d o := by
  have hswp := swp_le c
  cases o with
  | uncorrectable => exact ⟨rfl, (h.finishEvent .uncorrectable).dropped hd⟩
  | clean => exact h.judge hlen hd (by decide)
  | corrected ws ps =>
    obtain ⟨hcount, hw⟩ := ho ws ps rfl
    exact (h.storeWrites_rxcw ws).judge ((applyWrites_length d ws).trans hlen)
      (State.written?_storeWrites_applyWrites hlen (by omega) hd hw) hcount

/-- All that the end of a frame can do, with the received codeword `d` in RXCW: what it leaves as it was, and how the
frame ends (R261, R262). -/
theorem RxKept.exists_frameEnd {s u : State} (h : RxKept s u) {c : SlotId} {d : List Byte} (hs : slotOk u.cb[c])
    (hload : u.loadRange .rxcw 0 (swp c) = .ok d) (hlen : d.length = swp c)
    (hd : ∀ i < swp c, u.written? .rxcw i = some (d.getD i 0)) :
    ∃ t, frameEnd c u = .next t ∧
      t = { u with
        code := .ok, result := t.result, mem := t.mem, rxLen := t.rxLen, rxFlags := t.rxFlags, rxErrs := t.rxErrs
        fresh := t.fresh } ∧
      (u.params.beyondBound = .exact → t.fresh = u.fresh) ∧
      (∀ i, swp c ≤ i → t.written? .rxcw i = u.written? .rxcw i) ∧
      (cfgOk u.cb[c] c = false → t.result = 0xC ∧ frameDropped s t c d) ∧
      (cfgOk u.cb[c] c = true → frameDecodedAs s t c d (rsOutcome u.params u.fresh u.cb[c] d [])) := by
  cases hcfg : cfgOk u.cb[c] c with
  | false =>
    exact ⟨_, frameEnd_of_badConfig hcfg, rfl, fun _ => rfl, fun _ _ => rfl,
      fun _ => ⟨rfl, (h.finishEvent .badConfig).dropped hd⟩, nofun⟩
  | true =>
    have ho ws ps := rsOutcome_corrected_of_cfgOk (p := u.params) (draw := u.fresh) (ws := ws) (ps := ps) hs hcfg hlen
    have hmem (b : Buf) (i : Nat) := State.written?_congr u.spendDraw_mem b i
    refine ⟨_, frameEnd_of_load hcfg hload, ?_, fun he => ?_, fun i hi => ?_, nofun, fun _ =>
      h.spendDraw.frameDecoded hlen (fun i hi => (hmem .rxcw i).trans (hd i hi)) ho⟩
    · obtain ⟨f, hf⟩ := u.exists_spendDraw_eq
      rw [hf, State.frameDecoded_eq]
    · rw [State.spendDraw_of_exact he, State.frameDecoded_eq]
    · exact (State.written?_frameDecoded_rxcw _ c d (fun ws ps hws => (ho ws ps hws).2) hi).trans (hmem .rxcw i)

/-- Settles O50: the last byte is stored as every other, the codeword is loaded, and `frame_end` judges it. -/
theorem frameEnds : Obligations.FrameEnds := by
  intro b s c hs hdec hd (hpos : s.decPos.toNat + 1 = swp s.decClass)
  have hkept := RxKept.atFrameEnd s b
  have hbefore {x : Buf} {i : Nat} (h : ¬ (x = .rxcw ∧ i = s.decPos.toNat)) :
      (s.atFrameEnd b).written? x i = s.written? x i := s.written?_takeByte_other b h
  obtain ⟨d, hload, hlen, hd'⟩ := State.exists_loadRange_of_written (s.isSome_written?_atFrameEnd hdec hd hpos b)
  obtain ⟨t, hrun, heq, hfresh, hbeyond, hbad, hgood⟩ :=
    hkept.exists_frameEnd ((s.atFrameEnd_cb b).symm ▸ hs) hload hlen hd'
  simp only [State.atFrameEnd_cb, State.atFrameEnd_params, State.atFrameEnd_fresh] at hfresh hbad hgood
  have hexec : exec (.nghDecByte b) s = .next t := (execNghDecByte_of_last b hd hpos).trans hrun
  have hdecPos : s.decPos + 1 = BitVec.ofNat 8 (swp s.decClass) := by
    rw [← hpos, BitVec.ofNat_add, BitVec.ofNat_toNat, BitVec.setWidth_eq]
    rfl
  rw [State.atFrameEnd_eq, hdecPos] at heq
  have hparams : t.params = s.params := by rw [heq]
  have hpowerOn : t.powerOn = s.powerOn := by rw [heq]
  refine ⟨d, t, hlen, fun i hi => ?_, ?_, hexec, heq, hfresh, fun x i hx hx' => ?_, fun i hi => ?_, hbad, hgood⟩
  · rw [← hd' i (by omega), hbefore (by omega)]
  · have hlast := (hd' s.decPos.toNat (by omega)).symm.trans (s.written?_takeByte_same b)
    exact Option.some.inj hlast
  · exact exec_sameByte hexec (by simp [storedBuffers, hx, hx']) hparams hpowerOn i
  · refine sameByte_of_written ((hbeyond i hi).trans (hbefore ?_)) hparams hpowerOn
    have : swp s.decClass ≤ i := hi
    omega

/-! ## The round trip (R268) -/

/-- R261: judging the codeword NGH_ENCODE builds accepts its payload and flags. -/
theorem State.judge_codewordOf (s : State) (cb : ControlBlock) {c : SlotId} (flags : BitVec 3) {payload : List Byte}
    (hfits : payload.length ≤ pl c) (hpad : pl c - payload.length ≤ 31) (n : Nat) :
    s.judge c (codewordOf s.params cb c flags payload) n = (s.acceptFrame payload flags n).finishEvent .accepted := by
  have hpadding : ((codewordOf s.params cb c flags payload).getD 0 0).toNat % 32 = pl c - payload.length := by
    rw [codewordOf_getD_zero, firstByte_toNat hpad]
    omega
  have hflags : ((codewordOf s.params cb c flags payload).getD 0 0).extractLsb' 5 3 = flags := by
    rw [codewordOf_getD_zero, firstByte_eq_append]
    exact Laws.OpcodeField.extract_append flags (BitVec.ofNat 5 _)
  have hpayload : ((codewordOf s.params cb c flags payload).drop 1).take payload.length = payload := by
    rw [codewordOf_eq]
    exact List.take_left' rfl
  have hcrc (crc : Half) : crc.toNat = (crcHigh crc).toNat * 256 + (crcLow crc).toNat := by
    simp only [crcHigh, crcLow, BitVec.extractLsb'_toNat, Nat.shiftRight_eq_div_pow]
    omega
  have hlen : pl c - (pl c - payload.length) = payload.length := by omega
  rw [State.judge_eq_ite, hpadding, hflags]
  simp only [hlen]
  rw [if_neg (by omega), codewordOf_take_crcHead, codewordOf_getD_crcHigh, codewordOf_getD_crcLow, hpayload]
  exact if_neg (not_not_intro (hcrc _))

/-- R162, R250: what NGH_ENCODE builds for a primitive slot is a codeword. -/
theorem isCodeword_codewordOf (p : Params) {cb : ControlBlock} {c : SlotId} (hcfg : cfgOk cb c = true)
    (hprim : primitiveSlot cb) (flags : BitVec 3) (payload : List Byte) :
    isCodeword cb (codewordOf p cb c flags payload) = true := by
  have hnn : cb.nn.toNat = 255 := (cfgOk_bounds (builtSlot_ok hprim.1).1 hcfg).1
  exact (isCodeword_append_rsParity hprim fun x _ => (Nat.le_of_lt_succ x.isLt).trans_eq hnn.symm).2

/-- R250: after preamble and sync word come the size tag and the scrambled codeword. -/
theorem frameOf_drop_header (p : Params) (cb : ControlBlock) (level4 : BitVec 1) (c : SlotId) (flags : BitVec 3)
    (payload : List Byte) : (frameOf p cb level4 c flags payload).drop (if level4 = 0 then 8 else 16) =
      tagBytes p.sizeTag[c] ++ scramble p (codewordOf p cb c flags payload) := by
  rw [frameOf, List.append_assoc]
  exact List.drop_left' (frameHeader_length level4)

/-- R250, R260: the three bytes of a tag, shifted in one after the other, are the tag. -/
theorem append_tagBytes (t : Tag) :
    (((t.extractLsb' 16 8).setWidth 24).extractLsb' 0 16 ++ t.extractLsb' 8 8).extractLsb' 0 16 ++
      t.extractLsb' 0 8 = t := by
  refine BitVec.eq_of_getLsbD_eq fun i hi => ?_
  simp only [BitVec.getLsbD_append, BitVec.getLsbD_extractLsb', BitVec.getLsbD_setWidth]
  by_cases h8 : i < 8
  · simp [h8]
  · by_cases h16 : i < 16
    · simp [h8, show i - 8 < 8 by omega, show i - 8 < 16 by omega, show 8 + (i - 8) = i by omega]
    · simp [h8, show ¬ i - 8 < 8 by omega, show i - 8 - 8 < 8 by omega, show i - 8 - 8 < 16 by omega,
        show i - 8 - 8 < 24 by omega, show i - 8 < 16 by omega, show 16 + (i - 8 - 8) = i by omega]

theorem feedBytes_cons {s t : State} {b : Byte} (h : exec (.nghDecByte b) s = .next t) (bs : List Byte) :
    feedBytes (b :: bs) s = feedBytes bs t := by
  rw [feedBytes, h]

/-- R260: the state locked onto class `c` by its own size tag. -/
def State.lockedBy (s : State) (c : SlotId) : State := { s with
  decTag := s.params.sizeTag[c], decClass := c, decPos := 0, decState := .codewordAccumulating
  code := .ok, result := 0x2 }

/-- R234, R260: a class's size tag locks the decoder onto the class. -/
theorem feedBytes_tagBytes {s : State} (hd : s.decState = .sizeTagByte1) (hfar : sizeTagsFarApart s.params) (c : SlotId)
    (bs : List Byte) : feedBytes (tagBytes s.params.sizeTag[c] ++ bs) s = feedBytes bs (s.lockedBy c) := by
  have htag := append_tagBytes s.params.sizeTag[c]
  simp only [tagBytes, List.cons_append, List.nil_append]
  rw [feedBytes_cons (execNghDecByte_of_byte1 hd _), feedBytes_cons (execNghDecByte_of_byte2 rfl _),
    feedBytes_cons (execNghDecByte_of_match rfl (c := c) (by rw [htag]; exact tagClass_sizeTag hfar c)), htag]
  rfl

/-- The decoder stands at byte `p` of the codeword `cw` of class `c`, with `s`'s parameters and slots. -/
structure Receiving (s : State) (c : SlotId) (cw : List Byte) (p : Nat) (t : State) : Prop where
  decState : t.decState = .codewordAccumulating
  decClass : t.decClass = c
  decPos : t.decPos.toNat = p
  params : t.params = s.params
  cb : t.cb = s.cb
  written : ∀ i < p, t.written? .rxcw i = some (cw.getD i 0)

namespace Receiving

variable {s t : State} {c : SlotId} {cw : List Byte} {p : Nat}

theorem lockedBy (s : State) (c : SlotId) (cw : List Byte) : Receiving s c cw 0 (s.lockedBy c) :=
  ⟨rfl, rfl, rfl, rfl, rfl, nofun⟩

variable (h : Receiving s c cw p t)

include h

/-- R211, R260: the scrambled byte is stored as the codeword's own. -/
theorem written_takeByte (hp : p < cw.length) : ∀ i < p + 1,
    (t.takeByte ((scramble s.params cw).getD p 0)).written? .rxcw i = some (cw.getD i 0) := by
  intro i hi
  by_cases hip : i = p
  · have hsame := t.written?_takeByte_same ((scramble s.params cw).getD p 0)
    have hmask : (scramble s.params cw).getD p 0 ^^^ s.params.ccsdsTable.toList.getD p 0 = cw.getD p 0 := by
      rw [scramble_getD s.params hp, BitVec.xor_assoc, BitVec.xor_self, BitVec.xor_zero]
    rw [h.decPos, h.params, hmask] at hsame
    rw [hip, hsame]
  · rw [t.written?_takeByte_other _ (by rw [h.decPos]; simp [hip])]
    exact h.written i (by omega)

/-- R260: a byte inside the codeword moves the decoder on. -/
theorem next (hlen : cw.length = swp c) (hp : p + 1 < swp c) :
    ∃ u, exec (.nghDecByte ((scramble s.params cw).getD p 0)) t = .next u ∧ Receiving s c cw (p + 1) u := by
  have hlt : t.decPos.toNat + 1 < swp t.decClass := by rwa [h.decPos, h.decClass]
  refine ⟨_, execNghDecByte_of_inside _ h.decState hlt, ?_⟩
  have hpos : (t.decPos + 1).toNat = p + 1 := by
    have := swp_le c
    rw [BitVec.toNat_add, h.decPos]
    exact Nat.mod_eq_of_lt (show p + 1 < 256 by omega)
  have hwritten := h.written_takeByte (by omega)
  generalize (scramble s.params cw).getD p 0 = b at hwritten ⊢
  rw [State.takeByte_eq] at hwritten ⊢
  exact ⟨h.decState, h.decClass, hpos, h.params, h.cb, hwritten⟩

/-- Bytes inside the codeword, one after the other. -/
theorem feedBytes_drop (hlen : cw.length = swp c) {n : Nat} (hp : p + n < swp c) :
    ∃ u, Receiving s c cw (p + n) u ∧
      feedBytes ((scramble s.params cw).drop p) t = feedBytes ((scramble s.params cw).drop (p + n)) u := by
  induction n generalizing p t with
  | zero => exact ⟨t, h, rfl⟩
  | succ n ih =>
    obtain ⟨u, hu, hnext⟩ := h.next hlen (by omega)
    obtain ⟨v, hv, hfeed⟩ := ih hnext (by omega)
    have hp' : p < (scramble s.params cw).length := by rw [scramble_length]; omega
    rw [List.getD_eq_getElem _ _ hp'] at hu
    refine ⟨v, by rwa [Nat.add_right_comm] at hv, ?_⟩
    rw [List.drop_eq_getElem_cons hp', feedBytes_cons hu, hfeed, Nat.add_right_comm, Nat.add_assoc]

/-- R261: the last byte of a codeword without errors. -/
theorem last (hlen : cw.length = swp c) (hp : p + 1 = swp c) (hcfg : cfgOk s.cb[c] c = true)
    (hcode : isCodeword s.cb[c] cw = true) : ∃ u : State, u.params = s.params ∧
      exec (.nghDecByte ((scramble s.params cw).getD p 0)) t = .next (u.judge c cw 0) := by
  have hwritten := h.written_takeByte (by omega)
  generalize (scramble s.params cw).getD p 0 = b at hwritten ⊢
  have hcb : (t.atFrameEnd b).cb = s.cb := (t.atFrameEnd_cb b).trans h.cb
  have hload : (t.atFrameEnd b).loadRange .rxcw 0 (swp c) = .ok cw := by
    rw [← hlen]
    refine State.loadRange_of_loadByte cw fun j hj => State.loadByte_of_written ?_
    rw [Nat.zero_add, ← List.getD_eq_getElem _ 0 hj]
    exact hwritten j (by omega)
  refine ⟨(t.atFrameEnd b).spendDraw, ?_, ?_⟩
  · rw [State.spendDraw_params, State.atFrameEnd_params, h.params]
  · rw [execNghDecByte_of_last b h.decState (by rw [h.decPos, h.decClass, hp]), h.decClass,
      frameEnd_of_load (hcb.symm ▸ hcfg) hload, hcb, rsOutcome_clean _ _ _ _ _ hcode]
    rfl

end Receiving

/-- R268: a codeword without errors, fed to a decoder locked onto its class, is judged as it is. -/
theorem exists_feedBytes_codeword (s : State) {c : SlotId} {cw : List Byte} (hlen : cw.length = swp c)
    (hcfg : cfgOk s.cb[c] c = true) (hcode : isCodeword s.cb[c] cw = true) : ∃ u : State, u.params = s.params ∧
      feedBytes (scramble s.params cw) (s.lockedBy c) = .next (u.judge c cw 0) := by
  have hpos := swp_pos c
  obtain ⟨t, ht, hfeed⟩ := (Receiving.lockedBy s c cw).feedBytes_drop hlen (n := swp c - 1) (by omega)
  rw [Nat.zero_add] at ht hfeed
  obtain ⟨u, hu, hlast⟩ := ht.last hlen (by omega) hcfg hcode
  have hp : swp c - 1 < (scramble s.params cw).length := by rw [scramble_length]; omega
  rw [List.getD_eq_getElem _ _ hp] at hlast
  refine ⟨u, hu, ?_⟩
  rw [List.drop_zero, List.drop_eq_getElem_cons hp, feedBytes_cons hlast,
    List.drop_eq_nil_of_le (by rw [scramble_length]; omega)] at hfeed
  exact hfeed

/-- R250: the length of a frame. -/
theorem frameOf_length (p : Params) {cb : ControlBlock} (level4 : BitVec 1) {c : SlotId} (hcfg : cfgOk cb c = true)
    (flags : BitVec 3) {payload : List Byte} (hfits : payload.length ≤ pl c) :
    (frameOf p cb level4 c flags payload).length = (if level4 = 0 then 8 else 16) + 3 + swp c := by
  rw [frameOf, List.length_append, List.length_append, frameHeader_length, scramble_length,
    codewordOf_length p hcfg flags hfits]
  rfl

/-- R264: the registers and RXOUT after an accepted frame. -/
theorem State.acceptFrame_accepted (s : State) {len : Byte} (flags : BitVec 3) {payload : List Byte}
    (hlen : payload.length = len.toNat) :
    let u := (s.acceptFrame payload flags 0).finishEvent .accepted
    u.result = 0x1 ∧ u.rxLen = len ∧ u.rxFlags = flags ∧ u.rxErrs = 0 ∧
      ∀ i < len.toNat, u.written? .rxout i = some (payload.getD i 0) := by
  refine ⟨rfl, ?_, rfl, rfl, fun i hi => ?_⟩
  · exact (congrArg (BitVec.ofNat 8) hlen).trans (BitVec.ofNat_toNat ..)
  · exact ((RxKept.refl s).rxout_acceptFrame (hlen.trans_le len.isLt.le) flags 0).1 i (hlen.symm ▸ hi)

/-- R250: the frame is FBUF's first RESULT bytes. -/
theorem State.loadRange_storedFrame (s : State) {frame : List Byte} (h : frame.length ≤ 512) :
    let t := (s.storeRange .fbuf 0 frame).finish .ok (BitVec.ofNat 32 frame.length)
    t.loadRange .fbuf 0 t.result.toNat = .ok frame := by
  have hresult : (BitVec.ofNat 32 frame.length).toNat = frame.length :=
    (BitVec.toNat_ofNat ..).trans (Nat.mod_eq_of_lt (by omega))
  intro t
  rw [State.loadRange_finish, State.finish_result, hresult]
  exact s.loadRange_storeRange_same (by simpa only [Buf.size, Nat.zero_add] using h)

/-- R268: the size tag locks the decoder onto the class, and the codeword after it is accepted. -/
theorem exists_feedBytes_frame {s : State} {c : SlotId} (hd : s.decState = .sizeTagByte1)
    (hfar : sizeTagsFarApart s.params) (hcfg : cfgOk s.cb[c] c = true) (hprim : primitiveSlot s.cb[c])
    (flags : BitVec 3) {payload : List Byte} (hfits : payload.length ≤ pl c) (hpad : pl c - payload.length ≤ 31) :
    ∃ u : State,
      feedBytes (tagBytes s.params.sizeTag[c] ++ scramble s.params (codewordOf s.params s.cb[c] c flags payload)) s =
        .next ((u.acceptFrame payload flags 0).finishEvent .accepted) := by
  obtain ⟨u, hu, hfeed⟩ := exists_feedBytes_codeword s (codewordOf_length s.params hcfg flags hfits) hcfg
    (isCodeword_codewordOf s.params hcfg hprim flags payload)
  have hjudge := u.judge_codewordOf s.cb[c] flags hfits hpad 0
  rw [hu] at hjudge
  exact ⟨u, by rw [feedBytes_tagBytes hd hfar, hfeed, hjudge]⟩

/-- Settles O51: the decoder accepts the frame that stands in FBUF. -/
theorem encodedFramesAreAccepted : Obligations.EncodedFramesAreAccepted := by
  intro len flags s c payload hc hcfg hprim hfar hd hload
  obtain ⟨hlen, hfits, hpad⟩ := payload_fits hc hload
  have hrun := execNghEncode_of_load flags hc hcfg hload
  have hdrop := frameOf_drop_header s.params s.cb[c] s.level4 c flags payload
  have hflen : (frameOf s.params s.cb[c] s.level4 c flags payload).length ≤ 512 := by
    have hswp := swp_le c
    rw [frameOf_length s.params s.level4 hcfg flags hfits]
    split <;> omega
  generalize frameOf s.params s.cb[c] s.level4 c flags payload = frame at hrun hdrop hflen
  have hfed := s.loadRange_storedFrame hflen
  generalize ht : (s.storeRange .fbuf 0 frame).finish .ok (BitVec.ofNat 32 frame.length) = t at hrun hfed
  have hparams : t.params = s.params := ht ▸ s.storeRange_params ..
  have hcb : t.cb = s.cb := ht ▸ s.storeRange_cb ..
  have hdec : t.decState = .sizeTagByte1 := ht ▸ (s.storeRange_decState ..).trans hd
  obtain ⟨u, hfeed⟩ := exists_feedBytes_frame (c := c) hdec (by rwa [hparams]) (by rwa [hcb]) (by rwa [hcb]) flags
    hfits hpad
  rw [hparams, hcb, ← hdrop] at hfeed
  exact ⟨t, _, frame, hrun, hfed, hfeed, u.acceptFrame_accepted flags hlen⟩

end Sys2Proof.Machine
end

section
/-! PROOFS. The statements of 44_control.md: the host's moves and the busy window before a completion, and what holds of
every command's outcome. -/

namespace Sys2Proof.Machine

/-! ## The host's moves (R280, R101) -/

/-- A step that completes no command is the host's next move (R280). -/
theorem step_of_not_engineReady {s : State} (h : s.pending = none ∨ s.engineReady = false) : step s = hostStep s := by
  unfold step
  obtain hp | hr := h
  · rw [hp]
  · rw [hr]
    cases s.pending <;> rfl

/-- The STATUS read of WAIT is served, whether the engine is busy or not (R70). -/
theorem State.serve_statusRead (s : State) : s.serve statusRead = .ok (s, .readOk s.statusWord) :=
  State.serve_read rfl rfl rfl (.inr rfl) rfl

/-- WAIT stays the next move while a command is pending (R101). -/
theorem hostStep_of_wait {s : State} {rest : List HostMove} (hh : s.host = .wait :: rest) :
    hostStep s = .next { s with
      host := if s.pending.isSome then s.host else rest
      latency := s.latency - 1
      responses := .readOk s.statusWord :: s.responses } := by
  have hserve : (s.hostMoved rest).serve statusRead = .ok (s.hostMoved rest, .readOk s.statusWord) :=
    State.serve_statusRead _
  have hwait : waitAgain (.readOk s.statusWord) = s.pending.isSome := s.statusWord_busy
  simp only [hostStep, hh, hserve, hwait]
  cases s.pending.isSome <;> rfl

/-- An access that is served is a step with its response recorded. -/
theorem hostStep_of_access {s t : State} {a : Access} {rest : List HostMove} {r : BusResponse}
    (hh : s.host = .access a :: rest) (h : (s.hostMoved rest).serve a = .ok (t, r)) :
    hostStep s = .next (t.respond r) := by
  simp only [hostStep, hh, h]

/-- Settles O7: the step is `hostStep`, whose branches are the moves. -/
theorem stepMakesHostMove : Obligations.StepMakesHostMove := by
  intro s h
  rw [step_of_not_engineReady h]
  refine ⟨fun hh => ?_, fun a rest hh => ⟨fun f hf => ?_, fun t r hr => hostStep_of_access hh hr⟩,
    fun rest hh => hostStep_of_wait hh, fun rest hh => ?_⟩
  · simp only [hostStep, hh]
  · have hserve : (s.hostMoved rest).serve a = .error f := hf
    simp only [hostStep, hh, hserve]
  · simp only [hostStep, hh]
    rfl

/-! ## The busy window (R282, R70) -/

/-- While a command is pending an access changes nothing and does not fault (R70). -/
theorem State.serve_of_pending {s : State} (hp : s.pending ≠ none) (a : Access) : ∃ r, s.serve a = .ok (s, r) := by
  obtain ⟨hstatus, hcmd, hread, hwrite⟩ := busyWindowRejectsAccesses s a hp
  cases hk : a.kind with
  | write => exact ⟨_, hwrite hk⟩
  | read =>
    by_cases hserved : a.size = 4 ∧ (a.offset = 0x0004 ∨ a.offset = 0x0000)
    · obtain ⟨hz, ho | ho⟩ := hserved
      · obtain ⟨v, hv, -⟩ := hstatus hk hz ho
        exact ⟨_, hv⟩
      · exact ⟨_, hcmd hk hz ho⟩
    · exact ⟨_, hread hk hserved⟩

/-- `u` is `s` but for the host's moves, their responses and the latency. -/
def State.HostMovedTo (s u : State) : Prop :=
  u = { s with host := u.host, latency := u.latency, responses := u.responses }

theorem State.HostMovedTo.trans {s t u : State} (h : s.HostMovedTo t) (h' : t.HostMovedTo u) : s.HostMovedTo u := by
  unfold State.HostMovedTo at *
  rw [h', h]

/-- While a command is pending, a host move that is no reset only records a response and counts against the latency. -/
theorem hostStep_of_pending {s : State} (hp : s.pending ≠ none) (hne : s.host ≠ []) (hreset : .reset ∉ s.host) :
    ∃ u, hostStep s = .next u ∧ s.HostMovedTo u ∧ u.latency = s.latency - 1 ∧ .reset ∉ u.host := by
  cases hh : s.host with
  | nil => exact absurd hh hne
  | cons m rest =>
    rw [hh, List.mem_cons, not_or] at hreset
    obtain ⟨hm, hrest⟩ := hreset
    cases m with
    | reset => exact absurd rfl hm
    | access a =>
      obtain ⟨r, hr⟩ := State.serve_of_pending (s := s.hostMoved rest) hp a
      exact ⟨_, hostStep_of_access hh hr, rfl, rfl, hrest⟩
    | wait =>
      refine ⟨_, hostStep_of_wait hh, rfl, rfl, ?_⟩
      simp [hh, hrest, Option.isSome_iff_ne_none.mpr hp]

/-- A run that begins with a step to `t` goes on from `t`. -/
theorem core_run_succ {s t : State} (h : step s = .next t) (k : Nat) : core.run (k + 1) s = core.run k t := by
  have hstep : core.step s = .next t := h
  simp only [Host.Core.run, hstep]

/-- A pending command's turn comes within `n` steps, where its latency is `n`: each host move before it takes one from
the latency. -/
theorem exists_run_engineReady {s : State} {n : Nat} (hp : s.pending ≠ none) (hreset : .reset ∉ s.host)
    (hn : s.latency = n) : ∃ k u, k ≤ n ∧ core.run k s = .next u ∧ u.engineReady = true ∧ s.HostMovedTo u := by
  induction n generalizing s with
  | zero => exact ⟨0, s, le_rfl, rfl, by simp [State.engineReady, hn], rfl⟩
  | succ n ih =>
    by_cases hr : s.engineReady = true
    · exact ⟨0, s, n.succ.zero_le, rfl, hr, rfl⟩
    · have hne : s.host ≠ [] := fun hh => hr (by simp [State.engineReady, hh])
      obtain ⟨t, ht, hmoved, hlat, htreset⟩ := hostStep_of_pending hp hne hreset
      have hstep : step s = .next t := (step_of_not_engineReady (.inr (Bool.eq_false_iff.mpr hr))).trans ht
      have htp : t.pending ≠ none := by
        rw [hmoved]
        exact hp
      obtain ⟨k, u, hk, hrun, hready, hu⟩ := ih htp htreset (by omega)
      exact ⟨k + 1, u, by omega, (core_run_succ hstep k).trans hrun, hready, hmoved.trans hu⟩

/-- Settles O8, by induction on the latency. -/
theorem pendingCommandReachesItsTurn : Obligations.PendingCommandReachesItsTurn := fun _ _ hw hreset =>
  exists_run_engineReady (by simp [hw]) hreset rfl

/-! ## STATUS and RESULT are not read (R286)

`finish` moves out past every operation of a command, and the command's own `finish` then overwrites it. -/

section

variable (s : State) (code : StatusCode) (result : Word)

@[simp] theorem State.spendDraw_finish : (s.finish code result).spendDraw = s.spendDraw.finish code result := by
  rw [State.spendDraw, State.spendDraw, State.finish_params]
  cases s.params.beyondBound <;> rfl

@[simp] theorem State.storeByte_finish (b : Buf) (i : Nat) (v : Byte) :
    (s.finish code result).storeByte b i v = (s.storeByte b i v).finish code result := by
  unfold State.storeByte
  split <;> rfl

@[simp] theorem State.storeRange_finish (b : Buf) (off : Nat) (vs : List Byte) :
    (s.finish code result).storeRange b off vs = (s.storeRange b off vs).finish code result := by
  induction vs generalizing s off with
  | nil => rfl
  | cons v vs ih => rw [State.storeRange, State.storeByte_finish, ih, State.storeRange]

@[simp] theorem State.storeWrites_finish (b : Buf) (ws : List (Nat × Byte)) :
    (s.finish code result).storeWrites b ws = (s.storeWrites b ws).finish code result := by
  induction ws generalizing s with
  | nil => rfl
  | cons w ws ih => rw [State.storeWrites, State.storeByte_finish, ih, State.storeWrites]

@[simp] theorem State.finish_finish (code' : StatusCode) (result' : Word) :
    (s.finish code result).finish code' result' = s.finish code' result' := rfl

/-- The report of a decode ends the command. -/
@[simp] theorem State.reportDecode_finish (o : RsOutcome) :
    (s.finish code result).reportDecode o = s.reportDecode o := by
  cases o with
  | clean => rfl
  | uncorrectable => rfl
  | corrected ws ps => simp [State.reportDecode]

@[simp] theorem State.acceptFrame_finish (payload : List Byte) (flags : BitVec 3) (n : Nat) :
    (s.finish code result).acceptFrame payload flags n = (s.acceptFrame payload flags n).finish code result := by
  rw [State.acceptFrame, State.storeRange_finish]
  rfl

/-- Judging a frame ends the command. -/
@[simp] theorem State.judge_finish (c : SlotId) (cw : List Byte) (n : Nat) :
    (s.finish code result).judge c cw n = s.judge c cw n := by
  unfold State.judge
  rw [State.finish_params]
  split
  · rfl
  · rfl
  · rw [State.acceptFrame_finish]
    rfl

@[simp] theorem State.frameDecoded_finish (c : SlotId) (d : List Byte) (o : RsOutcome) :
    (s.finish code result).frameDecoded c d o = s.frameDecoded c d o := by
  cases o with
  | clean => exact s.judge_finish code result c d 0
  | uncorrectable => rfl
  | corrected ws ps => simp [State.frameDecoded]

@[simp] theorem frameEnd_finish (c : SlotId) : frameEnd c (s.finish code result) = frameEnd c s := by
  simp [frameEnd, State.finishEvent]

/-- A command with a valid slot reads the slot alone before its continuation. -/
@[simp] theorem withValidSlot_finish (slot : BitVec 3) (k : ControlBlock → Result) :
    withValidSlot slot (s.finish code result) k = withValidSlot slot s k := rfl

@[simp] theorem State.raiseError_finish (code' : StatusCode) :
    (s.finish code result).raiseError code' = s.raiseError code' := rfl

@[simp] theorem State.setCrc_finish (crc : Half) :
    (s.finish code result).setCrc crc = (s.setCrc crc).finish code result := rfl

theorem State.takeByte_finish (b : Byte) :
    (s.finish code result).takeByte b = (s.takeByte b).finish code result := by
  rw [State.takeByte, State.storeByte_finish]
  rfl

theorem State.leaveFrame_finish : (s.finish code result).leaveFrame = s.leaveFrame.finish code result := rfl

theorem execNghDecByte_finish (b : Byte) : execNghDecByte b (s.finish code result) = execNghDecByte b s := by
  simp only [execNghDecByte, State.takeByte_finish, State.leaveFrame_finish, frameEnd_finish]
  rfl

/-- A command overwrites STATUS.CODE and RESULT without having read them. -/
theorem exec_finish (i : Instr) : exec i (s.finish code result) = exec i s := by
  cases i with
  | nop => rfl
  | gfInit slot => rfl
  | gfMul slot x y => rfl
  | gfDiv slot x y => rfl
  | gfLog slot x => rfl
  | gfExp slot n => rfl
  | gfModnn slot v => rfl
  | gfGenpoly slot n => rfl
  | crcLoad v => rfl
  | crcByte b => rfl
  | scrRead n => rfl
  | nghSelect n => rfl
  | nghTagLookup t => rfl
  | nghDecReset => rfl
  | rsEncode slot => simp [exec, execRsEncode]
  | rsDecode slot => simp [exec, execRsDecode]
  | crcBuf off len => simp [exec, execCrcBuf]
  | scrApply off len => simp [exec, execScrApply]
  | nghEncode len flags => simp [exec, execNghEncode]
  | nghDecByte b => exact execNghDecByte_finish s code result b

end

/-- Settles O53: the changed state is `s.finish code result`, and `finish` before a command is overwritten by it. -/
theorem commandsIgnoreStatusAndResult : Obligations.CommandsIgnoreStatusAndResult :=
  fun i s code result => exec_finish s code result i

/-! ## Every command ends (R281, R47) -/

/-- A load of a byte faults only on a byte never written, where unwritten bytes fault. -/
theorem State.loadByte_error {s : State} {b : Buf} {i : Nat} {f : Fault} (h : s.loadByte b i = .error f) :
    f = .unwrittenByte b i ∧ s.params.unwritten = .fault ∧ s.written? b i = none := by
  obtain ⟨v, -, hv⟩ | ⟨-, -, hv⟩ | ⟨hn, hp, hv⟩ := s.loadByte_cases b i
  all_goals
    rw [hv] at h
    cases h
  exact ⟨rfl, hp, hn⟩

/-- A load of a range faults only on a byte never written, where unwritten bytes fault. -/
theorem State.loadRange_error {s : State} {b : Buf} {off len : Nat} {f : Fault}
    (h : s.loadRange b off len = .error f) :
    ∃ n, f = .unwrittenByte b n ∧ s.params.unwritten = .fault ∧ s.written? b n = none := by
  induction len generalizing off with
  | zero => cases h
  | succ len ih =>
    simp only [State.loadRange] at h
    split at h
    · cases h
      exact ⟨off, State.loadByte_error ‹_›⟩
    · split at h
      · cases h
        exact ih ‹_›
      · cases h

/-- The result is a next state, or, where unwritten bytes fault, the fault of a byte not written in `s`. -/
def Completes (s : State) (r : Result) : Prop :=
  (∃ t, r = .next t) ∨
  ∃ b n, r = .fault (.unwrittenByte b n) ∧ s.params.unwritten = .fault ∧ s.written? b n = none

namespace Completes

variable {s : State}

theorem next (t : State) : Completes s (.next t) := .inl ⟨t, rfl⟩

theorem ite {p : Prop} [Decidable p] {r r' : Result} (h : Completes s r) (h' : Completes s r') :
    Completes s (if p then r else r') := by
  split
  · exact h
  · exact h'

/-- A command that goes on with a range loads it from a state in which no byte of `s` became unwritten. -/
theorem andThen_loadRange {u : State} {b : Buf} {off len : Nat} {k : List Byte → Result}
    (hparams : u.params = s.params) (hwritten : ∀ i, u.written? b i = none → s.written? b i = none)
    (hk : ∀ l, Completes s (k l)) : Completes s (andThen (u.loadRange b off len) k) := by
  cases hl : u.loadRange b off len with
  | ok l => exact hk l
  | error f =>
    obtain ⟨n, rfl, hp, hn⟩ := State.loadRange_error hl
    exact .inr ⟨b, n, rfl, hparams ▸ hp, hwritten n hn⟩

theorem load {b : Buf} {off len : Nat} {k : List Byte → Result} (hk : ∀ l, Completes s (k l)) :
    Completes s (andThen (s.loadRange b off len) k) :=
  andThen_loadRange rfl (fun _ h => h) hk

theorem withSlot {slot : BitVec 3} {k : SlotId → ControlBlock → Result} (h : ∀ c cb, Completes s (k c cb)) :
    Completes s (withSlot slot s k) := by
  unfold Machine.withSlot
  split
  · exact next _
  · exact h _ _

theorem withValidSlot {slot : BitVec 3} {k : ControlBlock → Result} (h : ∀ cb, Completes s (k cb)) :
    Completes s (withValidSlot slot s k) :=
  withSlot fun _ cb => ite (h cb) (next _)

end Completes

/-- Storing the last byte of a codeword leaves no byte unwritten that was written. -/
theorem State.written?_eq_none_of_atFrameEnd {s : State} {b : Byte} {i : Nat}
    (h : (s.atFrameEnd b).written? .rxcw i = none) : s.written? .rxcw i = none := by
  rw [← Option.not_isSome_iff_eq_none] at h ⊢
  exact fun hi => h (State.isSome_written?_storeByte _ _ _ _ _ _ hi)

theorem execNghDecByte_completes (b : Byte) (s : State) : Completes s (execNghDecByte b s) := by
  unfold execNghDecByte
  split
  · exact .next _
  · exact .next _
  · simp only
    split <;> exact .next _
  · refine .ite (.next _) (.ite (.andThen_loadRange (s.atFrameEnd_params b) (fun i => ?_) fun _ => .next _) (.next _))
    exact State.written?_eq_none_of_atFrameEnd

/-- Every command completes, or stops on a byte never written. -/
theorem exec_completes (i : Instr) (s : State) : Completes s (exec i s) := by
  cases i with
  | nop => exact .next _
  | gfInit slot =>
    rw [exec, execGfInit]
    refine .withSlot fun c _ => ?_
    split <;> exact .next _
  | gfMul slot x y =>
    rw [exec, execGfMul]
    exact .withValidSlot fun _ => .ite (.next _) (.next _)
  | gfDiv slot x y =>
    rw [exec, execGfDiv]
    exact .withValidSlot fun _ => .ite (.ite (.next _) (.next _)) (.next _)
  | gfLog slot x =>
    rw [exec, execGfLog]
    exact .withValidSlot fun _ => .ite (.next _) (.next _)
  | gfExp slot n =>
    rw [exec, execGfExp]
    exact .withValidSlot fun _ => .ite (.next _) (.next _)
  | gfModnn slot v =>
    rw [exec, execGfModnn]
    exact .withValidSlot fun _ => .next _
  | gfGenpoly slot n =>
    rw [exec, execGfGenpoly]
    exact .withValidSlot fun _ => .ite (.next _) (.next _)
  | rsEncode slot =>
    rw [exec, execRsEncode]
    exact .withValidSlot fun _ => .load fun _ => .ite (.next _) (.next _)
  | rsDecode slot =>
    rw [exec, execRsDecode]
    exact .withValidSlot fun _ => .ite (.next _) <| .load fun _ => .ite (.next _) <| .load fun _ =>
      .ite (.next _) (.next _)
  | crcLoad v => exact .next _
  | crcByte b => exact .next _
  | crcBuf off len => exact .ite (.load fun _ => .next _) (.next _)
  | scrApply off len => exact .ite (.load fun _ => .next _) (.next _)
  | scrRead n => exact .ite (.next _) (.next _)
  | nghSelect n =>
    rw [exec, execNghSelect]
    split <;> exact .next _
  | nghTagLookup t => exact .next _
  | nghEncode len flags =>
    rw [exec, execNghEncode]
    split
    · exact .next _
    · exact .ite (.load fun _ => .next _) (.next _)
  | nghDecReset => exact .next _
  | nghDecByte b => exact execNghDecByte_completes b s

/-- Settles O54: a command's result is a next state or the fault of an unwritten byte. -/
theorem everyCommandCompletes : Obligations.EveryCommandCompletes := by
  intro i s
  obtain ⟨t, ht⟩ | ⟨b, n, hr, hp, hn⟩ := exec_completes i s
  · rw [ht]
    exact ⟨fun _ => ⟨t, rfl⟩, nofun, nofun⟩
  · rw [hr]
    refine ⟨fun hd => ?_, fun f hf => ⟨b, n, ?_, hn⟩, nofun⟩
    · rw [hp] at hd
      cases hd
    · cases hf
      rfl

/-! ## NOP (R285) -/

/-- Settles O52: NOP only ends, with OK and 0. -/
theorem nopEffect : Obligations.NopEffect := fun _ => rfl

end Sys2Proof.Machine
end

section
/-! PROOFS. The statement of 60_exceptions.md: what a failing command changes (R304). -/

namespace Sys2Proof.Machine

/-! ## The state after a failure -/

/-- R304: the state that the command `i`, run from `s`, leaves when it fails. -/
inductive FailsTo (i : Instr) (s : State) : State → Prop
  /-- It raised an error and wrote nothing else (R14). -/
  | raised {e : StatusCode} (he : e ≠ .uncorrectable) : FailsTo i s (s.raiseError e)
  /-- It reported an uncorrectable word (R175), having spent a draw or none. -/
  | uncorrectable (draw : Nat) : FailsTo i s ({ s with fresh := draw }.finish .uncorrectable 0xFFFFFFFF)
  /-- It is a GF_INIT, which zeroed its slot and raised an error (R124). -/
  | zeroed {c : SlotId} {e : StatusCode} (hi : i = .gfInit (slotBits c)) (he : e ≠ .uncorrectable) :
      FailsTo i s ((s.setSlot c zeroBlock).raiseError e)

/-- Where the result is a next state with an error code, it is what R304 allows. -/
def FailsPrecisely (i : Instr) (s : State) (r : Result) : Prop := ∀ t, r = .next t → t.code ≠ .ok → FailsTo i s t

namespace FailsPrecisely

variable {i : Instr} {s : State}

theorem next {t : State} (h : t.code ≠ .ok → FailsTo i s t) : FailsPrecisely i s (.next t) := by
  rintro _ ⟨⟩
  exact h

/-- A command that succeeds. -/
theorem ok {t : State} (h : t.code = .ok) : FailsPrecisely i s (.next t) := next (absurd h)

theorem raise {e : StatusCode} (he : e ≠ .uncorrectable := by decide) : FailsPrecisely i s (.next (s.raiseError e)) :=
  next fun _ => .raised he

theorem ite {p : Prop} [Decidable p] {r r' : Result} (h : FailsPrecisely i s r) (h' : FailsPrecisely i s r') :
    FailsPrecisely i s (if p then r else r') := by
  split
  · exact h
  · exact h'

theorem andThen {α : Type} {x : Except Fault α} {k : α → Result} (h : ∀ a, FailsPrecisely i s (k a)) :
    FailsPrecisely i s (andThen x k) := by
  intro t ht
  obtain ⟨a, -, ha⟩ := andThen_next ht
  exact h a t ha

theorem withValidSlot {slot : BitVec 3} {k : ControlBlock → Result} (h : ∀ cb, FailsPrecisely i s (k cb)) :
    FailsPrecisely i s (withValidSlot slot s k) := by
  obtain rfl | ⟨c, rfl⟩ := slot_cases slot
  · rw [withValidSlot_seven]
    exact raise
  · rw [withValidSlot_slotBits]
    exact ite (h _) raise

end FailsPrecisely

/-! ## The commands -/

theorem checkParams_some {mm fcr prim nroots pad : Nat} {e : StatusCode}
    (h : checkParams mm fcr prim nroots pad = some e) : e = .param ∨ e = .padding := by
  rw [checkParams_eq] at h
  split_ifs at h
  · cases h
    exact .inl rfl
  · cases h
    exact .inr rfl

/-- R125, R127: the errors of GF_INIT. -/
theorem initBlock_error {mm gfpoly fcr prim nroots pad : Nat} {e : StatusCode}
    (h : initBlock mm gfpoly fcr prim nroots pad = .error e) : e = .param ∨ e = .padding ∨ e = .field := by
  cases hc : checkParams mm fcr prim nroots pad with
  | some e' =>
    rw [initBlock_of_check hc, Except.error.injEq] at h
    exact h ▸ (checkParams_some hc).imp_right .inl
  | none =>
    by_cases hsr : finalSr mm gfpoly = 1
    · obtain ⟨cb, hcb⟩ := exists_initBlock (pad := pad) hc hsr
      rw [hcb] at h
      cases h
    · rw [initBlock_of_finalSr_ne hc hsr, Except.error.injEq] at h
      exact .inr (.inr h.symm)

/-- R124: a failing GF_INIT zeroes its slot, where it names one. -/
theorem execGfInit_failsPrecisely (slot : BitVec 3) (s : State) :
    FailsPrecisely (.gfInit slot) s (execGfInit slot s) := by
  obtain rfl | ⟨c, rfl⟩ := slot_cases slot
  · rw [execGfInit, withSlot, slotOf?_seven]
    exact .raise
  · rw [execGfInit, withSlot_slotBits]
    cases hp : s.initParams with
    | ok cb => exact .ok rfl
    | error e => exact .next fun _ => .zeroed rfl (by rcases initBlock_error hp with rfl | rfl | rfl <;> decide)

/-- R175: the report of a decode fails on an uncorrectable word, before any write of a buffer. -/
theorem reportDecode_failsPrecisely (i : Instr) (s : State) (o : RsOutcome) :
    FailsPrecisely i s (.next (s.spendDraw.reportDecode o)) := by
  obtain ⟨draw, hdraw⟩ := s.exists_spendDraw_eq
  rw [hdraw]
  cases o with
  | clean => exact .ok rfl
  | uncorrectable => exact .next fun _ => .uncorrectable draw
  | corrected ws ps => exact .ok rfl

/-- R166: the checks of RS_DECODE raise before the decode is reported. -/
theorem execRsDecode_failsPrecisely (i : Instr) (slot : BitVec 3) (s : State) :
    FailsPrecisely i s (execRsDecode slot s) :=
  .withValidSlot fun _ => .ite .raise <| .andThen fun _ => .ite .raise <| .andThen fun _ =>
    .ite .raise (reportDecode_failsPrecisely i s _)

/-- R262: NGH_DEC_BYTE always ends with OK, its event in RESULT. -/
theorem execNghDecByte_code {b : Byte} {s t : State} (h : execNghDecByte b s = .next t) : t.code = .ok := by
  unfold execNghDecByte at h
  split at h
  · cases h
    rfl
  · cases h
    rfl
  · simp only at h
    split at h
    · cases h
      rfl
    · cases h
      rfl
  · split at h
    · cases h
      rfl
    · unfold frameEnd at h
      split at h
      · obtain ⟨d, -, h⟩ := andThen_next h
        cases h
        rw [State.frameDecoded_eq]
      · cases h
        rfl

/-- R304: every command that fails does no more than raise its error, report an uncorrectable word or zero the slot of a
GF_INIT. -/
theorem exec_failsPrecisely (i : Instr) (s : State) : FailsPrecisely i s (exec i s) := by
  cases i with
  | nop => exact .ok rfl
  | gfInit slot => exact execGfInit_failsPrecisely slot s
  | gfMul slot x y =>
    rw [exec, execGfMul]
    exact .withValidSlot fun _ => .ite (.ok rfl) .raise
  | gfDiv slot x y =>
    rw [exec, execGfDiv]
    exact .withValidSlot fun _ => .ite (.ite .raise (.ok rfl)) .raise
  | gfLog slot x =>
    rw [exec, execGfLog]
    exact .withValidSlot fun _ => .ite (.ok rfl) .raise
  | gfExp slot n =>
    rw [exec, execGfExp]
    exact .withValidSlot fun _ => .ite (.ok rfl) .raise
  | gfModnn slot v =>
    rw [exec, execGfModnn]
    exact .withValidSlot fun _ => .ok rfl
  | gfGenpoly slot n =>
    rw [exec, execGfGenpoly]
    exact .withValidSlot fun _ => .ite (.ok rfl) .raise
  | rsEncode slot =>
    rw [exec, execRsEncode]
    exact .withValidSlot fun _ => .andThen fun _ => .ite .raise (.ok rfl)
  | rsDecode slot => exact execRsDecode_failsPrecisely _ slot s
  | crcLoad v => exact .ok rfl
  | crcByte b => exact .ok rfl
  | crcBuf off len => exact .ite (.andThen fun _ => .ok rfl) .raise
  | scrApply off len => exact .ite (.andThen fun _ => .ok rfl) .raise
  | scrRead n => exact .ite (.ok rfl) .raise
  | nghSelect n =>
    rw [exec, execNghSelect]
    split
    · exact .raise
    · exact .ok rfl
  | nghTagLookup t => exact .ok rfl
  | nghEncode len flags =>
    rw [exec, execNghEncode]
    split
    · exact .raise
    · exact .ite (.andThen fun _ => .ok rfl) .raise
  | nghDecReset => exact .ok rfl
  | nghDecByte b => exact fun t h hfail => absurd (execNghDecByte_code h) hfail

/-- Settles O55: each of the three ways to fail writes only what the statement names. -/
theorem failuresArePrecise : Obligations.FailuresArePrecise := by
  intro i s t h hfail
  cases exec_failsPrecisely i s t h hfail with
  | raised he => exact ⟨rfl, (if_neg he).symm, .inl rfl⟩
  | uncorrectable draw => exact ⟨rfl, rfl, .inl rfl⟩
  | zeroed hi he => exact ⟨rfl, (if_neg he).symm, .inr ⟨_, hi, rfl⟩⟩

end Sys2Proof.Machine
end

section
/-! PROOFS. The statements of 70_reset_and_hazards.md: the registers and the slots right after reset, and the invariants
there. -/

namespace Sys2Proof.Machine

/-! ## The reset slots (R331) -/

/-- R331: the slot of class c is what GF_INIT computes with the class's parameters. -/
theorem initBlock_resetBlock (c : SlotId) : initBlock 8 0x187 112 11 (par c) (pads c) = .ok (resetBlock c) := by
  have hcheck : ∀ c : SlotId, checkParams 8 112 11 (par c) (pads c) = none := by decide
  have hsr : finalSr 8 0x187 = 1 := by decide +kernel
  obtain ⟨cb, hcb⟩ := exists_initBlock (hcheck c) hsr
  exact initBlock_choose (by rw [hcb]; rfl)

/-- R43, R331: the fields in which the reset slots agree. -/
theorem resetBlock_fields (c : SlotId) :
    (resetBlock c).valid = true ∧ (resetBlock c).mm = 8 ∧ (resetBlock c).nn = 255 ∧ (resetBlock c).gfpoly = 0x187 ∧
      (resetBlock c).fcr = 112 ∧ (resetBlock c).prim = 11 ∧ (resetBlock c).iprim = 116 := by
  obtain ⟨hmm, hnn, hgf, hfcr, hprim, -, -, hvalid⟩ := initBlock_fields (initBlock_resetBlock c) (by decide)
  have hiprim := builtSlot_iprim (resetBlock_built c)
  rw [hprim, hnn] at hiprim
  exact ⟨hvalid, BitVec.eq_of_toNat_eq hmm, BitVec.eq_of_toNat_eq hnn, BitVec.eq_of_toNat_eq hgf,
    BitVec.eq_of_toNat_eq hfcr, BitVec.eq_of_toNat_eq hprim, BitVec.eq_of_toNat_eq hiprim⟩

/-- R331: NROOTS and PAD are the class's own. -/
theorem resetBlock_class (c : SlotId) : (resetBlock c).nroots.toNat = par c ∧ (resetBlock c).pad.toNat = pads c := by
  obtain ⟨-, -, -, -, -, hroots, hpad, -⟩ := initBlock_fields (initBlock_resetBlock c) (by decide)
  exact ⟨hroots, hpad⟩

/-- R29: CB_VALID where every slot is valid. -/
theorem State.validBits_of_valid {s : State} (h : ∀ c : SlotId, s.cb[c].valid = true) : s.validBits = 0x7F := by
  have hvalid (i : Nat) (hi : i < 7) : s.cb[i].valid = true := h ⟨i, hi⟩
  simp only [State.validBits, hvalid]
  rfl

/-- Settles O20: reset writes every register as R332 and R333 give it, and the slots' fields are those GF_INIT leaves. -/
theorem registersAfterReset : Obligations.RegistersAfterReset := by
  intro p n t
  have hvalid : t.readReg .cbValid = 0x7F := by
    have hbits : t.validBits = 0x7F := State.validBits_of_valid fun c => by
      rw [State.afterReset_cb]
      exact (resetBlock_fields c).1
    rw [State.readReg, hbits]
    rfl
  refine ⟨rfl, rfl, rfl, rfl, rfl, rfl, hvalid, rfl, rfl, rfl, rfl, rfl, rfl, rfl, rfl, rfl, rfl, rfl, rfl, rfl, rfl,
    fun c => ?_⟩
  obtain ⟨-, hmm, hnn, hgf, hfcr, hprim, hiprim⟩ := resetBlock_fields c
  rw [State.afterReset_cb]
  exact ⟨hmm, hnn, hgf, hfcr, hprim, hiprim, resetBlock_class c⟩

/-! ## The printed tables (V-GF-2 to V-GF-4) -/

/-- V-GF-2: the antilogarithms. -/
theorem alphaTable_ngham : (alphaTable 8 0x187).toList.map BitVec.toNat = vectorAlpha := by decide +kernel

/-- V-GF-2: the logarithms. -/
theorem indexTable_ngham : (indexTable 8 0x187).toList.map LogSym.toNat = vectorIndex := by decide +kernel

/-- The part of the reset slots that the generator loop reads (R129). -/
def nghamTables : ControlBlock :=
  { zeroBlock with nn := 255, alpha := alphaTable 8 0x187, index := indexTable 8 0x187 }

/-- V-GF-3: the generator of classes 0 to 2. -/
theorem buildGenpoly_sixteen : (buildGenpoly nghamTables 112 11 16).toList.map LogSym.toNat =
    vectorGen16 ++ List.replicate 48 0 := by decide +kernel

/-- V-GF-4: the generator of classes 3 to 6. -/
theorem buildGenpoly_thirtyTwo : (buildGenpoly nghamTables 112 11 32).toList.map LogSym.toNat =
    vectorGen32 ++ List.replicate 32 0 := by decide +kernel

/-- R8: the number of roots by class. -/
theorem par_eq_ite (c : SlotId) : par c = if c.val < 3 then 16 else 32 := by
  revert c
  decide

/-- R129, R331: the reset slots' generator, by the class's number of roots. -/
theorem resetBlock_genpoly (c : SlotId) : (resetBlock c).genpoly = buildGenpoly nghamTables 112 11 (par c) := by
  obtain ⟨halpha, hindex, hgen⟩ := initBlock_tables (initBlock_resetBlock c)
  obtain ⟨-, -, hnn, -⟩ := resetBlock_fields c
  rw [hgen, buildGenpoly_congr (cb' := nghamTables) hnn halpha hindex]

/-- Settles O21: the tables and the two generators are evaluated once, and every reset slot is built from them. -/
theorem slotsAfterReset : Obligations.SlotsAfterReset := by
  intro p n c
  dsimp only
  rw [State.afterReset_cb]
  obtain ⟨hvalid, -, hnn, -, -, -, hiprim⟩ := resetBlock_fields c
  obtain ⟨halpha, hindex, -⟩ := initBlock_tables (initBlock_resetBlock c)
  refine ⟨initBlock_resetBlock c, hvalid, hnn, hiprim, halpha ▸ alphaTable_ngham, hindex ▸ indexTable_ngham, ?_⟩
  rw [resetBlock_genpoly, par_eq_ite]
  split
  · exact buildGenpoly_sixteen
  · exact buildGenpoly_thirtyTwo

/-! ## The invariants -/

/-- R126: 0x187 is primitive, as its register passes 255 distinct values before it is 1 again. -/
theorem primitiveGfpoly_ngham : primitiveGfpoly 8 0x187 := by decide +kernel

/-- R331: the reset slots carry the laws of a primitive polynomial. -/
theorem resetBlock_primitive (c : SlotId) : primitiveSlot (resetBlock c) := by
  obtain ⟨-, hmm, -, hgf, -⟩ := resetBlock_fields c
  refine ⟨resetBlock_built c, ?_⟩
  rw [hmm, hgf]
  exact primitiveGfpoly_ngham

/-- R232, R331: each reset slot passes its class's check. -/
theorem cfgOk_resetBlock (c : SlotId) : cfgOk (resetBlock c) c = true := by
  obtain ⟨hvalid, hmm, -⟩ := resetBlock_fields c
  exact cfgOk_iff.mpr ⟨hvalid, hmm, resetBlock_class c⟩

/-- Settles O60: the slots' invariants follow from their being built, memory is empty, and no codeword accumulates. -/
theorem invariantsHoldAfterReset : Obligations.InvariantsHoldAfterReset := by
  intro p n t
  have hcb (c : SlotId) : t.cb[c] = resetBlock c := State.afterReset_cb p n c
  have hbuilt (c : SlotId) : builtSlot t.cb[c] := hcb c ▸ resetBlock_built c
  have hmem : t.mem.wf := ⟨.nil, by simp [t, State.afterReset]⟩
  have hdec : decoderOk t := fun h => by cases h
  exact ⟨hmem, fun c => (builtSlot_ok (hbuilt c)).1, fun c => (builtSlot_ok (hbuilt c)).2, fun c _ => hbuilt c, hdec,
    fun c => hcb c ▸ ⟨resetBlock_primitive c, cfgOk_resetBlock c⟩, rfl⟩

end Sys2Proof.Machine
end
